-- ==== Sys2Proof/Word.lean ====
section
/-! DEFINITION. The widths of the engine's data (00_scope.md R8, R9): a byte, a 32-bit word, a 64-bit
host register, and a Salsa block as four rows of four lanes (10_state.md R20). -/

namespace Sys2Proof

/-- One byte of memory. -/
abbrev Byte := BitVec 8

/-- One 32-bit word, the width of a lane (R20). -/
abbrev Word := BitVec 32

/-- One register of the host window (R40). -/
abbrev Reg64 := BitVec 64

/-- A 128-bit row of four 32-bit lanes; lane 0 is the lowest address (R20). -/
structure Row where
  l0 : Word
  l1 : Word
  l2 : Word
  l3 : Word
  deriving DecidableEq, Repr

/-- A 64-byte Salsa block as four rows (R20); also the four row registers `R[0..3]` or `S[0..3]` of the
round engine (R31). -/
structure Block where
  r0 : Row
  r1 : Row
  r2 : Row
  r3 : Row
  deriving DecidableEq, Repr

end Sys2Proof
end

