-- ==== Sys2Proof/Config.lean ====
section
/-! DEFINITION. What this hardware fixes (00_scope.md R8), and the free values: constants without a body
that stand for what the spec leaves open (93_implementation_defined.md, treatment "any value"). -/

namespace Sys2Proof.Config

/-- Salsa20 rounds: "ROUNDS is fixed at 8" (40_salsa_core.md R136). -/
def rounds : Nat := 8

/-- Bytes of a Salsa block (R8). -/
def blockBytes : Nat := 64

/-- One past the highest address of the memory port: addresses are 0 .. 2^64 − 1 (R8, R70). -/
def addressLimit : Nat := 2 ^ 64

/-- Bytes of the host register window (R40). -/
def windowBytes : Nat := 256

/-- ID: MAGIC "SALS", ROUNDS 8, VERSION 1 (10_state.md R41). -/
def idValue : Reg64 := 0x53414C5300080001#64

/-- What a byte of memory reads as when nothing has written it. DESIGN CHOICE (log 1), unsafe: the spec gives
memory no contents. -/
def unlistedByte : Byte := 0#8

/-- FREE VALUE (log 6): the `n`-th drawn word, for the bytes of a write that failed (R169, R286 item 3). -/
opaque freeWord : Nat → Word

/-- FREE VALUE (log 6): the `n`-th drawn byte, for the write set of a command that reset interrupts (R321). -/
opaque freeByte : Nat → Byte

/-- FREE VALUE (log 6): the `n`-th drawn yes or no, for a write that follows the first failing request (R286 item 4) and
for the arrival of a streaming store's error (R286, U21). -/
opaque freeBool : Nat → Bool

/-- FREE VALUE (log 6): the `n`-th drawn number, for PHASE and PROGRESS read while busy (R49, R51). -/
opaque freeNat : Nat → Nat

end Sys2Proof.Config
end

