-- ==== Sys2Proof/Syntax.lean ====
section
/-! DEFINITION. The engine's language: the ten commands of spec/opcode_table.json (30_encoding.md R102), the
micro-operations they are made of (41_blockops.md, 40_salsa_core.md, 43_blockmix.md, 44_controller.md), the
host's register accesses (R110) and host programs (R111, R112). -/

namespace Sys2Proof

/-- The commands, one constructor per row of spec/opcode_table.json. A command has no operand field: its operands
are the parameter registers, latched at acceptance (R100). -/
inductive Instr where
  | smix
  | prepare
  | restore
  | blockmixNone
  | blockmixCopy
  | blockmixXor
  | integerify
  | salsa8
  | salsa8Nat
  | zeroize
  deriving DecidableEq, Repr

namespace Machine

/-- The BlockMix modes, "mode ∈ {None, Copy, Xor}" (R101, R210). -/
inductive BmMode where
  | none
  | copy
  | xor
  deriving DecidableEq, Repr

/-- The five 64-byte block registers (10_state.md R32). -/
inductive BlkReg where
  | last
  | prev
  | cur
  | tmp
  | held
  deriving DecidableEq, Repr

/-- The base a micro-operation's address is relative to (R33, R253). `tableAtJI` is TABLE_BASE + JI·EB. -/
inductive Base where
  | elem
  | cw
  | cs
  | work
  | shuf
  | table
  | tableAtJI
  | other
  deriving DecidableEq, Repr

/-- The permutation folded into a load or a store (R190, R191, R252). -/
inductive Layout where
  | keep
  | diag
  | undiag
  deriving DecidableEq, Repr

/-- Where INTEG leaves its result: the host's J (R228) or the internal JI (R35, R253). -/
inductive IndexReg where
  | j
  | ji
  deriving DecidableEq, Repr

/-- The micro-operations of the command sequences, in the source's names. -/
inductive MicroOp where
  /-- `dst ← layout (LDA (base + off))` (R160). -/
  | lda (layout : Layout) (dst : BlkReg) (base : Base) (off : Nat)
  /-- `dst ← LDU (base + off)` (R161). -/
  | ldu (dst : BlkReg) (base : Base) (off : Nat)
  /-- `dst ← LDW (CW + 16) mod N`: the LDW of R162 inside INTEG (R227). -/
  | integ (dst : IndexReg)
  /-- `STA (base + off, layout src)` (R163). -/
  | sta (layout : Layout) (src : BlkReg) (base : Base) (off : Nat)
  /-- `STA (base + off, zero block)` of ZERO_SEQ (R258). -/
  | staZero (base : Base) (off : Nat)
  /-- `STU (base + off, layout src)` (R164). -/
  | stu (layout : Layout) (src : BlkReg) (base : Base) (off : Nat)
  /-- `STN (base + off, src)` (R165). -/
  | stn (src : BlkReg) (base : Base) (off : Nat)
  /-- `dst ← XORB (a, b)` (R166). -/
  | xorb (dst a b : BlkReg)
  /-- `dst ← src`, a move between block registers (R211, R212). -/
  | move (dst src : BlkReg)
  /-- `reg ← SALSA_CORE reg`, one round a step (R135, R50). -/
  | salsa (reg : BlkReg)
  /-- `PFN (base + off)`, a prefetch hint (R167). -/
  | pfn (base : Base) (off : Nat)
  /-- `FLUSH (base + off)`, a flush hint (R168). -/
  | flush (base : Base) (off : Nat)
  /-- The end-of-BM effects: SWAP inverted, PROGRESS + 1 (R220). -/
  | bmEnd
  /-- The FENCE phase's wait: every write issued so far is performed (R87, R255). -/
  | fence
  /-- `ok ← 1` of ZERO_SEQ (R258). -/
  | zeroBegin
  /-- `R, S, LAST, PREV, CUR, TMP, HELD, JI ← 0` of ZERO_SEQ (R258). -/
  | zeroEnd
  deriving DecidableEq, Repr

end Machine

/-- The registers of the host window, by name (10_state.md R40). -/
inductive Reg where
  | id
  | ctrl
  | status
  | cmd
  | errInfo
  | errAddr
  | dataBase
  | byteLen
  | elemCount
  | elemIndex
  | costN
  | workBase
  | shufBase
  | tableBase
  | otherBase
  | j
  | progress
  deriving DecidableEq, Repr

/-- What an access to the window does. -/
inductive AccessOp where
  | read
  | write (v : Reg64)
  deriving DecidableEq, Repr

/-- One host access to the 256-byte window: an offset, a size in bytes, and a read or a write (R110). -/
structure Access where
  offset : BitVec 8
  size : Nat
  op : AccessOp
  deriving DecidableEq, Repr

/-- One line of a host program, with the pseudo-instructions of R112. -/
inductive HostOp where
  | wr (reg : Reg) (v : Reg64)
  | rd (reg : Reg)
  | cmd (i : Instr)
  | wait
  | ack
  | run (i : Instr)
  deriving DecidableEq, Repr

end Sys2Proof
end

