-- ==== Sys2Proof/WellFormed.lean ====
section
/-! DEFINITION. Which terms of the syntax the hardware can be given: a window access is 64 bits wide at an offset
that is a multiple of 8 (30_encoding.md R110). A command has no operand field (R100), so every `Instr` is well
formed; the constructors are listed so that a new one cannot slip past. -/

namespace Sys2Proof

/-- Every command word is legal as it stands: no field varies (R100, R102). -/
def Instr.wellFormed : Instr → Bool
  | .smix => true
  | .prepare => true
  | .restore => true
  | .blockmixNone => true
  | .blockmixCopy => true
  | .blockmixXor => true
  | .integerify => true
  | .salsa8 => true
  | .salsa8Nat => true
  | .zeroize => true

/-- "64-bit accesses at offsets that are multiples of 8" (R110). -/
def Access.wellFormed (a : Access) : Bool :=
  a.size == 8 && a.offset.toNat % 8 == 0

end Sys2Proof
end

