-- ==== Sys2Proof/Decode.lean ====
section
/-! DEFINITION. Command words to commands and back (30_encoding.md R100 to R107), and the offsets of the host
window (10_state.md R40). The decoder is total and rejects by name. -/

namespace Sys2Proof

/-- Why a word is ILLEGAL (R103, R104). The spec has the one outcome ILLEGAL; the reason only names the field (log 22). -/
inductive Illegal where
  /-- A bit of RSV is set. -/
  | reservedBits
  /-- The operation code is not one of the table. -/
  | opcode
  /-- MODE is not one the operation code allows. -/
  | mode
  /-- NAT is set with another operation code than 0x06. -/
  | natFlag
  /-- Not the eight bytes of one word (R107). -/
  | length
  deriving DecidableEq, Repr

/-- OPC = v[7:0] (R101). -/
def fieldOpc (v : Reg64) : BitVec 8 := v.extractLsb' 0 8

/-- MODE = v[9:8] (R101). -/
def fieldMode (v : Reg64) : BitVec 2 := v.extractLsb' 8 2

/-- NAT = v[10] (R101). -/
def fieldNat (v : Reg64) : BitVec 1 := v.extractLsb' 10 1

/-- RSV = v[63:11] (R101). -/
def fieldRsv (v : Reg64) : BitVec 53 := v.extractLsb' 11 53

/-- An operation code that takes neither a mode nor the NAT flag (R103). -/
def decodePlain (v : Reg64) (i : Instr) : Except Illegal Instr :=
  if fieldMode v ≠ 0#2 then .error .mode
  else if fieldNat v ≠ 0#1 then .error .natFlag
  else .ok i

/-- OPC = 0x04: the BlockMix mode selects the command (R103). -/
def decodeBlockmix (v : Reg64) : Except Illegal Instr :=
  if fieldNat v ≠ 0#1 then .error .natFlag
  else if fieldMode v = 0#2 then .ok .blockmixNone
  else if fieldMode v = 1#2 then .ok .blockmixCopy
  else if fieldMode v = 2#2 then .ok .blockmixXor
  else .error .mode

/-- OPC = 0x06: NAT selects the command (R103). -/
def decodeSalsa (v : Reg64) : Except Illegal Instr :=
  if fieldMode v ≠ 0#2 then .error .mode
  else if fieldNat v = 0#1 then .ok .salsa8
  else .ok .salsa8Nat

/-- `decode` of R103, total on all 2^64 words. -/
def decode (v : Reg64) : Except Illegal Instr :=
  if fieldRsv v ≠ 0#53 then .error .reservedBits
  else if fieldOpc v = 0x01#8 then decodePlain v .smix
  else if fieldOpc v = 0x02#8 then decodePlain v .prepare
  else if fieldOpc v = 0x03#8 then decodePlain v .restore
  else if fieldOpc v = 0x04#8 then decodeBlockmix v
  else if fieldOpc v = 0x05#8 then decodePlain v .integerify
  else if fieldOpc v = 0x06#8 then decodeSalsa v
  else if fieldOpc v = 0x07#8 then decodePlain v .zeroize
  else .error .opcode

/-- The value of a list of bytes, the first the least significant: registers are little-endian (20_memory.md R73). -/
def littleEndian : List Byte → Nat
  | [] => 0
  | b :: bs => b.toNat + 256 * littleEndian bs

/-- A word from the bytes of one register write: exactly eight (R107, R110). -/
def wordOfBytes (bs : List Byte) : Except Illegal Reg64 :=
  if bs.length = 8 then .ok (BitVec.ofNat 64 (littleEndian bs)) else .error .length

/-- Decoding of any list of bytes. -/
def decodeBytes (bs : List Byte) : Except Illegal Instr :=
  match wordOfBytes bs with
  | .ok v => decode v
  | .error e => .error e

/-- The operation code of a command (R102). -/
def opcOf : Instr → BitVec 8
  | .smix => 0x01#8
  | .prepare => 0x02#8
  | .restore => 0x03#8
  | .blockmixNone => 0x04#8
  | .blockmixCopy => 0x04#8
  | .blockmixXor => 0x04#8
  | .integerify => 0x05#8
  | .salsa8 => 0x06#8
  | .salsa8Nat => 0x06#8
  | .zeroize => 0x07#8

/-- The MODE field of a command: 0 = None, 1 = Copy, 2 = Xor (R101, R102). -/
def modeOf : Instr → BitVec 2
  | .smix => 0#2
  | .prepare => 0#2
  | .restore => 0#2
  | .blockmixNone => 0#2
  | .blockmixCopy => 1#2
  | .blockmixXor => 2#2
  | .integerify => 0#2
  | .salsa8 => 0#2
  | .salsa8Nat => 0#2
  | .zeroize => 0#2

/-- The NAT flag of a command (R101, R102). -/
def natOf : Instr → BitVec 1
  | .smix => 0#1
  | .prepare => 0#1
  | .restore => 0#1
  | .blockmixNone => 0#1
  | .blockmixCopy => 0#1
  | .blockmixXor => 0#1
  | .integerify => 0#1
  | .salsa8 => 0#1
  | .salsa8Nat => 1#1
  | .zeroize => 0#1

/-- The word of a command: {RSV = 0, NAT, MODE, OPC} (R100). -/
def encode (i : Instr) : Reg64 :=
  0#53 ++ natOf i ++ modeOf i ++ opcOf i

/-- The eight bytes of a word, least significant first (R73). -/
def bytesOfNat : Nat → Nat → List Byte
  | 0, _ => []
  | k + 1, w => BitVec.ofNat 8 w :: bytesOfNat k (w / 256)

/-- The bytes of an encoded command as a register write carries them (R73, R107). -/
def encodeBytes (i : Instr) : List Byte := bytesOfNat 8 (encode i).toNat

/-- The instruction the decoder reads from the word `w` of an opcode-table row of `nbits` bits. Every command is one
64-bit word (R107); bits above `nbits` are 0. -/
def decodeTableWord (nbits w : Nat) : Option Instr :=
  (decodeBytes (bytesOfNat 8 (w % 2 ^ nbits))).toOption

/-- The offset of a register in the window (10_state.md R40). -/
def Reg.offset : Reg → BitVec 8
  | .id => 0x00#8
  | .ctrl => 0x08#8
  | .status => 0x10#8
  | .cmd => 0x18#8
  | .errInfo => 0x20#8
  | .errAddr => 0x28#8
  | .dataBase => 0x30#8
  | .byteLen => 0x38#8
  | .elemCount => 0x40#8
  | .elemIndex => 0x48#8
  | .costN => 0x50#8
  | .workBase => 0x58#8
  | .shufBase => 0x60#8
  | .tableBase => 0x68#8
  | .otherBase => 0x70#8
  | .j => 0x78#8
  | .progress => 0x80#8

/-- All registers of the map of R40. -/
def Reg.all : List Reg :=
  [.id, .ctrl, .status, .cmd, .errInfo, .errAddr, .dataBase, .byteLen, .elemCount, .elemIndex, .costN,
    .workBase, .shufBase, .tableBase, .otherBase, .j, .progress]

/-- The register at an offset; `none` at the reserved offsets 0x88 .. 0xF8 (R52) and between registers. -/
def Reg.atOffset (o : BitVec 8) : Option Reg :=
  Reg.all.find? fun r => r.offset = o

end Sys2Proof
end

