-- ==== Sys2Proof/Machine/State.lean ====
section
/-! DEFINITION. Everything the spec gives the machine, as plain data (10_state.md), the inputs of the other agents,
and the state after reset (70_reset_and_hazards.md R320, R322). -/

namespace Sys2Proof.Machine

/-- The phases of the sequencer (R51). -/
inductive Phase where
  | idle
  | prepare
  | fill
  | fence
  | mix
  | restore
  | zeroize
  | blockmix
  | integerify
  | salsa
  deriving DecidableEq, Repr

/-- The error codes the engine produces (60_exceptions.md R280); 6 .. 255 are never written. -/
inductive ErrCode where
  | noError
  | invalidArg
  | allocFail
  | illegalCmd
  | busError
  | misaligned
  deriving DecidableEq, Repr

/-- CTRL (R42). -/
structure Ctrl where
  ie : Bool
  pfe : Bool
  fle : Bool
  deriving DecidableEq, Repr

/-- STATUS without PHASE, whose one home is the sequencer (R43). -/
structure Status where
  busy : Bool
  done : Bool
  err : Bool
  swap : Bool
  wign : Bool
  zeroed : Bool
  deriving DecidableEq, Repr

/-- The parameter registers (R47). -/
structure Params where
  dataBase : Reg64
  byteLen : Reg64
  elemCount : Reg64
  elemIndex : Reg64
  costN : Reg64
  workBase : Reg64
  shufBase : Reg64
  tableBase : Reg64
  otherBase : Reg64
  deriving DecidableEq, Repr

/-- The sequencer position `seq = (phase, i, q, t)` (R50). -/
structure Seq where
  phase : Phase
  i : Nat
  q : Nat
  t : Nat
  deriving DecidableEq, Repr

/-- A region of memory: a half-open interval of bytes [base, base + size) (R245). -/
structure Region where
  base : Nat
  size : Nat
  deriving DecidableEq, Repr

/-- The latched parameters (R34, R241), and the model's own summary of the command's regions (R90). -/
structure Latched where
  cmd : Option Instr
  r : Reg64
  eb : Reg64
  n : BitVec 32
  elem : Reg64
  work : Reg64
  shuf : Reg64
  table : Reg64
  other : Reg64
  /-- The model's own: every region of the command (R90). -/
  owned : List Region
  /-- The model's own: the regions the command writes (R90, R321). -/
  writes : List Region
  deriving DecidableEq, Repr

/-- The datapath: the rows `R` and saved rows `S` (R31), the block registers (R32) and JI (R35). -/
structure Datapath where
  rows : Block
  saved : Block
  last : Block
  prev : Block
  cur : Block
  tmp : Block
  held : Block
  ji : BitVec 32
  deriving DecidableEq, Repr

/-- A write the engine has issued and the port has not performed (R36): 64 bytes at an address. -/
structure PendingWrite where
  addr : Nat
  data : Block
  deriving DecidableEq, Repr

/-- The request kinds of the memory port (20_memory.md R74). -/
inductive ReqKind where
  | readAligned
  | readUnaligned
  | readWord
  | writeAligned
  | writeUnaligned
  | writeNonTemporal
  | prefetch
  | flush
  deriving DecidableEq, Repr

/-- A request on the memory port; the kind gives the width (R74). -/
structure Request where
  kind : ReqKind
  addr : Nat
  deriving DecidableEq, Repr

/-- One entry of `BusErr`: requests of this kind with a start address in [first, last] fail (D10, log 5). -/
structure BusErrRule where
  kind : ReqKind
  first : Nat
  last : Nat
  deriving DecidableEq, Repr

/-- The platform parameters, OPEN in the spec: any value the table of R8 allows (00_scope.md R8; 92_eei_decisions.md; log 4). -/
structure Platform where
  /-- MMIO_BASE (R40, R71). -/
  mmioBase : Nat
  /-- Whether the platform maps the window inside the engine's memory space (R71). -/
  windowInMemory : Bool
  /-- IRQ_ID (R290). -/
  irqId : Nat
  /-- The engine instances beside this one: NUM_ENGINES is one more, so at least 1 (R8, R305, `Platform.numEngines`). -/
  otherEngines : Nat
  /-- IO_COHERENT (R89). -/
  ioCoherent : Bool
  /-- Device memory: regions that are not ordinary memory (R78). -/
  device : List Region
  /-- BusErr (R286). -/
  busErr : List BusErrRule
  deriving DecidableEq, Repr

/-- The answer to one host access (R110): the data read, or an error response. -/
structure Response where
  data : Reg64
  error : Bool
  deriving DecidableEq, Repr

/-- What the agents outside the engine do next, and the schedule of the engine's own agents (log 8). -/
inductive Input where
  /-- The host accesses the register window. -/
  | access (a : Access)
  /-- The host polls STATUS until BUSY = 0, `wait` of R112. -/
  | wait
  /-- The engine performs its next micro-operation (R252). -/
  | tick
  /-- The memory port performs its oldest pending write (R36, R86). -/
  | drain
  /-- Another agent writes one byte of memory (R89, R90). -/
  | memStore (addr : Nat) (v : Byte)
  /-- Another agent reads one byte of memory (R88, R90). -/
  | memLoad (addr : Nat)
  /-- The platform asserts reset (R320, R321). -/
  | reset
  deriving DecidableEq, Repr

/-- How far a CMD write goes in one step: "A model may also take a whole command as one step" (R252, log 7). -/
inductive Pace where
  | wholeCommand
  | microOp
  deriving DecidableEq, Repr

/-- Why the machine stops with a fault (log 16, log 19). Safe, all of them: the model stops where the spec has no behaviour. -/
inductive Fault where
  /-- Raised by the engine's micro-operation step: an aligned request at a misaligned address, "undefined otherwise"
  (R75). Safe: the engine never issues one, which is an obligation. -/
  | misalignedRequest
  /-- Raised by the engine's micro-operation step: a request that leaves addresses 0 .. 2^64 − 1 (R76). Safe: the
  engine never issues one, which is an obligation. -/
  | outsideAddressSpace
  /-- Raised by a foreign load or store at an address that does not exist (R70). Safe. -/
  | noSuchAddress
  deriving DecidableEq, Repr

/-- Why the machine gives no next state (log 15). Safe, all of them: the spec tells a model to refuse (93, U11, U16, U17). -/
inductive Refusal where
  /-- Raised by exec's arm of an instruction that has no meaning yet. Safe. -/
  | notModelled (mnemonic : String)
  /-- Raised by a foreign store to, or a foreign load of, a running command's regions (R90, D32, U11; log 26). Safe. -/
  | foreignAccess
  /-- Raised at acceptance: a region of the command lies in device memory (R78, U16). Safe. -/
  | deviceRegion
  /-- Raised at acceptance: a region of the command overlaps the engine's own register window (R71, U17). Safe. -/
  | windowOverlap
  deriving DecidableEq, Repr

/-- Memory: address and byte pairs, addresses strictly rising, no entry equal to what an unlisted byte reads as. -/
abbrev Memory := List Host.Cell

/-- The machine's state. -/
structure State where
  /-- CTRL (R42). -/
  ctrl : Ctrl
  /-- STATUS (R43). -/
  status : Status
  /-- CMD (R44). -/
  cmd : Reg64
  /-- ERRINFO.CODE (R45). -/
  errInfo : ErrCode
  /-- ERRADDR (R46). -/
  errAddr : Reg64
  /-- The parameter registers (R47). -/
  params : Params
  /-- J[31:0] (R48). -/
  j : BitVec 32
  /-- PROGRESS (R49). -/
  progress : Reg64
  /-- seq (R50). -/
  seq : Seq
  /-- The latched parameters (R34). -/
  latched : Latched
  /-- The datapath registers (R31, R32, R35). -/
  dp : Datapath
  /-- `ok` of ZERO_SEQ (R258). -/
  zeroOk : Bool
  /-- The address of the running command's first failing request (R286); reported at completion (log 12). While the
  command has not stopped yet, it is a streaming store's error on its way to the engine (log 24). -/
  pendingErr : Option Reg64
  /-- Memory (R70). -/
  mem : Memory
  /-- The write buffer, oldest first (R36, log 9). -/
  wbuf : List PendingWrite
  /-- The model's own: what happens next outside the engine (log 8). -/
  inputs : List Input
  /-- The model's own: the last answer on the host bus (log 20). -/
  resp : Option Response
  /-- The model's own: the requests placed on the memory port, newest first (R80, log 10). -/
  trace : List Request
  /-- The platform parameters (R8). -/
  platform : Platform
  /-- The model's own: step size (log 7). -/
  pace : Pace
  /-- The model's own: the phases PHASE may still show, the last one shown first (R51, log 13). -/
  phaseDraw : List Phase
  /-- The model's own: the least value PROGRESS may still show (R49, log 13). -/
  progressSeen : Nat
  /-- The model's own: how many free values have been drawn (log 6). -/
  draws : Nat
  deriving DecidableEq, Repr

/-- A row of zeros. -/
def zeroRow : Row := ⟨0#32, 0#32, 0#32, 0#32⟩

/-- A block of zeros. -/
def zeroBlock : Block := ⟨zeroRow, zeroRow, zeroRow, zeroRow⟩

/-- The datapath cleared (R258). -/
def zeroDatapath : Datapath :=
  ⟨zeroBlock, zeroBlock, zeroBlock, zeroBlock, zeroBlock, zeroBlock, zeroBlock, 0#32⟩

/-- `seq` when BUSY = 0 (R50). -/
def idleSeq : Seq := ⟨.idle, 0, 0, 0⟩

/-- CTRL after reset: IE = 0, PFE = 1, FLE = 1 (R42, R322). -/
def resetCtrl : Ctrl := ⟨false, true, true⟩

/-- STATUS after reset: all 0 (R43, R322). -/
def resetStatus : Status := ⟨false, false, false, false, false, false⟩

/-- The parameter registers after reset: 0 each (R47). -/
def resetParams : Params := ⟨0#64, 0#64, 0#64, 0#64, 0#64, 0#64, 0#64, 0#64, 0#64⟩

/-- The latched parameters after reset. DESIGN CHOICE (log 3), unsafe: the spec leaves them unspecified. -/
def resetLatched : Latched := ⟨none, 0#64, 0#64, 0#32, 0#64, 0#64, 0#64, 0#64, 0#64, [], []⟩

/-- The platform of State.reset. DESIGN CHOICE (log 4): every parameter is OPEN in the spec. -/
def resetPlatform : Platform := ⟨0, false, 0, 0, true, [], []⟩

/-- The machine right after reset (R320, R322). The spec gives no value for the datapath (DESIGN CHOICE 0, log 2), the latched
parameters and zeroOk (log 3), memory's unlisted bytes (log 1), the platform (log 4) and the model's own fields (logs 6, 7,
8, 10, 12, 13, 20). -/
def State.reset : State where
  ctrl := resetCtrl
  status := resetStatus
  cmd := 0#64
  errInfo := .noError
  errAddr := 0#64
  params := resetParams
  j := 0#32
  progress := 0#64
  seq := idleSeq
  latched := resetLatched
  dp := zeroDatapath
  zeroOk := true
  pendingErr := none
  mem := []
  wbuf := []
  inputs := []
  resp := none
  trace := []
  platform := resetPlatform
  pace := .wholeCommand
  phaseDraw := []
  progressSeen := 0
  draws := 0

end Sys2Proof.Machine
end

