-- ==== Sys2Proof/Machine/Flags.lean ====
section
/-! DEFINITION. The codes and bit layouts of the status registers (10_state.md R42, R43, R45, R51), the write-one-to-clear
rule (R43), the setting and clearing of the status bits by the engine (R43, R240, R241), and the interrupt output
(60_exceptions.md R290). -/

namespace Sys2Proof.Machine

/-- The phase codes of STATUS.PHASE (R51). -/
def Phase.code : Phase → BitVec 8
  | .idle => 0#8
  | .prepare => 1#8
  | .fill => 2#8
  | .fence => 3#8
  | .mix => 4#8
  | .restore => 5#8
  | .zeroize => 6#8
  | .blockmix => 7#8
  | .integerify => 8#8
  | .salsa => 9#8

/-- The error codes of ERRINFO.CODE (R280). -/
def ErrCode.code : ErrCode → BitVec 8
  | .noError => 0#8
  | .invalidArg => 1#8
  | .allocFail => 2#8
  | .illegalCmd => 3#8
  | .busError => 4#8
  | .misaligned => 5#8

/-- ERRINFO as read: CODE in bits 7:0, the rest zero (R45). -/
def ErrCode.word (e : ErrCode) : Reg64 := e.code.setWidth 64

/-- CTRL as read: IE, PFE, FLE in bits 0, 1, 2, the rest zero (R42). -/
def Ctrl.word (c : Ctrl) : Reg64 :=
  0#61 ++ BitVec.ofBool c.fle ++ BitVec.ofBool c.pfe ++ BitVec.ofBool c.ie

/-- CTRL as written: reserved bits ignore the write (R42). -/
def Ctrl.ofWord (v : Reg64) : Ctrl := ⟨v.getLsbD 0, v.getLsbD 1, v.getLsbD 2⟩

/-- STATUS as read, with the phase PHASE shows (R43). -/
def Status.word (st : Status) (ph : Phase) : Reg64 :=
  0#48 ++ ph.code ++ 0#2 ++ BitVec.ofBool st.zeroed ++ BitVec.ofBool st.wign ++ BitVec.ofBool st.swap
    ++ BitVec.ofBool st.err ++ BitVec.ofBool st.done ++ BitVec.ofBool st.busy

/-- A host write to STATUS: writing 1 clears DONE, ERR or WIGN, every other bit ignores the write (R43). -/
def Status.clearOnes (st : Status) (v : Reg64) : Status :=
  { st with
    done := st.done && !v.getLsbD 1
    err := st.err && !v.getLsbD 2
    wign := st.wign && !v.getLsbD 4 }

/-- The status bits at the issue of a command: DONE and ERR cleared (R240). -/
def Status.issued (st : Status) : Status := { st with done := false, err := false }

/-- The status bits after a rejection: ERR and DONE set, BUSY stays as it is (R240, R284). -/
def Status.rejected (st : Status) : Status := { st with done := true, err := true }

/-- The status bits at acceptance: ZEROED cleared, BUSY set, SWAP cleared for PREPARE and SMIX (R241). -/
def Status.accepted (st : Status) (clearsSwap : Bool) : Status :=
  { st with zeroed := false, busy := true, swap := st.swap && !clearsSwap }

/-- The status bits at completion: BUSY cleared, DONE set, ERR set when a request failed (R285, R286), ZEROED when the
command zeroizes (R258). -/
def Status.completed (st : Status) (failed : Bool) (zeroed : Bool) : Status :=
  { st with busy := false, done := true, err := st.err || failed, zeroed := zeroed }

/-- The status bits when a host write is ignored because BUSY = 1 (R53). -/
def Status.ignoredWrite (st : Status) : Status := { st with wign := true }

/-- The interrupt output: CTRL.IE ∧ STATUS.DONE (R290). -/
def State.irq (s : State) : Bool := s.ctrl.ie && s.status.done

/-- The interrupt as the platform sees it: the line IRQ_ID and its level (R290). -/
def State.irqLine (s : State) : Nat × Bool := (s.platform.irqId, s.irq)

/-- NUM_ENGINES, "at least 1" (R8, R305): this engine and the others. -/
def Platform.numEngines (p : Platform) : Nat := p.otherEngines + 1

end Sys2Proof.Machine
end

