-- ==== Sys2Proof/Machine/Block.lean ====
section
/-! DEFINITION. Reading and building blocks: words, rows and lanes (10_state.md R20), bytes in little-endian order
(20_memory.md R72), and the block XOR (41_blockops.md R166). -/

namespace Sys2Proof

/-- `rotl32(x, s)` for 0 < s < 32 (00_scope.md R9). -/
def rotl32 (x : Word) (s : Nat) : Word := (x <<< s) ||| (x >>> (32 - s))

/-- `le32(b0, b1, b2, b3)` (00_scope.md R11). -/
def le32 (b0 b1 b2 b3 : Byte) : Word :=
  b0.setWidth 32 ||| b1.setWidth 32 <<< 8 ||| b2.setWidth 32 <<< 16 ||| b3.setWidth 32 <<< 24

/-- Byte `k` of a word, byte 0 the least significant (R72). -/
def byteOf (w : Word) (k : Nat) : Byte := (w >>> (8 * k)).setWidth 8

/-- Lane `j` of a row. -/
def Row.lane (a : Row) (j : Fin 4) : Word :=
  match j with
  | 0 => a.l0
  | 1 => a.l1
  | 2 => a.l2
  | 3 => a.l3

/-- The row whose lane `j` is `f j`. -/
def Row.ofLanes (f : Fin 4 → Word) : Row := ⟨f 0, f 1, f 2, f 3⟩

/-- Row `k` of a block: words 4k .. 4k+3 (R20). -/
def Block.row (b : Block) (k : Fin 4) : Row :=
  match k with
  | 0 => b.r0
  | 1 => b.r1
  | 2 => b.r2
  | 3 => b.r3

/-- The block with row `k` replaced. -/
def Block.setRow (b : Block) (k : Fin 4) (a : Row) : Block :=
  match k with
  | 0 => { b with r0 := a }
  | 1 => { b with r1 := a }
  | 2 => { b with r2 := a }
  | 3 => { b with r3 := a }

/-- Word `p` of a block: lane `p mod 4` of row `p / 4` (R20). -/
def Block.word (b : Block) (p : Fin 16) : Word :=
  (b.row ⟨p.val / 4, by omega⟩).lane ⟨p.val % 4, by omega⟩

/-- The block whose word `p` is `f p`. -/
def Block.ofWords (f : Fin 16 → Word) : Block :=
  ⟨⟨f 0, f 1, f 2, f 3⟩, ⟨f 4, f 5, f 6, f 7⟩, ⟨f 8, f 9, f 10, f 11⟩, ⟨f 12, f 13, f 14, f 15⟩⟩

/-- Byte `k` of a block, for k = 0 .. 63: byte `k mod 4` of word `k / 4` (R20, R72). -/
def Block.byte (b : Block) (k : Nat) : Byte := byteOf (b.word (Fin.ofNat 16 (k / 4))) (k % 4)

/-- The block whose byte `k` is `f k` (R20, R160). -/
def Block.ofBytes (f : Nat → Byte) : Block :=
  Block.ofWords fun p =>
    le32 (f (4 * p.val)) (f (4 * p.val + 1)) (f (4 * p.val + 2)) (f (4 * p.val + 3))

/-- `XORB(A, B)` (R166). -/
def Block.xorb (a b : Block) : Block := Block.ofWords fun p => a.word p ^^^ b.word p

end Sys2Proof
end

