-- ==== Sys2Proof/Machine/SalsaCore.lean ====
section
/-! DEFINITION. The Salsa20/8 round engine (40_salsa_core.md R130 to R135) and the layout permutations DIAG and
UNDIAG (10_state.md R22, R23; 42_layout.md R190, R191). -/

namespace Sys2Proof

/-- `vadd` (R130): lane-wise addition modulo 2^32. -/
def Row.vadd (a b : Row) : Row := Row.ofLanes fun j => a.lane j + b.lane j

/-- `vxor` (R130). -/
def Row.vxor (a b : Row) : Row := Row.ofLanes fun j => a.lane j ^^^ b.lane j

/-- `vrotl` (R130). -/
def Row.vrotl (a : Row) (s : Nat) : Row := Row.ofLanes fun j => rotl32 (a.lane j) s

/-- `lrot` (R130): lane j + n moves down to lane j. -/
def Row.lrot (a : Row) (n : Fin 4) : Row := Row.ofLanes fun j => a.lane (j + n)

/-- `QOP(dst, a, b, s)` (R131): `R[dst] ← R[dst] xor rotl(R[a] + R[b], s)`. -/
def qop (r : Block) (dst a b : Fin 4) (s : Nat) : Block :=
  r.setRow dst ((r.row dst).vxor (((r.row a).vadd (r.row b)).vrotl s))

/-- The four QOPs of EVEN_ROUND, before the lane rotations (R132). -/
def evenQops (r : Block) : Block :=
  qop (qop (qop (qop r 2 1 0 7) 3 2 1 9) 0 3 2 13) 1 0 3 18

/-- `EVEN_ROUND` (R132). -/
def evenRound (r : Block) : Block :=
  let r' := evenQops r
  ⟨r'.r0.lrot 1, r'.r1, r'.r2.lrot 3, r'.r3.lrot 2⟩

/-- The four QOPs of ODD_ROUND, before the lane rotations (R133). -/
def oddQops (r : Block) : Block :=
  qop (qop (qop (qop r 0 1 2 7) 3 0 1 9) 2 3 0 13) 1 2 3 18

/-- `ODD_ROUND` (R133): the roles of rows 0 and 2 exchanged. -/
def oddRound (r : Block) : Block :=
  let r' := oddQops r
  ⟨r'.r0.lrot 3, r'.r1, r'.r2.lrot 1, r'.r3.lrot 2⟩

/-- Round number `t` of the core: even rounds and odd rounds alternate (R135). -/
def salsaRound (t : Nat) (r : Block) : Block :=
  if t % 2 = 0 then evenRound r else oddRound r

/-- Rounds 0 .. t − 1 in order. -/
def salsaRounds : Nat → Block → Block
  | 0, r => r
  | t + 1, r => salsaRound t (salsaRounds t r)

/-- The final addition: lane-wise, with the saved rows (R135). -/
def Block.vadd (a b : Block) : Block :=
  ⟨a.r0.vadd b.r0, a.r1.vadd b.r1, a.r2.vadd b.r2, a.r3.vadd b.r3⟩

/-- `SALSA_CORE(B)` (R135), on a block in diagonal layout. -/
def salsaCore (b : Block) : Block := (salsaRounds Config.rounds b).vadd b

/-- `PI[4k + j] = 4·((j + k + 3) mod 4) + j` (R22). -/
def permPI (p : Fin 16) : Fin 16 :=
  ⟨4 * ((p.val % 4 + p.val / 4 + 3) % 4) + p.val % 4, by omega⟩

/-- `PINV[4·row + col] = 4·((row − col + 1) mod 4) + col` (R23). -/
def permPINV (n : Fin 16) : Fin 16 :=
  ⟨4 * ((n.val / 4 + 5 - n.val % 4) % 4) + n.val % 4, by omega⟩

/-- `DIAG(n)`: natural to diagonal layout (R190). -/
def diag (n : Block) : Block := Block.ofWords fun p => n.word (permPI p)

/-- `UNDIAG(d)`: diagonal to natural layout (R191). -/
def undiag (d : Block) : Block := Block.ofWords fun m => d.word (permPINV m)

namespace Machine

/-- The permutation folded into a load or a store (R252). -/
def Layout.apply : Layout → Block → Block
  | .keep, b => b
  | .diag, b => Sys2Proof.diag b
  | .undiag, b => Sys2Proof.undiag b

end Machine

end Sys2Proof
end

