-- ==== Sys2Proof/Machine/Memory.lean ====
section
/-! DEFINITION. Memory as a list in one canonical form (20_memory.md R70): reading and writing one byte, and the
64-byte and 4-byte views built from bytes (00_scope.md R11). -/

namespace Sys2Proof.Machine

/-- The canonical form: addresses strictly rising and inside the address space (R70), and no entry equal to what an
unlisted byte reads as. -/
abbrev Memory.wf (m : Memory) : Prop :=
  m.Pairwise (fun c d => c.1 < d.1) ∧ ∀ c ∈ m, c.1 < Config.addressLimit ∧ c.2 ≠ Config.unlistedByte

/-- The byte at an address. -/
def Memory.read : Memory → Nat → Byte
  | [], _ => Config.unlistedByte
  | (b, v) :: m, a => if a = b then v else Memory.read m a

/-- The byte at an address replaced; the canonical form is kept. -/
def Memory.write : Memory → Nat → Byte → Memory
  | [], a, v => if v = Config.unlistedByte then [] else [(a, v)]
  | (b, w) :: m, a, v =>
    if a < b then
      if v = Config.unlistedByte then (b, w) :: m else (a, v) :: (b, w) :: m
    else if a = b then
      if v = Config.unlistedByte then m else (a, v) :: m
    else (b, w) :: Memory.write m a v

/-- `n` bytes written at an address upwards; byte `i` goes to address `a + i` (R11). -/
def Memory.writeBytes : Nat → Memory → Nat → (Nat → Byte) → Memory
  | 0, m, _, _ => m
  | n + 1, m, a, f => Memory.write (Memory.writeBytes n m a f) (a + n) (f n)

/-- The 64 bytes of a block written at an address (R163). -/
def Memory.writeBlock (m : Memory) (a : Nat) (b : Block) : Memory :=
  Memory.writeBytes Config.blockBytes m a b.byte

/-- The block held by the 64 bytes at an address (R160). -/
def Memory.readBlock (m : Memory) (a : Nat) : Block :=
  Block.ofBytes fun k => m.read (a + k)

/-- `MemRead(a, 4)` as a little-endian word (R11, R162). -/
def Memory.readWord (m : Memory) (a : Nat) : Word :=
  le32 (m.read a) (m.read (a + 1)) (m.read (a + 2)) (m.read (a + 3))

end Sys2Proof.Machine
end

