-- ==== Sys2Proof/Machine/Operands.lean ====
section
/-! DEFINITION. The operands of the commands: the quantities the parameter registers define and the checks on them, in
unbounded integers (44_controller.md R242 to R247), the latched copies (R241), and the addresses the
micro-operations use (10_state.md R33). -/

namespace Sys2Proof.Machine

/-! ### Quantities of the parameter registers (R242) -/

/-- `r = BL / (128·EC)` (A1). -/
def Params.r (p : Params) : Nat := p.byteLen.toNat / (128 * p.elemCount.toNat)

/-- `EB = 128·r` (A1). -/
def Params.eb (p : Params) : Nat := 128 * p.r

/-- `ELEM = DB + IX·EB` (A2). -/
def Params.elem (p : Params) : Nat := p.dataBase.toNat + p.elemIndex.toNat * p.eb

/-- `N = NN` (A3). -/
def Params.n (p : Params) : Nat := p.costN.toNat

/-- `TB = EB·N` (A4). -/
def Params.tb (p : Params) : Nat := p.eb * p.n

/-- The argument checks of R242. -/
inductive ArgCheck where
  | a1
  | a2
  | a3
  | a4
  deriving DecidableEq, Repr

/-- The condition an argument check demands (R242). -/
def ArgCheck.holds (p : Params) : ArgCheck → Bool
  | .a1 => decide (1 ≤ p.elemCount.toNat ∧ 1 ≤ p.byteLen.toNat
      ∧ p.byteLen.toNat % (128 * p.elemCount.toNat) = 0)
  | .a2 => decide (p.dataBase.toNat ≠ 0 ∧ p.elemIndex.toNat < p.elemCount.toNat
      ∧ p.dataBase.toNat + p.byteLen.toNat ≤ Config.addressLimit)
  | .a3 => decide (1 ≤ p.n ∧ p.n ≤ 2 ^ 32 - 1)
  | .a4 => decide (p.eb * p.n ≤ 2 ^ 64 - 1)

/-! ### Regions (R245) -/

/-- The first byte after a region. -/
def Region.stop (a : Region) : Nat := a.base + a.size

/-- An address lies in a region. -/
def Region.has (a : Region) (x : Nat) : Bool := decide (a.base ≤ x ∧ x < a.stop)

/-- A scratch region is usable: `base ≠ 0` and `base + size ≤ 2^64` (R245). -/
def Region.usable (a : Region) : Bool := decide (a.base ≠ 0 ∧ a.stop ≤ Config.addressLimit)

/-- Two regions are disjoint: one ends at or before the start of the other (R245). -/
def Region.disjoint (a b : Region) : Bool := decide (a.stop ≤ b.base ∨ b.stop ≤ a.base)

/-- All regions of a list are pairwise disjoint (R245). -/
def pairwiseDisjoint : List Region → Bool
  | [] => true
  | a :: as => as.all a.disjoint && pairwiseDisjoint as

/-- CW as the parameter registers and SWAP name it, before acceptance (R33, R247). -/
def State.cwParam (s : State) : Nat :=
  if s.status.swap then s.params.shufBase.toNat else s.params.workBase.toNat

/-- CS as the parameter registers and SWAP name it, before acceptance (R33). -/
def State.csParam (s : State) : Nat :=
  if s.status.swap then s.params.workBase.toNat else s.params.shufBase.toNat

/-- The element region (ELEM, EB) (R26). -/
def State.elemRegion (s : State) : Region := ⟨s.params.elem, s.params.eb⟩

/-- (WORK, EB) of R247. -/
def State.workRegion (s : State) : Region := ⟨s.params.workBase.toNat, s.params.eb⟩

/-- (SHUF, EB) of R247. -/
def State.shufRegion (s : State) : Region := ⟨s.params.shufBase.toNat, s.params.eb⟩

/-- (TABLE, TB) of R247. -/
def State.tableRegion (s : State) : Region := ⟨s.params.tableBase.toNat, s.params.tb⟩

/-- (OTHER, EB) of R247. -/
def State.otherRegion (s : State) : Region := ⟨s.params.otherBase.toNat, s.params.eb⟩

/-- (OTHER, 64) of R247: the block of SALSA8. -/
def State.otherBlockRegion (s : State) : Region := ⟨s.params.otherBase.toNat, 64⟩

/-- (CW, EB) of R247. -/
def State.cwRegion (s : State) : Region := ⟨s.cwParam, s.params.eb⟩

/-- (CW, 64) of R247: the block INTEGERIFY reads. -/
def State.cwBlockRegion (s : State) : Region := ⟨s.cwParam, 64⟩

/-- (CS, EB): the shuffle buffer of the next BlockMix (R33). -/
def State.csRegion (s : State) : Region := ⟨s.csParam, s.params.eb⟩

/-! ### The per-command checks (R247) -/

/-- One row of the table of R247. -/
structure CheckSet where
  args : List ArgCheck
  aligned : List Nat
  scratch : List Region
  disjoint : List Region
  deriving DecidableEq, Repr

/-- The row of SMIX (R247). -/
def smixChecks (s : State) : CheckSet where
  args := [.a1, .a2, .a3, .a4]
  aligned := [s.params.workBase.toNat, s.params.shufBase.toNat, s.params.tableBase.toNat]
  scratch := [s.workRegion, s.shufRegion, s.tableRegion]
  disjoint := [s.elemRegion, s.workRegion, s.shufRegion, s.tableRegion]

/-- The row of PREPARE (R247). -/
def prepareChecks (s : State) : CheckSet where
  args := [.a1, .a2]
  aligned := [s.params.workBase.toNat]
  scratch := [s.workRegion]
  disjoint := [s.elemRegion, s.workRegion]

/-- The row of RESTORE (R247). -/
def restoreChecks (s : State) : CheckSet where
  args := [.a1, .a2]
  aligned := [s.cwParam]
  scratch := [s.cwRegion]
  disjoint := [s.elemRegion, s.cwRegion]

/-- The row of BLOCKMIX.NONE (R247). -/
def blockmixNoneChecks (s : State) : CheckSet where
  args := [.a1]
  aligned := [s.params.workBase.toNat, s.params.shufBase.toNat]
  scratch := [s.workRegion, s.shufRegion]
  disjoint := [s.workRegion, s.shufRegion]

/-- The rows of BLOCKMIX.COPY and BLOCKMIX.XOR (R247). -/
def blockmixOtherChecks (s : State) : CheckSet where
  args := [.a1]
  aligned := [s.params.workBase.toNat, s.params.shufBase.toNat, s.params.otherBase.toNat]
  scratch := [s.workRegion, s.shufRegion, s.otherRegion]
  disjoint := [s.workRegion, s.shufRegion, s.otherRegion]

/-- The row of INTEGERIFY (R247). -/
def integerifyChecks (s : State) : CheckSet where
  args := [.a3]
  aligned := [s.cwParam]
  scratch := [s.cwBlockRegion]
  disjoint := []

/-- The row of SALSA8 and SALSA8.NAT (R247). -/
def salsaChecks (s : State) : CheckSet where
  args := []
  aligned := [s.params.otherBase.toNat]
  scratch := [s.otherBlockRegion]
  disjoint := []

/-- The row of ZEROIZE (R247). -/
def zeroizeChecks (s : State) : CheckSet where
  args := [.a1, .a3, .a4]
  aligned := [s.params.workBase.toNat, s.params.shufBase.toNat, s.params.tableBase.toNat]
  scratch := [s.workRegion, s.shufRegion, s.tableRegion]
  disjoint := [s.workRegion, s.shufRegion, s.tableRegion]

/-- The table of R247. -/
def commandChecks (i : Instr) (s : State) : CheckSet :=
  match i with
  | .smix => smixChecks s
  | .prepare => prepareChecks s
  | .restore => restoreChecks s
  | .blockmixNone => blockmixNoneChecks s
  | .blockmixCopy => blockmixOtherChecks s
  | .blockmixXor => blockmixOtherChecks s
  | .integerify => integerifyChecks s
  | .salsa8 => salsaChecks s
  | .salsa8Nat => salsaChecks s
  | .zeroize => zeroizeChecks s

/-- Every aligned base is a multiple of 64 (R244). -/
def CheckSet.alignedOk (k : CheckSet) : Bool := k.aligned.all fun b => b % Config.blockBytes == 0

/-- Every scratch region is usable and the disjoint set is pairwise disjoint (R245). -/
def CheckSet.regionsOk (k : CheckSet) : Bool :=
  k.scratch.all Region.usable && pairwiseDisjoint k.disjoint

/-- `check(c)` of R246: the code of the first check that fails, arguments before alignment before regions. -/
def CheckSet.verdict (k : CheckSet) (p : Params) : Option ErrCode :=
  if !k.args.all (ArgCheck.holds p) then some .invalidArg
  else if !k.alignedOk then some .misaligned
  else if !k.regionsOk then some .allocFail
  else none

/-- `check(c)` (R240, R246). -/
def check (i : Instr) (s : State) : Option ErrCode := (commandChecks i s).verdict s.params

/-! ### The regions a command owns and writes (R90, R321) -/

/-- The regions that belong to the engine while the command runs (R90). -/
def commandRegions (i : Instr) (s : State) : List Region :=
  match i with
  | .smix => [s.elemRegion, s.workRegion, s.shufRegion, s.tableRegion]
  | .prepare => [s.elemRegion, s.workRegion]
  | .restore => [s.elemRegion, s.cwRegion]
  | .blockmixNone => [s.workRegion, s.shufRegion]
  | .blockmixCopy => [s.workRegion, s.shufRegion, s.otherRegion]
  | .blockmixXor => [s.workRegion, s.shufRegion, s.otherRegion]
  | .integerify => [s.cwBlockRegion]
  | .salsa8 => [s.otherBlockRegion]
  | .salsa8Nat => [s.otherBlockRegion]
  | .zeroize => [s.workRegion, s.shufRegion, s.tableRegion]

/-- The regions the command writes: its write set (R90, R321). -/
def commandWrites (i : Instr) (s : State) : List Region :=
  match i with
  | .smix => [s.elemRegion, s.workRegion, s.shufRegion, s.tableRegion]
  | .prepare => [s.workRegion]
  | .restore => [s.elemRegion]
  | .blockmixNone => [s.csRegion]
  | .blockmixCopy => [s.csRegion, s.otherRegion]
  | .blockmixXor => [s.csRegion]
  | .integerify => []
  | .salsa8 => [s.otherBlockRegion]
  | .salsa8Nat => [s.otherBlockRegion]
  | .zeroize => [s.workRegion, s.shufRegion, s.tableRegion]

/-- The engine's register window as a region of memory, where the platform maps it there (R71). -/
def Platform.windowRegion (p : Platform) : Region := ⟨p.mmioBase, Config.windowBytes⟩

/-- No region lies in device memory (R78). -/
def Platform.ordinary (p : Platform) (rs : List Region) : Bool :=
  rs.all fun a => p.device.all a.disjoint

/-- No region overlaps the window, where it is mapped into memory (R71). -/
def Platform.clearOfWindow (p : Platform) (rs : List Region) : Bool :=
  !p.windowInMemory || rs.all fun a => a.disjoint p.windowRegion

/-! ### The latched copies (R34, R241) -/

/-- r and EB = 128·r latched, one quantity (A1, log 17). -/
def Latched.withR (l : Latched) (p : Params) : Latched :=
  { l with r := BitVec.ofNat 64 p.r, eb := BitVec.ofNat 64 p.eb }

/-- ELEM latched (A2). -/
def Latched.withElem (l : Latched) (p : Params) : Latched :=
  { l with elem := BitVec.ofNat 64 p.elem }

/-- N = COST_N[31:0] latched (R241). -/
def Latched.withN (l : Latched) (p : Params) : Latched :=
  { l with n := p.costN.setWidth 32 }

/-- WORK_BASE latched: all that PREPARE uses of the two buffers (R194). -/
def Latched.withWork (l : Latched) (p : Params) : Latched := { l with work := p.workBase }

/-- WORK_BASE and SHUF_BASE latched: SWAP selects CW and CS among them "as the sequence runs" (R33, R241). -/
def Latched.withBuffers (l : Latched) (p : Params) : Latched :=
  { l with work := p.workBase, shuf := p.shufBase }

/-- TABLE_BASE latched. -/
def Latched.withTable (l : Latched) (p : Params) : Latched := { l with table := p.tableBase }

/-- OTHER_BASE latched. -/
def Latched.withOther (l : Latched) (p : Params) : Latched := { l with other := p.otherBase }

/-- The quantities the command uses are latched, the others are not (R241, log 17). -/
def latchParams (i : Instr) (l : Latched) (p : Params) : Latched :=
  match i with
  | .smix => ((((l.withR p).withElem p).withN p).withBuffers p).withTable p
  | .prepare => ((l.withR p).withElem p).withWork p
  | .restore => ((l.withR p).withElem p).withBuffers p
  | .blockmixNone => (l.withR p).withBuffers p
  | .blockmixCopy => ((l.withR p).withBuffers p).withOther p
  | .blockmixXor => ((l.withR p).withBuffers p).withOther p
  | .integerify => (l.withN p).withBuffers p
  | .salsa8 => l.withOther p
  | .salsa8Nat => l.withOther p
  | .zeroize => (((l.withR p).withN p).withBuffers p).withTable p

/-- All that acceptance latches: the parameters, the command, and the model's summary of its regions (R241). -/
def latch (i : Instr) (s : State) : Latched :=
  { latchParams i s.latched s.params with
    cmd := some i
    owned := commandRegions i s
    writes := commandWrites i s }

/-! ### Addresses of the running command (R33, R253) -/

/-- CW: "(SWAP = 0) ? WORK_BASE : SHUF_BASE", of the latched bases (R33, R34). -/
def State.cw (s : State) : Nat :=
  if s.status.swap then s.latched.shuf.toNat else s.latched.work.toNat

/-- CS: "(SWAP = 0) ? SHUF_BASE : WORK_BASE" (R33). -/
def State.cs (s : State) : Nat :=
  if s.status.swap then s.latched.work.toNat else s.latched.shuf.toNat

/-- The address a base stands for now. -/
def State.baseAddr (s : State) : Base → Nat
  | .elem => s.latched.elem.toNat
  | .cw => s.cw
  | .cs => s.cs
  | .work => s.latched.work.toNat
  | .shuf => s.latched.shuf.toNat
  | .table => s.latched.table.toNat
  | .tableAtJI => s.latched.table.toNat + s.dp.ji.toNat * s.latched.eb.toNat
  | .other => s.latched.other.toNat

/-- A block register read. -/
def Datapath.get (d : Datapath) : BlkReg → Block
  | .last => d.last
  | .prev => d.prev
  | .cur => d.cur
  | .tmp => d.tmp
  | .held => d.held

/-- A block register written. -/
def Datapath.set (d : Datapath) (g : BlkReg) (b : Block) : Datapath :=
  match g with
  | .last => { d with last := b }
  | .prev => { d with prev := b }
  | .cur => { d with cur := b }
  | .tmp => { d with tmp := b }
  | .held => { d with held := b }

end Sys2Proof.Machine
end

