-- ==== Sys2Proof/Machine/Sequences.lean ====
section
/-! DEFINITION. The micro-operation sequences of the commands in reference order (20_memory.md R84): PREP_SEQ and REST_SEQ
(42_layout.md R194, R197), BM (43_blockmix.md R211), INTEG (R227), ZERO_SEQ and the phases of SMIX
(44_controller.md R253, R258), and SALSA8 (40_salsa_core.md R145, R146). -/

namespace Sys2Proof.Machine

/-- One iteration of PREP_SEQ's loop (R194). -/
def prepIter (i : Nat) : List MicroOp :=
  [.ldu .cur .elem (64 * i), .sta .diag .cur .work (64 * (i + 1))]

/-- `PREP_SEQ(ELEM, WORK_BASE, r)` (R194). -/
def prepSeq (r : Nat) : List MicroOp :=
  (List.range (2 * r - 1)).flatMap prepIter
    ++ [.ldu .cur .elem (64 * (2 * r - 1)), .sta .diag .cur .work 0]

/-- One iteration of REST_SEQ's loop, for working block `k + 1` (R197). -/
def restIter (k : Nat) : List MicroOp :=
  [.lda .keep .cur .cw (64 * (k + 1)), .stu .undiag .cur .elem (64 * k)]

/-- `REST_SEQ(CW, ELEM, r)` (R197). -/
def restSeq (r : Nat) : List MicroOp :=
  [.lda .keep .held .cw 0] ++ (List.range (2 * r - 1)).flatMap restIter
    ++ [.stu .undiag .held .elem (64 * (2 * r - 1))]

/-- The shuffle position of loop iteration `i`: `i/2 + 1` for even i, `i/2 + 1 + r` for odd i (R211 step 3d, R213). -/
def fanOut (r i : Nat) : Nat := if i % 2 = 0 then i / 2 + 1 else i / 2 + 1 + r

/-- Steps 1 and 2 of BM and the initial PREV (R211, R212); the other buffer starts at `ob + oo`. -/
def bmHead (r : Nat) (mode : BmMode) (ob : Base) (oo : Nat) : List MicroOp :=
  [.lda .keep .last .cw 0]
    ++ (match mode with
      | .none => []
      | .copy => [.stn .last ob oo]
      | .xor =>
        (List.range r).map (fun q => .pfn ob (oo + 64 * q))
          ++ [.lda .keep .tmp ob oo, .xorb .last .last .tmp, .flush ob oo])
    ++ [.move .prev .last]

/-- Loop iteration `i` of BM: steps 3a to 3e (R211). -/
def bmIter (r : Nat) (mode : BmMode) (ob : Base) (oo : Nat) (i : Nat) : List MicroOp :=
  [.lda .keep .cur .cw (64 * (i + 1))]
    ++ (match mode with
      | .none => []
      | .copy => [.stn .cur ob (oo + 64 * (i + 1))]
      | .xor =>
        (if i < r then [.pfn ob (oo + 64 * (r + i))] else [])
          ++ [.lda .keep .tmp ob (oo + 64 * (i + 1)), .xorb .cur .cur .tmp, .flush ob (oo + 64 * (i + 1))])
    ++ [.xorb .cur .cur .prev, .salsa .cur, .sta .keep .cur .cs (64 * fanOut r i), .move .prev .cur]

/-- Steps 4 and 5 of BM (R211, R220). -/
def bmTail : List MicroOp :=
  [.xorb .last .last .prev, .salsa .last, .sta .keep .last .cs 0, .bmEnd]

/-- `BM(CW, O, CS, r, mode)` with O at `ob + oo` (R211). -/
def bmSeq (r : Nat) (mode : BmMode) (ob : Base) (oo : Nat) : List MicroOp :=
  bmHead r mode ob oo ++ (List.range (2 * r - 1)).flatMap (bmIter r mode ob oo) ++ bmTail

/-- The zero-block writes over `k` blocks of a buffer, ascending (R258). -/
def zeroFill (b : Base) (k : Nat) : List MicroOp :=
  (List.range k).map fun q => .staZero b (64 * q)

/-- `ZERO_SEQ()` (R258): WORK, SHUF and TABLE of EB, EB and TB = EB·N bytes. -/
def zeroSeq (r n : Nat) : List MicroOp :=
  [.zeroBegin] ++ zeroFill .work (2 * r) ++ zeroFill .shuf (2 * r) ++ zeroFill .table (2 * r * n) ++ [.zeroEnd]

/-- The mode of the standalone BLOCKMIX commands (R221 to R223); the phase BLOCKMIX is theirs alone (R51). -/
def blockmixMode : Instr → BmMode
  | .blockmixNone => .none
  | .blockmixCopy => .copy
  | .blockmixXor => .xor
  | .smix => .none
  | .prepare => .none
  | .restore => .none
  | .integerify => .none
  | .salsa8 => .none
  | .salsa8Nat => .none
  | .zeroize => .none

/-- The sequence of SALSA8 (R145) and of SALSA8.NAT (R146). -/
def salsaSeq : Instr → List MicroOp
  | .salsa8Nat => [.lda .diag .cur .other 0, .salsa .cur, .sta .undiag .cur .other 0]
  | .salsa8 => [.lda .keep .cur .other 0, .salsa .cur, .sta .keep .cur .other 0]
  | .smix => []
  | .prepare => []
  | .restore => []
  | .blockmixNone => []
  | .blockmixCopy => []
  | .blockmixXor => []
  | .integerify => []
  | .zeroize => []

/-- The block sequence of command `c` in a phase, iteration `i` (R50, R253): a function of c, r and N alone (R344). -/
def blockSeq (c : Instr) (r n : Nat) (ph : Phase) (i : Nat) : List MicroOp :=
  match ph with
  | .idle => []
  | .prepare => prepSeq r
  | .fill => bmSeq r .copy .table (i * (128 * r))
  | .fence => [.fence]
  | .mix => .integ .ji :: bmSeq r .xor .tableAtJI 0
  | .restore => restSeq r
  | .zeroize => zeroSeq r n
  | .blockmix => bmSeq r (blockmixMode c) .other 0
  | .integerify => [.integ .j]
  | .salsa => salsaSeq c

/-- The first phase of a command (R51, R241). -/
def firstPhase : Instr → Phase
  | .smix => .prepare
  | .prepare => .prepare
  | .restore => .restore
  | .blockmixNone => .blockmix
  | .blockmixCopy => .blockmix
  | .blockmixXor => .blockmix
  | .integerify => .integerify
  | .salsa8 => .salsa
  | .salsa8Nat => .salsa
  | .zeroize => .zeroize

/-- "acceptance of PREPARE and SMIX" clears SWAP (R33, R241). -/
def clearsSwap : Instr → Bool
  | .smix => true
  | .prepare => true
  | .restore => false
  | .blockmixNone => false
  | .blockmixCopy => false
  | .blockmixXor => false
  | .integerify => false
  | .salsa8 => false
  | .salsa8Nat => false
  | .zeroize => false

/-- Whether the command runs ZERO_SEQ: "SMIX and ZEROIZE only" (R285). -/
def zeroizes : Instr → Bool
  | .smix => true
  | .zeroize => true
  | .prepare => false
  | .restore => false
  | .blockmixNone => false
  | .blockmixCopy => false
  | .blockmixXor => false
  | .integerify => false
  | .salsa8 => false
  | .salsa8Nat => false

/-- PROGRESS after a successful command: 2N for SMIX, 1 for BLOCKMIX.*, 0 for every other (R49). -/
def finalProgress (n : Nat) : Instr → Nat
  | .smix => 2 * n
  | .blockmixNone => 1
  | .blockmixCopy => 1
  | .blockmixXor => 1
  | .prepare => 0
  | .restore => 0
  | .integerify => 0
  | .salsa8 => 0
  | .salsa8Nat => 0
  | .zeroize => 0

/-- The engine steps a micro-operation takes: SALSA_CORE one a round and one for the final addition (R50, log 18). -/
def MicroOp.cost : MicroOp → Nat
  | .salsa _ => Config.rounds + 1
  | _ => 1

/-- The engine steps of a list of micro-operations. -/
def opsCost (ops : List MicroOp) : Nat := (ops.map MicroOp.cost).sum

/-- The engine steps of a block sequence, with the step that ends it. -/
def seqCost (ops : List MicroOp) : Nat := opsCost ops + 1

/-- A bound on the engine steps of a command (R343): the steps of all its block sequences. -/
def commandBudget (c : Instr) (r n : Nat) : Nat :=
  match c with
  | .smix =>
    seqCost (prepSeq r) + n * seqCost (bmSeq r .copy .table 0) + seqCost [.fence]
      + n * seqCost (.integ .ji :: bmSeq r .xor .tableAtJI 0) + seqCost (restSeq r) + seqCost (zeroSeq r n)
  | .prepare => seqCost (prepSeq r)
  | .restore => seqCost (restSeq r)
  | .blockmixNone => seqCost (bmSeq r .none .other 0)
  | .blockmixCopy => seqCost (bmSeq r .copy .other 0)
  | .blockmixXor => seqCost (bmSeq r .xor .other 0)
  | .integerify => seqCost [.integ .j]
  | .salsa8 => seqCost (salsaSeq .salsa8)
  | .salsa8Nat => seqCost (salsaSeq .salsa8Nat)
  | .zeroize => seqCost (zeroSeq r n)

end Sys2Proof.Machine
end

