-- ==== Sys2Proof/Machine/Ops.lean ====
section
/-! DEFINITION. The shared operations: the memory port with its write buffer (20_memory.md), the micro-operations
(41_blockops.md), the end of a block sequence and of a command (44_controller.md R252), raising an error, the engine's
form of taking an exception (60_exceptions.md R281, R284, R286), and the issue of a command (R240, R241). -/

namespace Sys2Proof.Machine

/-! ### Free values (93_implementation_defined.md; log 6) -/

/-- The next free block: any bytes (R169). -/
def State.freeBlock (s : State) : Block :=
  Block.ofWords fun p => Config.freeWord (s.draws + p.val)

/-! ### The memory port and its write buffer (R36, R74, R85) -/

/-- The widths of the requests (R74); a hint names one 64-byte line. -/
def ReqKind.size : ReqKind → Nat
  | .readAligned => 64
  | .readUnaligned => 64
  | .readWord => 4
  | .writeAligned => 64
  | .writeUnaligned => 64
  | .writeNonTemporal => 64
  | .prefetch => 64
  | .flush => 64

/-- The alignment of the requests (R74). -/
def ReqKind.align : ReqKind → Nat
  | .readAligned => 64
  | .readUnaligned => 1
  | .readWord => 4
  | .writeAligned => 64
  | .writeUnaligned => 1
  | .writeNonTemporal => 64
  | .prefetch => 64
  | .flush => 64

/-- Hints have no architectural effect and never fail (R80). -/
def ReqKind.isHint : ReqKind → Bool
  | .prefetch => true
  | .flush => true
  | .readAligned => false
  | .readUnaligned => false
  | .readWord => false
  | .writeAligned => false
  | .writeUnaligned => false
  | .writeNonTemporal => false

/-- The kinds that store (R74). -/
def ReqKind.isWrite : ReqKind → Bool
  | .writeAligned => true
  | .writeUnaligned => true
  | .writeNonTemporal => true
  | .readAligned => false
  | .readUnaligned => false
  | .readWord => false
  | .prefetch => false
  | .flush => false

/-- The request is aligned as its kind demands (R74, R75). -/
def Request.isAligned (q : Request) : Bool := q.addr % q.kind.align == 0

/-- The request stays inside the address space (R76). -/
def Request.inSpace (q : Request) : Bool := decide (q.addr + q.kind.size ≤ Config.addressLimit)

/-- `BusErr`: the platform answers the request with an error (D10); never for a hint (R80). -/
def Request.fails (q : Request) (p : Platform) : Bool :=
  !q.kind.isHint && p.busErr.any fun e => decide (e.kind = q.kind ∧ e.first ≤ q.addr ∧ q.addr ≤ e.last)

/-- What a pending write makes of one byte. -/
def PendingWrite.patch (w : PendingWrite) (a : Nat) (v : Byte) : Byte :=
  if w.addr ≤ a ∧ a < w.addr + Config.blockBytes then w.data.byte (a - w.addr) else v

/-- The byte the engine reads: the latest engine write to it that comes earlier in reference order, "whatever the
write buffer holds", else memory's (R85). -/
def State.readByte (s : State) (a : Nat) : Byte :=
  s.wbuf.foldl (fun v w => w.patch a v) (s.mem.read a)

/-- `MemRead(a, 64)` as a block (R160). -/
def State.loadBlock (s : State) (a : Nat) : Block := Block.ofBytes fun k => s.readByte (a + k)

/-- `le32(MemRead(a, 4))` (R162). -/
def State.loadWord (s : State) (a : Nat) : Word :=
  le32 (s.readByte a) (s.readByte (a + 1)) (s.readByte (a + 2)) (s.readByte (a + 3))

/-- A write is issued: it enters the write buffer (R36, R163). -/
def State.storeBlock (s : State) (a : Nat) (b : Block) : State :=
  { s with wbuf := s.wbuf ++ [⟨a, b⟩] }

/-- A write that failed: its bytes are unspecified, drawn free (R169). -/
def State.storeFree (s : State) (a : Nat) : State :=
  { s.storeBlock a s.freeBlock with draws := s.draws + 16 }

/-- One pending write performed. -/
def Memory.perform (m : Memory) (w : PendingWrite) : Memory := m.writeBlock w.addr w.data

/-- Every pending write performed, oldest first: the FENCE and the completion fence (R87, R88). -/
def State.drainAll (s : State) : State :=
  { s with mem := s.wbuf.foldl Memory.perform s.mem, wbuf := [] }

/-- The oldest pending write performed (R86). -/
def State.drainOldest (s : State) : State :=
  match s.wbuf with
  | [] => s
  | w :: ws => { s with mem := s.mem.perform w, wbuf := ws }

/-- A request placed on the port: the model's history (R80, log 10). -/
def State.record (s : State) (q : Request) : State := { s with trace := q :: s.trace }

/-! ### The micro-operations (41_blockops.md) -/

/-- A block register written. -/
def State.setBlk (s : State) (g : BlkReg) (b : Block) : State := { s with dp := s.dp.set g b }

/-- `dst ← layout (load of 64 bytes)`: LDA and LDU (R160, R161). -/
def opLoad (layout : Layout) (dst : BlkReg) (a : Nat) (s : State) : State :=
  s.setBlk dst (layout.apply (s.loadBlock a))

/-- STA, STU and STN of a register: "Its effect on memory is that of an aligned write" (R81, R163 to R165). -/
def opStore (layout : Layout) (src : BlkReg) (a : Nat) (s : State) : State :=
  s.storeBlock a (layout.apply (s.dp.get src))

/-- STA of the zero block (R258). -/
def opStoreZero (a : Nat) (s : State) : State := s.storeBlock a zeroBlock

/-- `INTEG(W, N) = LDW(W + 16) mod N` (R227). -/
def integValue (s : State) (a : Nat) : Word :=
  BitVec.ofNat 32 ((s.loadWord a).toNat % s.latched.n.toNat)

/-- INTEG into J (R228) or into JI (R253). -/
def opInteg (dst : IndexReg) (a : Nat) (s : State) : State :=
  match dst with
  | .j => { s with j := integValue s a }
  | .ji => { s with dp := { s.dp with ji := integValue s a } }

/-- `dst ← XORB(a, b)` (R166). -/
def opXor (dst a b : BlkReg) (s : State) : State := s.setBlk dst ((s.dp.get a).xorb (s.dp.get b))

/-- `dst ← src` (R211). -/
def opMove (dst src : BlkReg) (s : State) : State := s.setBlk dst (s.dp.get src)

/-- One step of SALSA_CORE: round `t`, the first loading R and S, or after the last round the final addition (R135). -/
def opSalsa (g : BlkReg) (s : State) : State :=
  if s.seq.t < Config.rounds then
    let b := if s.seq.t = 0 then s.dp.get g else s.dp.rows
    let sv := if s.seq.t = 0 then s.dp.get g else s.dp.saved
    { s with dp := { s.dp with rows := salsaRound s.seq.t b, saved := sv } }
  else s.setBlk g (s.dp.rows.vadd s.dp.saved)

/-- The end-of-BM effects: `SWAP ← NOT SWAP` and `PROGRESS ← PROGRESS + 1` (R220). -/
def opBmEnd (s : State) : State :=
  { s with status := { s.status with swap := !s.status.swap }, progress := s.progress + 1#64 }

/-- The address a micro-operation's memory access starts at: CW + 16 for INTEG (R227), else base + offset. -/
def MicroOp.addr (s : State) : MicroOp → Nat
  | .lda _ _ b o => s.baseAddr b + o
  | .ldu _ b o => s.baseAddr b + o
  | .integ _ => s.cw + 16
  | .sta _ _ b o => s.baseAddr b + o
  | .staZero b o => s.baseAddr b + o
  | .stu _ _ b o => s.baseAddr b + o
  | .stn _ b o => s.baseAddr b + o
  | .xorb _ _ _ => 0
  | .move _ _ => 0
  | .salsa _ => 0
  | .pfn b o => s.baseAddr b + o
  | .flush b o => s.baseAddr b + o
  | .bmEnd => 0
  | .fence => 0
  | .zeroBegin => 0
  | .zeroEnd => 0

/-- The request kind a micro-operation issues, if any: a hint only while CTRL enables it (R74, R167, R168). -/
def MicroOp.reqKind (s : State) : MicroOp → Option ReqKind
  | .lda _ _ _ _ => some .readAligned
  | .ldu _ _ _ => some .readUnaligned
  | .integ _ => some .readWord
  | .sta _ _ _ _ => some .writeAligned
  | .staZero _ _ => some .writeAligned
  | .stu _ _ _ _ => some .writeUnaligned
  | .stn _ _ _ => some .writeNonTemporal
  | .xorb _ _ _ => none
  | .move _ _ => none
  | .salsa _ => none
  | .pfn _ _ => if s.ctrl.pfe then some .prefetch else none
  | .flush _ _ => if s.ctrl.fle then some .flush else none
  | .bmEnd => none
  | .fence => none
  | .zeroBegin => none
  | .zeroEnd => none

/-- The request a micro-operation places on the memory port (R74). -/
def MicroOp.request (op : MicroOp) (s : State) : Option Request :=
  (op.reqKind s).map fun k => ⟨k, op.addr s⟩

/-- What a micro-operation does when its request, if it has one, is served. -/
def MicroOp.effect (op : MicroOp) (s : State) : State :=
  match op with
  | .lda l dst _ _ => opLoad l dst (op.addr s) s
  | .ldu dst _ _ => opLoad .keep dst (op.addr s) s
  | .integ dst => opInteg dst (op.addr s) s
  | .sta l src _ _ => opStore l src (op.addr s) s
  | .staZero _ _ => opStoreZero (op.addr s) s
  | .stu l src _ _ => opStore l src (op.addr s) s
  | .stn src _ _ => opStore .keep src (op.addr s) s
  | .xorb dst a b => opXor dst a b s
  | .move dst src => opMove dst src s
  | .salsa g => opSalsa g s
  | .pfn _ _ => s
  | .flush _ _ => s
  | .bmEnd => opBmEnd s
  | .fence => s.drainAll
  | .zeroBegin => { s with zeroOk := true }
  | .zeroEnd => { s with dp := zeroDatapath }

/-- The position moves on to the next micro-operation (R55). -/
def State.nextOp (s : State) : State := { s with seq := { s.seq with q := s.seq.q + 1, t := 0 } }

/-- The position within SALSA_CORE moves on to the next round (R50). -/
def State.nextRound (s : State) : State := { s with seq := { s.seq with t := s.seq.t + 1 } }

/-- The position after a micro-operation: a round of SALSA_CORE moves `t`, everything else moves `q` (R50, R55). -/
def MicroOp.advance (op : MicroOp) (s : State) : State :=
  match op with
  | .salsa _ => if s.seq.t < Config.rounds then s.nextRound else s.nextOp
  | _ => s.nextOp

/-- A micro-operation whose request was served, or that has none. -/
def MicroOp.run (op : MicroOp) (s : State) : State := op.advance (op.effect s)

/-! ### The position's phase and block sequence, and completion (R252) -/

/-- The position moves to the start of a phase (R51, R253). -/
def State.enterPhase (s : State) (ph : Phase) : State :=
  { s with seq := ⟨ph, 0, 0, 0⟩, phaseDraw := s.phaseDraw ++ [ph] }

/-- The position moves to the next iteration of the phase (R253). -/
def State.nextIter (s : State) : State :=
  { s with seq := { s.seq with i := s.seq.i + 1, q := 0, t := 0 } }

/-- The running command is SMIX. -/
def State.isSmix (s : State) : Bool := decide (s.latched.cmd = some .smix)

/-- The running command ends with ZERO_SEQ (R285). -/
def State.zeroizing (s : State) : Bool :=
  match s.latched.cmd with
  | some c => zeroizes c
  | none => false

/-- ERRINFO and ERRADDR report the first failing request, if there was one (R286 item 1, R287). -/
def State.reportError (s : State) : State :=
  match s.pendingErr with
  | some a => { s with errInfo := .busError, errAddr := a, pendingErr := none }
  | none => s

/-- Completion behind the completion fence (R88, R252, R285, R286 item 8): BUSY = 0, DONE = 1, seq idle, ZEROED as ZERO_SEQ
left it for SMIX and ZEROIZE (R258), and the error, if any, reported. -/
def State.complete (s : State) : State :=
  let d := s.drainAll
  { d.reportError with
    status := s.status.completed s.pendingErr.isSome (if s.zeroizing then s.zeroOk else s.status.zeroed)
    seq := idleSeq
    phaseDraw := [] }

/-- The block sequence of the position (R50); empty when no command runs. -/
def State.blockOps (s : State) : List MicroOp :=
  match s.latched.cmd with
  | some c => blockSeq c s.latched.r.toNat s.latched.n.toNat s.seq.phase s.seq.i
  | none => []

/-! ### Bus errors (60_exceptions.md R286, R287) -/

/-- The first failing request of the command is kept (R286, R287 "if no error was recorded before it"). -/
def State.noteError (s : State) (a : Nat) : State :=
  { s with pendingErr := s.pendingErr.or (some (BitVec.ofNat 64 a)) }

/-- The block register a load fills. -/
def MicroOp.loadDst : MicroOp → List BlkReg
  | .lda _ dst _ _ => [dst]
  | .ldu dst _ _ => [dst]
  | .integ _ => []
  | .sta _ _ _ _ => []
  | .staZero _ _ => []
  | .stu _ _ _ _ => []
  | .stn _ _ _ => []
  | .xorb _ _ _ => []
  | .move _ _ => []
  | .salsa _ => []
  | .pfn _ _ => []
  | .flush _ _ => []
  | .bmEnd => []
  | .fence => []
  | .zeroBegin => []
  | .zeroEnd => []

/-- After the first failing request: a load that comes later in reference order. It may have been issued early (R86), so
its data may reach a later write; a load that fails leaves its register without a value (R286 item 5). -/
def laterLoad (layout : Layout) (dst : BlkReg) (q : Request) (acc : State × List BlkReg) : State × List BlkReg :=
  if q.fails acc.1.platform then (acc.1, dst :: acc.2)
  else (opLoad layout dst q.addr acc.1, acc.2.filter (· ≠ dst))

/-- After the first failing request: a register computed from others; without a value when one of them has none. -/
def laterCompute (dst : BlkReg) (srcs : List BlkReg) (b : Block) (acc : State × List BlkReg) : State × List BlkReg :=
  if srcs.any (· ∈ acc.2) then (acc.1, dst :: acc.2)
  else (acc.1.setBlk dst b, acc.2.filter (· ≠ dst))

/-- After the first failing request: a write that comes later in reference order "was either not performed or performed
with its reference value", a free choice; never performed when its value depends on a failing read (R286 item 4). A
performed write that itself fails leaves its bytes unspecified (R169, log 11). -/
def laterStore (layout : Layout) (src : BlkReg) (q : Request) (acc : State × List BlkReg) : State × List BlkReg :=
  if src ∈ acc.2 ∨ ¬ q.inSpace then acc
  else
    let s := { acc.1 with draws := acc.1.draws + 1 }
    if Config.freeBool acc.1.draws then
      if q.fails s.platform then (s.storeFree q.addr, acc.2) else (opStore layout src q.addr s, acc.2)
    else (s, acc.2)

/-- One micro-operation after the first failing request: what it may still have done (R286 items 4, 5). -/
def laterOp (acc : State × List BlkReg) (op : MicroOp) : State × List BlkReg :=
  match op with
  | .lda l dst _ _ => laterLoad l dst ⟨.readAligned, op.addr acc.1⟩ acc
  | .ldu dst _ _ => laterLoad .keep dst ⟨.readUnaligned, op.addr acc.1⟩ acc
  | .sta l src _ _ => laterStore l src ⟨.writeAligned, op.addr acc.1⟩ acc
  | .stu l src _ _ => laterStore l src ⟨.writeUnaligned, op.addr acc.1⟩ acc
  | .stn src _ _ => laterStore .keep src ⟨.writeNonTemporal, op.addr acc.1⟩ acc
  | .xorb dst a b => laterCompute dst [a, b] ((acc.1.dp.get a).xorb (acc.1.dp.get b)) acc
  | .move dst src => laterCompute dst [src] (acc.1.dp.get src) acc
  | .salsa g => laterCompute g [g] (salsaCore (acc.1.dp.get g)) acc
  | .integ _ => acc
  | .staZero _ _ => acc
  | .pfn _ _ => acc
  | .flush _ _ => acc
  | .bmEnd => acc
  | .fence => acc
  | .zeroBegin => acc
  | .zeroEnd => acc

/-- The writes after the first failing request: only the write buffer and the draws change (R286 items 4, 5). -/
def State.laterWrites (s : State) (ops : List MicroOp) (lost : List BlkReg) : State :=
  let r := (ops.foldl laterOp (s, lost)).1
  { s with wbuf := r.wbuf, draws := r.draws }

/-- SMIX before its RESTORE phase: no RESTORE write is performed, and ZERO_SEQ overwrites every scratch byte a later write
could have reached (R286, log 11). -/
def State.beforeRestore (s : State) : Bool :=
  s.isSmix && decide (s.seq.phase ≠ .restore)

/-- The command stops on the error noted, `ops` its micro-operations not yet performed: later writes performed or not
(R286 items 4, 5), then SMIX runs ZERO_SEQ and any other command ends (R286 items 6 to 8). SWAP and PROGRESS stay as the
sequence left them. -/
def State.stopCommand (s : State) (ops : List MicroOp) (lost : List BlkReg) : State :=
  let u := if s.beforeRestore then s else s.laterWrites ops lost
  if s.isSmix then u.enterPhase .zeroize else u.complete

/-- What a failing request leaves: the error noted, and the bytes of a write unspecified (R169, R286 items 1, 3). -/
def State.failRequest (s : State) (q : Request) : State :=
  if q.kind.isWrite then (s.noteError q.addr).storeFree q.addr else s.noteError q.addr

/-- The error stop on the failing request `q` of micro-operation `op` (R286). -/
def errorStop (op : MicroOp) (q : Request) (s : State) : State :=
  (s.failRequest q).stopCommand (s.blockOps.drop (s.seq.q + 1)) op.loadDst

/-- A failing streaming store: its error "may reach the engine late, at the FENCE phase or at completion" (R286), so the
sequence goes on (log 24). -/
def streamError (q : Request) (s : State) : State := (s.failRequest q).nextOp

/-- A failing zero write: it does not stop the sequence, its bytes are unspecified, and `ok ← 0` (R258, R287). -/
def failedZero (q : Request) (s : State) : State := { (s.failRequest q).nextOp with zeroOk := false }

/-- A request answered with an error (R286, R287). -/
def busError (op : MicroOp) (q : Request) (s : State) : State :=
  if s.seq.phase = .zeroize then failedZero q s
  else if q.kind = .writeNonTemporal then streamError q s
  else errorStop op q s

/-- A streaming store's error is on its way to the engine; in ZERO_SEQ no error has a sequence left to stop (R287). -/
def State.errorInFlight (s : State) : Bool := s.pendingErr.isSome && decide (s.seq.phase ≠ .zeroize)

/-- The error on its way reaches the engine before its next micro-operation: a draw (93 U21, log 24). -/
def State.errorArrives (s : State) : Bool := s.errorInFlight && Config.freeBool s.draws

/-- The draw of `errorArrives` is used up. -/
def State.countArrival (s : State) : State := if s.errorInFlight then { s with draws := s.draws + 1 } else s

/-- A streaming store's error has reached the engine: the command stops before its next micro-operation (R286). -/
def lateStop (s : State) : State := s.stopCommand (s.blockOps.drop s.seq.q) []

/-! ### The end of a block sequence (R252, R253) -/

/-- The last micro-operation of a block sequence has been performed: the next iteration, the next phase, or completion
(R252, R253). An error on its way has reached the engine "at the latest" at the end of FENCE (R255), and completion reports
it (R286). -/
def endBlock (s : State) : State :=
  match s.seq.phase with
  | .prepare => if s.isSmix then s.enterPhase .fill else s.complete
  | .fill => if s.seq.i + 1 < s.latched.n.toNat then s.nextIter else s.enterPhase .fence
  | .fence => if s.pendingErr.isSome then lateStop s else s.enterPhase .mix
  | .mix => if s.seq.i + 1 < s.latched.n.toNat then s.nextIter else s.enterPhase .restore
  | .restore => if s.isSmix then s.enterPhase .zeroize else s.complete
  | .zeroize => s.complete
  | .blockmix => s.complete
  | .integerify => s.complete
  | .salsa => s.complete
  | .idle => s.complete

/-! ### The engine's step (R252) -/

/-- One micro-operation: its request placed on the port and served or answered with an error, then the next position. A
request the engine never issues is a fault (R75, R76). -/
def performOp (op : MicroOp) (s : State) : Host.Outcome State Fault Refusal :=
  match op.request s with
  | none => .next (op.run s)
  | some q =>
    if !q.inSpace then .fault .outsideAddressSpace
    else if !q.isAligned then .fault .misalignedRequest
    else if q.fails s.platform then .next (busError op q (s.record q))
    else .next (op.run (s.record q))

/-- The sequencer's step: the next micro-operation, or the end of the block sequence (R252). -/
def sequencerStep (s : State) : Host.Outcome State Fault Refusal :=
  match s.blockOps[s.seq.q]? with
  | some op => performOp op s
  | none => .next (endBlock s)

/-- One step of the engine agent while BUSY = 1: the sequencer's step (R252), or the stop on a streaming store's error that
arrives now (R286). -/
def engineStep (s : State) : Host.Outcome State Fault Refusal :=
  if s.errorArrives then .next (lateStop s.countArrival) else sequencerStep s.countArrival

/-- One turn of the engine agent: nothing happens when no command runs. -/
def engineTurn (s : State) : Host.Outcome State Fault Refusal :=
  if s.status.busy then engineStep s else .next s

/-- Engine steps until the command has ended; `fuel` bounds them (R343). -/
def runToIdle : Nat → State → Host.Outcome State Fault Refusal
  | 0, s => .next s
  | fuel + 1, s =>
    if s.status.busy then
      match engineStep s with
      | .next s' => runToIdle fuel s'
      | .fault f => .fault f
      | .refused r => .refused r
    else .next s

/-! ### Issue, rejection and acceptance (R240, R241, R284) -/

/-- The registers a CMD write sets before the decode (R240). -/
def State.beginIssue (s : State) (v : Reg64) : State :=
  { s with
    cmd := v
    status := s.status.issued
    errInfo := .noError
    errAddr := 0#64
    progress := 0#64 }

/-- `reject(e)` (R240, R284): no memory access, BUSY stays 0. -/
def State.reject (s : State) (e : ErrCode) : State :=
  { s with errInfo := e, status := s.status.rejected }

/-- A CMD word that decodes to ILLEGAL (R104, R240). -/
def State.rejectIllegal (s : State) (v : Reg64) : State := (s.beginIssue v).reject .illegalCmd

/-- `accept(c)` (R241). -/
def State.accept (s : State) (i : Instr) : State :=
  { s with
    latched := latch i s
    status := s.status.accepted (clearsSwap i)
    seq := ⟨firstPhase i, 0, 0, 0⟩
    pendingErr := none
    phaseDraw := [firstPhase i]
    progressSeen := 0 }

/-- A host write ignored because BUSY = 1 (R53, R240). -/
def State.ignoreWrite (s : State) : State := { s with status := s.status.ignoredWrite }

/-- The acceptance step of a CMD write of command `i` (R240, R241): ignored while busy, rejected, or accepted. Regions in
device memory or over the engine's window are outside the spec and refused (U16, U17). -/
def issueCommand (i : Instr) (s : State) : Host.Outcome State Fault Refusal :=
  if s.status.busy then .next s.ignoreWrite
  else
    match check i s with
    | some e => .next ((s.beginIssue (encode i)).reject e)
    | none =>
      if !s.platform.ordinary (commandRegions i s) then .refused .deviceRegion
      else if !s.platform.clearOfWindow (commandRegions i s) then .refused .windowOverlap
      else .next ((s.beginIssue (encode i)).accept i)

/-- A whole command as one step: the acceptance step and, when the command was accepted, its micro-operations to
completion (R252). -/
def runCommand (i : Instr) (s : State) : Host.Outcome State Fault Refusal :=
  if s.status.busy then .next s.ignoreWrite
  else
    match issueCommand i s with
    | .next s' => runToIdle (commandBudget i s'.latched.r.toNat s'.latched.n.toNat) s'
    | .fault f => .fault f
    | .refused r => .refused r

end Sys2Proof.Machine
end

