-- ==== Sys2Proof/Machine/BlockMix.lean ====
section
/-! DEFINITION. BlockMix in its three modes and Integerify (43_blockmix.md R221 to R223, R228). -/

namespace Sys2Proof.Machine

/-- BLOCKMIX.NONE: `BM(CW, -, CS, r, NONE)` (R221). -/
def execBlockmixNone (s : State) : Host.Outcome State Fault Refusal := runCommand .blockmixNone s

/-- BLOCKMIX.COPY: `BM(CW, OTHER_BASE, CS, r, COPY)` (R222). -/
def execBlockmixCopy (s : State) : Host.Outcome State Fault Refusal := runCommand .blockmixCopy s

/-- BLOCKMIX.XOR: `BM(CW, OTHER_BASE, CS, r, XOR)` (R223). -/
def execBlockmixXor (s : State) : Host.Outcome State Fault Refusal := runCommand .blockmixXor s

/-- INTEGERIFY: `J ← INTEG(CW, N)` (R228). -/
def execIntegerify (s : State) : Host.Outcome State Fault Refusal := runCommand .integerify s

end Sys2Proof.Machine
end

