-- ==== Sys2Proof/Machine/Controller.lean ====
section
/-! DEFINITION. The SMix controller: SMIX and ZEROIZE (44_controller.md R253, R259). -/

namespace Sys2Proof.Machine

/-- SMIX: the full SMix of one element, in place (R253). -/
def execSmix (s : State) : Host.Outcome State Fault Refusal := runCommand .smix s

/-- ZEROIZE: zero the scratch regions (R259). -/
def execZeroize (s : State) : Host.Outcome State Fault Refusal := runCommand .zeroize s

end Sys2Proof.Machine
end

