-- ==== Sys2Proof/Machine/LayoutCommands.lean ====
section
/-! DEFINITION. The layout transform: PREPARE and RESTORE (42_layout.md R194, R198). -/

namespace Sys2Proof.Machine

/-- PREPARE: the element into the working buffer, in working layout; SWAP ← 0 (R194). -/
def execPrepare (s : State) : Host.Outcome State Fault Refusal := runCommand .prepare s

/-- RESTORE: the current working buffer back to the element, in natural layout and nominal order (R198). -/
def execRestore (s : State) : Host.Outcome State Fault Refusal := runCommand .restore s

end Sys2Proof.Machine
end

