-- ==== Sys2Proof/Machine/Salsa.lean ====
section
/-! DEFINITION. The commands that expose the core: SALSA8 and SALSA8.NAT (40_salsa_core.md R145, R146). -/

namespace Sys2Proof.Machine

/-- SALSA8: the core in place on the diagonal-layout block at OTHER_BASE (R145). -/
def execSalsa8 (s : State) : Host.Outcome State Fault Refusal := runCommand .salsa8 s

/-- SALSA8.NAT: the core in place on the natural-layout block at OTHER_BASE (R146). -/
def execSalsa8Nat (s : State) : Host.Outcome State Fault Refusal := runCommand .salsa8Nat s

end Sys2Proof.Machine
end

