-- ==== Sys2Proof/Machine/Dispatch.lean ====
section
/-! DEFINITION. One arm per command of spec/opcode_table.json. -/

namespace Sys2Proof.Machine

def exec (i : Instr) (s : State) : Host.Outcome State Fault Refusal :=
  match i with
  | .smix => Sys2Proof.Machine.execSmix s
  | .prepare => Sys2Proof.Machine.execPrepare s
  | .restore => Sys2Proof.Machine.execRestore s
  | .blockmixNone => Sys2Proof.Machine.execBlockmixNone s
  | .blockmixCopy => Sys2Proof.Machine.execBlockmixCopy s
  | .blockmixXor => Sys2Proof.Machine.execBlockmixXor s
  | .integerify => Sys2Proof.Machine.execIntegerify s
  | .salsa8 => Sys2Proof.Machine.execSalsa8 s
  | .salsa8Nat => Sys2Proof.Machine.execSalsa8Nat s
  | .zeroize => Sys2Proof.Machine.execZeroize s

end Sys2Proof.Machine
end

