-- ==== Sys2Proof/Machine/Window.lean ====
section
/-! DEFINITION. The agents outside the engine: the host's accesses to the register window (10_state.md R40 to R53,
30_encoding.md R110), the host programs (R111, R112), foreign accesses to memory (20_memory.md R89, R90), and the reset
input (70_reset_and_hazards.md R320, R321). -/

namespace Sys2Proof.Machine

/-! ### Reading registers -/

/-- The phases PHASE may still show from `k` on: the ones already passed over are never shown again (R51). -/
def State.dropPhases (s : State) (k : Nat) : State :=
  { s with phaseDraw := s.phaseDraw.drop k, draws := s.draws + 1 }

/-- How many of the remaining phases a read of PHASE passes over: a draw (R51, R339). -/
def State.phaseIndex (s : State) : Nat := Config.freeNat s.draws % s.phaseDraw.length

/-- A read of STATUS (R43): PHASE is IDLE when idle, and while busy a phase the command has reached, "not earlier in its
phase order than any code read before in the same command" (R51). -/
def State.readStatus (s : State) : Reg64 × State :=
  if s.status.busy then
    (s.status.word (s.phaseDraw.getD s.phaseIndex s.seq.phase), s.dropPhases s.phaseIndex)
  else (s.status.word s.seq.phase, s)

/-- A value PROGRESS may show while busy: a draw between the value last read in the same command and the BlockMix
operations completed so far, which the final count is never below (R49, R339). DESIGN CHOICE (log 13): R49 and R339 allow any
value up to the final count, so they do not promise what this bound gives, that the BMs a read shows have ended and have
toggled SWAP. -/
def State.progressDraw (s : State) : Nat :=
  s.progressSeen + Config.freeNat s.draws % (s.progress.toNat - s.progressSeen + 1)

/-- A read of PROGRESS (R49). -/
def State.readProgress (s : State) : Reg64 × State :=
  if s.status.busy then
    (BitVec.ofNat 64 s.progressDraw, { s with progressSeen := s.progressDraw, draws := s.draws + 1 })
  else (s.progress, s)

/-- A read of a register: the value, and the state after it. Reads have no effect on the engine (R78); only the model's
draws move. -/
def readReg (r : Reg) (s : State) : Reg64 × State :=
  match r with
  | .id => (Config.idValue, s)
  | .ctrl => (s.ctrl.word, s)
  | .status => s.readStatus
  | .cmd => (s.cmd, s)
  | .errInfo => (s.errInfo.word, s)
  | .errAddr => (s.errAddr, s)
  | .dataBase => (s.params.dataBase, s)
  | .byteLen => (s.params.byteLen, s)
  | .elemCount => (s.params.elemCount, s)
  | .elemIndex => (s.params.elemIndex, s)
  | .costN => (s.params.costN, s)
  | .workBase => (s.params.workBase, s)
  | .shufBase => (s.params.shufBase, s)
  | .tableBase => (s.params.tableBase, s)
  | .otherBase => (s.params.otherBase, s)
  | .j => (s.j.setWidth 64, s)
  | .progress => s.readProgress

/-- A read at an offset of the window: reserved offsets read as zero (R52). -/
def readOffset (o : BitVec 8) (s : State) : Reg64 × State :=
  match Reg.atOffset o with
  | some r => readReg r s
  | none => (0#64, s)

/-! ### Writing registers -/

/-- A write of a parameter register: ignored while BUSY = 1, with WIGN set (R47, R53). -/
def State.writeParams (s : State) (p : Params) : State :=
  if s.status.busy then s.ignoreWrite else { s with params := p }

/-- A write of STATUS: only the W1C bits; clearing ERR also clears ERRINFO and ERRADDR (R43). -/
def State.writeStatus (s : State) (v : Reg64) : State :=
  { s with
    status := s.status.clearOnes v
    errInfo := if v.getLsbD 2 then .noError else s.errInfo
    errAddr := if v.getLsbD 2 then 0#64 else s.errAddr }

/-- A write of CMD (R240): ignored while busy; an ILLEGAL word is rejected; a command runs, whole or only its acceptance
step (R252, log 7). -/
def writeCmd (v : Reg64) (s : State) : Host.Outcome State Fault Refusal :=
  if s.status.busy then .next s.ignoreWrite
  else
    match decode v with
    | .error _ => .next (s.rejectIllegal v)
    | .ok i =>
      match s.pace with
      | .wholeCommand => exec i s
      | .microOp => issueCommand i s

/-- A write of a register. ID, ERRINFO, ERRADDR, J and PROGRESS ignore it (R53). -/
def writeReg (r : Reg) (v : Reg64) (s : State) : Host.Outcome State Fault Refusal :=
  match r with
  | .id => .next s
  | .ctrl => .next { s with ctrl := Ctrl.ofWord v }
  | .status => .next (s.writeStatus v)
  | .cmd => writeCmd v s
  | .errInfo => .next s
  | .errAddr => .next s
  | .dataBase => .next (s.writeParams { s.params with dataBase := v })
  | .byteLen => .next (s.writeParams { s.params with byteLen := v })
  | .elemCount => .next (s.writeParams { s.params with elemCount := v })
  | .elemIndex => .next (s.writeParams { s.params with elemIndex := v })
  | .costN => .next (s.writeParams { s.params with costN := v })
  | .workBase => .next (s.writeParams { s.params with workBase := v })
  | .shufBase => .next (s.writeParams { s.params with shufBase := v })
  | .tableBase => .next (s.writeParams { s.params with tableBase := v })
  | .otherBase => .next (s.writeParams { s.params with otherBase := v })
  | .j => .next s
  | .progress => .next s

/-- A write at an offset of the window: reserved offsets ignore it (R52, R53). -/
def writeOffset (o : BitVec 8) (v : Reg64) (s : State) : Host.Outcome State Fault Refusal :=
  match Reg.atOffset o with
  | some r => writeReg r v s
  | none => .next s

/-- The host bus answers. -/
def State.respond (s : State) (d : Reg64) (e : Bool) : State := { s with resp := some ⟨d, e⟩ }

/-- One access of the host to the window. Of a wrong size or offset it gets an error response, changes no state, and a read
returns 0 (R110). -/
def hostAccess (a : Access) (s : State) : Host.Outcome State Fault Refusal :=
  if !a.wellFormed then .next (s.respond 0#64 true)
  else
    match a.op with
    | .read =>
      let r := readOffset a.offset s
      .next (r.2.respond r.1 false)
    | .write v => writeOffset a.offset v (s.respond 0#64 false)

/-! ### Foreign accesses to memory (R88 to R90) -/

/-- A byte belongs to one of the regions. -/
def inRegions (rs : List Region) (a : Nat) : Bool := rs.any fun g => g.has a

/-- Another agent writes a byte: refused when the byte belongs to the running command (R90, U11). DESIGN CHOICE: a window
address, where the platform maps the window into memory (log 23), and an address in device memory (log 25) are ordinary
memory here, without side effects. -/
def foreignStore (a : Nat) (v : Byte) (s : State) : Host.Outcome State Fault Refusal :=
  if Config.addressLimit ≤ a then .fault .noSuchAddress
  else if s.status.busy && inRegions s.latched.owned a then .refused .foreignAccess
  else .next { s with mem := s.mem.write a v }

/-- Another agent reads a byte: refused when the byte belongs to the running command, whether the command writes it (R90,
R333) or only reads it (D32, U11; log 26). DESIGN CHOICE: a window address (log 23) and an address in device memory (log 25)
are ordinary memory here, without side effects. -/
def foreignLoad (a : Nat) (s : State) : Host.Outcome State Fault Refusal :=
  if Config.addressLimit ≤ a then .fault .noSuchAddress
  else if s.status.busy && inRegions s.latched.owned a then .refused .foreignAccess
  else .next (s.respond ((s.mem.read a).setWidth 64) false)

/-! ### Reset (R320, R321) -/

/-- Every byte of a region drawn free: "any value" (R321). -/
def freeRegion (acc : Memory × Nat) (g : Region) : Memory × Nat :=
  (Memory.writeBytes g.size acc.1 g.base (fun k => Config.freeByte (acc.2 + k)), acc.2 + g.size)

/-- What a reset leaves in memory: nothing changes when no command runs, else each byte of the command's write set is any
value, and the buffered writes are discarded (R320, R321). -/
def State.memoryAfterReset (s : State) : Memory × Nat :=
  if s.status.busy then s.latched.writes.foldl freeRegion (s.mem, s.draws) else (s.mem, s.draws)

/-- The reset input asserted: every register takes its reset value; memory, the platform and what the other agents will do
stay (R320, R321, log 14). -/
def resetEngine (s : State) : State :=
  { State.reset with
    mem := s.memoryAfterReset.1
    draws := s.memoryAfterReset.2
    inputs := s.inputs
    resp := s.resp
    trace := s.trace
    platform := s.platform
    pace := s.pace }

/-! ### The inputs, one at a time (log 8) -/

/-- The input stays first in the queue. -/
def State.requeue (s : State) (i : Input) : State := { s with inputs := i :: s.inputs }

/-- One turn of `wait`: a STATUS read; while BUSY = 1 the engine takes a turn and the wait goes on (R112, log 21). -/
def waitTurn (s : State) : Host.Outcome State Fault Refusal :=
  let p := s.readStatus
  let t := p.2.respond p.1 false
  if t.status.busy then
    match engineStep t with
    | .next u => .next (u.requeue .wait)
    | .fault f => .fault f
    | .refused r => .refused r
  else .next t

/-- One input, already taken off the queue. -/
def takeInput (i : Input) (s : State) : Host.Outcome State Fault Refusal :=
  match i with
  | .access a => hostAccess a s
  | .wait => waitTurn s
  | .tick => engineTurn s
  | .drain => .next s.drainOldest
  | .memStore a v => foreignStore a v s
  | .memLoad a => foreignLoad a s
  | .reset => .next (resetEngine s)

/-- The queue without its first input. -/
def State.popInput (s : State) (rest : List Input) : State := { s with inputs := rest }

/-! ### Host programs (R111, R112) -/

/-- `wr REG, value` (R111). -/
def wrInput (r : Reg) (v : Reg64) : Input := .access ⟨r.offset, 8, .write v⟩

/-- `rd REG` (R111). -/
def rdInput (r : Reg) : Input := .access ⟨r.offset, 8, .read⟩

/-- The expansion of one line of a host program: `cmd M` is a write of CMD, `ack` writes 0x16 to STATUS, `run M` is
`cmd M` then `wait` (R112). -/
def hostOpInputs : HostOp → List Input
  | .wr r v => [wrInput r v]
  | .rd r => [rdInput r]
  | .cmd i => [wrInput .cmd (encode i)]
  | .wait => [.wait]
  | .ack => [wrInput .status 0x16#64]
  | .run i => [wrInput .cmd (encode i), .wait]

/-- A host program as the inputs it makes. -/
def programInputs (p : List HostOp) : List Input := p.flatMap hostOpInputs

end Sys2Proof.Machine
end

