-- ==== Sys2Proof/Machine/Step.lean ====
section
/-! DEFINITION. One step of the machine: the next input of the other agents, or, when none is waiting, a turn of the
engine (44_controller.md R252). -/

namespace Sys2Proof.Machine

/-- One step. -/
def step (s : State) : Host.Outcome State Fault Refusal :=
  match s.inputs with
  | [] => engineTurn s
  | i :: rest => takeInput i (s.popInput rest)

/-- The state in which the next step writes the word `w` to CMD and runs it whole: commands arrive as host writes of CMD
(R92, R100). Bits above `nbits` are 0 (log 8). -/
def State.withFetchWord (s : State) (nbits w : Nat) : State :=
  { s with
    inputs := wrInput .cmd (BitVec.ofNat 64 (w % 2 ^ nbits)) :: s.inputs
    pace := .wholeCommand }

end Sys2Proof.Machine
end

