-- ==== Sys2Proof/Machine/Scrypt.lean ====
section
/-! DEFINITION. The scrypt-level meaning the engine's results are held against: the scalar Salsa20/8 core
(40_salsa_core.md R137), BlockMix and SMix on natural blocks in nominal order (00_scope.md R15), and the working layout
(42_layout.md R193). No meaning uses these; statements do. -/

namespace Sys2Proof

/-- A block with word `k` replaced. -/
def Block.setWord (z : Block) (k : Fin 16) (v : Word) : Block := Block.ofWords fun p => if p = k then v else z.word p

/-- `QR(a, b, c, d)` of the scalar core (R137). -/
def quarterRound (z : Block) (a b c d : Fin 16) : Block :=
  let z₁ := z.setWord b (z.word b ^^^ rotl32 (z.word a + z.word d) 7)
  let z₂ := z₁.setWord c (z₁.word c ^^^ rotl32 (z₁.word b + z₁.word a) 9)
  let z₃ := z₂.setWord d (z₂.word d ^^^ rotl32 (z₂.word c + z₂.word b) 13)
  z₃.setWord a (z₃.word a ^^^ rotl32 (z₃.word d + z₃.word c) 18)

/-- The column round of the scalar core (R137). -/
def columnRound (z : Block) : Block :=
  quarterRound (quarterRound (quarterRound (quarterRound z 0 4 8 12) 5 9 13 1) 10 14 2 6) 15 3 7 11

/-- The row round of the scalar core (R137). -/
def rowRound (z : Block) : Block :=
  quarterRound (quarterRound (quarterRound (quarterRound z 0 1 2 3) 5 6 7 4) 10 11 8 9) 15 12 13 14

/-- `k` double rounds: a column round, then a row round (R137). -/
def doubleRounds : Nat → Block → Block
  | 0, z => z
  | k + 1, z => rowRound (columnRound (doubleRounds k z))

/-- The scalar core Salsa20/8 on a natural block (R137): four double rounds and the final addition. -/
def salsa20_8 (x : Block) : Block := (doubleRounds 4 x).vadd x

/-- The outputs Y[i] of BlockMix: `X ← H(X xor B[i])` along the blocks (R15). -/
def blockMixChain (x : Block) : List Block → List Block
  | [] => []
  | b :: bs => salsa20_8 (x.xorb b) :: blockMixChain (salsa20_8 (x.xorb b)) bs

/-- The members at even positions. -/
def evens {α : Type} : List α → List α
  | [] => []
  | [a] => [a]
  | a :: _ :: as => a :: evens as

/-- The members at odd positions. -/
def odds {α : Type} : List α → List α
  | [] => []
  | [_] => []
  | _ :: b :: bs => b :: odds bs

/-- The last block of an element. -/
def lastBlock (bs : List Block) : Block := bs.getLastD Machine.zeroBlock

/-- `BlockMix(B)`: "return (Y[0], Y[2], .., Y[2r−2], Y[1], Y[3], .., Y[2r−1])" (R15). -/
def blockMix (bs : List Block) : List Block :=
  let ys := blockMixChain (lastBlock bs) bs
  evens ys ++ odds ys

/-- Two elements XORed block by block. -/
def xorBlocks (a b : List Block) : List Block := List.zipWith Block.xorb a b

/-- `le32(X[2r−1] bytes 0..3) mod N` (R15, R16). -/
def integerifyIndex (n : Nat) (bs : List Block) : Nat := ((lastBlock bs).word 0).toNat % n

/-- `k` BlockMix operations in a row: the fill loop (R15, R254). -/
def blockMixTimes : Nat → List Block → List Block
  | 0, x => x
  | k + 1, x => blockMix (blockMixTimes k x)

/-- `k` iterations of the mix loop against the table `V[j] = BlockMix^j(x₀)` (R15, R256). -/
def mixTimes (n : Nat) (x₀ : List Block) : Nat → List Block → List Block
  | 0, x => x
  | k + 1, x =>
    let y := mixTimes n x₀ k x
    blockMix (xorBlocks y (blockMixTimes (integerifyIndex n y) x₀))

/-- `SMix(B, N)` (R15). -/
def scryptSMix (n : Nat) (x : List Block) : List Block := mixTimes n x n (blockMixTimes n x)

/-- `WL(E)`: the working-layout image of a nominal element (R193). -/
def workLayout (e : List Block) : List Block := diag (lastBlock e) :: e.dropLast.map diag

/-- `WLINV(X)` (R193). -/
def workLayoutInv (x : List Block) : List Block :=
  match x with
  | [] => []
  | b :: bs => bs.map undiag ++ [undiag b]

namespace Machine

/-- The `k` blocks memory holds from an address up. -/
def Memory.blocks (m : Memory) (a k : Nat) : List Block :=
  (List.range k).map fun q => m.readBlock (a + 64 * q)

end Machine

end Sys2Proof
end

