-- ==== Sys2Proof/Safety.lean ====
section
/-! DEFINITION. What counts as a good state and a safe run: the invariant every step keeps, and the conditions under which a
command is accepted and runs without a bus error. -/

namespace Sys2Proof.Machine

/-- A buffer the engine accesses with aligned requests: 64-byte aligned and inside the address space (R244, R245). -/
def Placed (base size : Nat) : Prop := base % 64 = 0 ∧ base + size ≤ Config.addressLimit

/-- Every pending write lies in the address space (R76). -/
def BufferOk (ws : List PendingWrite) : Prop := ∀ w ∈ ws, w.addr + Config.blockBytes ≤ Config.addressLimit

/-- r and EB as A1 defines them (R242). -/
def sizesOk (l : Latched) : Prop := 1 ≤ l.r.toNat ∧ l.eb.toNat = 128 * l.r.toNat

/-- What the acceptance checks leave true of a running command's latched parameters (R242 to R247). -/
def geometryOk (c : Instr) (s : State) : Prop :=
  match c with
  | .smix => sizesOk s.latched ∧ 1 ≤ s.latched.n.toNat
      ∧ s.latched.elem.toNat + 128 * s.latched.r.toNat ≤ Config.addressLimit
      ∧ Placed s.latched.work.toNat (128 * s.latched.r.toNat)
      ∧ Placed s.latched.shuf.toNat (128 * s.latched.r.toNat)
      ∧ Placed s.latched.table.toNat (128 * s.latched.r.toNat * s.latched.n.toNat)
  | .prepare => sizesOk s.latched
      ∧ s.latched.elem.toNat + 128 * s.latched.r.toNat ≤ Config.addressLimit
      ∧ Placed s.latched.work.toNat (128 * s.latched.r.toNat)
  | .restore => sizesOk s.latched
      ∧ s.latched.elem.toNat + 128 * s.latched.r.toNat ≤ Config.addressLimit
      ∧ Placed s.cw (128 * s.latched.r.toNat)
  | .blockmixNone => sizesOk s.latched
      ∧ Placed s.latched.work.toNat (128 * s.latched.r.toNat)
      ∧ Placed s.latched.shuf.toNat (128 * s.latched.r.toNat)
  | .blockmixCopy => sizesOk s.latched
      ∧ Placed s.latched.work.toNat (128 * s.latched.r.toNat)
      ∧ Placed s.latched.shuf.toNat (128 * s.latched.r.toNat)
      ∧ Placed s.latched.other.toNat (128 * s.latched.r.toNat)
  | .blockmixXor => sizesOk s.latched
      ∧ Placed s.latched.work.toNat (128 * s.latched.r.toNat)
      ∧ Placed s.latched.shuf.toNat (128 * s.latched.r.toNat)
      ∧ Placed s.latched.other.toNat (128 * s.latched.r.toNat)
  | .integerify => 1 ≤ s.latched.n.toNat ∧ Placed s.cw 64
  | .salsa8 => Placed s.latched.other.toNat 64
  | .salsa8Nat => Placed s.latched.other.toNat 64
  | .zeroize => sizesOk s.latched ∧ 1 ≤ s.latched.n.toNat
      ∧ Placed s.latched.work.toNat (128 * s.latched.r.toNat)
      ∧ Placed s.latched.shuf.toNat (128 * s.latched.r.toNat)
      ∧ Placed s.latched.table.toNat (128 * s.latched.r.toNat * s.latched.n.toNat)

/-- The phases a command goes through, in order (R51). -/
def phasesOf : Instr → List Phase
  | .smix => [.prepare, .fill, .fence, .mix, .restore, .zeroize]
  | .prepare => [.prepare]
  | .restore => [.restore]
  | .blockmixNone => [.blockmix]
  | .blockmixCopy => [.blockmix]
  | .blockmixXor => [.blockmix]
  | .integerify => [.integerify]
  | .salsa8 => [.salsa]
  | .salsa8Nat => [.salsa]
  | .zeroize => [.zeroize]

/-- The sequencer position is one of the running command's: its phase, and the bounds of R55 on i, q and t. -/
def positionOk (c : Instr) (s : State) : Prop :=
  s.seq.phase ∈ phasesOf c
    ∧ (if s.seq.phase = .fill ∨ s.seq.phase = .mix then s.seq.i < s.latched.n.toNat else s.seq.i = 0)
    ∧ s.seq.q ≤ s.blockOps.length
    ∧ s.seq.t ≤ Config.rounds

/-- PROGRESS at the position: the BlockMix operations completed, the last micro-operation of BM counted (R49, R220); after a
stop in the middle, what the sequence had reached (R286). -/
def progressOk (c : Instr) (s : State) : Prop :=
  let ended := if s.seq.q = s.blockOps.length then 1 else 0
  match s.seq.phase with
  | .idle => s.progress.toNat = 0
  | .prepare => s.progress.toNat = 0
  | .fill => s.progress.toNat = s.seq.i + ended
  | .fence => s.progress.toNat = s.latched.n.toNat
  | .mix => s.progress.toNat = s.latched.n.toNat + s.seq.i + ended
  | .restore => s.progress.toNat = finalProgress s.latched.n.toNat c
  | .zeroize => s.progress.toNat ≤ finalProgress s.latched.n.toNat c
  | .blockmix => s.progress.toNat = ended
  | .integerify => s.progress.toNat = 0
  | .salsa => s.progress.toNat = 0

/-- The phases in which a streaming store's error can be on its way: FILL and FENCE of SMIX, and BLOCKMIX.COPY (R286). -/
def streamPhases : Instr → List Phase
  | .smix => [.fill, .fence]
  | .blockmixCopy => [.blockmix]
  | .prepare => []
  | .restore => []
  | .blockmixNone => []
  | .blockmixXor => []
  | .integerify => []
  | .salsa8 => []
  | .salsa8Nat => []
  | .zeroize => []

/-- BUSY = 1 and the command is `c`. -/
structure RunsCommand (c : Instr) (s : State) : Prop where
  /-- The latched command (R34). -/
  cmd : s.latched.cmd = some c
  /-- The latched parameters passed the checks (R242 to R247). -/
  geometry : geometryOk c s
  /-- The position is one of the command's (R55). -/
  position : positionOk c s
  /-- JI is a table index once INTEG has run (R256). -/
  tableIndex : s.seq.phase = .mix → 1 ≤ s.seq.q → s.dp.ji.toNat < s.latched.n.toNat
  /-- An error is recorded while ZERO_SEQ runs, or is a streaming store's on its way (R286, R287). -/
  errorPhase : s.pendingErr.isSome → s.seq.phase ∈ Phase.zeroize :: streamPhases c
  /-- The FENCE has performed every pending write (R87). -/
  fenced : s.seq.phase = .fence → 1 ≤ s.seq.q → s.wbuf = []
  /-- PHASE can still show phases the command has reached, in their order, the current one last (R51). -/
  phases : s.phaseDraw.Sublist (phasesOf c) ∧ s.phaseDraw.getLast? = some s.seq.phase
  /-- PROGRESS counts the BlockMix operations completed (R49). -/
  progress : progressOk c s
  /-- No read of PROGRESS has shown more (R49). -/
  progressSeen : s.progressSeen ≤ s.progress.toNat
  /-- SMIX starts with SWAP = 0, and each BlockMix toggles it (R33, R257). -/
  swap : c = .smix → s.status.swap = decide (s.progress.toNat % 2 = 1)
  /-- The write set lies in the address space (R242, R245). -/
  writes : ∀ g ∈ s.latched.writes, g.stop ≤ Config.addressLimit

/-- BUSY = 1: some command runs. -/
def RunningOk (s : State) : Prop := ∃ c, RunsCommand c s

/-- BUSY = 0: "When BUSY = 0, seq = (IDLE, 0, 0, 0)" (R50), and every write has been performed (R88). -/
def IdleOk (s : State) : Prop :=
  s.seq = idleSeq ∧ s.wbuf = [] ∧ s.pendingErr = none ∧ s.phaseDraw = []

/-- The invariant of the machine. -/
def Invariant (s : State) : Prop :=
  s.mem.wf ∧ BufferOk s.wbuf ∧ (s.status.busy = true → RunningOk s) ∧ (s.status.busy = false → IdleOk s)

/-- A CMD write of `i` is accepted: the engine is idle, the checks pass (R240), and the regions are ordinary memory clear of
the engine's own window (R71, R78). -/
def Accepts (i : Instr) (s : State) : Prop :=
  s.status.busy = false
    ∧ check i s = none
    ∧ s.platform.ordinary (commandRegions i s) = true
    ∧ s.platform.clearOfWindow (commandRegions i s) = true

/-- The platform answers no request that starts in the command's regions with an error (R286). -/
def NoBusError (i : Instr) (s : State) : Prop :=
  ∀ q : Request, inRegions (commandRegions i s) q.addr = true → q.fails s.platform = false

/-- Memory is canonical and no write is pending: true of every idle state that meets the invariant. -/
def Settled (s : State) : Prop := s.mem.wf ∧ s.wbuf = []

/-- The state on a platform that answers no request with an error: its run is the reference run, "this sequence executed one
micro-operation at a time" (R84). -/
def State.withoutErrors (s : State) : State := { s with platform := { s.platform with busErr := [] } }

/-- The bytes of a 64-byte block at an address. -/
def inBlock (b a : Nat) : Prop := b ≤ a ∧ a < b + Config.blockBytes

/-- A command that is accepted and meets no bus error. -/
def Runs (i : Instr) (s : State) : Prop := Accepts i s ∧ NoBusError i s ∧ Settled s

/-- What no command changes, however it ends (R281): CTRL, the parameter registers, the platform, and what the other agents
do. -/
def SameOutside (s t : State) : Prop :=
  t.ctrl = s.ctrl ∧ t.params = s.params ∧ t.platform = s.platform ∧ t.pace = s.pace ∧ t.inputs = s.inputs
    ∧ t.resp = s.resp

/-- A command that completed without an error (R252, R285): BUSY = 0, DONE = 1, ERR = 0, no error reported, CMD the word
written, seq idle, every write performed (R88); SWAP, ZEROED and PROGRESS as given, WIGN as before. -/
structure CompletedOk (i : Instr) (s t : State) (swap zeroed : Bool) (progress : Nat) : Prop where
  status : t.status = ⟨false, true, false, swap, s.status.wign, zeroed⟩
  cmd : t.cmd = encode i
  errInfo : t.errInfo = .noError
  errAddr : t.errAddr = 0#64
  progress : t.progress.toNat = progress
  seq : t.seq = idleSeq
  wbuf : t.wbuf = []
  outside : SameOutside s t

/-- Memory outside the given regions reads as before. -/
def MemorySameOutside (rs : List Region) (s t : State) : Prop :=
  ∀ a, inRegions rs a = false → t.mem.read a = s.mem.read a

end Sys2Proof.Machine
end

