-- ==== Sys2Proof/Certificates/Slice0/Obligations.lean ====
section
/-! DEFINITION. The statements for the provers. Each docstring names the rules of spec/ it formalises. -/

open Sys2Proof Sys2Proof.Machine

/-! ### Encoding -/

/-- R102: the ten legal command words; "each is legal only with every other bit 0". -/
def Obligations.DecodeExactlyTheTable : Prop :=
  (∀ v i, decode v = .ok i ↔ v = encode i)
    ∧ encode .smix = 0x0000000000000001#64
    ∧ encode .prepare = 0x0000000000000002#64
    ∧ encode .restore = 0x0000000000000003#64
    ∧ encode .blockmixNone = 0x0000000000000004#64
    ∧ encode .blockmixCopy = 0x0000000000000104#64
    ∧ encode .blockmixXor = 0x0000000000000204#64
    ∧ encode .integerify = 0x0000000000000005#64
    ∧ encode .salsa8 = 0x0000000000000006#64
    ∧ encode .salsa8Nat = 0x0000000000000406#64
    ∧ encode .zeroize = 0x0000000000000007#64

/-- R101, R102: the ten table words, written out, decode to their commands (a sanity statement). -/
def Obligations.TableWordsDecode : Prop :=
  decode 0x0000000000000001#64 = .ok .smix
    ∧ decode 0x0000000000000002#64 = .ok .prepare
    ∧ decode 0x0000000000000003#64 = .ok .restore
    ∧ decode 0x0000000000000004#64 = .ok .blockmixNone
    ∧ decode 0x0000000000000104#64 = .ok .blockmixCopy
    ∧ decode 0x0000000000000204#64 = .ok .blockmixXor
    ∧ decode 0x0000000000000005#64 = .ok .integerify
    ∧ decode 0x0000000000000006#64 = .ok .salsa8
    ∧ decode 0x0000000000000406#64 = .ok .salsa8Nat
    ∧ decode 0x0000000000000007#64 = .ok .zeroize

/-- R73, R107: the eight little-endian bytes of a word decode as the word, and any other number of bytes to nothing. -/
def Obligations.BytesDecodeAsTheirWord : Prop :=
  (∀ v : Reg64, decodeBytes (bytesOfNat 8 v.toNat) = decode v)
    ∧ ∀ bs : List Byte, bs.length ≠ 8 → decodeBytes bs = .error .length

/-! ### The step -/

/-- R100, R240, R252: a 64-bit write of a word to CMD while idle runs the decoded command: the whole command, or only its
acceptance step where the model's pace is one micro-operation; a word that decodes to ILLEGAL is rejected. `wrInput` is the
host's write, `respond` its answer on the host bus. -/
def Obligations.StepRunsDecodedCommand : Prop :=
  ∀ (s : State) (v : Reg64) (rest : List Input),
    s.inputs = wrInput .cmd v :: rest → s.status.busy = false →
      (∀ i, decode v = .ok i → s.pace = .wholeCommand →
        step s = exec i ((s.popInput rest).respond 0#64 false))
      ∧ (∀ i, decode v = .ok i → s.pace = .microOp →
        step s = issueCommand i ((s.popInput rest).respond 0#64 false))
      ∧ (∀ e, decode v = .error e →
        step s = .next (((s.popInput rest).respond 0#64 false).rejectIllegal v))

/-- R252: with no input waiting, a whole command as one step is its acceptance step followed by engine steps. -/
def Obligations.WholeCommandIsItsMicroSteps : Prop :=
  ∀ (i : Instr) (s s₁ t : State),
    s.inputs = [] → s.status.busy = false → issueCommand i s = .next s₁ → exec i s = .next t →
      ∃ k, Host.Core.run Sys2Proof.core k s₁ = .next t

/-! ### Reset -/

/-- R40, R54: after reset every register of the map reads its reset value, reserved offsets read zero, SWAP is 0 and seq is
(IDLE, 0, 0, 0); a reset while idle changes no byte of memory (R320). -/
def Obligations.ResetRegisterMap : Prop :=
  ∀ (s : State) (rest : List Input), s.inputs = .reset :: rest →
    ∃ t, step s = .next t
      ∧ (readOffset 0x00#8 t).1 = 0x53414C5300080001#64
      ∧ (readOffset 0x08#8 t).1 = 0x6#64
      ∧ (∀ o : BitVec 8, o.toNat % 8 = 0 → 0x10 ≤ o.toNat → (readOffset o t).1 = 0#64)
      ∧ t.status.swap = false
      ∧ t.seq = ⟨.idle, 0, 0, 0⟩
      ∧ t.wbuf = []
      ∧ t.irq = false
      ∧ (s.status.busy = false → t.mem = s.mem)

/-- R321: a reset while a command runs leaves every byte outside the command's write set as it was, discards the buffered
writes, and takes the registers to their reset values. -/
def Obligations.ResetWhileBusyKeepsOtherBytes : Prop :=
  ∀ (s : State) (rest : List Input), Invariant s → s.inputs = .reset :: rest → s.status.busy = true →
    ∃ t, step s = .next t ∧ t.wbuf = [] ∧ t.status = resetStatus ∧ t.params = resetParams ∧ t.seq = idleSeq
      ∧ ∀ a, inRegions s.latched.writes a = false → t.mem.read a = s.mem.read a

/-! ### Invariants -/

/-- State.reset meets the invariant. -/
def Obligations.ResetMeetsInvariant : Prop := Invariant State.reset

/-- R50, R55, R84, R88: every step keeps the invariant: memory canonical; pending writes inside the address space; BUSY = 0
means seq is idle and no write is pending; BUSY = 1 means the position is one of the command's and its parameters passed the
checks. -/
def Obligations.StepKeepsTheInvariant : Prop :=
  ∀ s t : State, Invariant s → step s = .next t → Invariant t

/-- R75, R76, R170: "The engine never issues an aligned request at a misaligned address" and "never issues a request that
wraps": from a state that meets the invariant no step ends in either fault. -/
def Obligations.EngineNeverIssuesIllegalRequests : Prop :=
  ∀ s : State, Invariant s →
    step s ≠ .fault .misalignedRequest ∧ step s ≠ .fault .outsideAddressSpace

/-- R285, R343: an accepted command always ends: exec answers a next state with BUSY = 0, DONE = 1, seq idle, no write
pending, whatever requests fail. -/
def Obligations.AcceptedCommandsAlwaysEnd : Prop :=
  ∀ (i : Instr) (s : State), Accepts i s →
    ∃ t, exec i s = .next t ∧ t.status.busy = false ∧ t.status.done = true ∧ t.seq = idleSeq ∧ t.wbuf = []

/-! ### Issue, rejection and acceptance -/

/-- R53: while BUSY = 1 a write of CMD or of a parameter register is ignored and sets WIGN; writes of CTRL and STATUS take
effect; writes of ID, ERRINFO, ERRADDR, J, PROGRESS and reserved offsets are ignored at all times and do not set WIGN. -/
def Obligations.WritesWhileBusy : Prop :=
  ∀ (s : State) (v : Reg64) (o : BitVec 8) (rest : List Input),
    s.inputs = .access ⟨o, 8, .write v⟩ :: rest → o.toNat % 8 = 0 →
      let s' := (s.popInput rest).respond 0#64 false
      (s.status.busy = true → o.toNat = 0x18 ∨ (0x30 ≤ o.toNat ∧ o.toNat ≤ 0x70) →
        step s = .next { s' with status := { s'.status with wign := true } })
      ∧ (o = 0x08#8 → step s = .next { s' with ctrl := ⟨v.getLsbD 0, v.getLsbD 1, v.getLsbD 2⟩ })
      ∧ (o = 0x10#8 → step s = .next (s'.writeStatus v))
      ∧ (o = 0x00#8 ∨ o = 0x20#8 ∨ o = 0x28#8 ∨ 0x78 ≤ o.toNat → step s = .next s')

/-- R284: exactly CMD, STATUS.DONE, STATUS.ERR, ERRINFO, ERRADDR and PROGRESS change when a command is rejected, for a
failed check and for an ILLEGAL word; the interrupt output rises if CTRL.IE = 1. -/
def Obligations.RejectionChangesExactlyTheListedRegisters : Prop :=
  ∀ s : State, s.status.busy = false →
    (∀ i e, check i s = some e →
      exec i s = .next { s with
        cmd := encode i, errInfo := e, errAddr := 0#64, progress := 0#64,
        status := { s.status with done := true, err := true } })
    ∧ (∀ v e, decode v = .error e →
      writeCmd v s = .next { s with
        cmd := v, errInfo := .illegalCmd, errAddr := 0#64, progress := 0#64,
        status := { s.status with done := true, err := true } })
    ∧ (∀ i e t, check i s = some e → exec i s = .next t → t.irq = s.ctrl.ie)

/-- R242, R244, R245, R247: which register values each command accepts, in unbounded integers. `disj` is the disjointness of
two half-open intervals (R245). -/
def Obligations.AcceptanceTable : Prop :=
  ∀ s : State,
    let BL := s.params.byteLen.toNat
    let EC := s.params.elemCount.toNat
    let IX := s.params.elemIndex.toNat
    let DB := s.params.dataBase.toNat
    let N := s.params.costN.toNat
    let W := s.params.workBase.toNat
    let H := s.params.shufBase.toNat
    let T := s.params.tableBase.toNat
    let O := s.params.otherBase.toNat
    let EB := 128 * (BL / (128 * EC))
    let E := DB + IX * EB
    let C := if s.status.swap then H else W
    let A1 := 1 ≤ EC ∧ 1 ≤ BL ∧ BL % (128 * EC) = 0
    let A2 := DB ≠ 0 ∧ IX < EC ∧ DB + BL ≤ 2 ^ 64
    let A3 := 1 ≤ N ∧ N ≤ 2 ^ 32 - 1
    let A4 := EB * N ≤ 2 ^ 64 - 1
    let ok := fun b k : Nat => b % 64 = 0 ∧ b ≠ 0 ∧ b + k ≤ 2 ^ 64
    let disj := fun b k c l : Nat => b + k ≤ c ∨ c + l ≤ b
    (check .smix s = none ↔ A1 ∧ A2 ∧ A3 ∧ A4 ∧ ok W EB ∧ ok H EB ∧ ok T (EB * N)
      ∧ disj E EB W EB ∧ disj E EB H EB ∧ disj E EB T (EB * N)
      ∧ disj W EB H EB ∧ disj W EB T (EB * N) ∧ disj H EB T (EB * N))
    ∧ (check .prepare s = none ↔ A1 ∧ A2 ∧ ok W EB ∧ disj E EB W EB)
    ∧ (check .restore s = none ↔ A1 ∧ A2 ∧ ok C EB ∧ disj E EB C EB)
    ∧ (check .blockmixNone s = none ↔ A1 ∧ ok W EB ∧ ok H EB ∧ disj W EB H EB)
    ∧ (check .blockmixCopy s = none ↔ A1 ∧ ok W EB ∧ ok H EB ∧ ok O EB
      ∧ disj W EB H EB ∧ disj W EB O EB ∧ disj H EB O EB)
    ∧ (check .blockmixXor s = none ↔ A1 ∧ ok W EB ∧ ok H EB ∧ ok O EB
      ∧ disj W EB H EB ∧ disj W EB O EB ∧ disj H EB O EB)
    ∧ (check .integerify s = none ↔ A3 ∧ ok C 64)
    ∧ (check .salsa8 s = none ↔ ok O 64)
    ∧ (check .salsa8Nat s = none ↔ ok O 64)
    ∧ (check .zeroize s = none ↔ A1 ∧ A3 ∧ A4 ∧ ok W EB ∧ ok H EB ∧ ok T (EB * N)
      ∧ disj W EB H EB ∧ disj W EB T (EB * N) ∧ disj H EB T (EB * N))

/-- R246, R282, R244, R245: the first failing check decides the code: an argument check before an alignment check before a
region check, which fails for an unusable scratch region and for two regions of the disjoint set that overlap. -/
def Obligations.CheckPriority : Prop :=
  ∀ (i : Instr) (s : State),
    let k := commandChecks i s
    ((∃ c ∈ k.args, c.holds s.params = false) → check i s = some .invalidArg)
    ∧ ((∀ c ∈ k.args, c.holds s.params = true) → (∃ b ∈ k.aligned, b % 64 ≠ 0) →
        check i s = some .misaligned)
    ∧ ((∀ c ∈ k.args, c.holds s.params = true) → (∀ b ∈ k.aligned, b % 64 = 0) →
        ((∃ g ∈ k.scratch, g.base = 0 ∨ 2 ^ 64 < g.base + g.size)
          ∨ ¬ k.disjoint.Pairwise (fun g h => g.base + g.size ≤ h.base ∨ h.base + h.size ≤ g.base)) →
        check i s = some .allocFail)

/-- R241: the acceptance step sets BUSY, clears ZEROED, DONE, ERR, the error registers and PROGRESS, clears SWAP for PREPARE
and SMIX alone, latches the command and the quantities it uses (R34), no others, and starts its first phase; memory, J and
the parameter registers stay. The command's regions and the ones it writes are fixed there too (R90), and no read has shown
a phase or a count yet (R49, R51; the record is the model's, log 13). That an unused latch keeps its old value, and which
quantities RESTORE and INTEGERIFY use, is the model's reading (log 17). -/
def Obligations.AcceptanceStep : Prop :=
  ∀ (i : Instr) (s : State), Accepts i s →
    ∃ t, issueCommand i s = .next t
      ∧ t.status = ⟨true, false, false, s.status.swap && !(decide (i = .prepare ∨ i = .smix)), s.status.wign, false⟩
      ∧ t.seq.phase ∈ phasesOf i ∧ (phasesOf i).head? = some t.seq.phase ∧ t.seq.i = 0 ∧ t.seq.q = 0 ∧ t.seq.t = 0
      ∧ t.latched.cmd = some i ∧ t.cmd = encode i
      ∧ t.errInfo = .noError ∧ t.errAddr = 0#64 ∧ t.progress = 0#64
      ∧ t.mem = s.mem ∧ t.j = s.j ∧ SameOutside s t
      ∧ t.latched.r = (if i ∈ [.integerify, .salsa8, .salsa8Nat] then s.latched.r else BitVec.ofNat 64 s.params.r)
      ∧ t.latched.eb = (if i ∈ [.integerify, .salsa8, .salsa8Nat] then s.latched.eb else BitVec.ofNat 64 s.params.eb)
      ∧ t.latched.n = (if i ∈ [.smix, .integerify, .zeroize] then s.params.costN.setWidth 32 else s.latched.n)
      ∧ t.latched.elem = (if i ∈ [.smix, .prepare, .restore] then BitVec.ofNat 64 s.params.elem else s.latched.elem)
      ∧ t.latched.work = (if i ∈ [.salsa8, .salsa8Nat] then s.latched.work else s.params.workBase)
      ∧ t.latched.shuf = (if i ∈ [.prepare, .salsa8, .salsa8Nat] then s.latched.shuf else s.params.shufBase)
      ∧ t.latched.table = (if i ∈ [.smix, .zeroize] then s.params.tableBase else s.latched.table)
      ∧ t.latched.other =
          (if i ∈ [.blockmixCopy, .blockmixXor, .salsa8, .salsa8Nat] then s.params.otherBase else s.latched.other)
      ∧ t.latched.owned = commandRegions i s ∧ t.latched.writes = commandWrites i s
      ∧ t.phaseDraw = [t.seq.phase] ∧ t.progressSeen = 0

/-! ### Results of the commands -/

/-- R145: SALSA8 replaces the block at OTHER_BASE by SALSA_CORE of it and changes nothing else. -/
def Obligations.Salsa8RunsTheCore : Prop :=
  ∀ s : State, Runs .salsa8 s →
    ∃ t, exec .salsa8 s = .next t
      ∧ t.mem.readBlock s.params.otherBase.toNat = salsaCore (s.mem.readBlock s.params.otherBase.toNat)
      ∧ MemorySameOutside [⟨s.params.otherBase.toNat, 64⟩] s t
      ∧ t.j = s.j
      ∧ CompletedOk .salsa8 s t s.status.swap false 0

/-- R146, R137: SALSA8.NAT replaces the natural-layout block at OTHER_BASE by the scalar Salsa20/8 of it. -/
def Obligations.Salsa8NatRunsScalarSalsa : Prop :=
  ∀ s : State, Runs .salsa8Nat s →
    ∃ t, exec .salsa8Nat s = .next t
      ∧ t.mem.readBlock s.params.otherBase.toNat = salsa20_8 (s.mem.readBlock s.params.otherBase.toNat)
      ∧ MemorySameOutside [⟨s.params.otherBase.toNat, 64⟩] s t
      ∧ t.j = s.j
      ∧ CompletedOk .salsa8Nat s t s.status.swap false 0

/-- R195: after PREPARE the 2r blocks at WORK_BASE equal WL(E), E the element; SWAP = 0 (R194). -/
def Obligations.PrepareBuildsWorkingLayout : Prop :=
  ∀ s : State, Runs .prepare s →
    ∃ t, exec .prepare s = .next t
      ∧ t.mem.blocks s.params.workBase.toNat (2 * s.params.r)
          = workLayout (s.mem.blocks s.params.elem (2 * s.params.r))
      ∧ MemorySameOutside [s.workRegion] s t
      ∧ t.j = s.j
      ∧ CompletedOk .prepare s t false false 0

/-- R198, R199: after RESTORE the element region holds WLINV of the 2r blocks at CW. -/
def Obligations.RestoreWritesTheElement : Prop :=
  ∀ s : State, Runs .restore s →
    ∃ t, exec .restore s = .next t
      ∧ t.mem.blocks s.params.elem (2 * s.params.r)
          = workLayoutInv (s.mem.blocks s.cwParam (2 * s.params.r))
      ∧ MemorySameOutside [s.elemRegion] s t
      ∧ t.j = s.j
      ∧ CompletedOk .restore s t s.status.swap false 0

/-- R199: "PREPARE followed by RESTORE, with no command between them and SWAP = 0, leaves the element unchanged". -/
def Obligations.PrepareThenRestoreKeepsTheElement : Prop :=
  ∀ s t u : State, Runs .prepare s → exec .prepare s = .next t → exec .restore t = .next u →
    Runs .restore t ∧ ∀ a, s.elemRegion.has a = true → u.mem.read a = s.mem.read a

/-- R221, R224: BLOCKMIX.NONE leaves WL(BlockMix(X)) at the old CS, X the nominal element at CW; SWAP toggles (R220). -/
def Obligations.BlockmixNoneMixesTheWorkingBuffer : Prop :=
  ∀ s : State, Runs .blockmixNone s →
    ∃ t, exec .blockmixNone s = .next t
      ∧ t.mem.blocks s.csParam (2 * s.params.r)
          = workLayout (blockMix (workLayoutInv (s.mem.blocks s.cwParam (2 * s.params.r))))
      ∧ MemorySameOutside [s.csRegion] s t
      ∧ t.j = s.j
      ∧ CompletedOk .blockmixNone s t (!s.status.swap) false 1

/-- R222, R224: BLOCKMIX.COPY does what BLOCKMIX.NONE does and leaves the 2r blocks of CW, verbatim, at OTHER_BASE. -/
def Obligations.BlockmixCopyMixesAndCopies : Prop :=
  ∀ s : State, Runs .blockmixCopy s →
    ∃ t, exec .blockmixCopy s = .next t
      ∧ t.mem.blocks s.csParam (2 * s.params.r)
          = workLayout (blockMix (workLayoutInv (s.mem.blocks s.cwParam (2 * s.params.r))))
      ∧ t.mem.blocks s.params.otherBase.toNat (2 * s.params.r) = s.mem.blocks s.cwParam (2 * s.params.r)
      ∧ MemorySameOutside [s.csRegion, s.otherRegion] s t
      ∧ t.j = s.j
      ∧ CompletedOk .blockmixCopy s t (!s.status.swap) false 1

/-- R223, R224: BLOCKMIX.XOR mixes the working buffer XORed with the other buffer. -/
def Obligations.BlockmixXorMixesWithOther : Prop :=
  ∀ s : State, Runs .blockmixXor s →
    ∃ t, exec .blockmixXor s = .next t
      ∧ t.mem.blocks s.csParam (2 * s.params.r)
          = workLayout (blockMix (xorBlocks
              (workLayoutInv (s.mem.blocks s.cwParam (2 * s.params.r)))
              (workLayoutInv (s.mem.blocks s.params.otherBase.toNat (2 * s.params.r)))))
      ∧ MemorySameOutside [s.csRegion] s t
      ∧ t.j = s.j
      ∧ CompletedOk .blockmixXor s t (!s.status.swap) false 1

/-- R227, R228: INTEGERIFY sets J to the word at CW + 16 modulo N and changes no byte of memory. -/
def Obligations.IntegerifyComputesTheIndex : Prop :=
  ∀ s : State, Runs .integerify s →
    ∃ t, exec .integerify s = .next t
      ∧ t.j.toNat = (s.mem.readWord (s.cwParam + 16)).toNat % s.params.costN.toNat
      ∧ MemorySameOutside [] s t
      ∧ CompletedOk .integerify s t s.status.swap false 0

/-- R258, R259: ZEROIZE leaves every byte of the three scratch regions 0 and nothing else changed; ZEROED = 1. -/
def Obligations.ZeroizeClearsTheScratch : Prop :=
  ∀ s : State, Runs .zeroize s →
    ∃ t, exec .zeroize s = .next t
      ∧ (∀ a, inRegions [s.workRegion, s.shufRegion, s.tableRegion] a = true → t.mem.read a = 0#8)
      ∧ MemorySameOutside [s.workRegion, s.shufRegion, s.tableRegion] s t
      ∧ t.dp = zeroDatapath
      ∧ t.j = s.j
      ∧ CompletedOk .zeroize s t s.status.swap true 0

/-- R260, R253: a successful SMIX leaves the element region holding SMix(E, N) of R15 in natural layout and nominal order,
the scratch zero, SWAP = 0 and PROGRESS = 2N. -/
def Obligations.SmixComputesScryptSMix : Prop :=
  ∀ s : State, Runs .smix s →
    ∃ t, exec .smix s = .next t
      ∧ t.mem.blocks s.params.elem (2 * s.params.r)
          = scryptSMix s.params.costN.toNat (s.mem.blocks s.params.elem (2 * s.params.r))
      ∧ (∀ a, inRegions [s.workRegion, s.shufRegion, s.tableRegion] a = true → t.mem.read a = 0#8)
      ∧ MemorySameOutside [s.elemRegion, s.workRegion, s.shufRegion, s.tableRegion] s t
      ∧ t.dp = zeroDatapath
      ∧ t.j = s.j
      ∧ CompletedOk .smix s t false true (2 * s.params.costN.toNat)

/-! ### Frames, for every way a command ends -/

/-- R53, R281, R286: however a command ends, CTRL, the parameter registers and everything outside the engine stay; J changes
only by INTEGERIFY (R48) and WIGN only by a write ignored while busy. SWAP and PROGRESS keep what the sequence reached: only a
BM that finished has toggled SWAP and counted (R33, R49), and ZEROED is 0 after a command that does not zeroize (R43). -/
def Obligations.CommandsKeepTheOtherRegisters : Prop :=
  ∀ (i : Instr) (s t : State), exec i s = .next t →
    SameOutside s t
      ∧ (i ≠ .integerify → t.j = s.j)
      ∧ (s.status.busy = false → t.status.wign = s.status.wign ∧ t.cmd = encode i)
      ∧ (s.status.busy = true → t = { s with status := { s.status with wign := true } })
      ∧ (Accepts i s →
        (i = .restore ∨ i = .integerify ∨ i = .salsa8 ∨ i = .salsa8Nat ∨ i = .zeroize →
          t.status.swap = s.status.swap ∧ t.progress = 0#64)
        ∧ (i = .prepare → t.status.swap = false ∧ t.progress = 0#64)
        ∧ (i = .blockmixNone ∨ i = .blockmixCopy ∨ i = .blockmixXor →
          (t.status.swap = s.status.swap ∧ t.progress = 0#64 ∧ t.status.err = true)
            ∨ (t.status.swap = !s.status.swap ∧ t.progress = 1#64 ∧ (t.status.err = true → i = .blockmixCopy)))
        ∧ (i = .smix →
          t.status.swap = decide (t.progress.toNat % 2 = 1) ∧ t.progress.toNat ≤ 2 * s.params.costN.toNat)
        ∧ (i ≠ .smix → i ≠ .zeroize → t.status.zeroed = false))

/-- R31, R32, R35, R258: which datapath registers a command leaves as they were, however it ends; SMIX and ZEROIZE leave all
of them zero. -/
def Obligations.CommandsKeepTheOtherDatapathRegisters : Prop :=
  ∀ (i : Instr) (s t : State), exec i s = .next t →
    (i = .integerify → t.dp = s.dp)
      ∧ (i = .prepare → t.dp = { s.dp with cur := t.dp.cur })
      ∧ (i = .restore → t.dp = { s.dp with cur := t.dp.cur, held := t.dp.held })
      ∧ (i = .salsa8 ∨ i = .salsa8Nat →
        t.dp = { s.dp with rows := t.dp.rows, saved := t.dp.saved, cur := t.dp.cur })
      ∧ (i = .blockmixNone ∨ i = .blockmixCopy →
        t.dp = { s.dp with
          rows := t.dp.rows, saved := t.dp.saved, last := t.dp.last, prev := t.dp.prev, cur := t.dp.cur })
      ∧ (i = .blockmixXor → t.dp.held = s.dp.held ∧ t.dp.ji = s.dp.ji)
      ∧ (i = .smix ∨ i = .zeroize → Accepts i s → t.dp = zeroDatapath)

/-- R286, R321: however a command ends, every byte outside its write set reads as before. -/
def Obligations.CommandsKeepOtherMemory : Prop :=
  ∀ (i : Instr) (s t : State), Settled s → exec i s = .next t →
    MemorySameOutside (commandWrites i s) s t ∧ t.mem.wf

/-- R80, R42: "PFE and FLE never change a value in memory or in any register": the same command from the same state with
other hint enables ends in the same state, but for CTRL and the model's record of the requests (log 10), for the same free
values drawn: in a run with a bus error the two runs are compared draw by draw (log 6). -/
def Obligations.HintEnablesChangeNoValue : Prop :=
  ∀ (i : Instr) (s t : State) (p f : Bool), exec i s = .next t →
    ∃ t', exec i { s with ctrl := { s.ctrl with pfe := p, fle := f } } = .next t'
      ∧ { t' with ctrl := t.ctrl, trace := t.trace } = t

/-! ### Errors while a command runs -/

/-- R282, R286 items 1 and 7: ERR and BUS_ERROR are reported exactly when a request of the command failed, with the address
of the first failing request in reference order; a command other than SMIX and ZEROIZE issues no request after one that
failed, but for a streaming store's, whose error may arrive late (U21). `trace` is the model's record of the requests
(log 10). -/
def Obligations.FirstFailingRequestIsReported : Prop :=
  ∀ (i : Instr) (s t : State), Accepts i s → exec i s = .next t →
    ∃ new : List Request, t.trace = new.reverse ++ s.trace
      ∧ (t.status.err = true ↔ ∃ q ∈ new, q.fails s.platform = true)
      ∧ (∀ q, new.find? (fun q => q.fails s.platform) = some q →
          t.errInfo = .busError ∧ t.errAddr = BitVec.ofNat 64 q.addr)
      ∧ (t.status.err = false → t.errInfo = .noError ∧ t.errAddr = 0#64)
      ∧ (i ≠ .smix → i ≠ .zeroize →
          ∀ q ∈ new.dropLast, q.fails s.platform = true → q.kind = .writeNonTemporal)

/-- R262, R286: an SMIX that stops before its RESTORE phase, that is before its 2N BlockMix operations are complete, leaves
the element region unchanged. -/
def Obligations.SmixStoppedEarlyKeepsTheElement : Prop :=
  ∀ s t : State, Accepts .smix s → Settled s → exec .smix s = .next t →
    t.progress.toNat < 2 * s.params.costN.toNat →
      ∀ a, s.elemRegion.has a = true → t.mem.read a = s.mem.read a

/-- R286 and its consequences: after RESTORE and after SMIX, whatever failed, each element block whose own write does not fail
holds its input value or its output value, and its output value when its write was issued before the stop. `trace` is the
model's record of the requests (log 10). -/
def Obligations.RestoreErrorLeavesInputOrOutput : Prop :=
  ∀ (i : Instr) (s t : State), i = .restore ∨ i = .smix → Accepts i s → Settled s → exec i s = .next t →
    let out : List Block :=
      if i = .smix then scryptSMix s.params.costN.toNat (s.mem.blocks s.params.elem (2 * s.params.r))
      else workLayoutInv (s.mem.blocks s.cwParam (2 * s.params.r))
    ∃ new : List Request, t.trace = new.reverse ++ s.trace
      ∧ ∀ b, b < 2 * s.params.r →
        let q : Request := ⟨.writeUnaligned, s.params.elem + 64 * b⟩
        q.fails s.platform = false →
          (t.mem.readBlock q.addr = s.mem.readBlock q.addr ∨ some (t.mem.readBlock q.addr) = out[b]?)
            ∧ (q ∈ new → some (t.mem.readBlock q.addr) = out[b]?)

/-- R258, R286 item 6, R287: SMIX and ZEROIZE, however they end, leave every scratch block whose zero write does not fail
zero, and ZEROED = 1 exactly when no zero write failed. -/
def Obligations.ScratchIsZeroizedOnEveryExit : Prop :=
  ∀ (i : Instr) (s t : State), i = .smix ∨ i = .zeroize → Accepts i s → Settled s → exec i s = .next t →
    let blocks : List Nat :=
      (List.range (2 * s.params.r)).map (fun q => s.params.workBase.toNat + 64 * q)
        ++ (List.range (2 * s.params.r)).map (fun q => s.params.shufBase.toNat + 64 * q)
        ++ (List.range (2 * s.params.r * s.params.costN.toNat)).map (fun q => s.params.tableBase.toNat + 64 * q)
    (∀ a ∈ blocks, (⟨.writeAligned, a⟩ : Request).fails s.platform = false → t.mem.readBlock a = zeroBlock)
      ∧ (t.status.zeroed = true ↔ ∀ a ∈ blocks, (⟨.writeAligned, a⟩ : Request).fails s.platform = false)

/-- R228, R286 item 5: INTEGERIFY whose LDW fails leaves J and memory as they were and reports CW + 16. -/
def Obligations.IntegerifyBusErrorKeepsJ : Prop :=
  ∀ s : State, Accepts .integerify s → Settled s →
    (⟨.readWord, s.cwParam + 16⟩ : Request).fails s.platform = true →
      ∃ t, exec .integerify s = .next t ∧ t.j = s.j ∧ MemorySameOutside [] s t
        ∧ t.status = ⟨false, true, true, s.status.swap, s.status.wign, false⟩
        ∧ t.errInfo = .busError ∧ t.errAddr = BitVec.ofNat 64 (s.cwParam + 16)

/-- R145, R286 items 4 and 5: SALSA8 and SALSA8.NAT whose load fails store nothing. -/
def Obligations.SalsaLoadErrorStoresNothing : Prop :=
  ∀ (i : Instr) (s : State), i = .salsa8 ∨ i = .salsa8Nat → Accepts i s → Settled s →
    (⟨.readAligned, s.params.otherBase.toNat⟩ : Request).fails s.platform = true →
      ∃ t, exec i s = .next t ∧ t.mem = s.mem
        ∧ t.status = ⟨false, true, true, s.status.swap, s.status.wign, false⟩
        ∧ t.errInfo = .busError ∧ t.errAddr = s.params.otherBase

/-! ### The round engine and the layouts -/

/-- R137: for every natural-layout block n, UNDIAG(SALSA_CORE(DIAG(n))) = Salsa20/8(n). -/
def Obligations.SalsaCoreAgreesWithScalarSalsa : Prop :=
  ∀ n : Block, undiag (salsaCore (diag n)) = salsa20_8 n

/-- R192, R22, R23: DIAG and UNDIAG are inverse, and PI is the table of R22. -/
def Obligations.DiagAndUndiagAreInverse : Prop :=
  (∀ n, undiag (diag n) = n) ∧ (∀ d, diag (undiag d) = d)
    ∧ (List.finRange 16).map (fun p => (permPI p).val) = [12, 1, 6, 11, 0, 5, 10, 15, 4, 9, 14, 3, 8, 13, 2, 7]
    ∧ (List.finRange 16).map (fun m => (permPINV m).val) = [4, 1, 14, 11, 8, 5, 2, 15, 12, 9, 6, 3, 0, 13, 10, 7]

/-- R132 to R134: on a block in diagonal layout EVEN_ROUND is the scalar column round, left in transposed layout, from which
ODD_ROUND is the scalar row round, left in diagonal layout again. -/
def Obligations.RoundsAlternateColumnsAndRows : Prop :=
  let transposed : Block → Block := fun z =>
    ⟨⟨z.word 1, z.word 6, z.word 11, z.word 12⟩, ⟨z.word 0, z.word 5, z.word 10, z.word 15⟩,
      ⟨z.word 3, z.word 4, z.word 9, z.word 14⟩, ⟨z.word 2, z.word 7, z.word 8, z.word 13⟩⟩
  ∀ z : Block,
    evenRound (diag z) = transposed (columnRound z) ∧ oddRound (transposed z) = diag (rowRound z)

/-- R138, R166: the zero block is fixed by SALSA_CORE; XORB(A, A) is zero and XORB(A, 0) = A. -/
def Obligations.ZeroBlocksAndXor : Prop :=
  salsaCore zeroBlock = zeroBlock ∧ ∀ a : Block, a.xorb a = zeroBlock ∧ a.xorb zeroBlock = a

/-! ### The sequences -/

/-- R216: the number of micro-operations of each kind in one BM, by mode. -/
def Obligations.BlockmixOperationCounts : Prop :=
  ∀ (r : Nat) (mode : BmMode) (ob : Base) (oo : Nat), 1 ≤ r → ob ≠ .cw → ob ≠ .cs →
    let ops := bmSeq r mode ob oo
    let count := fun p : MicroOp → Bool => ops.countP p
    count (fun o => match o with | .lda _ _ .cw _ => true | _ => false) = 2 * r
      ∧ count (fun o => match o with | .sta _ _ .cs _ => true | _ => false) = 2 * r
      ∧ count (fun o => match o with | .stn _ _ _ => true | _ => false) = (if mode = .copy then 2 * r else 0)
      ∧ count (fun o => match o with | .lda _ _ b _ => decide (b = ob) | _ => false)
          = (if mode = .xor then 2 * r else 0)
      ∧ count (fun o => match o with | .pfn _ _ => true | _ => false) = (if mode = .xor then 2 * r else 0)
      ∧ count (fun o => match o with | .flush _ _ => true | _ => false) = (if mode = .xor then 2 * r else 0)
      ∧ count (fun o => match o with | .salsa _ => true | _ => false) = 2 * r

/-- R343: the memory micro-operations of a command that meets no error, hints not counted: SMIX 12r + N(14r + 1), BLOCKMIX.*
at most 6r, PREPARE and RESTORE 4r, INTEGERIFY 1, SALSA8 2, ZEROIZE 4r + 2rN. They are the requests on the port, which the
model records in reference order in `trace`, the LDW always among them (log 10). -/
def Obligations.MemoryOperationCounts : Prop :=
  ∀ (i : Instr) (s t : State), Runs i s → exec i s = .next t →
    let r := s.params.r
    let n := s.params.costN.toNat
    ∃ new : List Request, t.trace = new.reverse ++ s.trace
      ∧ (let k := new.countP (fun q => !q.kind.isHint)
        match i with
        | .smix => k = 12 * r + n * (14 * r + 1)
        | .prepare => k = 4 * r
        | .restore => k = 4 * r
        | .blockmixNone => k = 4 * r
        | .blockmixCopy => k = 6 * r
        | .blockmixXor => k = 6 * r
        | .integerify => k = 1
        | .salsa8 => k = 2
        | .salsa8Nat => k = 2
        | .zeroize => k = 4 * r + 2 * r * n)

/-- R344, R216: for the same r, N and hint enables, two runs of a command issue requests of the same kinds in the same order,
whatever the data; with the same parameters and SWAP, at the same addresses, but for MIX's reads of and hints on its table,
which are the requests of SMIX that read the table: no write is exempt. `trace` is the model's record of the requests
(log 10). -/
def Obligations.CommandsHaveConstantShape : Prop :=
  ∀ (i : Instr) (s₁ s₂ t₁ t₂ : State), Runs i s₁ → Runs i s₂ →
    s₁.params.r = s₂.params.r → s₁.params.costN = s₂.params.costN →
    s₁.ctrl.pfe = s₂.ctrl.pfe → s₁.ctrl.fle = s₂.ctrl.fle →
    exec i s₁ = .next t₁ → exec i s₂ = .next t₂ →
    ∃ new₁ new₂ : List Request,
      t₁.trace = new₁.reverse ++ s₁.trace ∧ t₂.trace = new₂.reverse ++ s₂.trace
        ∧ new₁.map Request.kind = new₂.map Request.kind
        ∧ (s₁.params = s₂.params → s₁.status.swap = s₂.status.swap →
          ∀ (k : Nat) (q₁ q₂ : Request), new₁[k]? = some q₁ → new₂[k]? = some q₂ →
            q₁ = q₂
              ∨ (i = .smix ∧ q₁.kind.isWrite = false ∧ q₂.kind.isWrite = false
                ∧ s₁.tableRegion.has q₁.addr = true ∧ s₂.tableRegion.has q₂.addr = true))

/-- R213: the shuffle positions of the 2r outputs of BM are a permutation of 0 .. 2r − 1: iteration i stores at
`fanOut r i`, the last block at 0. -/
def Obligations.FanOutFillsTheShuffleBuffer : Prop :=
  ∀ r, 1 ≤ r →
    List.Perm (0 :: (List.range (2 * r - 1)).map (fanOut r)) (List.range (2 * r))

/-! ### Ordering -/

/-- R87, R255: a step in the FENCE phase that goes on has performed every pending write, and no byte the engine reads changes;
MIX starts only with every write performed and no error on its way: an error of PREPARE or FILL is reported at the latest
here. -/
def Obligations.FencePerformsPendingWrites : Prop :=
  ∀ s t : State, Invariant s → s.status.busy = true → s.seq.phase = .fence → engineStep s = .next t →
    (t.seq.phase = .fence ∨ t.seq.phase = .mix ∨ t.seq.phase = .zeroize)
      ∧ (t.seq.phase ≠ .zeroize → t.wbuf = [] ∧ ∀ a, t.mem.read a = s.readByte a)
      ∧ (t.seq.phase = .mix → s.pendingErr = none)
      ∧ (t.seq.phase = .zeroize → s.pendingErr.isSome = true)

/-- R88, R286 items 2, 4 and 8: an engine step that clears BUSY has performed every write the command issued, and sets DONE:
every byte holds what the engine would read, but for the bytes of the writes the command had not yet performed when it stopped
on an error, the failing one among them; at the end of the last block sequence there are none. -/
def Obligations.CompletionFence : Prop :=
  ∀ s t : State, Invariant s → s.status.busy = true → engineStep s = .next t → t.status.busy = false →
    t.wbuf = [] ∧ t.status.done = true ∧ t.seq = idleSeq
      ∧ ∀ a, (∀ op ∈ s.blockOps.drop s.seq.q,
          (op.reqKind s).any ReqKind.isWrite = true → ¬ inBlock (op.addr s) a) →
        t.mem.read a = s.readByte a

/-- R90, R333, D32, U11, R88: while BUSY = 1 a foreign store to and a foreign load of the command's regions are refused; of
a region the command only reads, the refusal of a load is D32's and U11's, R90 and R333 name the regions it writes (log 26).
Every other foreign store changes that byte alone, and every other foreign load answers the byte memory holds and changes
nothing else. The model's choice: one byte an access (log 19), its answer's place (log 20), that an address of the register
window mapped into memory (log 23) or of device memory (log 25) is ordinary memory. -/
def Obligations.ForeignAccessesWhileBusy : Prop :=
  ∀ (s : State) (a : Nat) (v : Byte) (rest : List Input), a < 2 ^ 64 →
    (s.status.busy = true → s.inputs = .memStore a v :: rest → inRegions s.latched.owned a = true →
      step s = .refused .foreignAccess)
    ∧ (s.status.busy = true → s.inputs = .memLoad a :: rest → inRegions s.latched.owned a = true →
      step s = .refused .foreignAccess)
    ∧ (Invariant s → s.inputs = .memStore a v :: rest →
      s.status.busy = false ∨ inRegions s.latched.owned a = false →
      ∃ t, step s = .next t ∧ t = { s with inputs := rest, mem := t.mem }
        ∧ t.mem.read a = v ∧ ∀ x, x ≠ a → t.mem.read x = s.mem.read x)
    ∧ (s.inputs = .memLoad a :: rest →
      s.status.busy = false ∨ inRegions s.latched.owned a = false →
      step s = .next { s with inputs := rest, resp := some ⟨(s.mem.read a).setWidth 64, false⟩ })

/-! ### The register window -/

/-- R43, R291: a write of STATUS clears DONE, ERR and WIGN where it writes 1 and changes no other bit; writing 1 to ERR
clears ERRINFO and ERRADDR. -/
def Obligations.StatusWriteOneToClear : Prop :=
  ∀ (s : State) (v : Reg64) (rest : List Input), s.inputs = wrInput .status v :: rest →
    ∃ t, step s = .next t
      ∧ t.status.done = (s.status.done && !v.getLsbD 1)
      ∧ t.status.err = (s.status.err && !v.getLsbD 2)
      ∧ t.status.wign = (s.status.wign && !v.getLsbD 4)
      ∧ t.status.busy = s.status.busy ∧ t.status.swap = s.status.swap ∧ t.status.zeroed = s.status.zeroed
      ∧ (v.getLsbD 2 = true → t.errInfo = .noError ∧ t.errAddr = 0#64)
      ∧ (v.getLsbD 2 = false → t.errInfo = s.errInfo ∧ t.errAddr = s.errAddr)
      ∧ t.seq = s.seq ∧ t.params = s.params ∧ t.ctrl = s.ctrl ∧ t.mem = s.mem ∧ t.j = s.j ∧ t.progress = s.progress

/-- R290: the interrupt output is CTRL.IE ∧ STATUS.DONE; an accepted or rejected command leaves it at CTRL.IE, and clearing
DONE lowers it. -/
def Obligations.InterruptOutput : Prop :=
  (∀ s : State, s.irq = (s.ctrl.ie && s.status.done))
    ∧ (∀ (i : Instr) (s t : State), s.status.busy = false → exec i s = .next t → t.irq = s.ctrl.ie)
    ∧ ∀ (s : State) (v : Reg64), v.getLsbD 1 = true → (s.writeStatus v).irq = false

/-- R110: an access of another size than 8 bytes or at an offset that is no multiple of 8 gets an error response, changes no
state and reads 0. -/
def Obligations.IllFormedAccessAnswersError : Prop :=
  ∀ (s : State) (a : Access) (rest : List Input), s.inputs = .access a :: rest →
    a.size ≠ 8 ∨ a.offset.toNat % 8 ≠ 0 →
      step s = .next { s with inputs := rest, resp := some ⟨0#64, true⟩ }

/-- R52: reserved offsets 0x88 .. 0xF8, and the reserved bits of CTRL, STATUS, ERRINFO and J, read as zero and ignore
writes. -/
def Obligations.ReservedOffsetsAndBitsReadZeroAndIgnoreWrites : Prop :=
  (∀ (s : State) (o : BitVec 8) (v : Reg64), 0x88 ≤ o.toNat → o.toNat % 8 = 0 →
      readOffset o s = (0#64, s) ∧ writeOffset o v s = .next s)
    ∧ (∀ s : State,
      (readOffset 0x08#8 s).1 &&& ~~~ 0x7#64 = 0#64
        ∧ (readOffset 0x10#8 s).1 &&& ~~~ 0xff3f#64 = 0#64
        ∧ (readOffset 0x20#8 s).1 &&& ~~~ 0xff#64 = 0#64
        ∧ (readOffset 0x78#8 s).1 &&& ~~~ 0xffffffff#64 = 0#64)
    ∧ ∀ (s : State) (v : Reg64),
      writeOffset 0x08#8 v s = writeOffset 0x08#8 (v &&& 0x7#64) s
        ∧ writeOffset 0x10#8 v s = writeOffset 0x10#8 (v &&& 0x16#64) s
        ∧ writeOffset 0x20#8 v s = .next s ∧ writeOffset 0x78#8 v s = .next s

/-- R44, R47: while idle a parameter register reads the value last written, and CMD reads the last word written, whether the
command was accepted or rejected. R40, R78, R110: a step on the host's 8-byte read answers the register's value without an
error; but for a busy read of STATUS or PROGRESS, which moves the model's draws (log 13), nothing else changes. R47, R53: a
step on a parameter write while idle changes that register alone, and answers without an error (the data 0 of the answer is
the model's choice, log 20). R40 to R43, R45 to R49: which register each offset shows, and each parameter offset writes, with
the bits at which CTRL and STATUS show their fields; R280: the numbers of the error codes. -/
def Obligations.RegistersReadBack : Prop :=
  ∀ (s : State) (v : Reg64),
    (s.status.busy = false →
      (∀ o : BitVec 8, o.toNat % 8 = 0 → 0x30 ≤ o.toNat → o.toNat ≤ 0x70 →
        (∃ t, writeOffset o v s = .next t ∧ (readOffset o t).1 = v
          ∧ ∀ o' : BitVec 8, o' ≠ o → (readOffset o' t).1 = (readOffset o' s).1)
        ∧ ∀ rest, s.inputs = .access ⟨o, 8, .write v⟩ :: rest →
          ∃ t, step s = .next t ∧ t = { s with inputs := rest, resp := some ⟨0#64, false⟩, params := t.params }
            ∧ (readOffset o t).1 = v ∧ ∀ o' : BitVec 8, o' ≠ o → (readOffset o' t).1 = (readOffset o' s).1)
      ∧ (∀ t, writeOffset 0x18#8 v s = .next t → (readOffset 0x18#8 t).1 = v)
      ∧ ∀ t rest, s.inputs = wrInput .cmd v :: rest → step s = .next t → (readOffset 0x18#8 t).1 = v)
    ∧ (∀ (o : BitVec 8) (rest : List Input), o.toNat % 8 = 0 → s.inputs = .access ⟨o, 8, .read⟩ :: rest →
      (∃ t, step s = .next t ∧ t.resp = some ⟨(readOffset o s).1, false⟩
        ∧ t = { (readOffset o s).2 with inputs := rest, resp := t.resp }
        ∧ t = { s with
            inputs := rest, resp := t.resp, phaseDraw := t.phaseDraw, progressSeen := t.progressSeen, draws := t.draws })
      ∧ (s.status.busy = false ∨ (o ≠ 0x10#8 ∧ o ≠ 0x80#8) →
        step s = .next { s with inputs := rest, resp := some ⟨(readOffset o s).1, false⟩ }))
    ∧ (let c := (readOffset 0x08#8 s).1
      c.getLsbD 0 = s.ctrl.ie ∧ c.getLsbD 1 = s.ctrl.pfe ∧ c.getLsbD 2 = s.ctrl.fle)
    ∧ (let w := (readOffset 0x10#8 s).1
      w.getLsbD 0 = s.status.busy ∧ w.getLsbD 1 = s.status.done ∧ w.getLsbD 2 = s.status.err
        ∧ w.getLsbD 3 = s.status.swap ∧ w.getLsbD 4 = s.status.wign ∧ w.getLsbD 5 = s.status.zeroed)
    ∧ (let shows := fun (o : BitVec 8) (w : Reg64) => (readOffset o s).1 = w
      shows 0x00#8 0x53414C5300080001#64 ∧ shows 0x18#8 s.cmd ∧ shows 0x20#8 (s.errInfo.code.setWidth 64)
        ∧ shows 0x28#8 s.errAddr ∧ shows 0x30#8 s.params.dataBase ∧ shows 0x38#8 s.params.byteLen
        ∧ shows 0x40#8 s.params.elemCount ∧ shows 0x48#8 s.params.elemIndex ∧ shows 0x50#8 s.params.costN
        ∧ shows 0x58#8 s.params.workBase ∧ shows 0x60#8 s.params.shufBase ∧ shows 0x68#8 s.params.tableBase
        ∧ shows 0x70#8 s.params.otherBase ∧ shows 0x78#8 (s.j.setWidth 64)
        ∧ (s.status.busy = false → shows 0x80#8 s.progress))
    ∧ (s.status.busy = false →
      let takes := fun (o : BitVec 8) (p : Params) => writeOffset o v s = .next { s with params := p }
      takes 0x30#8 { s.params with dataBase := v } ∧ takes 0x38#8 { s.params with byteLen := v }
        ∧ takes 0x40#8 { s.params with elemCount := v } ∧ takes 0x48#8 { s.params with elemIndex := v }
        ∧ takes 0x50#8 { s.params with costN := v } ∧ takes 0x58#8 { s.params with workBase := v }
        ∧ takes 0x60#8 { s.params with shufBase := v } ∧ takes 0x68#8 { s.params with tableBase := v }
        ∧ takes 0x70#8 { s.params with otherBase := v })
    ∧ ErrCode.noError.code = 0#8 ∧ ErrCode.invalidArg.code = 1#8 ∧ ErrCode.allocFail.code = 2#8
    ∧ ErrCode.illegalCmd.code = 3#8 ∧ ErrCode.busError.code = 4#8 ∧ ErrCode.misaligned.code = 5#8

/-- R51, R339: a read of STATUS while busy shows the code of a phase the running command has reached, between the phase
shown last and the current one in the command's phase order, and is remembered as the one shown last; no step of the command
moves that memory back. `phaseDraw` is the model's record of the phases reached (log 13): acceptance starts it with the
first phase (AcceptanceStep), and a step adds to it the phase it leaves the sequencer in and no other; its head is the phase
shown last, the command's first phase before any read. While idle PHASE shows 0 (R285). The codes are written out. -/
def Obligations.PhaseReadsAreMonotone : Prop :=
  Phase.code .idle = 0#8 ∧ Phase.code .prepare = 1#8 ∧ Phase.code .fill = 2#8 ∧ Phase.code .fence = 3#8
  ∧ Phase.code .mix = 4#8 ∧ Phase.code .restore = 5#8 ∧ Phase.code .zeroize = 6#8 ∧ Phase.code .blockmix = 7#8
  ∧ Phase.code .integerify = 8#8 ∧ Phase.code .salsa = 9#8
  ∧ (∀ s : State, Invariant s → s.status.busy = false →
    (readOffset 0x10#8 s).1.extractLsb' 8 8 = 0#8 ∧ (readOffset 0x10#8 s).2 = s)
  ∧ ∀ (s : State) (c : Instr), Invariant s → s.status.busy = true → s.latched.cmd = some c →
    let place := fun p : Phase => (phasesOf c).idxOf p
    (∃ shown last, s.phaseDraw.head? = some last
      ∧ (readOffset 0x10#8 s).1.extractLsb' 8 8 = shown.code
      ∧ shown ∈ s.phaseDraw ∧ shown ∈ phasesOf c ∧ place last ≤ place shown ∧ place shown ≤ place s.seq.phase
      ∧ (readOffset 0x10#8 s).2.phaseDraw.head? = some shown)
    ∧ ∀ t, step s = .next t → t.status.busy = true →
      (∀ p ∈ t.phaseDraw, p ∈ s.phaseDraw ∨ p = t.seq.phase)
        ∧ ∃ last later, s.phaseDraw.head? = some last ∧ t.phaseDraw.head? = some later ∧ place last ≤ place later

/-- R49, R339: a read of PROGRESS while busy returns a value not below one read earlier in the same command and not above the
BlockMix operations completed so far; no step but a reset lowers that count, so no value read is above the final count, nor
the last value read while the command runs; while idle a read returns the count. `progressSeen` is the model's record of the
last value read (log 13). -/
def Obligations.ProgressReadsAreMonotone : Prop :=
  ∀ s : State, Invariant s →
    (s.status.busy = true →
      s.progressSeen ≤ (readOffset 0x80#8 s).1.toNat ∧ (readOffset 0x80#8 s).1.toNat ≤ s.progress.toNat
        ∧ (readOffset 0x80#8 s).2.progressSeen = (readOffset 0x80#8 s).1.toNat
        ∧ ∀ t, s.inputs.head? ≠ some .reset → step s = .next t →
          s.progress.toNat ≤ t.progress.toNat ∧ s.progressSeen ≤ t.progressSeen)
    ∧ (s.status.busy = false → readOffset 0x80#8 s = (s.progress, s))

/-! ### Error stops, refusals, and the write buffer -/

/-- R286 items 2 to 4, R84: after PREPARE, RESTORE, BLOCKMIX.*, INTEGERIFY or SALSA8, whatever failed, each write of the
reference run that does not itself fail has been performed whole, with its reference value, or not at all; performed when it
was issued before the stop; and no other byte has changed. `withoutErrors` gives the reference run, `trace` is the model's
record of the requests (log 10). -/
def Obligations.ErrorStopLeavesOldOrReferenceValues : Prop :=
  ∀ (i : Instr) (s t u : State), i ≠ .smix → i ≠ .zeroize → Accepts i s → Settled s →
    exec i s = .next t → exec i s.withoutErrors = .next u →
    ∃ new ref : List Request, t.trace = new.reverse ++ s.trace ∧ u.trace = ref.reverse ++ s.trace
      ∧ (∀ q ∈ ref, q.kind.isWrite = true → q.fails s.platform = false →
        (∀ a, inBlock q.addr a → t.mem.read a = s.mem.read a)
          ∨ ∀ a, inBlock q.addr a → t.mem.read a = u.mem.read a)
      ∧ (∀ q ∈ new, q.kind.isWrite = true → q.fails s.platform = false →
        ∀ a, inBlock q.addr a → t.mem.read a = u.mem.read a)
      ∧ ∀ a, (∀ q ∈ ref, q.kind.isWrite = true → ¬ inBlock q.addr a) → t.mem.read a = s.mem.read a

/-- R286 items 4 and 5: a write whose value depends on the data a failing read would have returned is never performed,
whichever read of the reference run fails, and wherever the command stopped: SMIX, whose RESTORE writes depend on every read,
leaves the element as it was; PREPARE has not written the block it would have read, RESTORE not the element block it would
have filled, BLOCKMIX.* none of the shuffle blocks that follow the read and BLOCKMIX.COPY not its copy, SALSA8 nothing. And in
the RESTORE phase of any state that meets the invariant, SMIX's too, a step on a failing read changes no byte of the element
block the read would have filled. `withoutErrors` gives the reference run, `trace` is the model's record of the requests
(log 10); a platform gives a request the same answer throughout a command (log 5). -/
def Obligations.WritesThatNeedAFailedReadAreNotPerformed : Prop :=
  (∀ (i : Instr) (s t u : State), Accepts i s → Settled s → exec i s = .next t → exec i s.withoutErrors = .next u →
    let kept := fun a : Nat => t.mem.readBlock a = s.mem.readBlock a
    ∃ ref : List Request, u.trace = ref.reverse ++ s.trace
      ∧ ∀ (p : Nat) (k : Request), ref[p]? = some k → k.kind.isWrite = false → k.fails s.platform = true →
        (i = .smix → ∀ a, s.elemRegion.has a = true → t.mem.read a = s.mem.read a)
        ∧ (i = .prepare → ∀ b, b < 2 * s.params.r → k = ⟨.readUnaligned, s.params.elem + 64 * b⟩ →
          kept (s.params.workBase.toNat + 64 * ((b + 1) % (2 * s.params.r))))
        ∧ (i = .restore → ∀ b, b < 2 * s.params.r → k = ⟨.readAligned, s.cwParam + 64 * ((b + 1) % (2 * s.params.r))⟩ →
          kept (s.params.elem + 64 * b))
        ∧ (i = .blockmixNone ∨ i = .blockmixCopy ∨ i = .blockmixXor → ∀ p' b, p < p' →
          ref[p']? = some ⟨.writeAligned, s.csParam + 64 * b⟩ → kept (s.csParam + 64 * b))
        ∧ (i = .blockmixCopy → ∀ b, b < 2 * s.params.r → k = ⟨.readAligned, s.cwParam + 64 * b⟩ →
          kept (s.params.otherBase.toNat + 64 * b))
        ∧ (i = .salsa8 ∨ i = .salsa8Nat → t.mem = s.mem))
  ∧ ∀ (s t : State) (l : Layout) (dst : BlkReg) (b : Nat), Invariant s → s.status.busy = true → s.seq.phase = .restore →
      b < 2 * s.latched.r.toNat →
      s.blockOps[s.seq.q]? = some (.lda l dst .cw (64 * ((b + 1) % (2 * s.latched.r.toNat)))) →
      (⟨.readAligned, s.cw + 64 * ((b + 1) % (2 * s.latched.r.toNat))⟩ : Request).fails s.platform = true →
      engineStep s = .next t → ∀ a, inBlock (s.latched.elem.toNat + 64 * b) a → t.readByte a = s.readByte a

/-- R286, R165, U21: a streaming store's error may arrive late: the store's bytes are unspecified, no other byte the engine
reads changes, and the error is reported with the address of the first failing request. The rules say "may", and the rest is
the model's choice: the failing store itself never stops the sequence, the position moves on with STATUS and PROGRESS as they
are, and the error arrives before a later engine step or at the end (log 24); ERR, ERRINFO and ERRADDR report it when BUSY
falls, not before (log 12). -/
def Obligations.StreamingStoreErrorMayArriveLate : Prop :=
  ∀ s : State, Invariant s → s.status.busy = true →
    (∀ (src : BlkReg) (b : Base) (o : Nat), s.blockOps[s.seq.q]? = some (.stn src b o) →
      (⟨.writeNonTemporal, s.baseAddr b + o⟩ : Request).fails s.platform = true → s.pendingErr = none →
      ∃ t, engineStep s = .next t ∧ t.pendingErr = some (BitVec.ofNat 64 (s.baseAddr b + o))
        ∧ t.seq = { s.seq with q := s.seq.q + 1, t := 0 } ∧ t.status = s.status ∧ t.progress = s.progress
        ∧ ∀ a, ¬ inBlock (s.baseAddr b + o) a → t.readByte a = s.readByte a)
    ∧ ∀ (e : Reg64) (t : State), s.pendingErr = some e → engineStep s = .next t →
      (t.status.busy = true → t.pendingErr = some e)
        ∧ (t.status.busy = false → t.status.err = true ∧ t.errInfo = .busError ∧ t.errAddr = e)

/-- R71, R78, U16, U17: a command whose checks pass is refused when one of its regions overlaps device memory, or else the
engine's own register window where the platform maps it into memory; otherwise it is accepted. -/
def Obligations.DeviceAndWindowRegionsAreRefused : Prop :=
  ∀ (i : Instr) (s : State), s.status.busy = false → check i s = none →
    let disj := fun g h : Region => g.base + g.size ≤ h.base ∨ h.base + h.size ≤ g.base
    let device := ∃ g ∈ commandRegions i s, ∃ d ∈ s.platform.device, ¬ disj g d
    let window := s.platform.windowInMemory = true ∧ ∃ g ∈ commandRegions i s, ¬ disj g ⟨s.platform.mmioBase, 256⟩
    (device → exec i s = .refused .deviceRegion ∧ issueCommand i s = .refused .deviceRegion)
      ∧ (¬ device → window → exec i s = .refused .windowOverlap ∧ issueCommand i s = .refused .windowOverlap)
      ∧ (¬ device → ¬ window → ∃ t, issueCommand i s = .next t ∧ t.status.busy = true)

/-- R85, R86, R36: a drain performs a pending write, changes nothing else and no byte the engine reads; and whatever the
write buffer still holds, the engine's next step does the same, for the same free values drawn (log 6). That the write
performed is the oldest is the model's choice (log 9): R86 lets the port reorder. -/
def Obligations.DrainChangesNothingTheEngineDoes : Prop :=
  (∀ (s : State) (rest : List Input), Invariant s → s.inputs = .drain :: rest →
    ∃ t, step s = .next t ∧ t = { s with inputs := rest, mem := t.mem, wbuf := t.wbuf }
      ∧ t.wbuf = s.wbuf.drop 1 ∧ ∀ a, t.readByte a = s.readByte a)
  ∧ ∀ s t : State, Invariant s → s.status.busy = true → engineStep s = .next t →
    ∃ t', engineStep s.drainOldest = .next t' ∧ { t' with mem := t.mem, wbuf := t.wbuf } = t
      ∧ ∀ a, t'.readByte a = t.readByte a
end

