-- ==== Sys2Proof/Laws/Block.lean ====
section
/-! SUPPORT. Words, bytes and layouts of blocks: building a block and reading it back. -/

namespace Sys2Proof

/-- Word `p` of a built block is what it was built from. -/
@[simp] theorem Block.word_ofWords (f : Fin 16 → Word) (p : Fin 16) : (Block.ofWords f).word p = f p := by
  fin_cases p <;> rfl

/-- A block is built from its own words. -/
@[simp] theorem Block.ofWords_word (b : Block) : Block.ofWords b.word = b := rfl

/-- Two blocks with the same words are equal. -/
theorem Block.ext_word (a b : Block) (h : ∀ p, a.word p = b.word p) : a = b := by
  rw [← Block.ofWords_word a, ← Block.ofWords_word b]
  congr 1
  exact funext h

@[simp] theorem Block.word_xorb (a b : Block) (p : Fin 16) : (a.xorb b).word p = a.word p ^^^ b.word p := by
  simp [Block.xorb]

@[simp] theorem word_diag (n : Block) (p : Fin 16) : (diag n).word p = n.word (permPI p) := by simp [diag]

@[simp] theorem word_undiag (d : Block) (m : Fin 16) : (undiag d).word m = d.word (permPINV m) := by simp [undiag]

@[simp] theorem byteOf_le32_0 (b0 b1 b2 b3 : Byte) : byteOf (le32 b0 b1 b2 b3) 0 = b0 := by
  apply BitVec.eq_of_getLsbD_eq
  intro i hi
  simp [byteOf, le32, hi]

@[simp] theorem byteOf_le32_1 (b0 b1 b2 b3 : Byte) : byteOf (le32 b0 b1 b2 b3) 1 = b1 := by
  apply BitVec.eq_of_getLsbD_eq
  intro i hi
  simp [byteOf, le32, hi]
  interval_cases i <;> simp

@[simp] theorem byteOf_le32_2 (b0 b1 b2 b3 : Byte) : byteOf (le32 b0 b1 b2 b3) 2 = b2 := by
  apply BitVec.eq_of_getLsbD_eq
  intro i hi
  simp [byteOf, le32, hi]
  interval_cases i <;> simp

@[simp] theorem byteOf_le32_3 (b0 b1 b2 b3 : Byte) : byteOf (le32 b0 b1 b2 b3) 3 = b3 := by
  apply BitVec.eq_of_getLsbD_eq
  intro i hi
  simp [byteOf, le32, hi]
  interval_cases i <;> simp

/-- A word is built from its own bytes. -/
@[simp] theorem le32_byteOf (w : Word) : le32 (byteOf w 0) (byteOf w 1) (byteOf w 2) (byteOf w 3) = w := by
  apply BitVec.eq_of_getLsbD_eq
  intro i hi
  simp [byteOf, le32, hi]
  interval_cases i <;> simp

/-- The bytes of the words of a block, four by four. -/
theorem Block.byte_four (b : Block) (p : Fin 16) (j : Fin 4) : b.byte (4 * p.val + j.val) = byteOf (b.word p) j.val := by
  have h1 : (4 * p.val + j.val) / 4 = p.val := by omega
  have h2 : (4 * p.val + j.val) % 4 = j.val := by omega
  rw [Block.byte, h1, h2]
  congr 2
  exact Fin.ext (Nat.mod_eq_of_lt p.isLt)

/-- Byte `k` of a block built from bytes. -/
theorem Block.byte_ofBytes (f : Nat → Byte) (k : Nat) (hk : k < 64) : (Block.ofBytes f).byte k = f k := by
  have h := Block.byte_four (Block.ofBytes f) ⟨k / 4, by omega⟩ ⟨k % 4, by omega⟩
  have hk4 : 4 * (k / 4) + k % 4 = k := by omega
  simp only [hk4] at h
  rw [h, Block.ofBytes, Block.word_ofWords]
  have : k % 4 = 0 ∨ k % 4 = 1 ∨ k % 4 = 2 ∨ k % 4 = 3 := by omega
  rcases this with h4 | h4 | h4 | h4 <;> simp only [h4, byteOf_le32_0, byteOf_le32_1, byteOf_le32_2, byteOf_le32_3] <;>
    congr 1 <;> omega

/-- A block is built from its own bytes. -/
@[simp] theorem Block.ofBytes_byte (b : Block) : Block.ofBytes b.byte = b := by
  apply Block.ext_word
  intro p
  rw [Block.ofBytes, Block.word_ofWords]
  have h0 := Block.byte_four b p 0
  have h1 := Block.byte_four b p 1
  have h2 := Block.byte_four b p 2
  have h3 := Block.byte_four b p 3
  simp only [Fin.val_zero, Fin.val_one, Fin.val_two, Nat.add_zero] at h0 h1 h2
  rw [h0, h1, h2, show 4 * p.val + 3 = 4 * p.val + (3 : Fin 4).val from rfl, h3]
  exact le32_byteOf _

/-- A block built from bytes depends on the first 64 only. -/
theorem Block.ofBytes_congr (f g : Nat → Byte) (h : ∀ k, k < 64 → f k = g k) : Block.ofBytes f = Block.ofBytes g := by
  apply Block.ext_word
  intro p
  simp only [Block.ofBytes, Block.word_ofWords]
  rw [h _ (by omega), h _ (by omega), h _ (by omega), h _ (by omega)]

end Sys2Proof
end

