-- ==== Sys2Proof/Laws/Memory.lean ====
section
/-! SUPPORT. The laws of memory: a read after a write, and the canonical form kept by every operation. -/

namespace Sys2Proof.Machine

@[simp] theorem Memory.read_nil (a : Nat) : Memory.read [] a = Config.unlistedByte := rfl

theorem Memory.read_cons (c : Host.Cell) (m : Memory) (a : Nat) :
    Memory.read (c :: m) a = if a = c.1 then c.2 else Memory.read m a := rfl

theorem Memory.write_cons (c : Host.Cell) (m : Memory) (a : Nat) (v : Byte) :
    Memory.write (c :: m) a v =
      if a < c.1 then (if v = Config.unlistedByte then c :: m else (a, v) :: c :: m)
      else if a = c.1 then (if v = Config.unlistedByte then m else (a, v) :: m)
      else c :: Memory.write m a v := rfl

/-- The empty memory is in canonical form. -/
theorem Memory.wf_nil : Memory.wf [] := ⟨List.Pairwise.nil, by simp⟩

theorem Memory.wf_cons_iff (c : Host.Cell) (m : Memory) :
    Memory.wf (c :: m) ↔
      (∀ d ∈ m, c.1 < d.1) ∧ (c.1 < Config.addressLimit ∧ c.2 ≠ Config.unlistedByte) ∧ m.wf := by
  simp only [Memory.wf, List.pairwise_cons, List.forall_mem_cons]
  tauto

/-- An address below every entry is unlisted. -/
theorem Memory.read_eq_unlisted (m : Memory) (a : Nat) (h : ∀ d ∈ m, d.1 ≠ a) :
    m.read a = Config.unlistedByte := by
  induction m with
  | nil => rfl
  | cons c m ih =>
    have hc := h c (by simp)
    rw [Memory.read_cons, if_neg (Ne.symm hc)]
    exact ih fun d hd => h d (by simp [hd])

/-- A read after a write (canonical memory): the value written at its address, the old value elsewhere. -/
theorem Memory.read_write (m : Memory) (h : m.wf) (a x : Nat) (v : Byte) :
    (m.write a v).read x = if x = a then v else m.read x := by
  induction m with
  | nil =>
    simp only [Memory.write]
    split <;> rename_i hv <;> simp [Memory.read_cons, Memory.read_nil, hv]
  | cons c m ih =>
    obtain ⟨hlt, _, hm⟩ := (Memory.wf_cons_iff c m).1 h
    rw [Memory.write_cons]
    by_cases h1 : a < c.1
    · rw [if_pos h1]
      have habs : Memory.read (c :: m) a = Config.unlistedByte :=
        Memory.read_eq_unlisted _ _ (by
          intro d hd
          rcases List.mem_cons.1 hd with rfl | hd
          · omega
          · have := hlt d hd; omega)
      split <;> rename_i hv
      · by_cases hx : x = a
        · subst hx; rw [habs]; simp [hv]
        · simp [hx]
      · rw [Memory.read_cons]
    · rw [if_neg h1]
      by_cases h2 : a = c.1
      · rw [if_pos h2]
        split <;> rename_i hv
        · by_cases hx : x = a
          · subst hx
            rw [if_pos rfl, hv]
            exact Memory.read_eq_unlisted _ _ fun d hd => by have := hlt d hd; omega
          · rw [if_neg hx, Memory.read_cons, if_neg (by omega)]
        · rw [Memory.read_cons, Memory.read_cons]
          by_cases hx : x = a
          · simp [hx]
          · rw [if_neg hx, if_neg hx, if_neg (by omega)]
      · rw [if_neg h2, Memory.read_cons, Memory.read_cons, ih hm]
        by_cases hx : x = c.1
        · rw [if_pos hx, if_pos hx, if_neg (by omega)]
        · rw [if_neg hx, if_neg hx]

/-- An entry of a written memory is the written byte or an old entry. -/
theorem Memory.mem_write (m : Memory) (a : Nat) (v : Byte) (d : Host.Cell) (hd : d ∈ m.write a v) :
    (d = (a, v) ∧ v ≠ Config.unlistedByte) ∨ d ∈ m := by
  induction m with
  | nil =>
    simp only [Memory.write] at hd
    split at hd <;> simp_all
  | cons c m ih =>
    rw [Memory.write_cons] at hd
    split at hd
    · split at hd <;> simp_all
    · split at hd
      · split at hd
        · exact .inr (List.mem_cons_of_mem _ hd)
        · rcases List.mem_cons.1 hd with rfl | h
          · simp_all
          · exact .inr (List.mem_cons_of_mem _ h)
      · rcases List.mem_cons.1 hd with rfl | h
        · simp
        · rcases ih h with h | h
          · exact .inl h
          · exact .inr (List.mem_cons_of_mem _ h)

/-- A write inside the address space keeps the canonical form. -/
theorem Memory.wf_write (m : Memory) (h : m.wf) (a : Nat) (ha : a < Config.addressLimit) (v : Byte) :
    (m.write a v).wf := by
  induction m with
  | nil =>
    simp only [Memory.write]
    split <;> rename_i hv
    · exact Memory.wf_nil
    · exact (Memory.wf_cons_iff _ _).2 ⟨by simp, ⟨ha, hv⟩, Memory.wf_nil⟩
  | cons c m ih =>
    obtain ⟨hlt, hc, hm⟩ := (Memory.wf_cons_iff c m).1 h
    rw [Memory.write_cons]
    split
    · rename_i h1
      split <;> rename_i hv
      · exact h
      · refine (Memory.wf_cons_iff _ _).2 ⟨?_, ⟨ha, hv⟩, h⟩
        intro d hd
        rcases List.mem_cons.1 hd with rfl | hd
        · exact h1
        · exact Nat.lt_trans h1 (hlt d hd)
    · rename_i h1
      split
      · rename_i h2
        split <;> rename_i hv
        · exact hm
        · exact (Memory.wf_cons_iff _ _).2 ⟨fun d hd => h2 ▸ hlt d hd, ⟨ha, hv⟩, hm⟩
      · rename_i h2
        refine (Memory.wf_cons_iff _ _).2 ⟨?_, hc, ih hm⟩
        intro d hd
        rcases Memory.mem_write m a v d hd with ⟨rfl, _⟩ | hd
        · simp only; omega
        · exact hlt d hd

/-- Several bytes written inside the address space keep the canonical form. -/
theorem Memory.wf_writeBytes (n : Nat) (m : Memory) (h : m.wf) (a : Nat) (f : Nat → Byte)
    (ha : a + n ≤ Config.addressLimit) : (Memory.writeBytes n m a f).wf := by
  induction n with
  | zero => exact h
  | succ n ih => exact Memory.wf_write _ (ih (by omega)) _ (by omega) _

/-- The bytes read after several were written. -/
theorem Memory.read_writeBytes (n : Nat) (m : Memory) (h : m.wf) (a : Nat) (f : Nat → Byte)
    (ha : a + n ≤ Config.addressLimit) (x : Nat) :
    (Memory.writeBytes n m a f).read x = if a ≤ x ∧ x < a + n then f (x - a) else m.read x := by
  induction n with
  | zero => simp only [Memory.writeBytes]; rw [if_neg (by omega)]
  | succ n ih =>
    simp only [Memory.writeBytes]
    rw [Memory.read_write _ (Memory.wf_writeBytes n m h a f (by omega)), ih (by omega)]
    by_cases hx : x = a + n
    · subst hx
      rw [if_pos rfl, if_pos (by omega)]
      congr 1
      omega
    · rw [if_neg hx]
      by_cases h2 : a ≤ x ∧ x < a + n
      · rw [if_pos h2, if_pos (by omega)]
      · rw [if_neg h2, if_neg (by omega)]

/-- A block written inside the address space keeps the canonical form. -/
theorem Memory.wf_writeBlock (m : Memory) (h : m.wf) (a : Nat) (b : Block)
    (ha : a + Config.blockBytes ≤ Config.addressLimit) : (m.writeBlock a b).wf :=
  Memory.wf_writeBytes _ m h a b.byte ha

/-- A byte read after a block was written. -/
theorem Memory.read_writeBlock (m : Memory) (h : m.wf) (a : Nat) (b : Block)
    (ha : a + Config.blockBytes ≤ Config.addressLimit) (x : Nat) :
    (m.writeBlock a b).read x =
      if a ≤ x ∧ x < a + Config.blockBytes then b.byte (x - a) else m.read x :=
  Memory.read_writeBytes _ m h a b.byte ha x

end Sys2Proof.Machine
end

