-- ==== Sys2Proof/Laws/State.lean ====
section
/-! SUPPORT. One lemma per field per update of State, so that no proof unfolds a record update. -/

namespace Sys2Proof.Machine

/-! ### storeBlock -/

@[simp] theorem State.storeBlock_ctrl (s : State) (a : Nat) (b : Block) : (s.storeBlock a b).ctrl = s.ctrl := rfl
@[simp] theorem State.storeBlock_status (s : State) (a : Nat) (b : Block) : (s.storeBlock a b).status = s.status := rfl
@[simp] theorem State.storeBlock_cmd (s : State) (a : Nat) (b : Block) : (s.storeBlock a b).cmd = s.cmd := rfl
@[simp] theorem State.storeBlock_errInfo (s : State) (a : Nat) (b : Block) : (s.storeBlock a b).errInfo = s.errInfo := rfl
@[simp] theorem State.storeBlock_errAddr (s : State) (a : Nat) (b : Block) : (s.storeBlock a b).errAddr = s.errAddr := rfl
@[simp] theorem State.storeBlock_params (s : State) (a : Nat) (b : Block) : (s.storeBlock a b).params = s.params := rfl
@[simp] theorem State.storeBlock_j (s : State) (a : Nat) (b : Block) : (s.storeBlock a b).j = s.j := rfl
@[simp] theorem State.storeBlock_progress (s : State) (a : Nat) (b : Block) : (s.storeBlock a b).progress = s.progress := rfl
@[simp] theorem State.storeBlock_seq (s : State) (a : Nat) (b : Block) : (s.storeBlock a b).seq = s.seq := rfl
@[simp] theorem State.storeBlock_latched (s : State) (a : Nat) (b : Block) : (s.storeBlock a b).latched = s.latched := rfl
@[simp] theorem State.storeBlock_dp (s : State) (a : Nat) (b : Block) : (s.storeBlock a b).dp = s.dp := rfl
@[simp] theorem State.storeBlock_zeroOk (s : State) (a : Nat) (b : Block) : (s.storeBlock a b).zeroOk = s.zeroOk := rfl
@[simp] theorem State.storeBlock_pendingErr (s : State) (a : Nat) (b : Block) : (s.storeBlock a b).pendingErr = s.pendingErr := rfl
@[simp] theorem State.storeBlock_mem (s : State) (a : Nat) (b : Block) : (s.storeBlock a b).mem = s.mem := rfl
@[simp] theorem State.storeBlock_wbuf (s : State) (a : Nat) (b : Block) : (s.storeBlock a b).wbuf = s.wbuf ++ [⟨a, b⟩] := rfl
@[simp] theorem State.storeBlock_inputs (s : State) (a : Nat) (b : Block) : (s.storeBlock a b).inputs = s.inputs := rfl
@[simp] theorem State.storeBlock_resp (s : State) (a : Nat) (b : Block) : (s.storeBlock a b).resp = s.resp := rfl
@[simp] theorem State.storeBlock_trace (s : State) (a : Nat) (b : Block) : (s.storeBlock a b).trace = s.trace := rfl
@[simp] theorem State.storeBlock_platform (s : State) (a : Nat) (b : Block) : (s.storeBlock a b).platform = s.platform := rfl
@[simp] theorem State.storeBlock_pace (s : State) (a : Nat) (b : Block) : (s.storeBlock a b).pace = s.pace := rfl
@[simp] theorem State.storeBlock_phaseDraw (s : State) (a : Nat) (b : Block) : (s.storeBlock a b).phaseDraw = s.phaseDraw := rfl
@[simp] theorem State.storeBlock_progressSeen (s : State) (a : Nat) (b : Block) : (s.storeBlock a b).progressSeen = s.progressSeen := rfl
@[simp] theorem State.storeBlock_draws (s : State) (a : Nat) (b : Block) : (s.storeBlock a b).draws = s.draws := rfl

/-! ### storeFree -/

@[simp] theorem State.storeFree_ctrl (s : State) (a : Nat) : (s.storeFree a).ctrl = s.ctrl := rfl
@[simp] theorem State.storeFree_status (s : State) (a : Nat) : (s.storeFree a).status = s.status := rfl
@[simp] theorem State.storeFree_cmd (s : State) (a : Nat) : (s.storeFree a).cmd = s.cmd := rfl
@[simp] theorem State.storeFree_errInfo (s : State) (a : Nat) : (s.storeFree a).errInfo = s.errInfo := rfl
@[simp] theorem State.storeFree_errAddr (s : State) (a : Nat) : (s.storeFree a).errAddr = s.errAddr := rfl
@[simp] theorem State.storeFree_params (s : State) (a : Nat) : (s.storeFree a).params = s.params := rfl
@[simp] theorem State.storeFree_j (s : State) (a : Nat) : (s.storeFree a).j = s.j := rfl
@[simp] theorem State.storeFree_progress (s : State) (a : Nat) : (s.storeFree a).progress = s.progress := rfl
@[simp] theorem State.storeFree_seq (s : State) (a : Nat) : (s.storeFree a).seq = s.seq := rfl
@[simp] theorem State.storeFree_latched (s : State) (a : Nat) : (s.storeFree a).latched = s.latched := rfl
@[simp] theorem State.storeFree_dp (s : State) (a : Nat) : (s.storeFree a).dp = s.dp := rfl
@[simp] theorem State.storeFree_zeroOk (s : State) (a : Nat) : (s.storeFree a).zeroOk = s.zeroOk := rfl
@[simp] theorem State.storeFree_pendingErr (s : State) (a : Nat) : (s.storeFree a).pendingErr = s.pendingErr := rfl
@[simp] theorem State.storeFree_mem (s : State) (a : Nat) : (s.storeFree a).mem = s.mem := rfl
@[simp] theorem State.storeFree_wbuf (s : State) (a : Nat) : (s.storeFree a).wbuf = s.wbuf ++ [⟨a, s.freeBlock⟩] := rfl
@[simp] theorem State.storeFree_inputs (s : State) (a : Nat) : (s.storeFree a).inputs = s.inputs := rfl
@[simp] theorem State.storeFree_resp (s : State) (a : Nat) : (s.storeFree a).resp = s.resp := rfl
@[simp] theorem State.storeFree_trace (s : State) (a : Nat) : (s.storeFree a).trace = s.trace := rfl
@[simp] theorem State.storeFree_platform (s : State) (a : Nat) : (s.storeFree a).platform = s.platform := rfl
@[simp] theorem State.storeFree_pace (s : State) (a : Nat) : (s.storeFree a).pace = s.pace := rfl
@[simp] theorem State.storeFree_phaseDraw (s : State) (a : Nat) : (s.storeFree a).phaseDraw = s.phaseDraw := rfl
@[simp] theorem State.storeFree_progressSeen (s : State) (a : Nat) : (s.storeFree a).progressSeen = s.progressSeen := rfl
@[simp] theorem State.storeFree_draws (s : State) (a : Nat) : (s.storeFree a).draws = s.draws + 16 := rfl

/-! ### drainAll -/

@[simp] theorem State.drainAll_ctrl (s : State) : (s.drainAll).ctrl = s.ctrl := rfl
@[simp] theorem State.drainAll_status (s : State) : (s.drainAll).status = s.status := rfl
@[simp] theorem State.drainAll_cmd (s : State) : (s.drainAll).cmd = s.cmd := rfl
@[simp] theorem State.drainAll_errInfo (s : State) : (s.drainAll).errInfo = s.errInfo := rfl
@[simp] theorem State.drainAll_errAddr (s : State) : (s.drainAll).errAddr = s.errAddr := rfl
@[simp] theorem State.drainAll_params (s : State) : (s.drainAll).params = s.params := rfl
@[simp] theorem State.drainAll_j (s : State) : (s.drainAll).j = s.j := rfl
@[simp] theorem State.drainAll_progress (s : State) : (s.drainAll).progress = s.progress := rfl
@[simp] theorem State.drainAll_seq (s : State) : (s.drainAll).seq = s.seq := rfl
@[simp] theorem State.drainAll_latched (s : State) : (s.drainAll).latched = s.latched := rfl
@[simp] theorem State.drainAll_dp (s : State) : (s.drainAll).dp = s.dp := rfl
@[simp] theorem State.drainAll_zeroOk (s : State) : (s.drainAll).zeroOk = s.zeroOk := rfl
@[simp] theorem State.drainAll_pendingErr (s : State) : (s.drainAll).pendingErr = s.pendingErr := rfl
@[simp] theorem State.drainAll_mem (s : State) : (s.drainAll).mem = s.wbuf.foldl Memory.perform s.mem := rfl
@[simp] theorem State.drainAll_wbuf (s : State) : (s.drainAll).wbuf = [] := rfl
@[simp] theorem State.drainAll_inputs (s : State) : (s.drainAll).inputs = s.inputs := rfl
@[simp] theorem State.drainAll_resp (s : State) : (s.drainAll).resp = s.resp := rfl
@[simp] theorem State.drainAll_trace (s : State) : (s.drainAll).trace = s.trace := rfl
@[simp] theorem State.drainAll_platform (s : State) : (s.drainAll).platform = s.platform := rfl
@[simp] theorem State.drainAll_pace (s : State) : (s.drainAll).pace = s.pace := rfl
@[simp] theorem State.drainAll_phaseDraw (s : State) : (s.drainAll).phaseDraw = s.phaseDraw := rfl
@[simp] theorem State.drainAll_progressSeen (s : State) : (s.drainAll).progressSeen = s.progressSeen := rfl
@[simp] theorem State.drainAll_draws (s : State) : (s.drainAll).draws = s.draws := rfl

/-! ### record -/

@[simp] theorem State.record_ctrl (s : State) (q : Request) : (s.record q).ctrl = s.ctrl := rfl
@[simp] theorem State.record_status (s : State) (q : Request) : (s.record q).status = s.status := rfl
@[simp] theorem State.record_cmd (s : State) (q : Request) : (s.record q).cmd = s.cmd := rfl
@[simp] theorem State.record_errInfo (s : State) (q : Request) : (s.record q).errInfo = s.errInfo := rfl
@[simp] theorem State.record_errAddr (s : State) (q : Request) : (s.record q).errAddr = s.errAddr := rfl
@[simp] theorem State.record_params (s : State) (q : Request) : (s.record q).params = s.params := rfl
@[simp] theorem State.record_j (s : State) (q : Request) : (s.record q).j = s.j := rfl
@[simp] theorem State.record_progress (s : State) (q : Request) : (s.record q).progress = s.progress := rfl
@[simp] theorem State.record_seq (s : State) (q : Request) : (s.record q).seq = s.seq := rfl
@[simp] theorem State.record_latched (s : State) (q : Request) : (s.record q).latched = s.latched := rfl
@[simp] theorem State.record_dp (s : State) (q : Request) : (s.record q).dp = s.dp := rfl
@[simp] theorem State.record_zeroOk (s : State) (q : Request) : (s.record q).zeroOk = s.zeroOk := rfl
@[simp] theorem State.record_pendingErr (s : State) (q : Request) : (s.record q).pendingErr = s.pendingErr := rfl
@[simp] theorem State.record_mem (s : State) (q : Request) : (s.record q).mem = s.mem := rfl
@[simp] theorem State.record_wbuf (s : State) (q : Request) : (s.record q).wbuf = s.wbuf := rfl
@[simp] theorem State.record_inputs (s : State) (q : Request) : (s.record q).inputs = s.inputs := rfl
@[simp] theorem State.record_resp (s : State) (q : Request) : (s.record q).resp = s.resp := rfl
@[simp] theorem State.record_trace (s : State) (q : Request) : (s.record q).trace = q :: s.trace := rfl
@[simp] theorem State.record_platform (s : State) (q : Request) : (s.record q).platform = s.platform := rfl
@[simp] theorem State.record_pace (s : State) (q : Request) : (s.record q).pace = s.pace := rfl
@[simp] theorem State.record_phaseDraw (s : State) (q : Request) : (s.record q).phaseDraw = s.phaseDraw := rfl
@[simp] theorem State.record_progressSeen (s : State) (q : Request) : (s.record q).progressSeen = s.progressSeen := rfl
@[simp] theorem State.record_draws (s : State) (q : Request) : (s.record q).draws = s.draws := rfl

/-! ### setBlk -/

@[simp] theorem State.setBlk_ctrl (s : State) (g : BlkReg) (b : Block) : (s.setBlk g b).ctrl = s.ctrl := rfl
@[simp] theorem State.setBlk_status (s : State) (g : BlkReg) (b : Block) : (s.setBlk g b).status = s.status := rfl
@[simp] theorem State.setBlk_cmd (s : State) (g : BlkReg) (b : Block) : (s.setBlk g b).cmd = s.cmd := rfl
@[simp] theorem State.setBlk_errInfo (s : State) (g : BlkReg) (b : Block) : (s.setBlk g b).errInfo = s.errInfo := rfl
@[simp] theorem State.setBlk_errAddr (s : State) (g : BlkReg) (b : Block) : (s.setBlk g b).errAddr = s.errAddr := rfl
@[simp] theorem State.setBlk_params (s : State) (g : BlkReg) (b : Block) : (s.setBlk g b).params = s.params := rfl
@[simp] theorem State.setBlk_j (s : State) (g : BlkReg) (b : Block) : (s.setBlk g b).j = s.j := rfl
@[simp] theorem State.setBlk_progress (s : State) (g : BlkReg) (b : Block) : (s.setBlk g b).progress = s.progress := rfl
@[simp] theorem State.setBlk_seq (s : State) (g : BlkReg) (b : Block) : (s.setBlk g b).seq = s.seq := rfl
@[simp] theorem State.setBlk_latched (s : State) (g : BlkReg) (b : Block) : (s.setBlk g b).latched = s.latched := rfl
@[simp] theorem State.setBlk_dp (s : State) (g : BlkReg) (b : Block) : (s.setBlk g b).dp = s.dp.set g b := rfl
@[simp] theorem State.setBlk_zeroOk (s : State) (g : BlkReg) (b : Block) : (s.setBlk g b).zeroOk = s.zeroOk := rfl
@[simp] theorem State.setBlk_pendingErr (s : State) (g : BlkReg) (b : Block) : (s.setBlk g b).pendingErr = s.pendingErr := rfl
@[simp] theorem State.setBlk_mem (s : State) (g : BlkReg) (b : Block) : (s.setBlk g b).mem = s.mem := rfl
@[simp] theorem State.setBlk_wbuf (s : State) (g : BlkReg) (b : Block) : (s.setBlk g b).wbuf = s.wbuf := rfl
@[simp] theorem State.setBlk_inputs (s : State) (g : BlkReg) (b : Block) : (s.setBlk g b).inputs = s.inputs := rfl
@[simp] theorem State.setBlk_resp (s : State) (g : BlkReg) (b : Block) : (s.setBlk g b).resp = s.resp := rfl
@[simp] theorem State.setBlk_trace (s : State) (g : BlkReg) (b : Block) : (s.setBlk g b).trace = s.trace := rfl
@[simp] theorem State.setBlk_platform (s : State) (g : BlkReg) (b : Block) : (s.setBlk g b).platform = s.platform := rfl
@[simp] theorem State.setBlk_pace (s : State) (g : BlkReg) (b : Block) : (s.setBlk g b).pace = s.pace := rfl
@[simp] theorem State.setBlk_phaseDraw (s : State) (g : BlkReg) (b : Block) : (s.setBlk g b).phaseDraw = s.phaseDraw := rfl
@[simp] theorem State.setBlk_progressSeen (s : State) (g : BlkReg) (b : Block) : (s.setBlk g b).progressSeen = s.progressSeen := rfl
@[simp] theorem State.setBlk_draws (s : State) (g : BlkReg) (b : Block) : (s.setBlk g b).draws = s.draws := rfl

/-! ### nextOp -/

@[simp] theorem State.nextOp_ctrl (s : State) : (s.nextOp).ctrl = s.ctrl := rfl
@[simp] theorem State.nextOp_status (s : State) : (s.nextOp).status = s.status := rfl
@[simp] theorem State.nextOp_cmd (s : State) : (s.nextOp).cmd = s.cmd := rfl
@[simp] theorem State.nextOp_errInfo (s : State) : (s.nextOp).errInfo = s.errInfo := rfl
@[simp] theorem State.nextOp_errAddr (s : State) : (s.nextOp).errAddr = s.errAddr := rfl
@[simp] theorem State.nextOp_params (s : State) : (s.nextOp).params = s.params := rfl
@[simp] theorem State.nextOp_j (s : State) : (s.nextOp).j = s.j := rfl
@[simp] theorem State.nextOp_progress (s : State) : (s.nextOp).progress = s.progress := rfl
@[simp] theorem State.nextOp_seq (s : State) : (s.nextOp).seq = { s.seq with q := s.seq.q + 1, t := 0 } := rfl
@[simp] theorem State.nextOp_latched (s : State) : (s.nextOp).latched = s.latched := rfl
@[simp] theorem State.nextOp_dp (s : State) : (s.nextOp).dp = s.dp := rfl
@[simp] theorem State.nextOp_zeroOk (s : State) : (s.nextOp).zeroOk = s.zeroOk := rfl
@[simp] theorem State.nextOp_pendingErr (s : State) : (s.nextOp).pendingErr = s.pendingErr := rfl
@[simp] theorem State.nextOp_mem (s : State) : (s.nextOp).mem = s.mem := rfl
@[simp] theorem State.nextOp_wbuf (s : State) : (s.nextOp).wbuf = s.wbuf := rfl
@[simp] theorem State.nextOp_inputs (s : State) : (s.nextOp).inputs = s.inputs := rfl
@[simp] theorem State.nextOp_resp (s : State) : (s.nextOp).resp = s.resp := rfl
@[simp] theorem State.nextOp_trace (s : State) : (s.nextOp).trace = s.trace := rfl
@[simp] theorem State.nextOp_platform (s : State) : (s.nextOp).platform = s.platform := rfl
@[simp] theorem State.nextOp_pace (s : State) : (s.nextOp).pace = s.pace := rfl
@[simp] theorem State.nextOp_phaseDraw (s : State) : (s.nextOp).phaseDraw = s.phaseDraw := rfl
@[simp] theorem State.nextOp_progressSeen (s : State) : (s.nextOp).progressSeen = s.progressSeen := rfl
@[simp] theorem State.nextOp_draws (s : State) : (s.nextOp).draws = s.draws := rfl

/-! ### nextRound -/

@[simp] theorem State.nextRound_ctrl (s : State) : (s.nextRound).ctrl = s.ctrl := rfl
@[simp] theorem State.nextRound_status (s : State) : (s.nextRound).status = s.status := rfl
@[simp] theorem State.nextRound_cmd (s : State) : (s.nextRound).cmd = s.cmd := rfl
@[simp] theorem State.nextRound_errInfo (s : State) : (s.nextRound).errInfo = s.errInfo := rfl
@[simp] theorem State.nextRound_errAddr (s : State) : (s.nextRound).errAddr = s.errAddr := rfl
@[simp] theorem State.nextRound_params (s : State) : (s.nextRound).params = s.params := rfl
@[simp] theorem State.nextRound_j (s : State) : (s.nextRound).j = s.j := rfl
@[simp] theorem State.nextRound_progress (s : State) : (s.nextRound).progress = s.progress := rfl
@[simp] theorem State.nextRound_seq (s : State) : (s.nextRound).seq = { s.seq with t := s.seq.t + 1 } := rfl
@[simp] theorem State.nextRound_latched (s : State) : (s.nextRound).latched = s.latched := rfl
@[simp] theorem State.nextRound_dp (s : State) : (s.nextRound).dp = s.dp := rfl
@[simp] theorem State.nextRound_zeroOk (s : State) : (s.nextRound).zeroOk = s.zeroOk := rfl
@[simp] theorem State.nextRound_pendingErr (s : State) : (s.nextRound).pendingErr = s.pendingErr := rfl
@[simp] theorem State.nextRound_mem (s : State) : (s.nextRound).mem = s.mem := rfl
@[simp] theorem State.nextRound_wbuf (s : State) : (s.nextRound).wbuf = s.wbuf := rfl
@[simp] theorem State.nextRound_inputs (s : State) : (s.nextRound).inputs = s.inputs := rfl
@[simp] theorem State.nextRound_resp (s : State) : (s.nextRound).resp = s.resp := rfl
@[simp] theorem State.nextRound_trace (s : State) : (s.nextRound).trace = s.trace := rfl
@[simp] theorem State.nextRound_platform (s : State) : (s.nextRound).platform = s.platform := rfl
@[simp] theorem State.nextRound_pace (s : State) : (s.nextRound).pace = s.pace := rfl
@[simp] theorem State.nextRound_phaseDraw (s : State) : (s.nextRound).phaseDraw = s.phaseDraw := rfl
@[simp] theorem State.nextRound_progressSeen (s : State) : (s.nextRound).progressSeen = s.progressSeen := rfl
@[simp] theorem State.nextRound_draws (s : State) : (s.nextRound).draws = s.draws := rfl

/-! ### nextIter -/

@[simp] theorem State.nextIter_ctrl (s : State) : (s.nextIter).ctrl = s.ctrl := rfl
@[simp] theorem State.nextIter_status (s : State) : (s.nextIter).status = s.status := rfl
@[simp] theorem State.nextIter_cmd (s : State) : (s.nextIter).cmd = s.cmd := rfl
@[simp] theorem State.nextIter_errInfo (s : State) : (s.nextIter).errInfo = s.errInfo := rfl
@[simp] theorem State.nextIter_errAddr (s : State) : (s.nextIter).errAddr = s.errAddr := rfl
@[simp] theorem State.nextIter_params (s : State) : (s.nextIter).params = s.params := rfl
@[simp] theorem State.nextIter_j (s : State) : (s.nextIter).j = s.j := rfl
@[simp] theorem State.nextIter_progress (s : State) : (s.nextIter).progress = s.progress := rfl
@[simp] theorem State.nextIter_seq (s : State) : (s.nextIter).seq = { s.seq with i := s.seq.i + 1, q := 0, t := 0 } := rfl
@[simp] theorem State.nextIter_latched (s : State) : (s.nextIter).latched = s.latched := rfl
@[simp] theorem State.nextIter_dp (s : State) : (s.nextIter).dp = s.dp := rfl
@[simp] theorem State.nextIter_zeroOk (s : State) : (s.nextIter).zeroOk = s.zeroOk := rfl
@[simp] theorem State.nextIter_pendingErr (s : State) : (s.nextIter).pendingErr = s.pendingErr := rfl
@[simp] theorem State.nextIter_mem (s : State) : (s.nextIter).mem = s.mem := rfl
@[simp] theorem State.nextIter_wbuf (s : State) : (s.nextIter).wbuf = s.wbuf := rfl
@[simp] theorem State.nextIter_inputs (s : State) : (s.nextIter).inputs = s.inputs := rfl
@[simp] theorem State.nextIter_resp (s : State) : (s.nextIter).resp = s.resp := rfl
@[simp] theorem State.nextIter_trace (s : State) : (s.nextIter).trace = s.trace := rfl
@[simp] theorem State.nextIter_platform (s : State) : (s.nextIter).platform = s.platform := rfl
@[simp] theorem State.nextIter_pace (s : State) : (s.nextIter).pace = s.pace := rfl
@[simp] theorem State.nextIter_phaseDraw (s : State) : (s.nextIter).phaseDraw = s.phaseDraw := rfl
@[simp] theorem State.nextIter_progressSeen (s : State) : (s.nextIter).progressSeen = s.progressSeen := rfl
@[simp] theorem State.nextIter_draws (s : State) : (s.nextIter).draws = s.draws := rfl

/-! ### enterPhase -/

@[simp] theorem State.enterPhase_ctrl (s : State) (ph : Phase) : (s.enterPhase ph).ctrl = s.ctrl := rfl
@[simp] theorem State.enterPhase_status (s : State) (ph : Phase) : (s.enterPhase ph).status = s.status := rfl
@[simp] theorem State.enterPhase_cmd (s : State) (ph : Phase) : (s.enterPhase ph).cmd = s.cmd := rfl
@[simp] theorem State.enterPhase_errInfo (s : State) (ph : Phase) : (s.enterPhase ph).errInfo = s.errInfo := rfl
@[simp] theorem State.enterPhase_errAddr (s : State) (ph : Phase) : (s.enterPhase ph).errAddr = s.errAddr := rfl
@[simp] theorem State.enterPhase_params (s : State) (ph : Phase) : (s.enterPhase ph).params = s.params := rfl
@[simp] theorem State.enterPhase_j (s : State) (ph : Phase) : (s.enterPhase ph).j = s.j := rfl
@[simp] theorem State.enterPhase_progress (s : State) (ph : Phase) : (s.enterPhase ph).progress = s.progress := rfl
@[simp] theorem State.enterPhase_seq (s : State) (ph : Phase) : (s.enterPhase ph).seq = ⟨ph, 0, 0, 0⟩ := rfl
@[simp] theorem State.enterPhase_latched (s : State) (ph : Phase) : (s.enterPhase ph).latched = s.latched := rfl
@[simp] theorem State.enterPhase_dp (s : State) (ph : Phase) : (s.enterPhase ph).dp = s.dp := rfl
@[simp] theorem State.enterPhase_zeroOk (s : State) (ph : Phase) : (s.enterPhase ph).zeroOk = s.zeroOk := rfl
@[simp] theorem State.enterPhase_pendingErr (s : State) (ph : Phase) : (s.enterPhase ph).pendingErr = s.pendingErr := rfl
@[simp] theorem State.enterPhase_mem (s : State) (ph : Phase) : (s.enterPhase ph).mem = s.mem := rfl
@[simp] theorem State.enterPhase_wbuf (s : State) (ph : Phase) : (s.enterPhase ph).wbuf = s.wbuf := rfl
@[simp] theorem State.enterPhase_inputs (s : State) (ph : Phase) : (s.enterPhase ph).inputs = s.inputs := rfl
@[simp] theorem State.enterPhase_resp (s : State) (ph : Phase) : (s.enterPhase ph).resp = s.resp := rfl
@[simp] theorem State.enterPhase_trace (s : State) (ph : Phase) : (s.enterPhase ph).trace = s.trace := rfl
@[simp] theorem State.enterPhase_platform (s : State) (ph : Phase) : (s.enterPhase ph).platform = s.platform := rfl
@[simp] theorem State.enterPhase_pace (s : State) (ph : Phase) : (s.enterPhase ph).pace = s.pace := rfl
@[simp] theorem State.enterPhase_phaseDraw (s : State) (ph : Phase) : (s.enterPhase ph).phaseDraw = s.phaseDraw ++ [ph] := rfl
@[simp] theorem State.enterPhase_progressSeen (s : State) (ph : Phase) : (s.enterPhase ph).progressSeen = s.progressSeen := rfl
@[simp] theorem State.enterPhase_draws (s : State) (ph : Phase) : (s.enterPhase ph).draws = s.draws := rfl

/-! ### noteError -/

@[simp] theorem State.noteError_ctrl (s : State) (a : Nat) : (s.noteError a).ctrl = s.ctrl := rfl
@[simp] theorem State.noteError_status (s : State) (a : Nat) : (s.noteError a).status = s.status := rfl
@[simp] theorem State.noteError_cmd (s : State) (a : Nat) : (s.noteError a).cmd = s.cmd := rfl
@[simp] theorem State.noteError_errInfo (s : State) (a : Nat) : (s.noteError a).errInfo = s.errInfo := rfl
@[simp] theorem State.noteError_errAddr (s : State) (a : Nat) : (s.noteError a).errAddr = s.errAddr := rfl
@[simp] theorem State.noteError_params (s : State) (a : Nat) : (s.noteError a).params = s.params := rfl
@[simp] theorem State.noteError_j (s : State) (a : Nat) : (s.noteError a).j = s.j := rfl
@[simp] theorem State.noteError_progress (s : State) (a : Nat) : (s.noteError a).progress = s.progress := rfl
@[simp] theorem State.noteError_seq (s : State) (a : Nat) : (s.noteError a).seq = s.seq := rfl
@[simp] theorem State.noteError_latched (s : State) (a : Nat) : (s.noteError a).latched = s.latched := rfl
@[simp] theorem State.noteError_dp (s : State) (a : Nat) : (s.noteError a).dp = s.dp := rfl
@[simp] theorem State.noteError_zeroOk (s : State) (a : Nat) : (s.noteError a).zeroOk = s.zeroOk := rfl
@[simp] theorem State.noteError_pendingErr (s : State) (a : Nat) : (s.noteError a).pendingErr = s.pendingErr.or (some (BitVec.ofNat 64 a)) := rfl
@[simp] theorem State.noteError_mem (s : State) (a : Nat) : (s.noteError a).mem = s.mem := rfl
@[simp] theorem State.noteError_wbuf (s : State) (a : Nat) : (s.noteError a).wbuf = s.wbuf := rfl
@[simp] theorem State.noteError_inputs (s : State) (a : Nat) : (s.noteError a).inputs = s.inputs := rfl
@[simp] theorem State.noteError_resp (s : State) (a : Nat) : (s.noteError a).resp = s.resp := rfl
@[simp] theorem State.noteError_trace (s : State) (a : Nat) : (s.noteError a).trace = s.trace := rfl
@[simp] theorem State.noteError_platform (s : State) (a : Nat) : (s.noteError a).platform = s.platform := rfl
@[simp] theorem State.noteError_pace (s : State) (a : Nat) : (s.noteError a).pace = s.pace := rfl
@[simp] theorem State.noteError_phaseDraw (s : State) (a : Nat) : (s.noteError a).phaseDraw = s.phaseDraw := rfl
@[simp] theorem State.noteError_progressSeen (s : State) (a : Nat) : (s.noteError a).progressSeen = s.progressSeen := rfl
@[simp] theorem State.noteError_draws (s : State) (a : Nat) : (s.noteError a).draws = s.draws := rfl

/-! ### laterWrites -/

@[simp] theorem State.laterWrites_ctrl (s : State) (ops : List MicroOp) (lost : List BlkReg) : (s.laterWrites ops lost).ctrl = s.ctrl := rfl
@[simp] theorem State.laterWrites_status (s : State) (ops : List MicroOp) (lost : List BlkReg) : (s.laterWrites ops lost).status = s.status := rfl
@[simp] theorem State.laterWrites_cmd (s : State) (ops : List MicroOp) (lost : List BlkReg) : (s.laterWrites ops lost).cmd = s.cmd := rfl
@[simp] theorem State.laterWrites_errInfo (s : State) (ops : List MicroOp) (lost : List BlkReg) : (s.laterWrites ops lost).errInfo = s.errInfo := rfl
@[simp] theorem State.laterWrites_errAddr (s : State) (ops : List MicroOp) (lost : List BlkReg) : (s.laterWrites ops lost).errAddr = s.errAddr := rfl
@[simp] theorem State.laterWrites_params (s : State) (ops : List MicroOp) (lost : List BlkReg) : (s.laterWrites ops lost).params = s.params := rfl
@[simp] theorem State.laterWrites_j (s : State) (ops : List MicroOp) (lost : List BlkReg) : (s.laterWrites ops lost).j = s.j := rfl
@[simp] theorem State.laterWrites_progress (s : State) (ops : List MicroOp) (lost : List BlkReg) : (s.laterWrites ops lost).progress = s.progress := rfl
@[simp] theorem State.laterWrites_seq (s : State) (ops : List MicroOp) (lost : List BlkReg) : (s.laterWrites ops lost).seq = s.seq := rfl
@[simp] theorem State.laterWrites_latched (s : State) (ops : List MicroOp) (lost : List BlkReg) : (s.laterWrites ops lost).latched = s.latched := rfl
@[simp] theorem State.laterWrites_dp (s : State) (ops : List MicroOp) (lost : List BlkReg) : (s.laterWrites ops lost).dp = s.dp := rfl
@[simp] theorem State.laterWrites_zeroOk (s : State) (ops : List MicroOp) (lost : List BlkReg) : (s.laterWrites ops lost).zeroOk = s.zeroOk := rfl
@[simp] theorem State.laterWrites_pendingErr (s : State) (ops : List MicroOp) (lost : List BlkReg) : (s.laterWrites ops lost).pendingErr = s.pendingErr := rfl
@[simp] theorem State.laterWrites_mem (s : State) (ops : List MicroOp) (lost : List BlkReg) : (s.laterWrites ops lost).mem = s.mem := rfl
@[simp] theorem State.laterWrites_inputs (s : State) (ops : List MicroOp) (lost : List BlkReg) : (s.laterWrites ops lost).inputs = s.inputs := rfl
@[simp] theorem State.laterWrites_resp (s : State) (ops : List MicroOp) (lost : List BlkReg) : (s.laterWrites ops lost).resp = s.resp := rfl
@[simp] theorem State.laterWrites_trace (s : State) (ops : List MicroOp) (lost : List BlkReg) : (s.laterWrites ops lost).trace = s.trace := rfl
@[simp] theorem State.laterWrites_platform (s : State) (ops : List MicroOp) (lost : List BlkReg) : (s.laterWrites ops lost).platform = s.platform := rfl
@[simp] theorem State.laterWrites_pace (s : State) (ops : List MicroOp) (lost : List BlkReg) : (s.laterWrites ops lost).pace = s.pace := rfl
@[simp] theorem State.laterWrites_phaseDraw (s : State) (ops : List MicroOp) (lost : List BlkReg) : (s.laterWrites ops lost).phaseDraw = s.phaseDraw := rfl
@[simp] theorem State.laterWrites_progressSeen (s : State) (ops : List MicroOp) (lost : List BlkReg) : (s.laterWrites ops lost).progressSeen = s.progressSeen := rfl

/-! ### reportError -/

@[simp] theorem State.reportError_ctrl (s : State) : (s.reportError).ctrl = s.ctrl := by
  unfold State.reportError
  cases h : s.pendingErr <;> simp_all
@[simp] theorem State.reportError_status (s : State) : (s.reportError).status = s.status := by
  unfold State.reportError
  cases h : s.pendingErr <;> simp_all
@[simp] theorem State.reportError_cmd (s : State) : (s.reportError).cmd = s.cmd := by
  unfold State.reportError
  cases h : s.pendingErr <;> simp_all
@[simp] theorem State.reportError_params (s : State) : (s.reportError).params = s.params := by
  unfold State.reportError
  cases h : s.pendingErr <;> simp_all
@[simp] theorem State.reportError_j (s : State) : (s.reportError).j = s.j := by
  unfold State.reportError
  cases h : s.pendingErr <;> simp_all
@[simp] theorem State.reportError_progress (s : State) : (s.reportError).progress = s.progress := by
  unfold State.reportError
  cases h : s.pendingErr <;> simp_all
@[simp] theorem State.reportError_seq (s : State) : (s.reportError).seq = s.seq := by
  unfold State.reportError
  cases h : s.pendingErr <;> simp_all
@[simp] theorem State.reportError_latched (s : State) : (s.reportError).latched = s.latched := by
  unfold State.reportError
  cases h : s.pendingErr <;> simp_all
@[simp] theorem State.reportError_dp (s : State) : (s.reportError).dp = s.dp := by
  unfold State.reportError
  cases h : s.pendingErr <;> simp_all
@[simp] theorem State.reportError_zeroOk (s : State) : (s.reportError).zeroOk = s.zeroOk := by
  unfold State.reportError
  cases h : s.pendingErr <;> simp_all
@[simp] theorem State.reportError_mem (s : State) : (s.reportError).mem = s.mem := by
  unfold State.reportError
  cases h : s.pendingErr <;> simp_all
@[simp] theorem State.reportError_wbuf (s : State) : (s.reportError).wbuf = s.wbuf := by
  unfold State.reportError
  cases h : s.pendingErr <;> simp_all
@[simp] theorem State.reportError_inputs (s : State) : (s.reportError).inputs = s.inputs := by
  unfold State.reportError
  cases h : s.pendingErr <;> simp_all
@[simp] theorem State.reportError_resp (s : State) : (s.reportError).resp = s.resp := by
  unfold State.reportError
  cases h : s.pendingErr <;> simp_all
@[simp] theorem State.reportError_trace (s : State) : (s.reportError).trace = s.trace := by
  unfold State.reportError
  cases h : s.pendingErr <;> simp_all
@[simp] theorem State.reportError_platform (s : State) : (s.reportError).platform = s.platform := by
  unfold State.reportError
  cases h : s.pendingErr <;> simp_all
@[simp] theorem State.reportError_pace (s : State) : (s.reportError).pace = s.pace := by
  unfold State.reportError
  cases h : s.pendingErr <;> simp_all
@[simp] theorem State.reportError_phaseDraw (s : State) : (s.reportError).phaseDraw = s.phaseDraw := by
  unfold State.reportError
  cases h : s.pendingErr <;> simp_all
@[simp] theorem State.reportError_progressSeen (s : State) : (s.reportError).progressSeen = s.progressSeen := by
  unfold State.reportError
  cases h : s.pendingErr <;> simp_all
@[simp] theorem State.reportError_draws (s : State) : (s.reportError).draws = s.draws := by
  unfold State.reportError
  cases h : s.pendingErr <;> simp_all

/-! ### complete -/

@[simp] theorem State.complete_ctrl (s : State) : (s.complete).ctrl = s.ctrl := by
  simp [State.complete]
@[simp] theorem State.complete_status (s : State) : (s.complete).status = s.status.completed s.pendingErr.isSome (if s.zeroizing then s.zeroOk else s.status.zeroed) := rfl
@[simp] theorem State.complete_cmd (s : State) : (s.complete).cmd = s.cmd := by
  simp [State.complete]
@[simp] theorem State.complete_params (s : State) : (s.complete).params = s.params := by
  simp [State.complete]
@[simp] theorem State.complete_j (s : State) : (s.complete).j = s.j := by
  simp [State.complete]
@[simp] theorem State.complete_progress (s : State) : (s.complete).progress = s.progress := by
  simp [State.complete]
@[simp] theorem State.complete_seq (s : State) : (s.complete).seq = idleSeq := rfl
@[simp] theorem State.complete_latched (s : State) : (s.complete).latched = s.latched := by
  simp [State.complete]
@[simp] theorem State.complete_dp (s : State) : (s.complete).dp = s.dp := by
  simp [State.complete]
@[simp] theorem State.complete_zeroOk (s : State) : (s.complete).zeroOk = s.zeroOk := by
  simp [State.complete]
@[simp] theorem State.complete_mem (s : State) : (s.complete).mem = s.wbuf.foldl Memory.perform s.mem := by
  simp [State.complete]
@[simp] theorem State.complete_wbuf (s : State) : (s.complete).wbuf = [] := by
  simp [State.complete]
@[simp] theorem State.complete_inputs (s : State) : (s.complete).inputs = s.inputs := by
  simp [State.complete]
@[simp] theorem State.complete_resp (s : State) : (s.complete).resp = s.resp := by
  simp [State.complete]
@[simp] theorem State.complete_trace (s : State) : (s.complete).trace = s.trace := by
  simp [State.complete]
@[simp] theorem State.complete_platform (s : State) : (s.complete).platform = s.platform := by
  simp [State.complete]
@[simp] theorem State.complete_pace (s : State) : (s.complete).pace = s.pace := by
  simp [State.complete]
@[simp] theorem State.complete_phaseDraw (s : State) : (s.complete).phaseDraw = [] := rfl
@[simp] theorem State.complete_progressSeen (s : State) : (s.complete).progressSeen = s.progressSeen := by
  simp [State.complete]
@[simp] theorem State.complete_draws (s : State) : (s.complete).draws = s.draws := by
  simp [State.complete]

/-! ### beginIssue -/

@[simp] theorem State.beginIssue_ctrl (s : State) (v : Reg64) : (s.beginIssue v).ctrl = s.ctrl := rfl
@[simp] theorem State.beginIssue_status (s : State) (v : Reg64) : (s.beginIssue v).status = s.status.issued := rfl
@[simp] theorem State.beginIssue_cmd (s : State) (v : Reg64) : (s.beginIssue v).cmd = v := rfl
@[simp] theorem State.beginIssue_errInfo (s : State) (v : Reg64) : (s.beginIssue v).errInfo = .noError := rfl
@[simp] theorem State.beginIssue_errAddr (s : State) (v : Reg64) : (s.beginIssue v).errAddr = 0#64 := rfl
@[simp] theorem State.beginIssue_params (s : State) (v : Reg64) : (s.beginIssue v).params = s.params := rfl
@[simp] theorem State.beginIssue_j (s : State) (v : Reg64) : (s.beginIssue v).j = s.j := rfl
@[simp] theorem State.beginIssue_progress (s : State) (v : Reg64) : (s.beginIssue v).progress = 0#64 := rfl
@[simp] theorem State.beginIssue_seq (s : State) (v : Reg64) : (s.beginIssue v).seq = s.seq := rfl
@[simp] theorem State.beginIssue_latched (s : State) (v : Reg64) : (s.beginIssue v).latched = s.latched := rfl
@[simp] theorem State.beginIssue_dp (s : State) (v : Reg64) : (s.beginIssue v).dp = s.dp := rfl
@[simp] theorem State.beginIssue_zeroOk (s : State) (v : Reg64) : (s.beginIssue v).zeroOk = s.zeroOk := rfl
@[simp] theorem State.beginIssue_pendingErr (s : State) (v : Reg64) : (s.beginIssue v).pendingErr = s.pendingErr := rfl
@[simp] theorem State.beginIssue_mem (s : State) (v : Reg64) : (s.beginIssue v).mem = s.mem := rfl
@[simp] theorem State.beginIssue_wbuf (s : State) (v : Reg64) : (s.beginIssue v).wbuf = s.wbuf := rfl
@[simp] theorem State.beginIssue_inputs (s : State) (v : Reg64) : (s.beginIssue v).inputs = s.inputs := rfl
@[simp] theorem State.beginIssue_resp (s : State) (v : Reg64) : (s.beginIssue v).resp = s.resp := rfl
@[simp] theorem State.beginIssue_trace (s : State) (v : Reg64) : (s.beginIssue v).trace = s.trace := rfl
@[simp] theorem State.beginIssue_platform (s : State) (v : Reg64) : (s.beginIssue v).platform = s.platform := rfl
@[simp] theorem State.beginIssue_pace (s : State) (v : Reg64) : (s.beginIssue v).pace = s.pace := rfl
@[simp] theorem State.beginIssue_phaseDraw (s : State) (v : Reg64) : (s.beginIssue v).phaseDraw = s.phaseDraw := rfl
@[simp] theorem State.beginIssue_progressSeen (s : State) (v : Reg64) : (s.beginIssue v).progressSeen = s.progressSeen := rfl
@[simp] theorem State.beginIssue_draws (s : State) (v : Reg64) : (s.beginIssue v).draws = s.draws := rfl

/-! ### reject -/

@[simp] theorem State.reject_ctrl (s : State) (e : ErrCode) : (s.reject e).ctrl = s.ctrl := rfl
@[simp] theorem State.reject_status (s : State) (e : ErrCode) : (s.reject e).status = s.status.rejected := rfl
@[simp] theorem State.reject_cmd (s : State) (e : ErrCode) : (s.reject e).cmd = s.cmd := rfl
@[simp] theorem State.reject_errInfo (s : State) (e : ErrCode) : (s.reject e).errInfo = e := rfl
@[simp] theorem State.reject_errAddr (s : State) (e : ErrCode) : (s.reject e).errAddr = s.errAddr := rfl
@[simp] theorem State.reject_params (s : State) (e : ErrCode) : (s.reject e).params = s.params := rfl
@[simp] theorem State.reject_j (s : State) (e : ErrCode) : (s.reject e).j = s.j := rfl
@[simp] theorem State.reject_progress (s : State) (e : ErrCode) : (s.reject e).progress = s.progress := rfl
@[simp] theorem State.reject_seq (s : State) (e : ErrCode) : (s.reject e).seq = s.seq := rfl
@[simp] theorem State.reject_latched (s : State) (e : ErrCode) : (s.reject e).latched = s.latched := rfl
@[simp] theorem State.reject_dp (s : State) (e : ErrCode) : (s.reject e).dp = s.dp := rfl
@[simp] theorem State.reject_zeroOk (s : State) (e : ErrCode) : (s.reject e).zeroOk = s.zeroOk := rfl
@[simp] theorem State.reject_pendingErr (s : State) (e : ErrCode) : (s.reject e).pendingErr = s.pendingErr := rfl
@[simp] theorem State.reject_mem (s : State) (e : ErrCode) : (s.reject e).mem = s.mem := rfl
@[simp] theorem State.reject_wbuf (s : State) (e : ErrCode) : (s.reject e).wbuf = s.wbuf := rfl
@[simp] theorem State.reject_inputs (s : State) (e : ErrCode) : (s.reject e).inputs = s.inputs := rfl
@[simp] theorem State.reject_resp (s : State) (e : ErrCode) : (s.reject e).resp = s.resp := rfl
@[simp] theorem State.reject_trace (s : State) (e : ErrCode) : (s.reject e).trace = s.trace := rfl
@[simp] theorem State.reject_platform (s : State) (e : ErrCode) : (s.reject e).platform = s.platform := rfl
@[simp] theorem State.reject_pace (s : State) (e : ErrCode) : (s.reject e).pace = s.pace := rfl
@[simp] theorem State.reject_phaseDraw (s : State) (e : ErrCode) : (s.reject e).phaseDraw = s.phaseDraw := rfl
@[simp] theorem State.reject_progressSeen (s : State) (e : ErrCode) : (s.reject e).progressSeen = s.progressSeen := rfl
@[simp] theorem State.reject_draws (s : State) (e : ErrCode) : (s.reject e).draws = s.draws := rfl

/-! ### accept -/

@[simp] theorem State.accept_ctrl (s : State) (i : Instr) : (s.accept i).ctrl = s.ctrl := rfl
@[simp] theorem State.accept_status (s : State) (i : Instr) : (s.accept i).status = s.status.accepted (clearsSwap i) := rfl
@[simp] theorem State.accept_cmd (s : State) (i : Instr) : (s.accept i).cmd = s.cmd := rfl
@[simp] theorem State.accept_errInfo (s : State) (i : Instr) : (s.accept i).errInfo = s.errInfo := rfl
@[simp] theorem State.accept_errAddr (s : State) (i : Instr) : (s.accept i).errAddr = s.errAddr := rfl
@[simp] theorem State.accept_params (s : State) (i : Instr) : (s.accept i).params = s.params := rfl
@[simp] theorem State.accept_j (s : State) (i : Instr) : (s.accept i).j = s.j := rfl
@[simp] theorem State.accept_progress (s : State) (i : Instr) : (s.accept i).progress = s.progress := rfl
@[simp] theorem State.accept_seq (s : State) (i : Instr) : (s.accept i).seq = ⟨firstPhase i, 0, 0, 0⟩ := rfl
@[simp] theorem State.accept_latched (s : State) (i : Instr) : (s.accept i).latched = latch i s := rfl
@[simp] theorem State.accept_dp (s : State) (i : Instr) : (s.accept i).dp = s.dp := rfl
@[simp] theorem State.accept_zeroOk (s : State) (i : Instr) : (s.accept i).zeroOk = s.zeroOk := rfl
@[simp] theorem State.accept_pendingErr (s : State) (i : Instr) : (s.accept i).pendingErr = none := rfl
@[simp] theorem State.accept_mem (s : State) (i : Instr) : (s.accept i).mem = s.mem := rfl
@[simp] theorem State.accept_wbuf (s : State) (i : Instr) : (s.accept i).wbuf = s.wbuf := rfl
@[simp] theorem State.accept_inputs (s : State) (i : Instr) : (s.accept i).inputs = s.inputs := rfl
@[simp] theorem State.accept_resp (s : State) (i : Instr) : (s.accept i).resp = s.resp := rfl
@[simp] theorem State.accept_trace (s : State) (i : Instr) : (s.accept i).trace = s.trace := rfl
@[simp] theorem State.accept_platform (s : State) (i : Instr) : (s.accept i).platform = s.platform := rfl
@[simp] theorem State.accept_pace (s : State) (i : Instr) : (s.accept i).pace = s.pace := rfl
@[simp] theorem State.accept_phaseDraw (s : State) (i : Instr) : (s.accept i).phaseDraw = [firstPhase i] := rfl
@[simp] theorem State.accept_progressSeen (s : State) (i : Instr) : (s.accept i).progressSeen = 0 := rfl
@[simp] theorem State.accept_draws (s : State) (i : Instr) : (s.accept i).draws = s.draws := rfl

/-! ### ignoreWrite -/

@[simp] theorem State.ignoreWrite_ctrl (s : State) : (s.ignoreWrite).ctrl = s.ctrl := rfl
@[simp] theorem State.ignoreWrite_status (s : State) : (s.ignoreWrite).status = s.status.ignoredWrite := rfl
@[simp] theorem State.ignoreWrite_cmd (s : State) : (s.ignoreWrite).cmd = s.cmd := rfl
@[simp] theorem State.ignoreWrite_errInfo (s : State) : (s.ignoreWrite).errInfo = s.errInfo := rfl
@[simp] theorem State.ignoreWrite_errAddr (s : State) : (s.ignoreWrite).errAddr = s.errAddr := rfl
@[simp] theorem State.ignoreWrite_params (s : State) : (s.ignoreWrite).params = s.params := rfl
@[simp] theorem State.ignoreWrite_j (s : State) : (s.ignoreWrite).j = s.j := rfl
@[simp] theorem State.ignoreWrite_progress (s : State) : (s.ignoreWrite).progress = s.progress := rfl
@[simp] theorem State.ignoreWrite_seq (s : State) : (s.ignoreWrite).seq = s.seq := rfl
@[simp] theorem State.ignoreWrite_latched (s : State) : (s.ignoreWrite).latched = s.latched := rfl
@[simp] theorem State.ignoreWrite_dp (s : State) : (s.ignoreWrite).dp = s.dp := rfl
@[simp] theorem State.ignoreWrite_zeroOk (s : State) : (s.ignoreWrite).zeroOk = s.zeroOk := rfl
@[simp] theorem State.ignoreWrite_pendingErr (s : State) : (s.ignoreWrite).pendingErr = s.pendingErr := rfl
@[simp] theorem State.ignoreWrite_mem (s : State) : (s.ignoreWrite).mem = s.mem := rfl
@[simp] theorem State.ignoreWrite_wbuf (s : State) : (s.ignoreWrite).wbuf = s.wbuf := rfl
@[simp] theorem State.ignoreWrite_inputs (s : State) : (s.ignoreWrite).inputs = s.inputs := rfl
@[simp] theorem State.ignoreWrite_resp (s : State) : (s.ignoreWrite).resp = s.resp := rfl
@[simp] theorem State.ignoreWrite_trace (s : State) : (s.ignoreWrite).trace = s.trace := rfl
@[simp] theorem State.ignoreWrite_platform (s : State) : (s.ignoreWrite).platform = s.platform := rfl
@[simp] theorem State.ignoreWrite_pace (s : State) : (s.ignoreWrite).pace = s.pace := rfl
@[simp] theorem State.ignoreWrite_phaseDraw (s : State) : (s.ignoreWrite).phaseDraw = s.phaseDraw := rfl
@[simp] theorem State.ignoreWrite_progressSeen (s : State) : (s.ignoreWrite).progressSeen = s.progressSeen := rfl
@[simp] theorem State.ignoreWrite_draws (s : State) : (s.ignoreWrite).draws = s.draws := rfl

/-! ### respond -/

@[simp] theorem State.respond_ctrl (s : State) (d : Reg64) (e : Bool) : (s.respond d e).ctrl = s.ctrl := rfl
@[simp] theorem State.respond_status (s : State) (d : Reg64) (e : Bool) : (s.respond d e).status = s.status := rfl
@[simp] theorem State.respond_cmd (s : State) (d : Reg64) (e : Bool) : (s.respond d e).cmd = s.cmd := rfl
@[simp] theorem State.respond_errInfo (s : State) (d : Reg64) (e : Bool) : (s.respond d e).errInfo = s.errInfo := rfl
@[simp] theorem State.respond_errAddr (s : State) (d : Reg64) (e : Bool) : (s.respond d e).errAddr = s.errAddr := rfl
@[simp] theorem State.respond_params (s : State) (d : Reg64) (e : Bool) : (s.respond d e).params = s.params := rfl
@[simp] theorem State.respond_j (s : State) (d : Reg64) (e : Bool) : (s.respond d e).j = s.j := rfl
@[simp] theorem State.respond_progress (s : State) (d : Reg64) (e : Bool) : (s.respond d e).progress = s.progress := rfl
@[simp] theorem State.respond_seq (s : State) (d : Reg64) (e : Bool) : (s.respond d e).seq = s.seq := rfl
@[simp] theorem State.respond_latched (s : State) (d : Reg64) (e : Bool) : (s.respond d e).latched = s.latched := rfl
@[simp] theorem State.respond_dp (s : State) (d : Reg64) (e : Bool) : (s.respond d e).dp = s.dp := rfl
@[simp] theorem State.respond_zeroOk (s : State) (d : Reg64) (e : Bool) : (s.respond d e).zeroOk = s.zeroOk := rfl
@[simp] theorem State.respond_pendingErr (s : State) (d : Reg64) (e : Bool) : (s.respond d e).pendingErr = s.pendingErr := rfl
@[simp] theorem State.respond_mem (s : State) (d : Reg64) (e : Bool) : (s.respond d e).mem = s.mem := rfl
@[simp] theorem State.respond_wbuf (s : State) (d : Reg64) (e : Bool) : (s.respond d e).wbuf = s.wbuf := rfl
@[simp] theorem State.respond_inputs (s : State) (d : Reg64) (e : Bool) : (s.respond d e).inputs = s.inputs := rfl
@[simp] theorem State.respond_resp (s : State) (d : Reg64) (e : Bool) : (s.respond d e).resp = some ⟨d, e⟩ := rfl
@[simp] theorem State.respond_trace (s : State) (d : Reg64) (e : Bool) : (s.respond d e).trace = s.trace := rfl
@[simp] theorem State.respond_platform (s : State) (d : Reg64) (e : Bool) : (s.respond d e).platform = s.platform := rfl
@[simp] theorem State.respond_pace (s : State) (d : Reg64) (e : Bool) : (s.respond d e).pace = s.pace := rfl
@[simp] theorem State.respond_phaseDraw (s : State) (d : Reg64) (e : Bool) : (s.respond d e).phaseDraw = s.phaseDraw := rfl
@[simp] theorem State.respond_progressSeen (s : State) (d : Reg64) (e : Bool) : (s.respond d e).progressSeen = s.progressSeen := rfl
@[simp] theorem State.respond_draws (s : State) (d : Reg64) (e : Bool) : (s.respond d e).draws = s.draws := rfl

/-! ### popInput -/

@[simp] theorem State.popInput_ctrl (s : State) (rest : List Input) : (s.popInput rest).ctrl = s.ctrl := rfl
@[simp] theorem State.popInput_status (s : State) (rest : List Input) : (s.popInput rest).status = s.status := rfl
@[simp] theorem State.popInput_cmd (s : State) (rest : List Input) : (s.popInput rest).cmd = s.cmd := rfl
@[simp] theorem State.popInput_errInfo (s : State) (rest : List Input) : (s.popInput rest).errInfo = s.errInfo := rfl
@[simp] theorem State.popInput_errAddr (s : State) (rest : List Input) : (s.popInput rest).errAddr = s.errAddr := rfl
@[simp] theorem State.popInput_params (s : State) (rest : List Input) : (s.popInput rest).params = s.params := rfl
@[simp] theorem State.popInput_j (s : State) (rest : List Input) : (s.popInput rest).j = s.j := rfl
@[simp] theorem State.popInput_progress (s : State) (rest : List Input) : (s.popInput rest).progress = s.progress := rfl
@[simp] theorem State.popInput_seq (s : State) (rest : List Input) : (s.popInput rest).seq = s.seq := rfl
@[simp] theorem State.popInput_latched (s : State) (rest : List Input) : (s.popInput rest).latched = s.latched := rfl
@[simp] theorem State.popInput_dp (s : State) (rest : List Input) : (s.popInput rest).dp = s.dp := rfl
@[simp] theorem State.popInput_zeroOk (s : State) (rest : List Input) : (s.popInput rest).zeroOk = s.zeroOk := rfl
@[simp] theorem State.popInput_pendingErr (s : State) (rest : List Input) : (s.popInput rest).pendingErr = s.pendingErr := rfl
@[simp] theorem State.popInput_mem (s : State) (rest : List Input) : (s.popInput rest).mem = s.mem := rfl
@[simp] theorem State.popInput_wbuf (s : State) (rest : List Input) : (s.popInput rest).wbuf = s.wbuf := rfl
@[simp] theorem State.popInput_inputs (s : State) (rest : List Input) : (s.popInput rest).inputs = rest := rfl
@[simp] theorem State.popInput_resp (s : State) (rest : List Input) : (s.popInput rest).resp = s.resp := rfl
@[simp] theorem State.popInput_trace (s : State) (rest : List Input) : (s.popInput rest).trace = s.trace := rfl
@[simp] theorem State.popInput_platform (s : State) (rest : List Input) : (s.popInput rest).platform = s.platform := rfl
@[simp] theorem State.popInput_pace (s : State) (rest : List Input) : (s.popInput rest).pace = s.pace := rfl
@[simp] theorem State.popInput_phaseDraw (s : State) (rest : List Input) : (s.popInput rest).phaseDraw = s.phaseDraw := rfl
@[simp] theorem State.popInput_progressSeen (s : State) (rest : List Input) : (s.popInput rest).progressSeen = s.progressSeen := rfl
@[simp] theorem State.popInput_draws (s : State) (rest : List Input) : (s.popInput rest).draws = s.draws := rfl

/-! ### requeue -/

@[simp] theorem State.requeue_ctrl (s : State) (i : Input) : (s.requeue i).ctrl = s.ctrl := rfl
@[simp] theorem State.requeue_status (s : State) (i : Input) : (s.requeue i).status = s.status := rfl
@[simp] theorem State.requeue_cmd (s : State) (i : Input) : (s.requeue i).cmd = s.cmd := rfl
@[simp] theorem State.requeue_errInfo (s : State) (i : Input) : (s.requeue i).errInfo = s.errInfo := rfl
@[simp] theorem State.requeue_errAddr (s : State) (i : Input) : (s.requeue i).errAddr = s.errAddr := rfl
@[simp] theorem State.requeue_params (s : State) (i : Input) : (s.requeue i).params = s.params := rfl
@[simp] theorem State.requeue_j (s : State) (i : Input) : (s.requeue i).j = s.j := rfl
@[simp] theorem State.requeue_progress (s : State) (i : Input) : (s.requeue i).progress = s.progress := rfl
@[simp] theorem State.requeue_seq (s : State) (i : Input) : (s.requeue i).seq = s.seq := rfl
@[simp] theorem State.requeue_latched (s : State) (i : Input) : (s.requeue i).latched = s.latched := rfl
@[simp] theorem State.requeue_dp (s : State) (i : Input) : (s.requeue i).dp = s.dp := rfl
@[simp] theorem State.requeue_zeroOk (s : State) (i : Input) : (s.requeue i).zeroOk = s.zeroOk := rfl
@[simp] theorem State.requeue_pendingErr (s : State) (i : Input) : (s.requeue i).pendingErr = s.pendingErr := rfl
@[simp] theorem State.requeue_mem (s : State) (i : Input) : (s.requeue i).mem = s.mem := rfl
@[simp] theorem State.requeue_wbuf (s : State) (i : Input) : (s.requeue i).wbuf = s.wbuf := rfl
@[simp] theorem State.requeue_inputs (s : State) (i : Input) : (s.requeue i).inputs = i :: s.inputs := rfl
@[simp] theorem State.requeue_resp (s : State) (i : Input) : (s.requeue i).resp = s.resp := rfl
@[simp] theorem State.requeue_trace (s : State) (i : Input) : (s.requeue i).trace = s.trace := rfl
@[simp] theorem State.requeue_platform (s : State) (i : Input) : (s.requeue i).platform = s.platform := rfl
@[simp] theorem State.requeue_pace (s : State) (i : Input) : (s.requeue i).pace = s.pace := rfl
@[simp] theorem State.requeue_phaseDraw (s : State) (i : Input) : (s.requeue i).phaseDraw = s.phaseDraw := rfl
@[simp] theorem State.requeue_progressSeen (s : State) (i : Input) : (s.requeue i).progressSeen = s.progressSeen := rfl
@[simp] theorem State.requeue_draws (s : State) (i : Input) : (s.requeue i).draws = s.draws := rfl

/-! ### dropPhases -/

@[simp] theorem State.dropPhases_ctrl (s : State) (k : Nat) : (s.dropPhases k).ctrl = s.ctrl := rfl
@[simp] theorem State.dropPhases_status (s : State) (k : Nat) : (s.dropPhases k).status = s.status := rfl
@[simp] theorem State.dropPhases_cmd (s : State) (k : Nat) : (s.dropPhases k).cmd = s.cmd := rfl
@[simp] theorem State.dropPhases_errInfo (s : State) (k : Nat) : (s.dropPhases k).errInfo = s.errInfo := rfl
@[simp] theorem State.dropPhases_errAddr (s : State) (k : Nat) : (s.dropPhases k).errAddr = s.errAddr := rfl
@[simp] theorem State.dropPhases_params (s : State) (k : Nat) : (s.dropPhases k).params = s.params := rfl
@[simp] theorem State.dropPhases_j (s : State) (k : Nat) : (s.dropPhases k).j = s.j := rfl
@[simp] theorem State.dropPhases_progress (s : State) (k : Nat) : (s.dropPhases k).progress = s.progress := rfl
@[simp] theorem State.dropPhases_seq (s : State) (k : Nat) : (s.dropPhases k).seq = s.seq := rfl
@[simp] theorem State.dropPhases_latched (s : State) (k : Nat) : (s.dropPhases k).latched = s.latched := rfl
@[simp] theorem State.dropPhases_dp (s : State) (k : Nat) : (s.dropPhases k).dp = s.dp := rfl
@[simp] theorem State.dropPhases_zeroOk (s : State) (k : Nat) : (s.dropPhases k).zeroOk = s.zeroOk := rfl
@[simp] theorem State.dropPhases_pendingErr (s : State) (k : Nat) : (s.dropPhases k).pendingErr = s.pendingErr := rfl
@[simp] theorem State.dropPhases_mem (s : State) (k : Nat) : (s.dropPhases k).mem = s.mem := rfl
@[simp] theorem State.dropPhases_wbuf (s : State) (k : Nat) : (s.dropPhases k).wbuf = s.wbuf := rfl
@[simp] theorem State.dropPhases_inputs (s : State) (k : Nat) : (s.dropPhases k).inputs = s.inputs := rfl
@[simp] theorem State.dropPhases_resp (s : State) (k : Nat) : (s.dropPhases k).resp = s.resp := rfl
@[simp] theorem State.dropPhases_trace (s : State) (k : Nat) : (s.dropPhases k).trace = s.trace := rfl
@[simp] theorem State.dropPhases_platform (s : State) (k : Nat) : (s.dropPhases k).platform = s.platform := rfl
@[simp] theorem State.dropPhases_pace (s : State) (k : Nat) : (s.dropPhases k).pace = s.pace := rfl
@[simp] theorem State.dropPhases_phaseDraw (s : State) (k : Nat) : (s.dropPhases k).phaseDraw = s.phaseDraw.drop k := rfl
@[simp] theorem State.dropPhases_progressSeen (s : State) (k : Nat) : (s.dropPhases k).progressSeen = s.progressSeen := rfl
@[simp] theorem State.dropPhases_draws (s : State) (k : Nat) : (s.dropPhases k).draws = s.draws + 1 := rfl

/-! ### countArrival -/

@[simp] theorem State.countArrival_ctrl (s : State) : (s.countArrival).ctrl = s.ctrl := by
  unfold State.countArrival
  split <;> rfl
@[simp] theorem State.countArrival_status (s : State) : (s.countArrival).status = s.status := by
  unfold State.countArrival
  split <;> rfl
@[simp] theorem State.countArrival_cmd (s : State) : (s.countArrival).cmd = s.cmd := by
  unfold State.countArrival
  split <;> rfl
@[simp] theorem State.countArrival_errInfo (s : State) : (s.countArrival).errInfo = s.errInfo := by
  unfold State.countArrival
  split <;> rfl
@[simp] theorem State.countArrival_errAddr (s : State) : (s.countArrival).errAddr = s.errAddr := by
  unfold State.countArrival
  split <;> rfl
@[simp] theorem State.countArrival_params (s : State) : (s.countArrival).params = s.params := by
  unfold State.countArrival
  split <;> rfl
@[simp] theorem State.countArrival_j (s : State) : (s.countArrival).j = s.j := by
  unfold State.countArrival
  split <;> rfl
@[simp] theorem State.countArrival_progress (s : State) : (s.countArrival).progress = s.progress := by
  unfold State.countArrival
  split <;> rfl
@[simp] theorem State.countArrival_seq (s : State) : (s.countArrival).seq = s.seq := by
  unfold State.countArrival
  split <;> rfl
@[simp] theorem State.countArrival_latched (s : State) : (s.countArrival).latched = s.latched := by
  unfold State.countArrival
  split <;> rfl
@[simp] theorem State.countArrival_dp (s : State) : (s.countArrival).dp = s.dp := by
  unfold State.countArrival
  split <;> rfl
@[simp] theorem State.countArrival_zeroOk (s : State) : (s.countArrival).zeroOk = s.zeroOk := by
  unfold State.countArrival
  split <;> rfl
@[simp] theorem State.countArrival_pendingErr (s : State) : (s.countArrival).pendingErr = s.pendingErr := by
  unfold State.countArrival
  split <;> rfl
@[simp] theorem State.countArrival_mem (s : State) : (s.countArrival).mem = s.mem := by
  unfold State.countArrival
  split <;> rfl
@[simp] theorem State.countArrival_wbuf (s : State) : (s.countArrival).wbuf = s.wbuf := by
  unfold State.countArrival
  split <;> rfl
@[simp] theorem State.countArrival_inputs (s : State) : (s.countArrival).inputs = s.inputs := by
  unfold State.countArrival
  split <;> rfl
@[simp] theorem State.countArrival_resp (s : State) : (s.countArrival).resp = s.resp := by
  unfold State.countArrival
  split <;> rfl
@[simp] theorem State.countArrival_trace (s : State) : (s.countArrival).trace = s.trace := by
  unfold State.countArrival
  split <;> rfl
@[simp] theorem State.countArrival_platform (s : State) : (s.countArrival).platform = s.platform := by
  unfold State.countArrival
  split <;> rfl
@[simp] theorem State.countArrival_pace (s : State) : (s.countArrival).pace = s.pace := by
  unfold State.countArrival
  split <;> rfl
@[simp] theorem State.countArrival_phaseDraw (s : State) : (s.countArrival).phaseDraw = s.phaseDraw := by
  unfold State.countArrival
  split <;> rfl
@[simp] theorem State.countArrival_progressSeen (s : State) : (s.countArrival).progressSeen = s.progressSeen := by
  unfold State.countArrival
  split <;> rfl

/-! ### failRequest -/

@[simp] theorem State.failRequest_ctrl (s : State) (q : Request) : (s.failRequest q).ctrl = s.ctrl := by
  unfold State.failRequest
  split <;> rfl
@[simp] theorem State.failRequest_status (s : State) (q : Request) : (s.failRequest q).status = s.status := by
  unfold State.failRequest
  split <;> rfl
@[simp] theorem State.failRequest_cmd (s : State) (q : Request) : (s.failRequest q).cmd = s.cmd := by
  unfold State.failRequest
  split <;> rfl
@[simp] theorem State.failRequest_errInfo (s : State) (q : Request) : (s.failRequest q).errInfo = s.errInfo := by
  unfold State.failRequest
  split <;> rfl
@[simp] theorem State.failRequest_errAddr (s : State) (q : Request) : (s.failRequest q).errAddr = s.errAddr := by
  unfold State.failRequest
  split <;> rfl
@[simp] theorem State.failRequest_params (s : State) (q : Request) : (s.failRequest q).params = s.params := by
  unfold State.failRequest
  split <;> rfl
@[simp] theorem State.failRequest_j (s : State) (q : Request) : (s.failRequest q).j = s.j := by
  unfold State.failRequest
  split <;> rfl
@[simp] theorem State.failRequest_progress (s : State) (q : Request) : (s.failRequest q).progress = s.progress := by
  unfold State.failRequest
  split <;> rfl
@[simp] theorem State.failRequest_seq (s : State) (q : Request) : (s.failRequest q).seq = s.seq := by
  unfold State.failRequest
  split <;> rfl
@[simp] theorem State.failRequest_latched (s : State) (q : Request) : (s.failRequest q).latched = s.latched := by
  unfold State.failRequest
  split <;> rfl
@[simp] theorem State.failRequest_dp (s : State) (q : Request) : (s.failRequest q).dp = s.dp := by
  unfold State.failRequest
  split <;> rfl
@[simp] theorem State.failRequest_zeroOk (s : State) (q : Request) : (s.failRequest q).zeroOk = s.zeroOk := by
  unfold State.failRequest
  split <;> rfl
@[simp] theorem State.failRequest_mem (s : State) (q : Request) : (s.failRequest q).mem = s.mem := by
  unfold State.failRequest
  split <;> rfl
@[simp] theorem State.failRequest_inputs (s : State) (q : Request) : (s.failRequest q).inputs = s.inputs := by
  unfold State.failRequest
  split <;> rfl
@[simp] theorem State.failRequest_resp (s : State) (q : Request) : (s.failRequest q).resp = s.resp := by
  unfold State.failRequest
  split <;> rfl
@[simp] theorem State.failRequest_trace (s : State) (q : Request) : (s.failRequest q).trace = s.trace := by
  unfold State.failRequest
  split <;> rfl
@[simp] theorem State.failRequest_platform (s : State) (q : Request) : (s.failRequest q).platform = s.platform := by
  unfold State.failRequest
  split <;> rfl
@[simp] theorem State.failRequest_pace (s : State) (q : Request) : (s.failRequest q).pace = s.pace := by
  unfold State.failRequest
  split <;> rfl
@[simp] theorem State.failRequest_phaseDraw (s : State) (q : Request) : (s.failRequest q).phaseDraw = s.phaseDraw := by
  unfold State.failRequest
  split <;> rfl
@[simp] theorem State.failRequest_progressSeen (s : State) (q : Request) : (s.failRequest q).progressSeen = s.progressSeen := by
  unfold State.failRequest
  split <;> rfl

/-! ### stopCommand -/

@[simp] theorem State.stopCommand_ctrl (s : State) (ops : List MicroOp) (lost : List BlkReg) : (s.stopCommand ops lost).ctrl = s.ctrl := by
  unfold State.stopCommand
  extract_lets u
  have h : u = s ∨ u = s.laterWrites ops lost := by
    unfold u
    split
    · exact .inl rfl
    · exact .inr rfl
  rcases h with h | h <;> rw [h] <;> split <;> simp
@[simp] theorem State.stopCommand_cmd (s : State) (ops : List MicroOp) (lost : List BlkReg) : (s.stopCommand ops lost).cmd = s.cmd := by
  unfold State.stopCommand
  extract_lets u
  have h : u = s ∨ u = s.laterWrites ops lost := by
    unfold u
    split
    · exact .inl rfl
    · exact .inr rfl
  rcases h with h | h <;> rw [h] <;> split <;> simp
@[simp] theorem State.stopCommand_params (s : State) (ops : List MicroOp) (lost : List BlkReg) : (s.stopCommand ops lost).params = s.params := by
  unfold State.stopCommand
  extract_lets u
  have h : u = s ∨ u = s.laterWrites ops lost := by
    unfold u
    split
    · exact .inl rfl
    · exact .inr rfl
  rcases h with h | h <;> rw [h] <;> split <;> simp
@[simp] theorem State.stopCommand_j (s : State) (ops : List MicroOp) (lost : List BlkReg) : (s.stopCommand ops lost).j = s.j := by
  unfold State.stopCommand
  extract_lets u
  have h : u = s ∨ u = s.laterWrites ops lost := by
    unfold u
    split
    · exact .inl rfl
    · exact .inr rfl
  rcases h with h | h <;> rw [h] <;> split <;> simp
@[simp] theorem State.stopCommand_progress (s : State) (ops : List MicroOp) (lost : List BlkReg) : (s.stopCommand ops lost).progress = s.progress := by
  unfold State.stopCommand
  extract_lets u
  have h : u = s ∨ u = s.laterWrites ops lost := by
    unfold u
    split
    · exact .inl rfl
    · exact .inr rfl
  rcases h with h | h <;> rw [h] <;> split <;> simp
@[simp] theorem State.stopCommand_latched (s : State) (ops : List MicroOp) (lost : List BlkReg) : (s.stopCommand ops lost).latched = s.latched := by
  unfold State.stopCommand
  extract_lets u
  have h : u = s ∨ u = s.laterWrites ops lost := by
    unfold u
    split
    · exact .inl rfl
    · exact .inr rfl
  rcases h with h | h <;> rw [h] <;> split <;> simp
@[simp] theorem State.stopCommand_dp (s : State) (ops : List MicroOp) (lost : List BlkReg) : (s.stopCommand ops lost).dp = s.dp := by
  unfold State.stopCommand
  extract_lets u
  have h : u = s ∨ u = s.laterWrites ops lost := by
    unfold u
    split
    · exact .inl rfl
    · exact .inr rfl
  rcases h with h | h <;> rw [h] <;> split <;> simp
@[simp] theorem State.stopCommand_zeroOk (s : State) (ops : List MicroOp) (lost : List BlkReg) : (s.stopCommand ops lost).zeroOk = s.zeroOk := by
  unfold State.stopCommand
  extract_lets u
  have h : u = s ∨ u = s.laterWrites ops lost := by
    unfold u
    split
    · exact .inl rfl
    · exact .inr rfl
  rcases h with h | h <;> rw [h] <;> split <;> simp
@[simp] theorem State.stopCommand_inputs (s : State) (ops : List MicroOp) (lost : List BlkReg) : (s.stopCommand ops lost).inputs = s.inputs := by
  unfold State.stopCommand
  extract_lets u
  have h : u = s ∨ u = s.laterWrites ops lost := by
    unfold u
    split
    · exact .inl rfl
    · exact .inr rfl
  rcases h with h | h <;> rw [h] <;> split <;> simp
@[simp] theorem State.stopCommand_resp (s : State) (ops : List MicroOp) (lost : List BlkReg) : (s.stopCommand ops lost).resp = s.resp := by
  unfold State.stopCommand
  extract_lets u
  have h : u = s ∨ u = s.laterWrites ops lost := by
    unfold u
    split
    · exact .inl rfl
    · exact .inr rfl
  rcases h with h | h <;> rw [h] <;> split <;> simp
@[simp] theorem State.stopCommand_trace (s : State) (ops : List MicroOp) (lost : List BlkReg) : (s.stopCommand ops lost).trace = s.trace := by
  unfold State.stopCommand
  extract_lets u
  have h : u = s ∨ u = s.laterWrites ops lost := by
    unfold u
    split
    · exact .inl rfl
    · exact .inr rfl
  rcases h with h | h <;> rw [h] <;> split <;> simp
@[simp] theorem State.stopCommand_platform (s : State) (ops : List MicroOp) (lost : List BlkReg) : (s.stopCommand ops lost).platform = s.platform := by
  unfold State.stopCommand
  extract_lets u
  have h : u = s ∨ u = s.laterWrites ops lost := by
    unfold u
    split
    · exact .inl rfl
    · exact .inr rfl
  rcases h with h | h <;> rw [h] <;> split <;> simp
@[simp] theorem State.stopCommand_pace (s : State) (ops : List MicroOp) (lost : List BlkReg) : (s.stopCommand ops lost).pace = s.pace := by
  unfold State.stopCommand
  extract_lets u
  have h : u = s ∨ u = s.laterWrites ops lost := by
    unfold u
    split
    · exact .inl rfl
    · exact .inr rfl
  rcases h with h | h <;> rw [h] <;> split <;> simp
@[simp] theorem State.stopCommand_progressSeen (s : State) (ops : List MicroOp) (lost : List BlkReg) : (s.stopCommand ops lost).progressSeen = s.progressSeen := by
  unfold State.stopCommand
  extract_lets u
  have h : u = s ∨ u = s.laterWrites ops lost := by
    unfold u
    split
    · exact .inl rfl
    · exact .inr rfl
  rcases h with h | h <;> rw [h] <;> split <;> simp

@[simp] theorem State.failRequest_pendingErr (s : State) (q : Request) :
    (s.failRequest q).pendingErr = s.pendingErr.or (some (BitVec.ofNat 64 q.addr)) := by
  unfold State.failRequest
  split <;> rfl

/-- Where a stopped command goes on: ZERO_SEQ for SMIX, the end for any other (R286 items 6 and 7). -/
theorem State.stopCommand_cases (s : State) (ops : List MicroOp) (lost : List BlkReg) :
    ∃ u, (u = s ∨ u = s.laterWrites ops lost)
      ∧ ((s.isSmix = true ∧ s.stopCommand ops lost = u.enterPhase .zeroize)
        ∨ (s.isSmix = false ∧ s.stopCommand ops lost = u.complete)) := by
  unfold State.stopCommand
  extract_lets u
  refine ⟨u, ?_, ?_⟩
  · unfold u
    split
    · exact .inl rfl
    · exact .inr rfl
  · split
    · rename_i h
      exact .inl ⟨h, rfl⟩
    · rename_i h
      exact .inr ⟨by simpa using h, rfl⟩

@[simp] theorem State.reportError_pendingErr (s : State) : s.reportError.pendingErr = none := by
  unfold State.reportError
  cases h : s.pendingErr <;> simp_all

/-- What `reportError` leaves in ERRINFO (R286). -/
@[simp] theorem State.reportError_errInfo (s : State) :
    s.reportError.errInfo = if s.pendingErr.isSome then .busError else s.errInfo := by
  unfold State.reportError
  cases h : s.pendingErr <;> simp_all

/-- What `reportError` leaves in ERRADDR (R286). -/
@[simp] theorem State.reportError_errAddr (s : State) : s.reportError.errAddr = s.pendingErr.getD s.errAddr := by
  unfold State.reportError
  cases h : s.pendingErr <;> simp_all

@[simp] theorem State.complete_pendingErr (s : State) : s.complete.pendingErr = none := by simp [State.complete]

@[simp] theorem State.complete_errInfo (s : State) :
    s.complete.errInfo = if s.pendingErr.isSome then .busError else s.errInfo := by
  rw [State.complete]
  exact State.reportError_errInfo s.drainAll

@[simp] theorem State.complete_errAddr (s : State) : s.complete.errAddr = s.pendingErr.getD s.errAddr := by
  simp [State.complete]

end Sys2Proof.Machine
end

