-- ==== Sys2Proof/Laws/Port.lean ====
section
/-! SUPPORT. The laws of the memory port: what the engine reads after it stored, and that draining the write buffer
changes nothing it reads (20_memory.md R85, R87, R88). -/

namespace Sys2Proof.Machine

theorem bufferOk_nil : BufferOk [] := by simp [BufferOk]

theorem bufferOk_append {ws : List PendingWrite} {w : PendingWrite} (h : BufferOk ws)
    (hw : w.addr + Config.blockBytes ≤ Config.addressLimit) : BufferOk (ws ++ [w]) := by
  intro v hv
  rcases List.mem_append.1 hv with hv | hv
  · exact h v hv
  · rw [List.mem_singleton.1 hv]; exact hw

/-- The engine reads what it stored last (R85). -/
@[simp] theorem State.readByte_storeBlock (s : State) (a : Nat) (b : Block) (x : Nat) :
    (s.storeBlock a b).readByte x =
      if a ≤ x ∧ x < a + Config.blockBytes then b.byte (x - a) else s.readByte x := by
  simp [State.readByte, PendingWrite.patch, List.foldl_append]

/-- What the engine reads depends on the write buffer and memory alone. -/
theorem State.readByte_congr {s t : State} (hm : t.mem = s.mem) (hw : t.wbuf = s.wbuf) (x : Nat) :
    t.readByte x = s.readByte x := by
  simp [State.readByte, hm, hw]

/-- With an empty write buffer the engine reads memory. -/
theorem State.readByte_of_wbuf_nil {s : State} (h : s.wbuf = []) (x : Nat) : s.readByte x = s.mem.read x := by
  simp [State.readByte, h]

/-- A pending write performed keeps the canonical form. -/
theorem Memory.wf_perform (m : Memory) (hm : m.wf) (w : PendingWrite)
    (hw : w.addr + Config.blockBytes ≤ Config.addressLimit) : (m.perform w).wf := by
  unfold Memory.perform
  exact Memory.wf_writeBlock m hm w.addr w.data hw

/-- A byte read after a pending write was performed. -/
theorem Memory.read_perform (m : Memory) (hm : m.wf) (w : PendingWrite)
    (hw : w.addr + Config.blockBytes ≤ Config.addressLimit) (x : Nat) :
    (m.perform w).read x = w.patch x (m.read x) := by
  unfold Memory.perform PendingWrite.patch
  exact Memory.read_writeBlock m hm w.addr w.data hw x

/-- Performing pending writes keeps the canonical form. -/
theorem Memory.wf_performAll (ws : List PendingWrite) (h : BufferOk ws) (m : Memory) (hm : m.wf) :
    (ws.foldl Memory.perform m).wf := by
  induction ws generalizing m with
  | nil => exact hm
  | cons w ws ih =>
    have hw : w.addr + Config.blockBytes ≤ Config.addressLimit := h w (by simp)
    have hm' : (m.perform w).wf := Memory.wf_perform m hm w hw
    rw [List.foldl_cons]
    exact ih (fun v hv => h v (by simp [hv])) (m.perform w) hm'

/-- Memory after the pending writes were performed reads as the engine read before (R85, R88). -/
theorem Memory.read_performAll (ws : List PendingWrite) (h : BufferOk ws) (m : Memory) (hm : m.wf) (x : Nat) :
    (ws.foldl Memory.perform m).read x = ws.foldl (fun v w => w.patch x v) (m.read x) := by
  induction ws generalizing m with
  | nil => rfl
  | cons w ws ih =>
    have hw := h w (by simp)
    simp only [List.foldl_cons]
    rw [ih (fun v hv => h v (by simp [hv])) _ (Memory.wf_perform m hm w hw), Memory.read_perform m hm w hw]

/-- Draining keeps the canonical form. -/
theorem State.wf_drainAll (s : State) (hm : s.mem.wf) (hw : BufferOk s.wbuf) : s.drainAll.mem.wf :=
  Memory.wf_performAll _ hw _ hm

/-- Draining changes nothing the engine reads (R85). -/
theorem State.read_drainAll (s : State) (hm : s.mem.wf) (hw : BufferOk s.wbuf) (x : Nat) :
    s.drainAll.mem.read x = s.readByte x :=
  Memory.read_performAll _ hw _ hm x

/-- Performing the oldest pending write keeps the canonical form and what the engine reads (R85, R86). -/
theorem State.drainOldest_spec (s : State) (hm : s.mem.wf) (hw : BufferOk s.wbuf) :
    s.drainOldest.mem.wf ∧ BufferOk s.drainOldest.wbuf ∧ ∀ x, s.drainOldest.readByte x = s.readByte x := by
  cases hb : s.wbuf with
  | nil =>
    have h : s.drainOldest = s := by simp [State.drainOldest, hb]
    rw [h]
    exact ⟨hm, hw, fun _ => rfl⟩
  | cons w ws =>
    have h : s.drainOldest = { s with mem := s.mem.perform w, wbuf := ws } := by simp [State.drainOldest, hb]
    rw [hb] at hw
    have h1 : w.addr + Config.blockBytes ≤ Config.addressLimit := hw w (by simp)
    have h2 : (s.mem.perform w).wf := Memory.wf_perform s.mem hm w h1
    rw [h]
    dsimp only
    refine ⟨h2, fun v hv => hw v (by simp [hv]), fun x => ?_⟩
    simp only [State.readByte, hb, List.foldl_cons, Memory.read_perform s.mem hm w h1]

/-- The block the engine loads where it stored one. -/
theorem State.loadBlock_storeBlock_same (s : State) (a : Nat) (b : Block) :
    (s.storeBlock a b).loadBlock a = b := by
  rw [State.loadBlock, ← Block.ofBytes_byte b]
  apply Block.ofBytes_congr
  intro k hk
  simp [Config.blockBytes, hk]

/-- The block the engine loads beside a store. -/
theorem State.loadBlock_storeBlock_other (s : State) (a c : Nat) (b : Block)
    (h : a + 64 ≤ c ∨ c + 64 ≤ a) : (s.storeBlock a b).loadBlock c = s.loadBlock c := by
  rw [State.loadBlock, State.loadBlock]
  apply Block.ofBytes_congr
  intro k hk
  rw [State.readByte_storeBlock, if_neg]
  simp only [Config.blockBytes]
  omega

/-- The block memory holds after the drain is the block the engine would load. -/
theorem State.readBlock_drainAll (s : State) (hm : s.mem.wf) (hw : BufferOk s.wbuf) (a : Nat) :
    s.drainAll.mem.readBlock a = s.loadBlock a := by
  rw [Memory.readBlock, State.loadBlock]
  apply Block.ofBytes_congr
  intro k _
  exact State.read_drainAll s hm hw _

end Sys2Proof.Machine
end

