-- ==== Sys2Proof/Laws/Run.lean ====
section
/-! SUPPORT. What one engine step can do, said once (44_controller.md R252): its cases, its frame, and the induction over
the steps of a command. -/

namespace Sys2Proof.Machine

/-! ### The cases of a step -/

/-- A micro-operation that answers a next state: no request, a served request, or a failing request. -/
theorem performOp_cases {op : MicroOp} {s t : State} (h : performOp op s = .next t) :
    (op.request s = none ∧ t = op.run s)
      ∨ ∃ q, op.request s = some q ∧ q.inSpace = true ∧ q.isAligned = true
        ∧ ((q.fails s.platform = true ∧ t = busError op q (s.record q))
          ∨ (q.fails s.platform = false ∧ t = op.run (s.record q))) := by
  unfold performOp at h
  split at h
  · rename_i hq
    exact .inl ⟨hq, by simpa using h.symm⟩
  · rename_i q hq
    refine .inr ⟨q, hq, ?_⟩
    by_cases h1 : q.inSpace = true <;> by_cases h2 : q.isAligned = true <;>
      by_cases h3 : q.fails s.platform = true <;> simp [h1, h2, h3] at h ⊢ <;> exact h.symm

/-- The sequencer's step performs the micro-operation of the position or ends the block sequence. -/
theorem sequencerStep_cases {s t : State} (h : sequencerStep s = .next t) :
    (∃ op, s.blockOps[s.seq.q]? = some op ∧ performOp op s = .next t)
      ∨ (s.blockOps[s.seq.q]? = none ∧ t = endBlock s) := by
  unfold sequencerStep at h
  split at h
  · rename_i op hop
    exact .inl ⟨op, hop, h⟩
  · rename_i hop
    exact .inr ⟨hop, by simpa using h.symm⟩

/-- An engine step that answers a next state is the sequencer's, or the stop on a streaming store's error that arrives
(R252, R286). -/
theorem engineStep_cases {s t : State} (h : engineStep s = .next t) :
    (s.errorArrives = true ∧ t = lateStop s.countArrival)
      ∨ (s.errorArrives = false ∧ sequencerStep s.countArrival = .next t) := by
  unfold engineStep at h
  split at h
  · rename_i ha
    exact .inl ⟨ha, by simpa using h.symm⟩
  · rename_i ha
    exact .inr ⟨by simpa using ha, h⟩

/-- With no error on its way an engine step is the sequencer's (R252). -/
theorem engineStep_of_noError {s : State} (h : s.errorInFlight = false) : engineStep s = sequencerStep s := by
  simp [engineStep, State.errorArrives, State.countArrival, h]

/-- The draw of an arrival leaves the position's micro-operations as they are. -/
@[simp] theorem State.countArrival_blockOps (s : State) : s.countArrival.blockOps = s.blockOps := by
  simp [State.blockOps]

/-- A micro-operation stops in a fault only on a request the engine never issues (R75, R76). -/
theorem performOp_total {op : MicroOp} {s : State}
    (h : ∀ q, op.request s = some q → q.inSpace = true ∧ q.isAligned = true) :
    ∃ t, performOp op s = .next t := by
  unfold performOp
  split
  · exact ⟨_, rfl⟩
  · rename_i q hq
    obtain ⟨h1, h2⟩ := h q hq
    by_cases h3 : q.fails s.platform = true <;> simp [h1, h2, h3]

/-! ### The frame of a step -/

/-- What no engine step changes: everything outside the engine, CMD, the latched parameters, and WIGN. -/
structure StepFrame (s t : State) : Prop where
  outside : SameOutside s t
  cmd : t.cmd = s.cmd
  latched : t.latched = s.latched
  wign : t.status.wign = s.status.wign
  progressSeen : t.progressSeen = s.progressSeen

theorem StepFrame.refl (s : State) : StepFrame s s :=
  ⟨⟨rfl, rfl, rfl, rfl, rfl, rfl⟩, rfl, rfl, rfl, rfl⟩

theorem StepFrame.trans {s t u : State} (h₁ : StepFrame s t) (h₂ : StepFrame t u) : StepFrame s u := by
  obtain ⟨⟨a1, a2, a3, a4, a5, a6⟩, b, c, d, e⟩ := h₁
  obtain ⟨⟨a1', a2', a3', a4', a5', a6'⟩, b', c', d', e'⟩ := h₂
  exact ⟨⟨a1'.trans a1, a2'.trans a2, a3'.trans a3, a4'.trans a4, a5'.trans a5, a6'.trans a6⟩, b'.trans b,
    c'.trans c, d'.trans d, e'.trans e⟩

theorem stepFrame_record (s : State) (q : Request) : StepFrame s (s.record q) :=
  ⟨⟨rfl, rfl, rfl, rfl, rfl, rfl⟩, rfl, rfl, rfl, rfl⟩

theorem stepFrame_effect (op : MicroOp) (s : State) : StepFrame s (op.effect s) := by
  cases op with
  | integ dst => cases dst <;> exact ⟨⟨rfl, rfl, rfl, rfl, rfl, rfl⟩, rfl, rfl, rfl, rfl⟩
  | salsa g =>
    simp only [MicroOp.effect, opSalsa]
    split <;> exact ⟨⟨rfl, rfl, rfl, rfl, rfl, rfl⟩, rfl, rfl, rfl, rfl⟩
  | _ => exact ⟨⟨rfl, rfl, rfl, rfl, rfl, rfl⟩, rfl, rfl, rfl, rfl⟩

/-- After a micro-operation only the position has moved on. -/
theorem MicroOp.advance_eq (op : MicroOp) (s : State) : op.advance s = s.nextOp ∨ op.advance s = s.nextRound := by
  cases op with
  | salsa g =>
    simp only [MicroOp.advance]
    split
    · exact .inr rfl
    · exact .inl rfl
  | _ => exact .inl rfl

theorem stepFrame_run (op : MicroOp) (s : State) : StepFrame s (op.run s) := by
  refine (stepFrame_effect op s).trans ?_
  show StepFrame _ (op.advance (op.effect s))
  rcases op.advance_eq (op.effect s) with h | h <;> rw [h] <;>
    exact ⟨⟨rfl, rfl, rfl, rfl, rfl, rfl⟩, rfl, rfl, rfl, rfl⟩

/-- What a served micro-operation makes of the position and the command's control state: `q` moves on, or `t` within
SALSA_CORE (R50, R55), and only the end of BM touches the status (R220). -/
theorem MicroOp.run_fields (op : MicroOp) (s : State) :
    (op.run s).seq.phase = s.seq.phase ∧ (op.run s).seq.i = s.seq.i ∧ (op.run s).pendingErr = s.pendingErr
      ∧ (op.run s).phaseDraw = s.phaseDraw ∧ (op.run s).status.busy = s.status.busy
      ∧ (op ≠ .bmEnd → (op.run s).status = s.status)
      ∧ (((op.run s).seq.q = s.seq.q + 1 ∧ (op.run s).seq.t = 0) ∨
         ((op.run s).seq.q = s.seq.q ∧ s.seq.t < Config.rounds ∧ (op.run s).seq.t = s.seq.t + 1)) := by
  cases op with
  | integ d => cases d <;> simp [MicroOp.run, MicroOp.effect, MicroOp.advance, opInteg]
  | salsa g =>
    by_cases h : s.seq.t < Config.rounds <;> simp [MicroOp.run, MicroOp.effect, MicroOp.advance, opSalsa, h]
  | _ => simp [MicroOp.run, MicroOp.effect, MicroOp.advance, opLoad, opStore, opStoreZero, opXor, opMove, opBmEnd]

/-- What a served micro-operation makes of PROGRESS: the end of BM counts and toggles SWAP, nothing else does (R220). -/
theorem MicroOp.run_progress (op : MicroOp) (s : State) :
    (op.run s).progressSeen = s.progressSeen
      ∧ (op ≠ .bmEnd → (op.run s).progress = s.progress)
      ∧ (op = .bmEnd → (op.run s).progress = s.progress + 1#64 ∧ (op.run s).status.swap = !s.status.swap) := by
  cases op with
  | integ d => cases d <;> simp [MicroOp.run, MicroOp.effect, MicroOp.advance, opInteg]
  | salsa g =>
    by_cases h : s.seq.t < Config.rounds <;> simp [MicroOp.run, MicroOp.effect, MicroOp.advance, opSalsa, h]
  | _ => simp [MicroOp.run, MicroOp.effect, MicroOp.advance, opLoad, opStore, opStoreZero, opXor, opMove, opBmEnd]

/-- Only INTEG and the end of ZERO_SEQ write JI (R35). -/
theorem MicroOp.run_ji (op : MicroOp) (s : State) (h : op ≠ .zeroEnd) (h2 : ∀ d, op ≠ .integ d) : (op.run s).dp.ji = s.dp.ji := by
  cases op with
  | integ d => exact absurd rfl (h2 d)
  | zeroEnd => exact absurd rfl h
  | salsa g =>
    by_cases hh : s.seq.t < Config.rounds <;> cases g <;> simp [MicroOp.run, MicroOp.effect, MicroOp.advance, opSalsa, hh, Datapath.set]
  | lda l d b o => cases d <;> simp [MicroOp.run, MicroOp.effect, MicroOp.advance, opLoad, Datapath.set]
  | ldu d b o => cases d <;> simp [MicroOp.run, MicroOp.effect, MicroOp.advance, opLoad, Datapath.set]
  | xorb d b o => cases d <;> simp [MicroOp.run, MicroOp.effect, MicroOp.advance, opXor, Datapath.set]
  | move d o => cases d <;> simp [MicroOp.run, MicroOp.effect, MicroOp.advance, opMove, Datapath.set]
  | _ => simp [MicroOp.run, MicroOp.effect, MicroOp.advance, opStore, opStoreZero, opBmEnd]

/-- A completed command is idle, with nothing pending and no error kept (R50, R88). -/
theorem State.complete_idleOk (s : State) : IdleOk s.complete := by
  refine ⟨by simp, by simp, ?_, by simp⟩
  simp only [State.complete, State.reportError]
  split <;> simp_all

theorem stepFrame_complete (s : State) : StepFrame s s.complete := by
  refine ⟨⟨?_, ?_, ?_, ?_, ?_, ?_⟩, ?_, ?_, ?_, ?_⟩ <;> simp [Status.completed]

theorem stepFrame_laterWrites (s : State) (ops : List MicroOp) (lost : List BlkReg) :
    StepFrame s (s.laterWrites ops lost) :=
  ⟨⟨rfl, rfl, rfl, rfl, rfl, rfl⟩, rfl, rfl, rfl, rfl⟩

theorem stepFrame_enterPhase (s : State) (ph : Phase) : StepFrame s (s.enterPhase ph) :=
  ⟨⟨rfl, rfl, rfl, rfl, rfl, rfl⟩, rfl, rfl, rfl, rfl⟩

theorem stepFrame_stopCommand (s : State) (ops : List MicroOp) (lost : List BlkReg) :
    StepFrame s (s.stopCommand ops lost) := by
  obtain ⟨u, hu, h⟩ := s.stopCommand_cases ops lost
  have hs : StepFrame s u := by
    rcases hu with rfl | rfl
    · exact StepFrame.refl _
    · exact stepFrame_laterWrites s ops lost
  rcases h with ⟨_, h⟩ | ⟨_, h⟩ <;> rw [h]
  · exact hs.trans (stepFrame_enterPhase u _)
  · exact hs.trans (stepFrame_complete u)

theorem stepFrame_lateStop (s : State) : StepFrame s (lateStop s) := stepFrame_stopCommand s _ _

theorem stepFrame_endBlock (s : State) : StepFrame s (endBlock s) := by
  have hp : ∀ ph, StepFrame s (s.enterPhase ph) := fun ph => ⟨⟨rfl, rfl, rfl, rfl, rfl, rfl⟩, rfl, rfl, rfl, rfl⟩
  have hi : StepFrame s s.nextIter := ⟨⟨rfl, rfl, rfl, rfl, rfl, rfl⟩, rfl, rfl, rfl, rfl⟩
  unfold endBlock
  split
  · split
    · exact hp _
    · exact stepFrame_complete s
  · split
    · exact hi
    · exact hp _
  · split
    · exact stepFrame_lateStop s
    · exact hp _
  · split
    · exact hi
    · exact hp _
  · split
    · exact hp _
    · exact stepFrame_complete s
  all_goals exact stepFrame_complete s

theorem stepFrame_noteError (s : State) (a : Nat) : StepFrame s (s.noteError a) :=
  ⟨⟨rfl, rfl, rfl, rfl, rfl, rfl⟩, rfl, rfl, rfl, rfl⟩

theorem stepFrame_storeFree (s : State) (a : Nat) : StepFrame s (s.storeFree a) :=
  ⟨⟨State.storeFree_ctrl s a, State.storeFree_params s a, State.storeFree_platform s a, State.storeFree_pace s a,
    State.storeFree_inputs s a, State.storeFree_resp s a⟩, State.storeFree_cmd s a, State.storeFree_latched s a, rfl,
    State.storeFree_progressSeen s a⟩

theorem stepFrame_nextOp (s : State) : StepFrame s s.nextOp :=
  ⟨⟨rfl, rfl, rfl, rfl, rfl, rfl⟩, rfl, rfl, rfl, rfl⟩

theorem stepFrame_failRequest (s : State) (q : Request) : StepFrame s (s.failRequest q) := by
  unfold State.failRequest
  split
  · exact (stepFrame_noteError s q.addr).trans (stepFrame_storeFree _ q.addr)
  · exact stepFrame_noteError s q.addr

theorem stepFrame_streamError (q : Request) (s : State) : StepFrame s (streamError q s) :=
  (stepFrame_failRequest s q).trans (stepFrame_nextOp _)

theorem stepFrame_failedZero (q : Request) (s : State) : StepFrame s (failedZero q s) := by
  obtain ⟨⟨a1, a2, a3, a4, a5, a6⟩, b, c, d, e⟩ := stepFrame_streamError q s
  exact ⟨⟨a1, a2, a3, a4, a5, a6⟩, b, c, d, e⟩

theorem stepFrame_busError (op : MicroOp) (q : Request) (s : State) : StepFrame s (busError op q s) := by
  unfold busError
  split
  · exact stepFrame_failedZero q s
  · split
    · exact stepFrame_streamError q s
    · exact (stepFrame_failRequest s q).trans (stepFrame_stopCommand _ _ _)

theorem stepFrame_countArrival (s : State) : StepFrame s s.countArrival := by
  unfold State.countArrival
  split
  · exact ⟨⟨rfl, rfl, rfl, rfl, rfl, rfl⟩, rfl, rfl, rfl, rfl⟩
  · exact StepFrame.refl s

theorem stepFrame_performOp {op : MicroOp} {s t : State} (h : performOp op s = .next t) : StepFrame s t := by
  rcases performOp_cases h with ⟨_, rfl⟩ | ⟨q, _, _, _, ⟨_, rfl⟩ | ⟨_, rfl⟩⟩
  · exact stepFrame_run op s
  · exact (stepFrame_record s q).trans (stepFrame_busError op q _)
  · exact (stepFrame_record s q).trans (stepFrame_run op _)

theorem stepFrame_sequencerStep {s t : State} (h : sequencerStep s = .next t) : StepFrame s t := by
  rcases sequencerStep_cases h with ⟨op, _, h⟩ | ⟨_, rfl⟩
  · exact stepFrame_performOp h
  · exact stepFrame_endBlock s

/-- The frame of an engine step. -/
theorem stepFrame_engineStep {s t : State} (h : engineStep s = .next t) : StepFrame s t := by
  refine (stepFrame_countArrival s).trans ?_
  rcases engineStep_cases h with ⟨_, rfl⟩ | ⟨_, h⟩
  · exact stepFrame_lateStop _
  · exact stepFrame_sequencerStep h

/-! ### Running a command to its end -/

/-- What every engine step keeps, running to the end keeps. -/
theorem runToIdle_induct {P : State → Prop}
    (hstep : ∀ s t, P s → s.status.busy = true → engineStep s = .next t → P t) :
    ∀ (fuel : Nat) (s t : State), P s → runToIdle fuel s = .next t → P t := by
  intro fuel
  induction fuel with
  | zero =>
    intro s t hs h
    simp only [runToIdle] at h
    cases h
    exact hs
  | succ fuel ih =>
    intro s t hs h
    simp only [runToIdle] at h
    split at h
    · rename_i hb
      split at h
      · rename_i u hu
        exact ih u t (hstep s u hs hb hu) h
      · cases h
      · cases h
    · cases h
      exact hs

/-- The frame of a run. -/
theorem stepFrame_runToIdle {fuel : Nat} {s t : State} (h : runToIdle fuel s = .next t) : StepFrame s t :=
  runToIdle_induct (P := fun u => StepFrame s u) (fun _ _ hu _ hs => hu.trans (stepFrame_engineStep hs)) fuel s t
    (StepFrame.refl s) h

/-- An idle engine runs no further. -/
theorem runToIdle_idle (fuel : Nat) (s : State) (h : s.status.busy = false) : runToIdle fuel s = .next s := by
  cases fuel with
  | zero => rfl
  | succ n => simp [runToIdle, h]

/-- A running engine takes a step, then runs on. -/
theorem runToIdle_busy {fuel : Nat} {s t : State} (hb : s.status.busy = true) (h : engineStep s = .next t) :
    runToIdle (fuel + 1) s = runToIdle fuel t := by
  simp [runToIdle, hb, h]

/-- Once the engine is idle, more fuel changes nothing. -/
theorem runToIdle_mono {fuel : Nat} {s t : State} (h : runToIdle fuel s = .next t) (ht : t.status.busy = false)
    (k : Nat) : runToIdle (fuel + k) s = .next t := by
  induction fuel generalizing s with
  | zero =>
    simp only [runToIdle] at h
    cases h
    exact runToIdle_idle _ _ ht
  | succ fuel ih =>
    rw [Nat.add_right_comm]
    simp only [runToIdle] at h ⊢
    split at h
    · rename_i hb
      rw [if_pos hb]
      split at h
      · exact ih h
      · cases h
      · cases h
    · rename_i hb
      rw [if_neg hb]
      exact h

/-! ### Issue -/

/-- What the acceptance step answers (R240, R241). -/
theorem issueCommand_cases {i : Instr} {s t : State} (h : issueCommand i s = .next t) :
    (s.status.busy = true ∧ t = s.ignoreWrite)
      ∨ (s.status.busy = false ∧ ∃ e, check i s = some e ∧ t = (s.beginIssue (encode i)).reject e)
      ∨ (Accepts i s ∧ t = (s.beginIssue (encode i)).accept i) := by
  unfold issueCommand at h
  split at h
  · rename_i hb
    exact .inl ⟨hb, by simpa using h.symm⟩
  · rename_i hb
    have hb' : s.status.busy = false := by simpa using hb
    split at h
    · rename_i e he
      exact .inr (.inl ⟨hb', e, he, by simpa using h.symm⟩)
    · rename_i he
      refine .inr (.inr ?_)
      by_cases h1 : s.platform.ordinary (commandRegions i s) = true <;>
        by_cases h2 : s.platform.clearOfWindow (commandRegions i s) = true <;> simp [h1, h2] at h
      exact ⟨⟨hb', he, h1, h2⟩, h.symm⟩

/-- An accepted command starts. -/
theorem issueCommand_accepts {i : Instr} {s : State} (h : Accepts i s) :
    issueCommand i s = .next ((s.beginIssue (encode i)).accept i) := by
  obtain ⟨h1, h2, h3, h4⟩ := h
  simp [issueCommand, h1, h2, h3, h4]

/-- An accepted command runs from its acceptance step. -/
theorem runCommand_accepts {i : Instr} {s : State} (h : Accepts i s) :
    runCommand i s =
      runToIdle (commandBudget i (latchParams i s.latched s.params).r.toNat (latchParams i s.latched s.params).n.toNat)
        ((s.beginIssue (encode i)).accept i) := by
  unfold runCommand
  rw [if_neg (by simp [h.1]), issueCommand_accepts h]
  rfl

/-- What a whole command answers (R240, R252). -/
theorem runCommand_cases {i : Instr} {s t : State} (h : runCommand i s = .next t) :
    (s.status.busy = true ∧ t = s.ignoreWrite)
      ∨ (s.status.busy = false ∧ ∃ e, check i s = some e ∧ t = (s.beginIssue (encode i)).reject e)
      ∨ (Accepts i s ∧
          runToIdle (commandBudget i (latchParams i s.latched s.params).r.toNat
            (latchParams i s.latched s.params).n.toNat) ((s.beginIssue (encode i)).accept i) = .next t) := by
  unfold runCommand at h
  split at h
  · rename_i hb
    exact .inl ⟨hb, by simpa using h.symm⟩
  · rename_i hb
    have hb' : s.status.busy = false := by simpa using hb
    split at h
    · rename_i s' hs'
      rcases issueCommand_cases hs' with ⟨hb1, _⟩ | ⟨_, e, he, rfl⟩ | ⟨ha, rfl⟩
      · exact absurd hb1 hb
      · rw [runToIdle_idle _ _ (by simp [Status.issued, Status.rejected, hb'])] at h
        cases h
        exact .inr (.inl ⟨hb', e, he, rfl⟩)
      · exact .inr (.inr ⟨ha, h⟩)
    · cases h
    · cases h

/-- Every arm of exec is the run of its command. -/
theorem exec_eq_runCommand (i : Instr) (s : State) : exec i s = runCommand i s := by
  cases i <;> rfl

end Sys2Proof.Machine
end

