-- ==== Sys2Proof/Laws/Canonical.lean ====
section
/-! SUPPORT. Every operation of the machine keeps memory in canonical form and the write buffer inside the address space
(20_memory.md R70, R76). -/

namespace Sys2Proof.Machine

/-- Memory is canonical and every pending write lies in the address space. -/
structure PortOk (s : State) : Prop where
  mem : s.mem.wf
  wbuf : BufferOk s.wbuf

theorem PortOk.of_eq {s t : State} (h : PortOk s) (hm : t.mem = s.mem) (hw : t.wbuf = s.wbuf) : PortOk t :=
  ⟨hm ▸ h.mem, hw ▸ h.wbuf⟩

theorem portOk_storeBlock {s : State} (h : PortOk s) {a : Nat} (b : Block)
    (ha : a + Config.blockBytes ≤ Config.addressLimit) : PortOk (s.storeBlock a b) := by
  refine ⟨?_, ?_⟩
  · rw [State.storeBlock_mem]; exact h.mem
  · rw [State.storeBlock_wbuf]; exact bufferOk_append h.wbuf ha

theorem portOk_storeFree {s : State} (h : PortOk s) {a : Nat}
    (ha : a + Config.blockBytes ≤ Config.addressLimit) : PortOk (s.storeFree a) := by
  refine ⟨?_, ?_⟩
  · rw [State.storeFree_mem]; exact h.mem
  · rw [State.storeFree_wbuf]; exact bufferOk_append h.wbuf ha

theorem portOk_drainAll {s : State} (h : PortOk s) : PortOk s.drainAll := by
  refine ⟨s.wf_drainAll h.mem h.wbuf, ?_⟩
  rw [State.drainAll_wbuf]
  exact bufferOk_nil

theorem portOk_drainOldest {s : State} (h : PortOk s) : PortOk s.drainOldest :=
  ⟨(s.drainOldest_spec h.mem h.wbuf).1, (s.drainOldest_spec h.mem h.wbuf).2.1⟩

theorem portOk_complete {s : State} (h : PortOk s) : PortOk s.complete := by
  refine (portOk_drainAll h).of_eq ?_ ?_ <;> simp

/-- The bytes a storing micro-operation writes are those of its request. -/
theorem MicroOp.request_addr {op : MicroOp} {s : State} {q : Request} (h : op.request s = some q) :
    q.addr = op.addr s ∧ op.reqKind s = some q.kind := by
  unfold MicroOp.request at h
  cases hk : op.reqKind s with
  | none => simp [hk] at h
  | some k =>
    simp only [hk, Option.map_some, Option.some.injEq] at h
    subst h
    exact ⟨rfl, rfl⟩

theorem Request.inSpace_block {q : Request} (h : q.inSpace = true) (hk : q.kind.isWrite = true) :
    q.addr + Config.blockBytes ≤ Config.addressLimit := by
  have h' : q.addr + q.kind.size ≤ Config.addressLimit := by simpa [Request.inSpace] using h
  have : q.kind.size = Config.blockBytes := by
    cases hq : q.kind <;> simp [hq, ReqKind.isWrite] at hk <;> rfl
  omega

/-- A micro-operation keeps the port in order when its request, if it has one, stays in the address space. -/
theorem portOk_effect {op : MicroOp} {s : State} (h : PortOk s)
    (hq : ∀ q, op.request s = some q → q.inSpace = true) : PortOk (op.effect s) := by
  have hst : ∀ k b, op.request s = some ⟨k, op.addr s⟩ → k.isWrite = true → PortOk (s.storeBlock (op.addr s) b) :=
    fun k b hr hk => portOk_storeBlock h b (Request.inSpace_block (hq _ hr) hk)
  cases op with
  | sta l src b o => exact hst .writeAligned _ rfl rfl
  | staZero b o => exact hst .writeAligned _ rfl rfl
  | stu l src b o => exact hst .writeUnaligned _ rfl rfl
  | stn src b o => exact hst .writeNonTemporal _ rfl rfl
  | fence => exact portOk_drainAll h
  | integ dst => cases dst <;> exact h.of_eq rfl rfl
  | salsa g =>
    simp only [MicroOp.effect, opSalsa]
    split <;> exact h.of_eq rfl rfl
  | _ => exact h.of_eq rfl rfl

theorem portOk_run {op : MicroOp} {s : State} (h : PortOk s)
    (hq : ∀ q, op.request s = some q → q.inSpace = true) : PortOk (op.run s) := by
  have he := portOk_effect h hq
  show PortOk (op.advance (op.effect s))
  rcases op.advance_eq (op.effect s) with h' | h' <;> rw [h'] <;> exact he.of_eq rfl rfl

/-! ### After a failing request -/

theorem portOk_laterStore (l : Layout) (src : BlkReg) (q : Request) (hk : q.kind.isWrite = true)
    (acc : State × List BlkReg) (h : PortOk acc.1) : PortOk (laterStore l src q acc).1 := by
  unfold laterStore
  split
  · exact h
  · rename_i hc
    have hin : q.inSpace = true := by
      by_contra hn
      exact hc (.inr hn)
    have ha := Request.inSpace_block hin hk
    have hs : PortOk { acc.1 with draws := acc.1.draws + 1 } := h.of_eq rfl rfl
    dsimp only
    split
    · split
      · exact portOk_storeFree hs ha
      · exact portOk_storeBlock hs _ ha
    · exact hs

theorem portOk_laterLoad (l : Layout) (dst : BlkReg) (q : Request) (acc : State × List BlkReg) (h : PortOk acc.1) :
    PortOk (laterLoad l dst q acc).1 := by
  unfold laterLoad
  split
  · exact h
  · exact h.of_eq rfl rfl

theorem portOk_laterCompute (dst : BlkReg) (srcs : List BlkReg) (b : Block) (acc : State × List BlkReg)
    (h : PortOk acc.1) : PortOk (laterCompute dst srcs b acc).1 := by
  unfold laterCompute
  split
  · exact h
  · exact h.of_eq rfl rfl

theorem portOk_laterOp (acc : State × List BlkReg) (op : MicroOp) (h : PortOk acc.1) : PortOk (laterOp acc op).1 := by
  cases op with
  | lda l dst b o => exact portOk_laterLoad _ _ _ _ h
  | ldu dst b o => exact portOk_laterLoad _ _ _ _ h
  | sta l src b o => exact portOk_laterStore _ _ _ rfl _ h
  | stu l src b o => exact portOk_laterStore _ _ _ rfl _ h
  | stn src b o => exact portOk_laterStore _ _ _ rfl _ h
  | xorb dst a b => exact portOk_laterCompute _ _ _ _ h
  | move dst src => exact portOk_laterCompute _ _ _ _ h
  | salsa g => exact portOk_laterCompute _ _ _ _ h
  | _ => exact h

theorem portOk_laterWrites {s : State} (h : PortOk s) (ops : List MicroOp) (lost : List BlkReg) :
    PortOk (s.laterWrites ops lost) := by
  have key : ∀ (ops : List MicroOp) (acc : State × List BlkReg), PortOk acc.1 → PortOk (ops.foldl laterOp acc).1 := by
    intro ops
    induction ops with
    | nil => intro acc h; exact h
    | cons op ops ih => intro acc h; exact ih _ (portOk_laterOp acc op h)
  exact ⟨h.mem, (key ops (s, lost) h).wbuf⟩

theorem portOk_stopCommand {s : State} (h : PortOk s) (ops : List MicroOp) (lost : List BlkReg) :
    PortOk (s.stopCommand ops lost) := by
  obtain ⟨u, hu, hc⟩ := s.stopCommand_cases ops lost
  have hs : PortOk u := by
    rcases hu with rfl | rfl
    · exact h
    · exact portOk_laterWrites h ops lost
  rcases hc with ⟨_, hc⟩ | ⟨_, hc⟩ <;> rw [hc]
  · exact hs.of_eq rfl rfl
  · exact portOk_complete hs

theorem portOk_lateStop {s : State} (h : PortOk s) : PortOk (lateStop s) := portOk_stopCommand h _ _

theorem portOk_failRequest {s : State} {q : Request} (h : PortOk s) (hq : q.inSpace = true) : PortOk (s.failRequest q) := by
  have h1 : PortOk (s.noteError q.addr) := h.of_eq rfl rfl
  unfold State.failRequest
  split
  · rename_i hw
    exact portOk_storeFree h1 (Request.inSpace_block hq hw)
  · exact h1

theorem portOk_busError {op : MicroOp} {q : Request} {s : State} (h : PortOk s) (hq : q.inSpace = true) :
    PortOk (busError op q s) := by
  have hf := portOk_failRequest h hq
  unfold busError
  split
  · exact hf.of_eq rfl rfl
  · split
    · exact hf.of_eq rfl rfl
    · exact portOk_stopCommand hf _ _

/-! ### The end of a block sequence -/

theorem portOk_endBlock {s : State} (h : PortOk s) : PortOk (endBlock s) := by
  have hp : ∀ ph, PortOk (s.enterPhase ph) := fun ph => h.of_eq rfl rfl
  have hi : PortOk s.nextIter := h.of_eq rfl rfl
  unfold endBlock
  split
  · split
    · exact hp _
    · exact portOk_complete h
  · split
    · exact hi
    · exact hp _
  · split
    · exact portOk_lateStop h
    · exact hp _
  · split
    · exact hi
    · exact hp _
  · split
    · exact hp _
    · exact portOk_complete h
  all_goals exact portOk_complete h

/-! ### The other agents -/

theorem portOk_freeRegion (acc : Memory × Nat) (g : Region) (h : acc.1.wf) (hg : g.stop ≤ Config.addressLimit) :
    (freeRegion acc g).1.wf := by
  unfold freeRegion
  exact Memory.wf_writeBytes g.size acc.1 h g.base _ hg

/-- A reset in the middle of a command leaves memory canonical (R321). -/
theorem wf_memoryAfterReset {s : State} (h : s.mem.wf) (hg : ∀ g ∈ s.latched.writes, g.stop ≤ Config.addressLimit) :
    s.memoryAfterReset.1.wf := by
  have key : ∀ (gs : List Region) (acc : Memory × Nat), acc.1.wf → (∀ g ∈ gs, g.stop ≤ Config.addressLimit) →
      (gs.foldl freeRegion acc).1.wf := by
    intro gs
    induction gs with
    | nil => intro acc h _; exact h
    | cons g gs ih =>
      intro acc h hg
      rw [List.foldl_cons]
      exact ih (freeRegion acc g) (portOk_freeRegion acc g h (hg g (by simp))) (fun g' hg' => hg g' (by simp [hg']))
  unfold State.memoryAfterReset
  split
  · exact key s.latched.writes (s.mem, s.draws) h hg
  · exact h

/-- A foreign store keeps memory canonical (R90). -/
theorem wf_foreignStore {a : Nat} {v : Byte} {s t : State} (h : s.mem.wf) (ht : foreignStore a v s = .next t) :
    t.mem.wf := by
  unfold foreignStore at ht
  split at ht
  · cases ht
  · rename_i ha
    split at ht
    · cases ht
    · cases ht
      exact Memory.wf_write s.mem h a (by omega) v

end Sys2Proof.Machine
end

