-- ==== Sys2Proof/Laws/Checks.lean ====
section
/-! SUPPORT. What the acceptance checks establish, said once (44_controller.md R242, R244 to R247). -/

namespace Sys2Proof.Machine

/-- A command whose checks pass: every argument check holds, every aligned base is a multiple of 64, every scratch region is
usable, and the disjoint set is pairwise disjoint (R246). -/
theorem verdict_none {k : CheckSet} {p : Params} (h : k.verdict p = none) :
    (∀ a ∈ k.args, a.holds p = true) ∧ (∀ b ∈ k.aligned, b % 64 = 0) ∧ (∀ g ∈ k.scratch, g.usable = true) ∧ pairwiseDisjoint k.disjoint = true := by
  unfold CheckSet.verdict at h
  split at h
  · cases h
  · rename_i h1
    split at h
    · cases h
    · rename_i h2
      split at h
      · cases h
      · rename_i h3
        simp only [CheckSet.alignedOk, CheckSet.regionsOk, Bool.not_eq_true', Bool.not_eq_false, List.all_eq_true, Bool.and_eq_true, beq_iff_eq, Config.blockBytes] at h1 h2 h3
        exact ⟨h1, h2, h3.1, h3.2⟩

/-- A1: r is at least 1, and the latched r and EB are exact (R242). -/
theorem a1_sizes {p : Params} (h : ArgCheck.a1.holds p = true) (l : Latched) :
    1 ≤ p.r ∧ (l.withR p).r.toNat = p.r ∧ (l.withR p).eb.toNat = p.eb := by
  simp only [ArgCheck.holds, decide_eq_true_eq] at h
  obtain ⟨h1, h2, h3⟩ := h
  have hb := p.byteLen.isLt
  have hr : 1 ≤ p.r := by
    unfold Params.r
    rw [Nat.one_le_div_iff (by omega)]
    exact Nat.le_of_dvd (by omega) (Nat.dvd_of_mod_eq_zero h3)
  have he : p.eb ≤ p.byteLen.toNat := by
    unfold Params.eb Params.r
    calc 128 * (p.byteLen.toNat / (128 * p.elemCount.toNat)) ≤ (128 * p.elemCount.toNat) * (p.byteLen.toNat / (128 * p.elemCount.toNat)) := by
            apply Nat.mul_le_mul_right; omega
      _ ≤ _ := Nat.mul_div_le _ _
  have heb : p.eb = 128 * p.r := rfl
  have e1 : (l.withR p).r.toNat = p.r := by simp only [Latched.withR, BitVec.toNat_ofNat]; rw [Nat.mod_eq_of_lt (by omega)]
  have e2 : (l.withR p).eb.toNat = p.eb := by simp only [Latched.withR, BitVec.toNat_ofNat]; rw [Nat.mod_eq_of_lt (by omega)]
  exact ⟨hr, e1, e2⟩

/-- A1 and A2: the element region ends inside the address space (R242). -/
theorem a2_elem {p : Params} (h1 : ArgCheck.a1.holds p = true) (h2 : ArgCheck.a2.holds p = true) :
    p.elem + p.eb ≤ 2 ^ 64 := by
  simp only [ArgCheck.holds, decide_eq_true_eq] at h1 h2
  obtain ⟨a1, a2, a3⟩ := h1
  obtain ⟨b1, b2, b3⟩ := h2
  have : p.elemCount.toNat * p.eb = p.byteLen.toNat := by
    unfold Params.eb Params.r
    calc p.elemCount.toNat * (128 * (p.byteLen.toNat / (128 * p.elemCount.toNat))) = (128 * p.elemCount.toNat) * (p.byteLen.toNat / (128 * p.elemCount.toNat)) := by ring
      _ = _ := Nat.mul_div_cancel' (Nat.dvd_of_mod_eq_zero a3)
  have h : (p.elemIndex.toNat + 1) * p.eb ≤ p.elemCount.toNat * p.eb := Nat.mul_le_mul_right _ b2
  rw [Nat.add_mul] at h
  have e3 : Config.addressLimit = 2 ^ 64 := rfl
  unfold Params.elem
  omega

end Sys2Proof.Machine
end

