-- ==== Sys2Proof/Laws/Invariant.lean ====
section
/-! SUPPORT. What the invariant depends on, said once, so that a step which touches none of it keeps it by one citation. -/

namespace Sys2Proof.Machine

/-- The block sequence depends on the latched parameters, the phase and the iteration alone (R344). -/
theorem State.blockOps_congr {s t : State} (hl : t.latched = s.latched) (hp : t.seq.phase = s.seq.phase)
    (hi : t.seq.i = s.seq.i) : t.blockOps = s.blockOps := by
  unfold State.blockOps
  rw [hl, hp, hi]

/-- CW depends on SWAP and the latched bases alone (R33). -/
theorem State.cw_congr {s t : State} (hl : t.latched = s.latched) (hs : t.status.swap = s.status.swap) : t.cw = s.cw := by
  unfold State.cw
  rw [hl, hs]

/-- The geometry of a command depends on the latched parameters, and on SWAP where the command uses CW alone. -/
theorem geometryOk_congr {c : Instr} {s t : State} (hl : t.latched = s.latched)
    (hs : c = .restore ∨ c = .integerify → t.status.swap = s.status.swap) (h : geometryOk c s) : geometryOk c t := by
  cases c with
  | restore =>
    simp only [geometryOk, hl, State.cw_congr hl (hs (.inl rfl))] at h ⊢
    exact h
  | integerify =>
    simp only [geometryOk, hl, State.cw_congr hl (hs (.inr rfl))] at h ⊢
    exact h
  | _ =>
    simp only [geometryOk, hl] at h ⊢
    exact h

/-- A running command's condition reads these fields and no others; of the write buffer only whether FENCE has emptied it. -/
theorem RunsCommand.of_eq {c : Instr} {s t : State} (h : RunsCommand c s) (hswap : t.status.swap = s.status.swap)
    (hl : t.latched = s.latched) (hseq : t.seq = s.seq) (hdp : t.dp.ji = s.dp.ji) (herr : t.pendingErr = s.pendingErr)
    (hdraw : t.phaseDraw = s.phaseDraw) (hprog : t.progress = s.progress) (hseen : t.progressSeen = s.progressSeen)
    (hbuf : s.wbuf = [] → t.wbuf = []) : RunsCommand c t := by
  have hops : t.blockOps = s.blockOps := State.blockOps_congr hl (by rw [hseq]) (by rw [hseq])
  refine ⟨by rw [hl]; exact h.cmd, geometryOk_congr hl (fun _ => hswap) h.geometry, ?_, ?_, ?_, ?_, ?_, ?_, ?_, ?_, ?_⟩
  · simpa only [positionOk, hseq, hl, hops] using h.position
  · simpa only [hseq, hl, hdp] using h.tableIndex
  · simpa only [hseq, herr] using h.errorPhase
  · simpa only [hseq] using fun hp hq => hbuf (h.fenced hp hq)
  · simpa only [hseq, hdraw] using h.phases
  · simpa only [progressOk, hseq, hl, hops, hprog] using h.progress
  · simpa only [hprog, hseen] using h.progressSeen
  · simpa only [hswap, hprog] using h.swap
  · simpa only [hl] using h.writes

/-- The invariant reads these fields and no others. -/
theorem Invariant.of_eq {s t : State} (h : Invariant s) (hmem : t.mem = s.mem) (hbuf : t.wbuf = s.wbuf)
    (hbusy : t.status.busy = s.status.busy) (hswap : t.status.swap = s.status.swap) (hl : t.latched = s.latched)
    (hseq : t.seq = s.seq) (hdp : t.dp.ji = s.dp.ji) (herr : t.pendingErr = s.pendingErr)
    (hdraw : t.phaseDraw = s.phaseDraw) (hprog : t.progress = s.progress) (hseen : t.progressSeen = s.progressSeen) :
    Invariant t := by
  refine ⟨hmem ▸ h.1, hbuf ▸ h.2.1, fun hb => ?_, fun hb => ?_⟩
  · obtain ⟨c, hc⟩ := h.2.2.1 (hbusy ▸ hb)
    exact ⟨c, hc.of_eq hswap hl hseq hdp herr hdraw hprog hseen (fun hw => hbuf.trans hw)⟩
  · simpa only [IdleOk, hseq, hbuf, herr, hdraw] using h.2.2.2 (hbusy ▸ hb)

end Sys2Proof.Machine
end

