-- ==== Sys2Proof/Laws/PerInstr.lean ====
section
/-! SUPPORT. Statements made once per command, with one lemma per constructor: each command's word is legal by the field
rules of 30_encoding.md R100 to R103. -/

namespace Sys2Proof.Laws.LegalWord

/-- The word of a command has RSV = 0, a MODE other than 0 only with OPC = 0x04 and never 3, NAT = 1 only with OPC = 0x06
(R100, R101), and decodes to the command (R103). -/
def Statement (i : Instr) : Prop :=
  fieldRsv (encode i) = 0#53
    ∧ (fieldMode (encode i) = 0#2 ∨ fieldOpc (encode i) = 0x04#8)
    ∧ fieldMode (encode i) ≠ 3#2
    ∧ (fieldNat (encode i) = 0#1 ∨ fieldOpc (encode i) = 0x06#8)
    ∧ decode (encode i) = .ok i

theorem smix : Statement .smix := by unfold Statement; decide
theorem prepare : Statement .prepare := by unfold Statement; decide
theorem restore : Statement .restore := by unfold Statement; decide
theorem blockmixNone : Statement .blockmixNone := by unfold Statement; decide
theorem blockmixCopy : Statement .blockmixCopy := by unfold Statement; decide
theorem blockmixXor : Statement .blockmixXor := by unfold Statement; decide
theorem integerify : Statement .integerify := by unfold Statement; decide
theorem salsa8 : Statement .salsa8 := by unfold Statement; decide
theorem salsa8Nat : Statement .salsa8Nat := by unfold Statement; decide
theorem zeroize : Statement .zeroize := by unfold Statement; decide

end Sys2Proof.Laws.LegalWord
end

