-- ==== Sys2Proof/Laws/Sequences.lean ====
section
/-! SUPPORT. Where the micro-operations of the command sequences may access memory (20_memory.md R75, 41_blockops.md R170),
and that the end of BM stands last in BM (43_blockmix.md R220). -/

namespace Sys2Proof.Machine

/-- An offset from a base that stays inside its buffer, aligned but for the element (R26, R170). -/
def offsetOk (r n : Nat) (b : Base) (o : Nat) : Prop :=
  match b with
  | .table => o % 64 = 0 ∧ o + 64 ≤ 128 * r * n
  | .elem => o + 64 ≤ 128 * r
  | .cw => o % 64 = 0 ∧ o + 64 ≤ 128 * r
  | .cs => o % 64 = 0 ∧ o + 64 ≤ 128 * r
  | .work => o % 64 = 0 ∧ o + 64 ≤ 128 * r
  | .shuf => o % 64 = 0 ∧ o + 64 ≤ 128 * r
  | .tableAtJI => o % 64 = 0 ∧ o + 64 ≤ 128 * r
  | .other => o % 64 = 0 ∧ o + 64 ≤ 128 * r

/-- A micro-operation that accesses allowed bases only, at offsets inside their buffers, aligned kinds never the element. -/
def opOk (r n : Nat) (sh : Base → Prop) (op : MicroOp) : Prop :=
  match op with
  | .lda _ _ b o => sh b ∧ b ≠ .elem ∧ offsetOk r n b o
  | .ldu _ b o => sh b ∧ offsetOk r n b o
  | .sta _ _ b o => sh b ∧ b ≠ .elem ∧ offsetOk r n b o
  | .staZero b o => sh b ∧ b ≠ .elem ∧ offsetOk r n b o
  | .stu _ _ b o => sh b ∧ offsetOk r n b o
  | .stn _ b o => sh b ∧ b ≠ .elem ∧ offsetOk r n b o
  | .pfn b o => sh b ∧ b ≠ .elem ∧ offsetOk r n b o
  | .flush b o => sh b ∧ b ≠ .elem ∧ offsetOk r n b o
  | .integ _ => sh .cw
  | .xorb _ _ _ => True
  | .move _ _ => True
  | .salsa _ => True
  | .bmEnd => True
  | .fence => True
  | .zeroBegin => True
  | .zeroEnd => True

/-- A shuffle position is a block of the buffer (R213). -/
theorem fanOut_lt {r i : Nat} (hr : 1 ≤ r) (hi : i < 2 * r - 1) : fanOut r i < 2 * r := by
  unfold fanOut; split <;> omega

/-- PREP_SEQ reads the element and writes the working buffer (R194). -/
theorem prepSeq_ok {r n : Nat} {sh : Base → Prop} (hr : 1 ≤ r) (h1 : sh .elem) (h2 : sh .work) :
    ∀ op ∈ prepSeq r, opOk r n sh op := by
  intro op h
  simp only [prepSeq, List.mem_append, List.mem_flatMap, List.mem_range, prepIter, List.mem_cons, List.not_mem_nil,
    or_false] at h
  rcases h with ⟨i, hi, rfl | rfl⟩ | rfl | rfl <;> simp [opOk, offsetOk, h1, h2] <;> omega

/-- REST_SEQ reads CW and writes the element (R197). -/
theorem restSeq_ok {r n : Nat} {sh : Base → Prop} (hr : 1 ≤ r) (h1 : sh .elem) (h2 : sh .cw) :
    ∀ op ∈ restSeq r, opOk r n sh op := by
  intro op h
  simp only [restSeq, List.mem_append, List.mem_flatMap, List.mem_range, restIter, List.mem_cons, List.not_mem_nil, or_false] at h
  rcases h with (rfl | ⟨i, hi, rfl | rfl⟩) | rfl <;> simp [opOk, offsetOk, h1, h2] <;> omega

/-- ZERO_SEQ writes the three scratch buffers (R258). -/
theorem zeroSeq_ok {r n : Nat} {sh : Base → Prop} (h1 : sh .work) (h2 : sh .shuf) (h3 : sh .table) :
    ∀ op ∈ zeroSeq r n, opOk r n sh op := by
  intro op h
  simp only [zeroSeq, zeroFill, List.mem_append, List.mem_map, List.mem_range, List.mem_cons, List.not_mem_nil, or_false] at h
  rcases h with (((rfl | ⟨q, hq, rfl⟩) | ⟨q, hq, rfl⟩) | ⟨q, hq, rfl⟩) | rfl <;> simp [opOk, offsetOk, h1, h2, h3] <;>
    first | omega | skip
  have : 128 * r * n = 64 * (2 * r * n) := by ring
  omega

/-- BM reads CW, writes CS, and accesses the other buffer in modes Copy and Xor alone (R211). -/
theorem bmSeq_ok {r n : Nat} {sh : Base → Prop} {mode : BmMode} {ob : Base} {oo : Nat} (hr : 1 ≤ r) (h1 : sh .cw) (h2 : sh .cs)
    (hb : mode ≠ .none → sh ob ∧ ob ≠ .elem ∧ ∀ q, q < 2 * r → offsetOk r n ob (oo + 64 * q)) :
    ∀ op ∈ bmSeq r mode ob oo, opOk r n sh op := by
  intro op h
  have hb0 : mode ≠ .none → offsetOk r n ob oo := fun hm => by
    have := (hb hm).2.2 0 (by omega); simpa using this
  simp only [bmSeq, bmHead, bmTail, List.mem_append, List.mem_flatMap, List.mem_range, bmIter, List.mem_cons, List.not_mem_nil, or_false] at h
  rcases h with (((rfl | h) | rfl) | ⟨i, hi, (rfl | h) | rfl | rfl | rfl | rfl⟩) | rfl | rfl | rfl | rfl
  all_goals try (simp only [opOk, ne_eq, reduceCtorEq, not_false_eq_true, true_and, offsetOk, h1, h2]; try omega)
  · cases mode with
    | none => simp at h
    | copy =>
      simp only [List.mem_cons, List.not_mem_nil, or_false] at h
      subst h
      exact ⟨(hb (by simp)).1, (hb (by simp)).2.1, hb0 (by simp)⟩
    | xor =>
      simp only [List.mem_append, List.mem_map, List.mem_range, List.mem_cons, List.not_mem_nil, or_false] at h
      have hm := hb (by simp)
      rcases h with ⟨q, hq, rfl⟩ | rfl | rfl | rfl
      · exact ⟨hm.1, hm.2.1, hm.2.2 q (by omega)⟩
      · exact ⟨hm.1, hm.2.1, hb0 (by simp)⟩
      · trivial
      · exact ⟨hm.1, hm.2.1, hb0 (by simp)⟩
  · cases mode with
    | none => simp at h
    | copy =>
      simp only [List.mem_cons, List.not_mem_nil, or_false] at h
      subst h
      exact ⟨(hb (by simp)).1, (hb (by simp)).2.1, (hb (by simp)).2.2 _ (by omega)⟩
    | xor =>
      simp only [List.mem_append, List.mem_cons, List.not_mem_nil, or_false] at h
      have hm := hb (by simp)
      rcases h with h | rfl | rfl | rfl
      · split at h
        · simp only [List.mem_cons, List.not_mem_nil, or_false] at h; subst h
          exact ⟨hm.1, hm.2.1, hm.2.2 _ (by omega)⟩
        · simp at h
      · exact ⟨hm.1, hm.2.1, hm.2.2 _ (by omega)⟩
      · trivial
      · exact ⟨hm.1, hm.2.1, hm.2.2 _ (by omega)⟩
  · have := fanOut_lt hr hi; omega

/-- BM without its last micro-operation. -/
def bmBody (r : Nat) (mode : BmMode) (ob : Base) (oo : Nat) : List MicroOp :=
  bmHead r mode ob oo ++ (List.range (2 * r - 1)).flatMap (bmIter r mode ob oo)
    ++ [.xorb .last .last .prev, .salsa .last, .sta .keep .last .cs 0]

/-- The end of BM stands last (R211, R220). -/
theorem bmSeq_eq (r : Nat) (mode : BmMode) (ob : Base) (oo : Nat) :
    bmSeq r mode ob oo = bmBody r mode ob oo ++ [.bmEnd] := by
  simp [bmSeq, bmBody, bmTail]

/-- The body of BM holds no end of BM, no end of ZERO_SEQ and no INTEG. -/
theorem bmBody_ops {r : Nat} {mode : BmMode} {ob : Base} {oo : Nat} :
    ∀ op ∈ bmBody r mode ob oo, op ≠ .zeroEnd ∧ op ≠ .bmEnd ∧ ∀ d, op ≠ .integ d := by
  intro op h
  simp only [bmBody, bmHead, List.mem_append, List.mem_flatMap, List.mem_range, bmIter, List.mem_cons, List.not_mem_nil,
    or_false] at h
  rcases h with (((rfl | h) | rfl) | ⟨i, hi, (rfl | h) | rfl | rfl | rfl | rfl⟩) | rfl | rfl | rfl
  all_goals try simp
  · cases mode with
    | none => simp at h
    | copy => simp at h; simp [h]
    | xor => simp at h; rcases h with ⟨_, _, rfl⟩ | rfl | rfl | rfl <;> simp
  · cases mode with
    | none => simp at h
    | copy => simp at h; simp [h]
    | xor => simp at h; rcases h with ⟨_, h⟩ | rfl | rfl | rfl <;> simp_all

/-- Where the end of BM stands last and nowhere else, performing it is reaching the end of the sequence (R220). -/
theorem bmEnd_iff_last {body : List MicroOp} (hb : ∀ op ∈ body, op ≠ .bmEnd) {q : Nat} {op : MicroOp}
    (h : (body ++ [.bmEnd])[q]? = some op) : op = .bmEnd ↔ q + 1 = (body ++ [MicroOp.bmEnd]).length := by
  by_cases hq : q < body.length
  · rw [List.getElem?_append_left hq] at h
    have := hb op (List.mem_of_getElem? h)
    simp [this]
    omega
  · have hl := (List.getElem?_eq_some_iff.1 h).1
    simp at hl
    obtain rfl : q = body.length := by omega
    simp at h
    simp [h.symm]

end Sys2Proof.Machine
end

