-- ==== Sys2Proof/Tests/Slice0.lean ====
section
/-! SUPPORT. The model's own tests: expected values are those of spec/95_test_vectors.md or worked by hand from the encoding
tables; and for every statement with hypotheses a witness that meets them. -/

-- One theorem at a time: side by side their evaluations ask for more memory than the check grants.
set_option Elab.async false

namespace Sys2Proof.Tests

open Sys2Proof.Machine

/-! ### Helpers -/

/-- A next state with a property. -/
def onNext (o : Host.Outcome State Fault Refusal) (p : State → Bool) : Bool :=
  match o with
  | .next t => p t
  | .fault _ => false
  | .refused _ => false

theorem onNext_exists {o : Host.Outcome State Fault Refusal} {p : State → Bool} (h : onNext o p = true) :
    ∃ t, o = .next t ∧ p t = true := by
  cases o with
  | next t => exact ⟨t, rfl, h⟩
  | fault f => exact absurd h Bool.false_ne_true
  | refused r => exact absurd h Bool.false_ne_true

/-- Memory cells for words below 256 from an address up: each word's low byte, zero words unlisted. -/
def cells : Nat → List Nat → Memory
  | _, [] => []
  | a, w :: ws => if w = 0 then cells (a + 4) ws else (a, BitVec.ofNat 8 w) :: cells (a + 4) ws

/-- Memory cells for bytes from an address up, zero bytes unlisted. -/
def byteCells : Nat → List Nat → Memory
  | _, [] => []
  | a, b :: bs => if b = 0 then byteCells (a + 1) bs else (a, BitVec.ofNat 8 b) :: byteCells (a + 1) bs

/-- The words of memory from an address up. -/
def wordsAt (m : Memory) (a n : Nat) : List Nat := (List.range n).map fun k => (m.readWord (a + 4 * k)).toNat

/-- DIAG(words 0..15) (95_test_vectors.md V-L2). -/
def diag0 : List Nat := [0x0c, 0x01, 0x06, 0x0b, 0x00, 0x05, 0x0a, 0x0f, 0x04, 0x09, 0x0e, 0x03, 0x08, 0x0d, 0x02, 0x07]

/-- DIAG(words 16..31) (V-L2). -/
def diag16 : List Nat := [0x1c, 0x11, 0x16, 0x1b, 0x10, 0x15, 0x1a, 0x1f, 0x14, 0x19, 0x1e, 0x13, 0x18, 0x1d, 0x12, 0x17]

/-- The registers of the vectors of sections 3 to 6: r = 1, N = 1. -/
def regs : Params := ⟨0x1000#64, 128#64, 1#64, 0#64, 1#64, 0x100000#64, 0x200000#64, 0x300000#64, 0x400000#64⟩

/-- A state that accepts every command: the element is words 0..31, the working buffer its image (V-L2). -/
def base : State :=
  { State.reset with
    params := regs
    mem := cells 0x1000 (List.range 32) ++ cells 0x100000 (diag16 ++ diag0) }

/-- The same with PREPARE of words 100..131 at OTHER_BASE (V-B3). -/
def baseOther : State :=
  { base with mem := base.mem ++ cells 0x400000 (diag16.map (· + 100) ++ diag0.map (· + 100)) }

/-- The same with the stored input of V-S3 at OTHER_BASE. -/
def baseSalsa : State := { base with mem := base.mem ++ cells 0x400000 diag0 }

/-- The same with the input of V-S2 at OTHER_BASE. -/
def baseNat : State :=
  { base with
    mem := base.mem ++ byteCells 0x400000
      [0x7e, 0x87, 0x9a, 0x21, 0x4f, 0x3e, 0xc9, 0x86, 0x7c, 0xa9, 0x40, 0xe6, 0x41, 0x71, 0x8f, 0x26,
       0xba, 0xee, 0x55, 0x5b, 0x8c, 0x61, 0xc1, 0xb5, 0x0d, 0xf8, 0x46, 0x11, 0x6d, 0xcd, 0x3b, 0x1d,
       0xee, 0x24, 0xf3, 0x19, 0xdf, 0x9b, 0x3d, 0x85, 0x14, 0x12, 0x1e, 0x4b, 0x5a, 0xc5, 0xaa, 0x32,
       0x76, 0x02, 0x1d, 0x29, 0x09, 0xc7, 0x48, 0x29, 0xed, 0xeb, 0xc6, 0x8d, 0xb8, 0xb8, 0xc2, 0x5e] }

/-- A state with other parameters. -/
def withParams (s : State) (p : Params) : State := { s with params := p }

/-- A state whose platform answers the requests of one rule with an error. -/
def withError (s : State) (e : BusErrRule) : State := { s with platform := { s.platform with busErr := [e] } }

/-- A state with one input. -/
def withInput (s : State) (i : Input) : State := { s with inputs := [i] }

/-- A command just accepted. -/
def running (i : Instr) : State := (base.beginIssue (encode i)).accept i

/-! ### Well-formedness: each check refuses an ill-formed term -/

theorem test_wellFormed_access : Access.wellFormed ⟨0xf8#8, 8, .read⟩ = true := by decide
theorem test_illFormed_size : Access.wellFormed ⟨0x10#8, 4, .read⟩ = false := by decide
theorem test_illFormed_offset : Access.wellFormed ⟨0x14#8, 8, .read⟩ = false := by decide
theorem test_wellFormed_commands :
    [Instr.smix, .prepare, .restore, .blockmixNone, .blockmixCopy, .blockmixXor, .integerify, .salsa8, .salsa8Nat,
      .zeroize].all Instr.wellFormed = true := by decide

/-! ### Decoding: words written out from 30_encoding.md R100 to R102, as {RSV, NAT, MODE, OPC} -/

theorem test_decode_SMIX : decode (0#53 ++ 0b0#1 ++ 0b00#2 ++ 0b00000001#8) = .ok .smix := by decide
theorem test_decode_PREPARE : decode (0#53 ++ 0b0#1 ++ 0b00#2 ++ 0b00000010#8) = .ok .prepare := by decide
theorem test_decode_RESTORE : decode (0#53 ++ 0b0#1 ++ 0b00#2 ++ 0b00000011#8) = .ok .restore := by decide
theorem test_decode_BLOCKMIX_NONE : decode (0#53 ++ 0b0#1 ++ 0b00#2 ++ 0b00000100#8) = .ok .blockmixNone := by decide
theorem test_decode_BLOCKMIX_COPY : decode (0#53 ++ 0b0#1 ++ 0b01#2 ++ 0b00000100#8) = .ok .blockmixCopy := by decide
theorem test_decode_BLOCKMIX_XOR : decode (0#53 ++ 0b0#1 ++ 0b10#2 ++ 0b00000100#8) = .ok .blockmixXor := by decide
theorem test_decode_INTEGERIFY : decode (0#53 ++ 0b0#1 ++ 0b00#2 ++ 0b00000101#8) = .ok .integerify := by decide
theorem test_decode_SALSA8 : decode (0#53 ++ 0b0#1 ++ 0b00#2 ++ 0b00000110#8) = .ok .salsa8 := by decide
theorem test_decode_SALSA8_NAT : decode (0#53 ++ 0b1#1 ++ 0b00#2 ++ 0b00000110#8) = .ok .salsa8Nat := by decide
theorem test_decode_ZEROIZE : decode (0#53 ++ 0b0#1 ++ 0b00#2 ++ 0b00000111#8) = .ok .zeroize := by decide

/-- Vectors E1 to E6: the ILLEGAL words. -/
theorem test_decode_illegal :
    decode 0x0000000000000000#64 = .error .opcode
      ∧ decode 0x0000000000000304#64 = .error .mode
      ∧ decode 0x0000000000000401#64 = .error .natFlag
      ∧ decode 0x0000000000000008#64 = .error .opcode
      ∧ decode 0x8000000000000001#64 = .error .reservedBits
      ∧ decode 0x0000000000000506#64 = .error .mode := by decide

/-- R73, R107: bytes, least significant first. -/
theorem test_decodeBytes : decodeBytes [0x06#8, 0x04#8, 0#8, 0#8, 0#8, 0#8, 0#8, 0#8] = .ok .salsa8Nat := by decide

theorem test_decodeTableWord : decodeTableWord 64 0x204 = some .blockmixXor ∧ decodeTableWord 64 0x304 = none := by decide

/-! ### Operations -/

/-- Vector V-S6. -/
theorem test_rotl32 :
    rotl32 0x80000000#32 7 = 0x00000040#32 ∧ rotl32 0x00000001#32 18 = 0x00040000#32
      ∧ rotl32 0xffffffff#32 13 = 0xffffffff#32 ∧ rotl32 0x12345678#32 9 = 0x68acf024#32 := by decide

/-- Vector V-L1: LDW(0x1010) = 0x13121110. -/
theorem test_readWord :
    Memory.readWord [(0x1010, 0x10#8), (0x1011, 0x11#8), (0x1012, 0x12#8), (0x1013, 0x13#8)] 0x1010 = 0x13121110#32 := by
  decide

/-- Vector V-S5, line t = 0, R[0] lane 0 and R[3] lane 3. -/
theorem test_evenRound :
    (evenRound (diag (Block.ofWords fun p => BitVec.ofNat 32 p.val))).word 0 = 0xc3e2c001#32
      ∧ (evenRound (diag (Block.ofWords fun p => BitVec.ofNat 32 p.val))).word 15 = 0x00061c0d#32 := by decide +kernel

/-- Vector V-S3 by the scalar core of R137: natural output words 0 and 15. -/
theorem test_scalarSalsa :
    (salsa20_8 (Block.ofWords fun p => BitVec.ofNat 32 p.val)).word 0 = 0x4fdd18f5#32
      ∧ (salsa20_8 (Block.ofWords fun p => BitVec.ofNat 32 p.val)).word 15 = 0x5d47fa5a#32 := by decide +kernel

/-- R217, the trace of BLOCKMIX.XOR for r = 1 (V-B3): the micro-operations that access memory. -/
theorem test_bmSeq_xor_r1 :
    (bmSeq 1 .xor .other 0).filter (fun op => (op.reqKind State.reset).isSome) =
      [.lda .keep .last .cw 0, .pfn .other 0, .lda .keep .tmp .other 0, .flush .other 0, .lda .keep .cur .cw 64,
        .pfn .other 64, .lda .keep .tmp .other 64, .flush .other 64, .sta .keep .cur .cs 64, .sta .keep .last .cs 0] := by
  decide

/-! ### The commands -/

/-- Vector V-M2: SMIX, N = 1, r = 1, words 0..31: output words 0 and 31, STATUS, PROGRESS. -/
theorem test_exec_SMIX :
    onNext (exec .smix base) (fun t =>
      decide (wordsAt t.mem 0x1000 1 = [0x2405e8aa] ∧ wordsAt t.mem 0x107c 1 = [0x335dd2ea]
        ∧ (readOffset 0x10#8 t).1 = 0x22#64 ∧ t.progress = 2#64
        ∧ t.trace.getLast? = some ⟨.readUnaligned, 0x1000⟩)) = true := by decide +kernel

/-- The same registers, and the zero element. -/
def zeroElement : State := { base with mem := [] }

/-- R253: a zero element stays zero. -/
theorem test_exec_SMIX_zero :
    onNext (exec .smix zeroElement) (fun t => decide (t.mem = [] ∧ t.progress = 2#64)) = true := by decide +kernel

/-- Vector V-L2: PREPARE of words 0..31. -/
theorem test_exec_PREPARE :
    onNext (exec .prepare { base with mem := cells 0x1000 (List.range 32) }) (fun t =>
      decide (wordsAt t.mem 0x100000 32 = diag16 ++ diag0)) = true := by decide +kernel

/-- R241, R194: PREPARE latches WORK_BASE and not SHUF_BASE, which it does not use. -/
theorem test_latch_PREPARE :
    onNext (issueCommand .prepare base) (fun t => decide (t.latched.work = 0x100000#64 ∧ t.latched.shuf = 0#64)) = true := by
  decide +kernel

/-- Vector V-L4: RESTORE of V-L2's working buffer. -/
theorem test_exec_RESTORE :
    onNext (exec .restore { base with mem := cells 0x100000 (diag16 ++ diag0) }) (fun t =>
      decide (wordsAt t.mem 0x1000 32 = List.range 32
        ∧ t.trace.map (·.addr) = [0x1040, 0x1000, 0x100040, 0x100000])) = true := by decide +kernel

/-- Vector V-B1: BLOCKMIX.NONE, stored S block 0 words 0 to 3 and block 1 word 15, STATUS. -/
theorem test_exec_BLOCKMIX_NONE :
    onNext (exec .blockmixNone base) (fun t =>
      decide (wordsAt t.mem 0x200000 4 = [0xd84c0a7b, 0xacf59143, 0x53afb712, 0xb2bf9039]
        ∧ wordsAt t.mem 0x20007c 1 = [0xe835b110] ∧ (readOffset 0x10#8 t).1 = 0x0a#64)) = true := by decide +kernel

/-- Vector V-B4: BLOCKMIX.COPY leaves V-L2 at O and V-B1's blocks at S. -/
theorem test_exec_BLOCKMIX_COPY :
    onNext (exec .blockmixCopy base) (fun t =>
      decide (wordsAt t.mem 0x400000 32 = diag16 ++ diag0
        ∧ wordsAt t.mem 0x200000 4 = [0xd84c0a7b, 0xacf59143, 0x53afb712, 0xb2bf9039])) = true := by decide +kernel

/-- Vector V-B3: BLOCKMIX.XOR, stored S words 0, 1 and 31 (hex 3a4b80ad, f7f5a616 and b578d8d4, little-endian). -/
theorem test_exec_BLOCKMIX_XOR :
    onNext (exec .blockmixXor baseOther) (fun t =>
      decide (wordsAt t.mem 0x200000 2 = [0xad804b3a, 0x16a6f5f7]
        ∧ wordsAt t.mem 0x20007c 1 = [0xd4d878b5])) = true := by decide +kernel

/-- Section 5: the word at CW + 16 is 0x10; COST_N = 5 gives J = 1. -/
theorem test_exec_INTEGERIFY :
    onNext (exec .integerify (withParams base { regs with costN := 5#64 })) (fun t =>
      decide (t.j = 1#32 ∧ t.progress = 0#64)) = true := by decide +kernel

/-- Section 5: COST_N = 0x100000000 is rejected with INVALID_ARG. -/
theorem test_reject_INTEGERIFY :
    onNext (exec .integerify (withParams base { regs with costN := 0x100000000#64 })) (fun t =>
      decide (t.errInfo = .invalidArg ∧ t.j = 0#32 ∧ (readOffset 0x10#8 t).1 = 0x06#64)) = true := by decide +kernel

/-- Vector V-S3: SALSA8 on the stored input, stored output words 0, 4 and 15. -/
theorem test_exec_SALSA8 :
    onNext (exec .salsa8 baseSalsa) (fun t =>
      decide (wordsAt t.mem 0x400000 1 = [0x0586532d] ∧ wordsAt t.mem 0x400010 1 = [0x4fdd18f5]
        ∧ wordsAt t.mem 0x40003c 1 = [0x166cf522])) = true := by decide +kernel

/-- Vector V-S2: SALSA8.NAT, natural output words 0 and 15. -/
theorem test_exec_SALSA8_NAT :
    onNext (exec .salsa8Nat baseNat) (fun t =>
      decide (wordsAt t.mem 0x400000 1 = [0x9c851fa4] ∧ wordsAt t.mem 0x40003c 1 = [0x818f61c7])) = true := by
  decide +kernel

/-- R259's example: with r = 1 and N = 2, ZEROIZE issues 8 aligned zero-block writes; the scratch reads 0 after. -/
theorem test_exec_ZEROIZE :
    onNext (exec .zeroize (withParams base { regs with costN := 2#64 })) (fun t =>
      decide (t.trace.length = 8 ∧ wordsAt t.mem 0x100000 32 = List.replicate 32 0
        ∧ (readOffset 0x10#8 t).1 = 0x22#64)) = true := by decide +kernel

/-- Vectors E8, E20, E23, E29: the codes and their order. -/
theorem test_check :
    check .smix (withParams base { regs with byteLen := 0#64 }) = some .invalidArg
      ∧ check .smix (withParams base { regs with workBase := 0x100020#64 }) = some .misaligned
      ∧ check .smix (withParams base { regs with workBase := 0#64 }) = some .allocFail
      ∧ check .smix (withParams base { regs with costN := 0#64, workBase := 0x100020#64 }) = some .invalidArg := by
  decide

/-- R320: the first command after reset, SALSA8 with OTHER_BASE = 0, is rejected with ALLOC_FAIL. -/
theorem test_step_withFetchWord :
    onNext (step (State.reset.withFetchWord 64 0x6)) (fun t =>
      decide (t.errInfo = .allocFail ∧ t.cmd = 0x6#64 ∧ t.status.done = true)) = true := by decide

/-! ### Witnesses: for each statement with hypotheses, values that meet them -/

/-- The ten commands. -/
def commands : List Instr :=
  [.smix, .prepare, .restore, .blockmixNone, .blockmixCopy, .blockmixXor, .integerify, .salsa8, .salsa8Nat, .zeroize]

/-- `base` meets no bus error. -/
theorem base_noError (i : Instr) : NoBusError i base := by
  intro q _
  simp [Request.fails, base, State.reset, resetPlatform]

theorem base_settled : Settled base := by
  refine ⟨?_, rfl⟩
  unfold Memory.wf
  decide

theorem base_invariant : Invariant base :=
  ⟨base_settled.1, by unfold BufferOk; decide, fun h => absurd h (by decide), fun _ => ⟨rfl, rfl, rfl, rfl⟩⟩

theorem base_accepts : ∀ i ∈ commands, Accepts i base := by
  unfold Accepts
  decide +kernel

theorem witness_Runs : ∀ i ∈ commands, Runs i base :=
  fun i hi => ⟨base_accepts i hi, base_noError i, base_settled⟩

theorem witness_BytesDecodeAsTheirWord : ([0x01#8] : List Byte).length ≠ 8 := by decide

theorem witness_StepRunsDecodedCommand :
    (withInput base (wrInput .cmd 0x6#64)).inputs = [wrInput .cmd 0x6#64]
      ∧ (withInput base (wrInput .cmd 0x6#64)).status.busy = false
      ∧ decode 0x6#64 = .ok .salsa8 ∧ (withInput base (wrInput .cmd 0x6#64)).pace = .wholeCommand
      ∧ ({ withInput base (wrInput .cmd 0x6#64) with pace := .microOp } : State).pace = .microOp
      ∧ decode 0x8#64 = .error .opcode := by decide

theorem witness_exec (i : Instr) (s : State) (p : State → Bool) (h : onNext (exec i s) p = true) : ∃ t, exec i s = .next t := by
  obtain ⟨t, ht, _⟩ := onNext_exists h
  exact ⟨t, ht⟩

theorem witness_WholeCommandIsItsMicroSteps :
    ∃ s₁ t, base.inputs = [] ∧ base.status.busy = false ∧ issueCommand .smix base = .next s₁ ∧ exec .smix base = .next t := by
  obtain ⟨t, ht⟩ := witness_exec _ _ _ test_exec_SMIX
  obtain ⟨s₁, hs, _⟩ := onNext_exists (show onNext (issueCommand .smix base) (fun _ => true) = true by decide +kernel)
  exact ⟨s₁, t, rfl, rfl, hs, ht⟩

theorem witness_ResetRegisterMap :
    (withInput base .reset).inputs = .reset :: [] ∧ (withInput base .reset).status.busy = false
      ∧ (0x10#8).toNat % 8 = 0 ∧ (0xf8#8).toNat % 8 = 0 := by decide

/-- A running command whose fields meet the invariant, each condition evaluated. -/
theorem invariant_of_runs {s : State} (hm : s.mem.wf) (hb : BufferOk s.wbuf) (hbusy : s.status.busy = true) {c : Instr}
    (h : RunsCommand c s) : Invariant s :=
  ⟨hm, hb, fun _ => ⟨c, h⟩, fun h' => absurd (hbusy.symm.trans h') (by decide)⟩

/-- SALSA8 just accepted. -/
theorem salsa_runs : RunsCommand .salsa8 (running .salsa8) := by
  refine ⟨rfl, ?_, ?_, by decide +kernel, by decide +kernel, by decide +kernel, by decide +kernel, ?_, by decide +kernel,
    by decide +kernel, by decide +kernel⟩
  · show Placed _ _
    unfold Placed
    decide +kernel
  · unfold positionOk
    decide +kernel
  · show (running .salsa8).progress.toNat = 0
    decide +kernel

theorem running_invariant : Invariant (running .salsa8) :=
  invariant_of_runs base_settled.1 (fun _ h => by cases h) rfl salsa_runs

/-- An input waiting changes nothing the invariant reads. -/
theorem invariant_withInput {s : State} (h : Invariant s) (i : Input) : Invariant (withInput s i) :=
  h.of_eq rfl rfl rfl rfl rfl rfl rfl rfl rfl rfl rfl

theorem witness_ResetWhileBusyKeepsOtherBytes :
    Invariant (withInput (running .salsa8) .reset) ∧ (withInput (running .salsa8) .reset).inputs = .reset :: []
      ∧ (withInput (running .salsa8) .reset).status.busy = true := ⟨invariant_withInput running_invariant _, rfl, rfl⟩

theorem witness_StepKeepsTheInvariant : ∃ t, Invariant (running .salsa8) ∧ step (running .salsa8) = .next t := by
  obtain ⟨t, ht, _⟩ := onNext_exists (show onNext (step (running .salsa8)) (fun _ => true) = true by decide +kernel)
  exact ⟨t, running_invariant, ht⟩

theorem witness_EngineNeverIssuesIllegalRequests : Invariant (running .salsa8) := running_invariant

theorem witness_AcceptedCommandsAlwaysEnd : ∀ i ∈ commands, Accepts i base := base_accepts

/-- Boundary offsets of each clause: ignored while busy, CTRL, STATUS, read-only and reserved. -/
theorem witness_WritesWhileBusy :
    (∀ o ∈ [0x18#8, 0x30#8, 0x70#8],
      (withInput (running .salsa8) (.access ⟨o, 8, .write 1#64⟩)).inputs = [.access ⟨o, 8, .write 1#64⟩]
        ∧ (withInput (running .salsa8) (.access ⟨o, 8, .write 1#64⟩)).status.busy = true ∧ o.toNat % 8 = 0
        ∧ (o.toNat = 0x18 ∨ (0x30 ≤ o.toNat ∧ o.toNat ≤ 0x70)))
      ∧ ∀ o ∈ [0x08#8, 0x10#8, 0x00#8, 0x20#8, 0x28#8, 0x78#8, 0xf8#8], o.toNat % 8 = 0
        ∧ (o = 0x08#8 ∨ o = 0x10#8 ∨ o = 0x00#8 ∨ o = 0x20#8 ∨ o = 0x28#8 ∨ 0x78 ≤ o.toNat) := by decide

theorem witness_RejectionChangesExactlyTheListedRegisters :
    ∃ t, State.reset.status.busy = false ∧ check .smix State.reset = some .invalidArg
      ∧ decode 0x8#64 = .error .opcode ∧ exec .smix State.reset = .next t := by
  obtain ⟨t, ht, _⟩ := onNext_exists (show onNext (exec .smix State.reset) (fun _ => true) = true by decide)
  exact ⟨t, rfl, by decide, by decide, ht⟩

/-- The shuffle buffer starts in the last block of the working buffer. -/
def overlapping : State := withParams base { regs with shufBase := 0x100040#64 }

theorem witness_CheckPriority :
    (∃ c ∈ (commandChecks .smix State.reset).args, c.holds State.reset.params = false)
      ∧ ((∀ c ∈ (commandChecks .salsa8 (withParams base { regs with otherBase := 1#64 })).args, c.holds regs = true)
        ∧ ∃ b ∈ (commandChecks .salsa8 (withParams base { regs with otherBase := 1#64 })).aligned, b % 64 ≠ 0)
      ∧ (∀ c ∈ (commandChecks .salsa8 State.reset).args, c.holds State.reset.params = true)
      ∧ (∀ b ∈ (commandChecks .salsa8 State.reset).aligned, b % 64 = 0)
      ∧ (∃ g ∈ (commandChecks .salsa8 State.reset).scratch, g.base = 0 ∨ 2 ^ 64 < g.base + g.size)
      ∧ (∀ c ∈ (commandChecks .blockmixNone overlapping).args, c.holds overlapping.params = true)
      ∧ (∀ b ∈ (commandChecks .blockmixNone overlapping).aligned, b % 64 = 0)
      ∧ ¬ (commandChecks .blockmixNone overlapping).disjoint.Pairwise
        (fun g h => g.base + g.size ≤ h.base ∨ h.base + h.size ≤ g.base) := by decide

theorem witness_AcceptanceStep : ∀ i ∈ commands, Accepts i base := base_accepts

theorem witness_Salsa8RunsTheCore : Runs .salsa8 base := witness_Runs _ (by decide)
theorem witness_Salsa8NatRunsScalarSalsa : Runs .salsa8Nat base := witness_Runs _ (by decide)
theorem witness_PrepareBuildsWorkingLayout : Runs .prepare base := witness_Runs _ (by decide)
theorem witness_RestoreWritesTheElement : Runs .restore base := witness_Runs _ (by decide)
theorem witness_BlockmixNoneMixesTheWorkingBuffer : Runs .blockmixNone base := witness_Runs _ (by decide)
theorem witness_BlockmixCopyMixesAndCopies : Runs .blockmixCopy base := witness_Runs _ (by decide)
theorem witness_BlockmixXorMixesWithOther : Runs .blockmixXor base := witness_Runs _ (by decide)
theorem witness_IntegerifyComputesTheIndex : Runs .integerify base := witness_Runs _ (by decide)
theorem witness_ZeroizeClearsTheScratch : Runs .zeroize base := witness_Runs _ (by decide)
theorem witness_SmixComputesScryptSMix : Runs .smix base := witness_Runs _ (by decide)

theorem witness_PrepareThenRestoreKeepsTheElement :
    ∃ t u, Runs .prepare base ∧ exec .prepare base = .next t ∧ exec .restore t = .next u := by
  have h : onNext (exec .prepare base) (fun t => onNext (exec .restore t) fun _ => true) = true := by decide +kernel
  obtain ⟨t, ht, hu⟩ := onNext_exists h
  obtain ⟨u, hu, _⟩ := onNext_exists hu
  exact ⟨t, u, witness_Runs _ (by decide), ht, hu⟩

/-- Each clause's command runs from `base`, and a command is ignored while another runs. -/
theorem witness_CommandsKeepTheOtherRegisters :
    (∃ t, exec .salsa8 baseSalsa = .next t) ∧ baseSalsa.status.busy = false
      ∧ (∃ t, exec .salsa8 (running .salsa8) = .next t) ∧ (running .salsa8).status.busy = true
      ∧ (∀ i ∈ commands, Accepts i base) ∧ (∃ t, exec .blockmixCopy base = .next t) ∧ ∃ t, exec .smix base = .next t :=
  ⟨witness_exec _ _ _ test_exec_SALSA8, rfl, ⟨_, rfl⟩, rfl, base_accepts, witness_exec _ _ _ test_exec_BLOCKMIX_COPY,
    witness_exec _ _ _ test_exec_SMIX⟩

theorem witness_CommandsKeepTheOtherDatapathRegisters :
    (∃ t, exec .integerify (withParams base { regs with costN := 5#64 }) = .next t)
      ∧ (∃ s t, exec .prepare s = .next t) ∧ (∃ s t, exec .restore s = .next t)
      ∧ (∃ t, exec .salsa8 baseSalsa = .next t) ∧ (∃ t, exec .salsa8Nat baseNat = .next t)
      ∧ (∃ t, exec .blockmixNone base = .next t) ∧ (∃ t, exec .blockmixCopy base = .next t)
      ∧ (∃ t, exec .blockmixXor baseOther = .next t)
      ∧ (∃ t, exec .smix base = .next t) ∧ Accepts .smix base :=
  ⟨witness_exec _ _ _ test_exec_INTEGERIFY, ⟨_, witness_exec _ _ _ test_exec_PREPARE⟩,
    ⟨_, witness_exec _ _ _ test_exec_RESTORE⟩, witness_exec _ _ _ test_exec_SALSA8, witness_exec _ _ _ test_exec_SALSA8_NAT,
    witness_exec _ _ _ test_exec_BLOCKMIX_NONE, witness_exec _ _ _ test_exec_BLOCKMIX_COPY,
    witness_exec _ _ _ test_exec_BLOCKMIX_XOR, witness_exec _ _ _ test_exec_SMIX, base_accepts _ (by decide)⟩

theorem witness_CommandsKeepOtherMemory : ∃ t, Settled base ∧ exec .smix base = .next t := by
  obtain ⟨t, ht⟩ := witness_exec _ _ _ test_exec_SMIX
  exact ⟨t, base_settled, ht⟩

theorem witness_HintEnablesChangeNoValue : ∃ t, exec .blockmixXor baseOther = .next t :=
  witness_exec _ _ _ test_exec_BLOCKMIX_XOR

/-- `base` on a platform that fails the aligned read at OTHER_BASE. -/
def failSalsa : State := withError base ⟨.readAligned, 0x400000, 0x400000⟩

/-- `base` on a platform that fails the first read of the element. -/
def failSmix : State := withError base ⟨.readUnaligned, 0x1000, 0x1000⟩

/-- `base` on a platform that fails the read of CW + 16. -/
def failInteg : State := withError base ⟨.readWord, 0x100010, 0x100010⟩

/-- `base` on a platform that fails the first write of the element. -/
def failRestore : State := withError base ⟨.writeUnaligned, 0x1000, 0x1000⟩

theorem failing_accepts :
    Accepts .salsa8 failSalsa ∧ Accepts .salsa8Nat failSalsa ∧ Accepts .smix failSmix ∧ Accepts .integerify failInteg
      ∧ Accepts .restore failRestore := by
  unfold Accepts
  decide +kernel

theorem test_failSmix :
    onNext (exec .smix failSmix) (fun t => decide (t.progress.toNat < 2 * failSmix.params.costN.toNat
      ∧ t.status.err = true ∧ t.status.zeroed = true ∧ t.errAddr = 0x1000#64)) = true := by decide +kernel

theorem test_failRestore :
    onNext (exec .restore failRestore) (fun t => decide (t.errAddr = 0x1000#64 ∧ t.errInfo = .busError)) = true := by
  decide +kernel

/-- R197's sequence for r = 1. -/
theorem test_trace_RESTORE :
    onNext (exec .restore base) (fun t => decide (t.trace = [⟨.writeUnaligned, 0x1040⟩, ⟨.writeUnaligned, 0x1000⟩,
      ⟨.readAligned, 0x100040⟩, ⟨.readAligned, 0x100000⟩])) = true := by decide +kernel

theorem witness_FirstFailingRequestIsReported :
    ∃ t, Accepts .smix failSmix ∧ exec .smix failSmix = .next t ∧ t.status.err = true := by
  obtain ⟨t, ht, h⟩ := onNext_exists test_failSmix
  exact ⟨t, failing_accepts.2.2.1, ht, (of_decide_eq_true h).2.1⟩

theorem witness_SmixStoppedEarlyKeepsTheElement :
    ∃ t, Accepts .smix failSmix ∧ Settled failSmix ∧ exec .smix failSmix = .next t
      ∧ t.progress.toNat < 2 * failSmix.params.costN.toNat ∧ failSmix.elemRegion.has 0x1000 = true := by
  obtain ⟨t, ht, h⟩ := onNext_exists test_failSmix
  exact ⟨t, failing_accepts.2.2.1, base_settled, ht, (of_decide_eq_true h).1, by decide +kernel⟩

/-- A RESTORE that fails on its first write, one that issues both, and an SMIX. -/
theorem witness_RestoreErrorLeavesInputOrOutput :
    (∃ t, Accepts .restore failRestore ∧ Settled failRestore ∧ exec .restore failRestore = .next t
      ∧ 1 < 2 * failRestore.params.r
      ∧ (⟨.writeUnaligned, failRestore.params.elem + 64 * 1⟩ : Request).fails failRestore.platform = false)
    ∧ (∃ t, Accepts .restore base ∧ Settled base ∧ exec .restore base = .next t
      ∧ t.trace = [⟨.writeUnaligned, 0x1040⟩, ⟨.writeUnaligned, 0x1000⟩, ⟨.readAligned, 0x100040⟩, ⟨.readAligned, 0x100000⟩])
    ∧ ∃ t, Accepts .smix failSmix ∧ Settled failSmix ∧ exec .smix failSmix = .next t := by
  obtain ⟨t, ht, _⟩ := onNext_exists test_failRestore
  obtain ⟨u, hu, h⟩ := onNext_exists test_trace_RESTORE
  obtain ⟨v, hv, _⟩ := onNext_exists test_failSmix
  exact ⟨⟨t, failing_accepts.2.2.2.2, base_settled, ht, by decide +kernel, by decide +kernel⟩,
    ⟨u, base_accepts _ (by decide), base_settled, hu, of_decide_eq_true h⟩,
    ⟨v, failing_accepts.2.2.1, base_settled, hv⟩⟩

theorem witness_ScratchIsZeroizedOnEveryExit :
    ∃ t, Accepts .smix failSmix ∧ Settled failSmix ∧ exec .smix failSmix = .next t
      ∧ (⟨.writeAligned, 0x100000⟩ : Request).fails failSmix.platform = false := by
  obtain ⟨t, ht, _⟩ := onNext_exists test_failSmix
  exact ⟨t, failing_accepts.2.2.1, base_settled, ht, by decide +kernel⟩

theorem witness_IntegerifyBusErrorKeepsJ :
    Accepts .integerify failInteg ∧ Settled failInteg
      ∧ (⟨.readWord, failInteg.cwParam + 16⟩ : Request).fails failInteg.platform = true :=
  ⟨failing_accepts.2.2.2.1, base_settled, by decide +kernel⟩

theorem witness_SalsaLoadErrorStoresNothing :
    Accepts .salsa8 failSalsa ∧ Accepts .salsa8Nat failSalsa ∧ Settled failSalsa
      ∧ (⟨.readAligned, failSalsa.params.otherBase.toNat⟩ : Request).fails failSalsa.platform = true :=
  ⟨failing_accepts.1, failing_accepts.2.1, base_settled, by decide +kernel⟩

theorem witness_BlockmixOperationCounts : 1 ≤ 1 ∧ Base.other ≠ .cw ∧ Base.other ≠ .cs := by decide

theorem witness_MemoryOperationCounts : ∃ t, Runs .smix base ∧ exec .smix base = .next t := by
  obtain ⟨t, ht⟩ := witness_exec _ _ _ test_exec_SMIX
  exact ⟨t, witness_Runs _ (by decide), ht⟩

theorem salsa_states_run : Runs .salsa8 baseSalsa ∧ Runs .salsa8 baseNat := by
  refine ⟨⟨?_, ?_, ?_, rfl⟩, ⟨?_, ?_, ?_, rfl⟩⟩
  · unfold Accepts
    decide +kernel
  · intro q _
    simp [Request.fails, baseSalsa, base, State.reset, resetPlatform]
  · unfold Memory.wf
    decide +kernel
  · unfold Accepts
    decide +kernel
  · intro q _
    simp [Request.fails, baseNat, base, State.reset, resetPlatform]
  · unfold Memory.wf
    decide +kernel

/-- Two runs of SMIX with the same registers on different elements, whose clause on the table is the last one. -/
theorem witness_CommandsHaveConstantShape_SMIX :
    ∃ t₁ t₂, Runs .smix base ∧ Runs .smix zeroElement ∧ base.params = zeroElement.params ∧ base.ctrl = zeroElement.ctrl
      ∧ base.status.swap = zeroElement.status.swap ∧ base.mem ≠ zeroElement.mem
      ∧ exec .smix base = .next t₁ ∧ exec .smix zeroElement = .next t₂
      ∧ base.tableRegion.has 0x300000 = true := by
  obtain ⟨t₁, h₁⟩ := witness_exec _ _ _ test_exec_SMIX
  obtain ⟨t₂, h₂⟩ := witness_exec _ _ _ test_exec_SMIX_zero
  refine ⟨t₁, t₂, witness_Runs _ (by decide), ⟨?_, ?_, ?_, rfl⟩, rfl, rfl, rfl, by decide +kernel, h₁, h₂, by decide +kernel⟩
  · unfold Accepts
    decide +kernel
  · intro q _
    simp [Request.fails, zeroElement, base, State.reset, resetPlatform]
  · exact Memory.wf_nil

/-- Two runs of SALSA8 on different blocks. -/
theorem witness_CommandsHaveConstantShape :
    ∃ t₁ t₂, Runs .salsa8 baseSalsa ∧ Runs .salsa8 baseNat ∧ baseSalsa.params = baseNat.params
      ∧ baseSalsa.ctrl = baseNat.ctrl ∧ baseSalsa.status.swap = baseNat.status.swap ∧ baseSalsa.mem ≠ baseNat.mem
      ∧ exec .salsa8 baseSalsa = .next t₁ ∧ exec .salsa8 baseNat = .next t₂ := by
  obtain ⟨t₁, h₁⟩ := witness_exec _ _ _ test_exec_SALSA8
  obtain ⟨t₂, h₂, _⟩ := onNext_exists (show onNext (exec .salsa8 baseNat) (fun _ => true) = true by decide +kernel)
  exact ⟨t₁, t₂, salsa_states_run.1, salsa_states_run.2, rfl, rfl, rfl, by decide +kernel, h₁, h₂⟩

theorem witness_FanOutFillsTheShuffleBuffer : 1 ≤ 1 := by decide

/-- SMIX at its FENCE phase, one BlockMix done, with a pending write. -/
def atFence : State :=
  { running .smix with
    seq := ⟨.fence, 0, 0, 0⟩
    status := { (running .smix).status with swap := true }
    progress := 1#64
    phaseDraw := [.prepare, .fill, .fence]
    wbuf := [⟨0x300000, zeroBlock⟩] }

theorem atFence_runs : RunsCommand .smix atFence := by
  refine ⟨rfl, ?_, ?_, by decide +kernel, by decide +kernel, by decide +kernel, by decide +kernel, ?_, by decide +kernel,
    by decide +kernel, by decide +kernel⟩
  · show _ ∧ _
    unfold sizesOk Placed
    decide +kernel
  · unfold positionOk
    decide +kernel
  · show atFence.progress.toNat = atFence.latched.n.toNat
    decide +kernel

theorem atFence_invariant : Invariant atFence :=
  invariant_of_runs base_settled.1 (by unfold BufferOk; decide +kernel) rfl atFence_runs

/-- The same with every write performed. -/
def fenced : State := { atFence with seq := ⟨.fence, 0, 1, 0⟩, wbuf := [] }

theorem fenced_runs : RunsCommand .smix fenced := by
  refine ⟨rfl, ?_, ?_, by decide +kernel, by decide +kernel, by decide +kernel, by decide +kernel, ?_, by decide +kernel,
    by decide +kernel, by decide +kernel⟩
  · show _ ∧ _
    unfold sizesOk Placed
    decide +kernel
  · unfold positionOk
    decide +kernel
  · show fenced.progress.toNat = fenced.latched.n.toNat
    decide +kernel

/-- The same with the error of a streaming store on its way. -/
def fencedLate : State := { fenced with pendingErr := some 0x300000#64 }

/-- An error on its way is allowed at the FENCE (R286). -/
theorem fencedLate_runs : RunsCommand .smix fencedLate := by
  refine ⟨rfl, ?_, ?_, by decide +kernel, by decide +kernel, by decide +kernel, by decide +kernel, ?_, by decide +kernel,
    by decide +kernel, by decide +kernel⟩
  · show _ ∧ _
    unfold sizesOk Placed
    decide +kernel
  · unfold positionOk
    decide +kernel
  · show fencedLate.progress.toNat = fencedLate.latched.n.toNat
    decide +kernel

theorem fenced_invariant : Invariant fenced := invariant_of_runs base_settled.1 (fun _ h => by cases h) rfl fenced_runs

theorem fencedLate_invariant : Invariant fencedLate :=
  invariant_of_runs base_settled.1 (fun _ h => by cases h) rfl fencedLate_runs

/-- Whenever the error arrives, the step at the end of FENCE stops SMIX: it goes to ZERO_SEQ. -/
theorem fencedLate_step : ∃ t, engineStep fencedLate = .next t ∧ t.seq.phase = .zeroize ∧ t.status.busy = true
    ∧ t.pendingErr = some 0x300000#64 := by
  unfold engineStep
  split
  · exact ⟨_, rfl, rfl, rfl, rfl⟩
  · exact ⟨_, rfl, rfl, rfl, rfl⟩

/-- One step of each clause: the FENCE itself, the start of MIX, and the stop on a streaming store's error. -/
theorem witness_FencePerformsPendingWrites :
    (∃ t, Invariant atFence ∧ atFence.status.busy = true ∧ atFence.seq.phase = .fence ∧ engineStep atFence = .next t
      ∧ t.seq.phase = .fence)
    ∧ (∃ t, Invariant fenced ∧ fenced.status.busy = true ∧ fenced.seq.phase = .fence ∧ engineStep fenced = .next t
      ∧ t.seq.phase = .mix)
    ∧ ∃ t, Invariant fencedLate ∧ fencedLate.status.busy = true ∧ fencedLate.seq.phase = .fence
      ∧ engineStep fencedLate = .next t ∧ t.seq.phase = .zeroize := by
  obtain ⟨t, ht, h⟩ := onNext_exists
    (show onNext (engineStep atFence) (fun t => decide (t.seq.phase = .fence)) = true by decide +kernel)
  obtain ⟨u, hu, h'⟩ := onNext_exists
    (show onNext (engineStep fenced) (fun t => decide (t.seq.phase = .mix)) = true by decide +kernel)
  obtain ⟨v, hv, hz, _⟩ := fencedLate_step
  exact ⟨⟨t, atFence_invariant, rfl, rfl, ht, of_decide_eq_true h⟩, ⟨u, fenced_invariant, rfl, rfl, hu, of_decide_eq_true h'⟩,
    ⟨v, fencedLate_invariant, rfl, rfl, hv, hz⟩⟩

/-- SALSA8 after its last micro-operation. -/
def atEnd : State := { running .salsa8 with seq := ⟨.salsa, 0, 3, 0⟩, wbuf := [⟨0x400000, zeroBlock⟩] }

theorem atEnd_runs : RunsCommand .salsa8 atEnd := by
  refine ⟨rfl, ?_, ?_, by decide +kernel, by decide +kernel, by decide +kernel, by decide +kernel, ?_, by decide +kernel,
    by decide +kernel, by decide +kernel⟩
  · show Placed _ _
    unfold Placed
    decide +kernel
  · unfold positionOk
    decide +kernel
  · show atEnd.progress.toNat = 0
    decide +kernel

theorem atEnd_invariant : Invariant atEnd :=
  invariant_of_runs base_settled.1 (by unfold BufferOk; decide +kernel) rfl atEnd_runs

/-- SALSA8 before its load, on a platform that fails it. -/
def atFailingLoad : State := { running .salsa8 with platform := failSalsa.platform }

theorem atFailingLoad_invariant : Invariant atFailingLoad :=
  invariant_of_runs base_settled.1 (fun _ h => by cases h) rfl
    (salsa_runs.of_eq rfl rfl rfl rfl rfl rfl rfl rfl id)

/-- Completion at the end of the sequence, and an error stop, with a byte outside the command's write. -/
theorem witness_CompletionFence :
    (∃ t, Invariant atEnd ∧ atEnd.status.busy = true ∧ engineStep atEnd = .next t ∧ t.status.busy = false
      ∧ atEnd.blockOps.drop atEnd.seq.q = [])
    ∧ ∃ t, Invariant atFailingLoad ∧ atFailingLoad.status.busy = true ∧ engineStep atFailingLoad = .next t
      ∧ t.status.busy = false
      ∧ ∀ op ∈ atFailingLoad.blockOps.drop atFailingLoad.seq.q,
        (op.reqKind atFailingLoad).any ReqKind.isWrite = true → ¬ inBlock (op.addr atFailingLoad) 0x100000 := by
  obtain ⟨t, ht, h⟩ := onNext_exists
    (show onNext (engineStep atEnd) (fun t => !t.status.busy) = true by decide +kernel)
  obtain ⟨u, hu, h'⟩ := onNext_exists
    (show onNext (engineStep atFailingLoad) (fun t => !t.status.busy) = true by decide +kernel)
  exact ⟨⟨t, atEnd_invariant, rfl, ht, by simpa using h, by decide +kernel⟩,
    ⟨u, atFailingLoad_invariant, rfl, hu, by simpa using h', by unfold inBlock; decide +kernel⟩⟩

/-- Boundary bytes of the region SALSA8 owns, a byte RESTORE only reads, the bytes beside SALSA8's, and an idle engine. -/
theorem witness_ForeignAccessesWhileBusy :
    Invariant (withInput (running .salsa8) (.memStore 0x400040 1#8)) ∧ (running .salsa8).status.busy = true
      ∧ (∀ a ∈ [0x400000, 0x40003f], a < 2 ^ 64 ∧ inRegions (running .salsa8).latched.owned a = true
        ∧ (withInput (running .salsa8) (.memStore a 1#8)).inputs = [.memStore a 1#8]
        ∧ (withInput (running .salsa8) (.memLoad a)).inputs = [.memLoad a])
      ∧ (∀ a ∈ [0x3fffff, 0x400040], a < 2 ^ 64 ∧ inRegions (running .salsa8).latched.owned a = false)
      ∧ (inRegions (running .restore).latched.owned 0x100000 = true ∧ inRegions (running .restore).latched.writes 0x100000 = false
        ∧ (withInput (running .restore) (.memLoad 0x100000)).inputs = [.memLoad 0x100000])
      ∧ Invariant (withInput base (.memStore 0x1000 1#8)) ∧ (withInput base (.memLoad 0x1000)).status.busy = false :=
  ⟨invariant_withInput running_invariant _, rfl, by decide +kernel, by decide +kernel, by decide +kernel,
    invariant_withInput base_invariant _, rfl⟩

theorem witness_StatusWriteOneToClear :
    (withInput base (wrInput .status 0x16#64)).inputs = wrInput .status 0x16#64 :: []
      ∧ (0x16#64).getLsbD 2 = true ∧ (0x12#64).getLsbD 2 = false := by decide

theorem witness_InterruptOutput :
    (∃ t, exec .salsa8 baseSalsa = .next t) ∧ baseSalsa.status.busy = false ∧ (0x16#64).getLsbD 1 = true :=
  ⟨witness_exec _ _ _ test_exec_SALSA8, rfl, by decide⟩

theorem witness_IllFormedAccessAnswersError :
    (withInput base (.access ⟨0x10#8, 4, .read⟩)).inputs = .access ⟨0x10#8, 4, .read⟩ :: []
      ∧ (⟨0x10#8, 4, .read⟩ : Access).size ≠ 8 ∧ (⟨0x14#8, 8, .read⟩ : Access).offset.toNat % 8 ≠ 0 := by decide

theorem witness_ReservedOffsetsAndBitsReadZeroAndIgnoreWrites :
    ∀ o ∈ [0x88#8, 0xf8#8], 0x88 ≤ o.toNat ∧ o.toNat % 8 = 0 := by decide

theorem witness_RegistersReadBack :
    State.reset.status.busy = false
      ∧ (∀ o ∈ [0x30#8, 0x70#8], o.toNat % 8 = 0 ∧ 0x30 ≤ o.toNat ∧ o.toNat ≤ 0x70
        ∧ (withInput base (.access ⟨o, 8, .write 5#64⟩)).inputs = .access ⟨o, 8, .write 5#64⟩ :: [])
      ∧ (∃ t, writeOffset 0x18#8 0x8#64 State.reset = .next t)
      ∧ (∃ t, (withInput base (wrInput .cmd 0x8#64)).inputs = wrInput .cmd 0x8#64 :: []
        ∧ (withInput base (wrInput .cmd 0x8#64)).status.busy = false ∧ step (withInput base (wrInput .cmd 0x8#64)) = .next t)
      ∧ (∀ o ∈ [0x00#8, 0x10#8, 0xf8#8], o.toNat % 8 = 0
        ∧ (withInput (running .salsa8) (.access ⟨o, 8, .read⟩)).inputs = .access ⟨o, 8, .read⟩ :: [])
      ∧ (0x78#8 ≠ 0x10#8 ∧ 0x78#8 ≠ 0x80#8) := ⟨rfl, by decide +kernel, ⟨_, rfl⟩, ⟨_, rfl, rfl, rfl⟩, by decide +kernel, by decide⟩

/-- R110, R47: the step on a host read of COST_N answers 1, the value in the parameter registers of `base`. -/
theorem test_host_read :
    onNext (step (withInput base (rdInput .costN))) (fun t => decide (t.resp = some ⟨1#64, false⟩)) = true := by decide

/-- A read that can show PREPARE, FILL or FENCE, and a step that keeps the command running; and an idle engine. -/
theorem witness_PhaseReadsAreMonotone :
    (∃ t, Invariant atFence ∧ atFence.status.busy = true ∧ atFence.latched.cmd = some .smix ∧ step atFence = .next t
      ∧ t.status.busy = true) ∧ Invariant base ∧ base.status.busy = false := by
  obtain ⟨t, ht, h⟩ := onNext_exists (show onNext (step atFence) (fun t => t.status.busy) = true by decide +kernel)
  exact ⟨⟨t, atFence_invariant, rfl, rfl, ht, h⟩, base_invariant, rfl⟩

theorem witness_ProgressReadsAreMonotone :
    (∃ t, Invariant atFence ∧ atFence.status.busy = true ∧ atFence.inputs.head? ≠ some .reset ∧ step atFence = .next t)
      ∧ Invariant base ∧ base.status.busy = false := by
  obtain ⟨t, ht, _⟩ := onNext_exists (show onNext (step atFence) (fun _ => true) = true by decide +kernel)
  exact ⟨⟨t, atFence_invariant, rfl, by decide +kernel, ht⟩, base_invariant, rfl⟩

/-- A RESTORE that stops on its first write, and its reference run. -/
theorem witness_ErrorStopLeavesOldOrReferenceValues :
    ∃ t u, Accepts .restore failRestore ∧ Settled failRestore ∧ exec .restore failRestore = .next t
      ∧ exec .restore failRestore.withoutErrors = .next u ∧ (⟨.writeUnaligned, 0x1040⟩ : Request) ∈ u.trace
      ∧ (⟨.writeUnaligned, 0x1040⟩ : Request).fails failRestore.platform = false := by
  obtain ⟨t, ht, _⟩ := onNext_exists test_failRestore
  obtain ⟨u, hu, h⟩ := onNext_exists test_trace_RESTORE
  refine ⟨t, u, failing_accepts.2.2.2.2, base_settled, ht, hu, ?_, by decide +kernel⟩
  rw [of_decide_eq_true h]
  decide

/-- `base` on a platform that fails the read of the element's last block. -/
def failPrepare : State := withError base ⟨.readUnaligned, 0x1040, 0x1040⟩

/-- `base` on a platform that fails the aligned read of the working buffer's last block. -/
def failWork : State := withError base ⟨.readAligned, 0x100040, 0x100040⟩

theorem failing_reads_accept :
    Accepts .prepare failPrepare ∧ Accepts .restore failWork ∧ Accepts .blockmixCopy failWork := by
  unfold Accepts
  decide +kernel

/-- The reference runs for r = 1, last request first (R194, R197, R211, R145). -/
theorem test_reference_traces :
    onNext (exec .prepare base) (fun u => decide (u.trace =
      [⟨.writeAligned, 0x100000⟩, ⟨.readUnaligned, 0x1040⟩, ⟨.writeAligned, 0x100040⟩, ⟨.readUnaligned, 0x1000⟩])) = true
    ∧ onNext (exec .blockmixCopy base) (fun u => decide (u.trace =
      [⟨.writeAligned, 0x200000⟩, ⟨.writeAligned, 0x200040⟩, ⟨.writeNonTemporal, 0x400040⟩, ⟨.readAligned, 0x100040⟩,
        ⟨.writeNonTemporal, 0x400000⟩, ⟨.readAligned, 0x100000⟩])) = true
    ∧ onNext (exec .salsa8 base) (fun u => decide (u.trace = [⟨.writeAligned, 0x400000⟩, ⟨.readAligned, 0x400000⟩])) = true := by
  decide +kernel

/-- The commands whose read fails end. -/
theorem test_failing_reads :
    onNext (exec .prepare failPrepare) (fun t => decide (t.errAddr = 0x1040#64)) = true
      ∧ onNext (exec .restore failWork) (fun t => decide (t.errAddr = 0x100040#64)) = true
      ∧ onNext (exec .blockmixCopy failWork) (fun t => decide (t.errAddr = 0x100040#64)) = true
      ∧ onNext (exec .salsa8 failSalsa) (fun t => decide (t.errAddr = 0x400000#64)) = true := by decide +kernel

/-- A run that meets the hypotheses of the first part: `ref` is the reference run's list of requests, `k` its failing read. -/
def FailingRead (i : Instr) (s : State) (ref : List Request) (p : Nat) (k : Request) : Prop :=
  ∃ t u, Accepts i s ∧ Settled s ∧ exec i s = .next t ∧ exec i s.withoutErrors = .next u
    ∧ u.trace = ref.reverse ++ s.trace ∧ ref[p]? = some k ∧ k.kind.isWrite = false ∧ k.fails s.platform = true

/-- SMIX at its RESTORE phase, on a platform that fails the read of the working buffer's block 0. -/
def atRestore : State :=
  { running .smix with
    seq := ⟨.restore, 0, 0, 0⟩
    progress := 2#64
    phaseDraw := [.prepare, .fill, .fence, .mix, .restore]
    platform := { base.platform with busErr := [⟨.readAligned, 0x100000, 0x100000⟩] } }

theorem atRestore_runs : RunsCommand .smix atRestore := by
  refine ⟨rfl, ?_, ?_, by decide +kernel, by decide +kernel, by decide +kernel, by decide +kernel, ?_, by decide +kernel,
    by decide +kernel, by decide +kernel⟩
  · show _ ∧ _
    unfold sizesOk Placed
    decide +kernel
  · unfold positionOk
    decide +kernel
  · show atRestore.progress.toNat = finalProgress atRestore.latched.n.toNat .smix
    decide +kernel

/-- One run of each clause, with the failing read at its place in the reference run: PREPARE's last block, RESTORE's first,
BLOCKMIX.COPY's last with both shuffle blocks after it, SALSA8's, SMIX's first; and RESTORE's held block in SMIX. -/
theorem witness_WritesThatNeedAFailedReadAreNotPerformed :
    FailingRead .prepare failPrepare
      [⟨.readUnaligned, 0x1000⟩, ⟨.writeAligned, 0x100040⟩, ⟨.readUnaligned, 0x1040⟩, ⟨.writeAligned, 0x100000⟩]
      2 ⟨.readUnaligned, failPrepare.params.elem + 64 * 1⟩
    ∧ FailingRead .restore failWork
      [⟨.readAligned, 0x100000⟩, ⟨.readAligned, 0x100040⟩, ⟨.writeUnaligned, 0x1000⟩, ⟨.writeUnaligned, 0x1040⟩]
      1 ⟨.readAligned, failWork.cwParam + 64 * ((0 + 1) % (2 * failWork.params.r))⟩
    ∧ FailingRead .blockmixCopy failWork
      [⟨.readAligned, 0x100000⟩, ⟨.writeNonTemporal, 0x400000⟩, ⟨.readAligned, 0x100040⟩, ⟨.writeNonTemporal, 0x400040⟩,
        ⟨.writeAligned, failWork.csParam + 64 * 1⟩, ⟨.writeAligned, failWork.csParam + 64 * 0⟩]
      2 ⟨.readAligned, failWork.cwParam + 64 * 1⟩
    ∧ FailingRead .salsa8 failSalsa [⟨.readAligned, 0x400000⟩, ⟨.writeAligned, 0x400000⟩] 0 ⟨.readAligned, 0x400000⟩
    ∧ (∃ ref, FailingRead .smix failSmix ref 0 ⟨.readUnaligned, 0x1000⟩)
    ∧ ∃ t, Invariant atRestore ∧ atRestore.status.busy = true ∧ atRestore.seq.phase = .restore
      ∧ 1 < 2 * atRestore.latched.r.toNat
      ∧ atRestore.blockOps[atRestore.seq.q]? = some (.lda .keep .held .cw (64 * ((1 + 1) % (2 * atRestore.latched.r.toNat))))
      ∧ (⟨.readAligned, atRestore.cw + 64 * ((1 + 1) % (2 * atRestore.latched.r.toNat))⟩ : Request).fails
        atRestore.platform = true
      ∧ engineStep atRestore = .next t := by
  obtain ⟨t₁, h₁, _⟩ := onNext_exists test_failing_reads.1
  obtain ⟨t₂, h₂, _⟩ := onNext_exists test_failing_reads.2.1
  obtain ⟨t₃, h₃, _⟩ := onNext_exists test_failing_reads.2.2.1
  obtain ⟨t₄, h₄, _⟩ := onNext_exists test_failing_reads.2.2.2
  obtain ⟨t₅, h₅, _⟩ := onNext_exists test_failSmix
  obtain ⟨u₁, r₁, e₁⟩ := onNext_exists test_reference_traces.1
  obtain ⟨u₂, r₂, e₂⟩ := onNext_exists test_trace_RESTORE
  obtain ⟨u₃, r₃, e₃⟩ := onNext_exists test_reference_traces.2.1
  obtain ⟨u₄, r₄, e₄⟩ := onNext_exists test_reference_traces.2.2
  obtain ⟨u₅, r₅, e₅⟩ := onNext_exists test_exec_SMIX
  obtain ⟨t₆, h₆, _⟩ := onNext_exists (show onNext (engineStep atRestore) (fun _ => true) = true by decide +kernel)
  refine ⟨⟨t₁, u₁, failing_reads_accept.1, base_settled, h₁, r₁, (of_decide_eq_true e₁).trans (by decide +kernel),
      by decide +kernel, rfl, by decide +kernel⟩,
    ⟨t₂, u₂, failing_reads_accept.2.1, base_settled, h₂, r₂, (of_decide_eq_true e₂).trans (by decide +kernel),
      by decide +kernel, rfl, by decide +kernel⟩,
    ⟨t₃, u₃, failing_reads_accept.2.2, base_settled, h₃, r₃, (of_decide_eq_true e₃).trans (by decide +kernel),
      by decide +kernel, rfl, by decide +kernel⟩,
    ⟨t₄, u₄, failing_accepts.1, base_settled, h₄, r₄, (of_decide_eq_true e₄).trans (by decide +kernel), rfl, rfl,
      by decide +kernel⟩,
    ⟨u₅.trace.reverse, t₅, u₅, failing_accepts.2.2.1, base_settled, h₅, r₅, ?_, ?_, rfl, by decide +kernel⟩,
    t₆, invariant_of_runs base_settled.1 (fun _ h => by cases h) rfl atRestore_runs, rfl, rfl, by decide +kernel,
    by decide +kernel, by decide +kernel, h₆⟩
  · rw [List.reverse_reverse]
    exact (List.append_nil _).symm
  · rw [← List.head?_eq_getElem?, List.head?_reverse]
    exact (of_decide_eq_true e₅).2.2.2.2

/-- BLOCKMIX.COPY before its first streaming store, on a platform that fails it. -/
def atFailingStream : State :=
  { running .blockmixCopy with
    seq := ⟨.blockmix, 0, 1, 0⟩
    platform := { base.platform with busErr := [⟨.writeNonTemporal, 0x400000, 0x400000⟩] } }

theorem atFailingStream_runs : RunsCommand .blockmixCopy atFailingStream := by
  refine ⟨rfl, ?_, ?_, by decide +kernel, by decide +kernel, by decide +kernel, by decide +kernel, ?_, by decide +kernel,
    by decide +kernel, by decide +kernel⟩
  · show _ ∧ _
    unfold sizesOk Placed
    decide +kernel
  · unfold positionOk
    decide +kernel
  · show atFailingStream.progress.toNat = if atFailingStream.seq.q = atFailingStream.blockOps.length then 1 else 0
    decide +kernel

/-- The failing store itself, and a step with its error on its way. -/
theorem witness_StreamingStoreErrorMayArriveLate :
    (Invariant atFailingStream ∧ atFailingStream.status.busy = true
      ∧ atFailingStream.blockOps[atFailingStream.seq.q]? = some (.stn .last .other 0)
      ∧ (⟨.writeNonTemporal, atFailingStream.baseAddr .other + 0⟩ : Request).fails atFailingStream.platform = true
      ∧ atFailingStream.pendingErr = none)
    ∧ ∃ t, Invariant fencedLate ∧ fencedLate.status.busy = true ∧ fencedLate.pendingErr = some 0x300000#64
      ∧ engineStep fencedLate = .next t := by
  obtain ⟨t, ht, _⟩ := fencedLate_step
  exact ⟨⟨invariant_of_runs base_settled.1 (fun _ h => by cases h) rfl atFailingStream_runs, rfl, by decide +kernel,
    by decide +kernel, rfl⟩, t, fencedLate_invariant, rfl, rfl, ht⟩

/-- `base` on a platform with a device over the last byte of SALSA8's block, with the window there, and with neither. -/
theorem witness_DeviceAndWindowRegionsAreRefused :
    let device : State := { base with platform := { base.platform with device := [⟨0x40003f, 1⟩] } }
    let window : State := { base with platform := { base.platform with windowInMemory := true, mmioBase := 0x3fff40 } }
    (device.status.busy = false ∧ check .salsa8 device = none
      ∧ ∃ g ∈ commandRegions .salsa8 device, ∃ d ∈ device.platform.device,
        ¬ (g.base + g.size ≤ d.base ∨ d.base + d.size ≤ g.base))
    ∧ (window.status.busy = false ∧ check .salsa8 window = none ∧ window.platform.device = []
      ∧ window.platform.windowInMemory = true
      ∧ ∃ g ∈ commandRegions .salsa8 window,
        ¬ (g.base + g.size ≤ window.platform.mmioBase ∨ window.platform.mmioBase + 256 ≤ g.base))
    ∧ base.status.busy = false ∧ check .salsa8 base = none ∧ base.platform.device = []
    ∧ base.platform.windowInMemory = false := by decide +kernel

theorem witness_DrainChangesNothingTheEngineDoes :
    ∃ t, Invariant (withInput atFence .drain) ∧ (withInput atFence .drain).inputs = .drain :: []
      ∧ Invariant atFence ∧ atFence.status.busy = true ∧ engineStep atFence = .next t := by
  obtain ⟨t, ht, _⟩ := onNext_exists (show onNext (engineStep atFence) (fun _ => true) = true by decide +kernel)
  exact ⟨t, invariant_withInput atFence_invariant _, rfl, atFence_invariant, rfl, ht⟩

end Sys2Proof.Tests
end

/-! PROOFS. The round engine on the diagonal layout is the scalar Salsa20/8 (40_salsa_core.md R134, R137). -/

namespace Sys2Proof

def transposedLayout (z : Block) : Block :=
  ⟨⟨z.word 1, z.word 6, z.word 11, z.word 12⟩, ⟨z.word 0, z.word 5, z.word 10, z.word 15⟩,
    ⟨z.word 3, z.word 4, z.word 9, z.word 14⟩, ⟨z.word 2, z.word 7, z.word 8, z.word 13⟩⟩

@[simp] theorem Block.word_setWord (z : Block) (k p : Fin 16) (v : Word) :
    (z.setWord k v).word p = if p = k then v else z.word p := by simp [Block.setWord]

theorem evenRound_diag (z : Block) : evenRound (diag z) = transposedLayout (columnRound z) := by
  simp only [transposedLayout, columnRound, quarterRound, Block.word_setWord]
  rfl

theorem oddRound_transposedLayout (z : Block) : oddRound (transposedLayout z) = diag (rowRound z) := by
  apply Block.ext_word
  intro p
  rw [word_diag]
  simp only [rowRound, quarterRound, Block.word_setWord]
  fin_cases p <;> rfl

@[simp] theorem Block.word_vadd (a b : Block) (p : Fin 16) : (a.vadd b).word p = a.word p + b.word p := by
  fin_cases p <;> rfl

/-- Two rounds of the core on the diagonal layout are one double round (R134, R137). -/
theorem salsaRounds_diag (k : Nat) (z : Block) : salsaRounds (2 * k) (diag z) = diag (doubleRounds k z) := by
  induction k with
  | zero => rfl
  | succ k ih =>
    have he : salsaRound (2 * k) = evenRound := by funext r; simp [salsaRound]
    have ho : salsaRound (2 * k + 1) = oddRound := by funext r; simp [salsaRound, Nat.add_mod]
    rw [Nat.mul_add, salsaRounds, salsaRounds, ih, he, ho, evenRound_diag, oddRound_transposedLayout, doubleRounds]

/-- On the diagonal layout the core is the scalar Salsa20/8 (R137). -/
theorem salsaCore_diag (n : Block) : salsaCore (diag n) = diag (salsa20_8 n) := by
  apply Block.ext_word
  intro p
  simp [salsaCore, salsa20_8, Config.rounds, salsaRounds_diag 4 n]

@[simp] theorem undiag_diag (n : Block) : undiag (diag n) = n := by
  apply Block.ext_word
  intro p
  fin_cases p <;> rfl

theorem diag_xorb (a b : Block) : (diag a).xorb (diag b) = diag (a.xorb b) := by
  apply Block.ext_word
  simp

theorem Block.xorb_comm (a b : Block) : a.xorb b = b.xorb a := by
  apply Block.ext_word
  simp [BitVec.xor_comm]

end Sys2Proof

/-! PROOFS. BlockMix, SMix and the working layout block by block (00_scope.md R15, 42_layout.md R193). -/

namespace Sys2Proof

/-- The chain of BlockMix: the start value, then `X ← H(X xor b k)` (R15). -/
def chainAt (x : Block) (b : Nat → Block) : Nat → Block
  | 0 => x
  | k + 1 => salsa20_8 ((chainAt x b k).xorb (b k))

theorem chainAt_succ_shift (x : Block) (b : Nat → Block) (k : Nat) :
    chainAt x b (k + 1) = chainAt (salsa20_8 (x.xorb (b 0))) (fun i => b (i + 1)) k := by
  induction k with
  | zero => rfl
  | succ k ih => rw [chainAt, ih, chainAt]

theorem blockMixChain_map_range (n : Nat) (x : Block) (b : Nat → Block) :
    blockMixChain x ((List.range n).map b) = (List.range n).map fun k => chainAt x b (k + 1) := by
  induction n generalizing x b with
  | zero => rfl
  | succ n ih =>
    simp only [List.range_succ_eq_map, List.map_cons, List.map_map, blockMixChain, Function.comp_def, ih,
      Nat.succ_eq_add_one]
    simp only [chainAt_succ_shift x b]
    rfl

theorem evens_map_range {α : Type} (m : Nat) (f : Nat → α) :
    evens ((List.range (2 * m)).map f) = (List.range m).map fun k => f (2 * k) := by
  induction m generalizing f with
  | zero => rfl
  | succ m ih =>
    simp only [Nat.mul_add, List.range_succ_eq_map, List.map_cons, List.map_map, Function.comp_def, evens, ih]
    simp [Nat.mul_add]

theorem odds_map_range {α : Type} (m : Nat) (f : Nat → α) :
    odds ((List.range (2 * m)).map f) = (List.range m).map fun k => f (2 * k + 1) := by
  induction m generalizing f with
  | zero => rfl
  | succ m ih =>
    simp only [Nat.mul_add, List.range_succ_eq_map, List.map_cons, List.map_map, Function.comp_def, odds, ih]
    simp [Nat.mul_add]

theorem lastBlock_map_range (m : Nat) (b : Nat → Block) : lastBlock ((List.range (m + 1)).map b) = b m := by
  simp [lastBlock, List.range_succ]

/-- Every element is the list of its blocks. -/
theorem eq_map_range_getD (l : List Block) :
    l = (List.range l.length).map fun k => l.getD k Machine.zeroBlock := by
  apply List.ext_getElem <;> simp
  intro i h
  simp [h]

/-- BlockMix block by block: `Y[0], Y[2], …, Y[1], Y[3], …` (R15). -/
theorem blockMix_map_range (r : Nat) (hr : 1 ≤ r) (b : Nat → Block) :
    blockMix ((List.range (2 * r)).map b)
      = (List.range (2 * r)).map fun j => chainAt (b (2 * r - 1)) b (if j < r then 2 * j + 1 else 2 * (j - r) + 2) := by
  have hl : lastBlock ((List.range (2 * r)).map b) = b (2 * r - 1) := by
    conv_lhs => rw [show 2 * r = 2 * r - 1 + 1 by omega]
    exact lastBlock_map_range _ b
  simp only [blockMix, hl, blockMixChain_map_range, evens_map_range, odds_map_range]
  rw [Nat.two_mul r, List.range_add, List.map_append, List.map_map]
  congr 1
  · apply List.map_congr_left
    intro j hj
    simp [List.mem_range.1 hj]
  · apply List.map_congr_left
    intro j _
    simp

/-- The working layout block by block (R193). -/
theorem workLayout_map_range (m : Nat) (hm : 1 ≤ m) (b : Nat → Block) :
    workLayout ((List.range m).map b)
      = (List.range m).map fun j => diag (b (if j = 0 then m - 1 else j - 1)) := by
  obtain ⟨m, rfl⟩ : ∃ k, m = k + 1 := ⟨m - 1, by omega⟩
  rw [workLayout, lastBlock_map_range, List.range_succ, List.map_append, List.map_singleton, List.dropLast_concat,
    ← List.range_succ, List.range_succ_eq_map]
  simp

/-- The working layout undone block by block (R193). -/
theorem workLayoutInv_map_range (m : Nat) (hm : 1 ≤ m) (x : Nat → Block) :
    workLayoutInv ((List.range m).map x)
      = (List.range m).map fun j => undiag (x (if j + 1 = m then 0 else j + 1)) := by
  obtain ⟨m, rfl⟩ : ∃ k, m = k + 1 := ⟨m - 1, by omega⟩
  rw [List.range_succ_eq_map, List.map_cons, workLayoutInv, ← List.range_succ_eq_map, List.range_succ, List.map_append]
  simp only [List.map_map, List.map_singleton, if_true, List.append_cancel_right_eq]
  apply List.map_congr_left
  intro j hj
  have := List.mem_range.1 hj
  simp [show j ≠ m by omega]

theorem length_blockMix {r : Nat} (hr : 1 ≤ r) {x : List Block} (hx : x.length = 2 * r) :
    (blockMix x).length = 2 * r := by
  rw [eq_map_range_getD x, hx, blockMix_map_range r hr]
  simp

theorem length_blockMixTimes {r : Nat} (hr : 1 ≤ r) {x : List Block} (hx : x.length = 2 * r) (k : Nat) :
    (blockMixTimes k x).length = 2 * r := by
  induction k with
  | zero => exact hx
  | succ k ih => exact length_blockMix hr ih

theorem length_xorBlocks {m : Nat} {a b : List Block} (ha : a.length = m) (hb : b.length = m) :
    (xorBlocks a b).length = m := by
  simp [xorBlocks, ha, hb]

theorem length_mixTimes {r : Nat} (hr : 1 ≤ r) (n : Nat) {x₀ x : List Block} (h0 : x₀.length = 2 * r)
    (hx : x.length = 2 * r) (k : Nat) : (mixTimes n x₀ k x).length = 2 * r := by
  induction k with
  | zero => exact hx
  | succ k ih => exact length_blockMix hr (length_xorBlocks ih (length_blockMixTimes hr h0 _))

end Sys2Proof

/-! PROOFS. Runs without bus errors: micro-operations performed whole, and what they leave unchanged (44_controller.md R252). -/

namespace Sys2Proof.Machine

/-! ### Runs counted in engine steps -/

/-- `k` engine steps lead from `s` to `t`: whatever fuel is left, running on from `s` is running on from `t`. -/
def Steps (k : Nat) (s t : State) : Prop := ∀ fuel, runToIdle (k + fuel) s = runToIdle fuel t

theorem Steps.refl (s : State) : Steps 0 s s := fun fuel => by rw [Nat.zero_add]

theorem Steps.trans {j k : Nat} {s t u : State} (h₁ : Steps j s t) (h₂ : Steps k t u) : Steps (j + k) s u := fun fuel => by
  rw [Nat.add_assoc, h₁, h₂]

theorem Steps.runToIdle_eq {k : Nat} {s t : State} (h : Steps k s t) : runToIdle k s = .next t := h 0

theorem steps_of_engineStep {s t : State} (hb : s.status.busy = true) (h : engineStep s = .next t) : Steps 1 s t :=
  fun fuel => by rw [Nat.add_comm, runToIdle_busy hb h]

/-- The engine runs and no error is on its way. -/
structure Running (s : State) : Prop where
  busy : s.status.busy = true
  noError : s.pendingErr = none

theorem Running.engineStep_eq {s : State} (h : Running s) : engineStep s = sequencerStep s :=
  engineStep_of_noError (by simp [State.errorInFlight, h.noError])

/-! ### A micro-operation whole -/

/-- The request of a micro-operation, if it has one, can be issued and is served. -/
def Served (op : MicroOp) (s : State) : Prop :=
  ∀ q, op.request s = some q → q.inSpace = true ∧ q.isAligned = true ∧ q.fails s.platform = false

/-- The request of a micro-operation, if it has one, recorded (log 10). -/
def MicroOp.place (op : MicroOp) (s : State) : State :=
  match op.request s with
  | some q => s.record q
  | none => s

/-- SALSA_CORE of a block register in one go (R135). -/
def State.salsaWhole (s : State) (g : BlkReg) : State :=
  { s with
    dp := { s.dp with rows := salsaRounds Config.rounds (s.dp.get g), saved := s.dp.get g }.set g (salsaCore (s.dp.get g)) }

/-- A served micro-operation performed whole, SALSA_CORE with all its rounds (R252). -/
def MicroOp.perform (op : MicroOp) (s : State) : State :=
  match op with
  | .salsa g => (s.salsaWhole g).nextOp
  | _ => op.run (op.place s)

/-- A list of micro-operations performed in order. -/
def performAll (ops : List MicroOp) (s : State) : State := ops.foldl (fun u op => op.perform u) s

@[simp] theorem performAll_nil (s : State) : performAll [] s = s := rfl

@[simp] theorem performAll_cons (op : MicroOp) (ops : List MicroOp) (s : State) :
    performAll (op :: ops) s = performAll ops (op.perform s) := rfl

@[simp] theorem performAll_append (as bs : List MicroOp) (s : State) :
    performAll (as ++ bs) s = performAll bs (performAll as s) := by
  simp [performAll, List.foldl_append]

/-- Only the record of the requests can tell a state from one with a request placed. -/
theorem MicroOp.place_eq (op : MicroOp) (s : State) : op.place s = s ∨ ∃ q, op.place s = s.record q := by
  unfold MicroOp.place
  cases op.request s with
  | none => exact .inl rfl
  | some q => exact .inr ⟨q, rfl⟩

theorem MicroOp.place_seq (op : MicroOp) (s : State) : (op.place s).seq = s.seq := by
  rcases op.place_eq s with h | ⟨q, h⟩ <;> rw [h]
  rfl

/-- A micro-operation performed moves the position on by one (R55). -/
@[simp] theorem MicroOp.perform_seq (op : MicroOp) (s : State) :
    (op.perform s).seq = { s.seq with q := s.seq.q + 1, t := 0 } := by
  cases op with
  | salsa g => rfl
  | integ d => cases d <;> rfl
  | pfn b o =>
    show ((MicroOp.pfn b o).place s).nextOp.seq = _
    rw [State.nextOp_seq, MicroOp.place_seq]
  | flush b o =>
    show ((MicroOp.flush b o).place s).nextOp.seq = _
    rw [State.nextOp_seq, MicroOp.place_seq]
  | _ => rfl

/-! ### What a run without errors leaves unchanged -/

theorem StepFrame.platform {s t : State} (h : StepFrame s t) : t.platform = s.platform := by
  obtain ⟨_, _, hp, _⟩ := h.outside
  exact hp

/-- What no micro-operation of a run without errors changes; of the status only SWAP moves. -/
structure Quiet (s t : State) : Prop where
  frame : StepFrame s t
  status : t.status = { s.status with swap := t.status.swap }
  errInfo : t.errInfo = s.errInfo
  errAddr : t.errAddr = s.errAddr
  pendingErr : t.pendingErr = s.pendingErr
  j : t.j = s.j

theorem Quiet.refl (s : State) : Quiet s s := ⟨StepFrame.refl s, rfl, rfl, rfl, rfl, rfl⟩

theorem Quiet.trans {s t u : State} (h₁ : Quiet s t) (h₂ : Quiet t u) : Quiet s u :=
  ⟨h₁.frame.trans h₂.frame, by rw [h₂.status, h₁.status], h₂.errInfo.trans h₁.errInfo, h₂.errAddr.trans h₁.errAddr,
    h₂.pendingErr.trans h₁.pendingErr, h₂.j.trans h₁.j⟩

theorem Quiet.running {s t : State} (h : Quiet s t) (hs : Running s) : Running t :=
  ⟨by rw [h.status]; exact hs.busy, h.pendingErr.trans hs.noError⟩

theorem Quiet.latched {s t : State} (h : Quiet s t) : t.latched = s.latched := h.frame.latched

theorem Quiet.platform {s t : State} (h : Quiet s t) : t.platform = s.platform := h.frame.platform

theorem quiet_place (op : MicroOp) (s : State) : Quiet s (op.place s) := by
  rcases op.place_eq s with h | ⟨q, h⟩ <;> rw [h]
  · exact Quiet.refl s
  · exact ⟨stepFrame_record s q, rfl, rfl, rfl, rfl, rfl⟩

theorem quiet_run {op : MicroOp} (h : op ≠ .integ .j) (s : State) : Quiet s (op.run s) := by
  have hf := stepFrame_run op s
  cases op with
  | salsa g =>
    by_cases ht : s.seq.t < Config.rounds <;> refine ⟨hf, ?_, ?_, ?_, ?_, ?_⟩ <;>
      simp [MicroOp.run, MicroOp.effect, MicroOp.advance, opSalsa, ht]
  | integ d =>
    cases d with
    | j => exact absurd rfl h
    | ji => exact ⟨hf, rfl, rfl, rfl, rfl, rfl⟩
  | _ => exact ⟨hf, rfl, rfl, rfl, rfl, rfl⟩

/-- A micro-operation other than INTEG into J is quiet. -/
theorem quiet_perform {op : MicroOp} (h : op ≠ .integ .j) (s : State) : Quiet s (op.perform s) := by
  have hq : Quiet s (op.run (op.place s)) := (quiet_place op s).trans (quiet_run h _)
  cases op with
  | salsa g => exact ⟨⟨⟨rfl, rfl, rfl, rfl, rfl, rfl⟩, rfl, rfl, rfl, rfl⟩, rfl, rfl, rfl, rfl, rfl⟩
  | _ => exact hq

theorem quiet_performAll {ops : List MicroOp} (h : ∀ op ∈ ops, op ≠ .integ .j) (s : State) : Quiet s (performAll ops s) := by
  induction ops generalizing s with
  | nil => exact Quiet.refl s
  | cons op ops ih =>
    exact (quiet_perform (h op (by simp)) s).trans (ih (fun o ho => h o (by simp [ho])) _)

/-- A micro-operation that is not one of the few that write SWAP, PROGRESS, J or JI. -/
def MicroOp.IsPlain (op : MicroOp) : Prop := op ≠ .zeroEnd ∧ op ≠ .bmEnd ∧ ∀ d, op ≠ .integ d

/-- What a plain micro-operation leaves: SWAP, PROGRESS, JI, and so every base address (R33, R253). -/
structure Steady (s t : State) : Prop where
  latched : t.latched = s.latched
  platform : t.platform = s.platform
  status : t.status = s.status
  progress : t.progress = s.progress
  ji : t.dp.ji = s.dp.ji

theorem Steady.refl (s : State) : Steady s s := ⟨rfl, rfl, rfl, rfl, rfl⟩

theorem Steady.trans {s t u : State} (h₁ : Steady s t) (h₂ : Steady t u) : Steady s u :=
  ⟨h₂.latched.trans h₁.latched, h₂.platform.trans h₁.platform, h₂.status.trans h₁.status, h₂.progress.trans h₁.progress,
    h₂.ji.trans h₁.ji⟩

theorem Steady.baseAddr {s t : State} (h : Steady s t) : t.baseAddr = s.baseAddr := by
  funext b
  cases b <;> simp only [State.baseAddr, State.cw, State.cs, h.latched, h.status, h.ji]

theorem Datapath.set_ji (d : Datapath) (g : BlkReg) (b : Block) : (d.set g b).ji = d.ji := by cases g <;> rfl

theorem steady_perform {op : MicroOp} (h : op.IsPlain) (s : State) : Steady s (op.perform s) := by
  obtain ⟨h1, h2, h3⟩ := h
  have hr : Steady s (op.run (op.place s)) := by
    have hp : Steady s (op.place s) := by
      rcases op.place_eq s with h | ⟨q, h⟩ <;> rw [h] <;> exact ⟨rfl, rfl, rfl, rfl, rfl⟩
    obtain ⟨_, _, _, _, _, hst, _⟩ := op.run_fields (op.place s)
    obtain ⟨_, hpr, _⟩ := op.run_progress (op.place s)
    have hf := stepFrame_run op (op.place s)
    exact hp.trans ⟨hf.latched, hf.platform, hst h2, hpr h2, op.run_ji _ h1 h3⟩
  cases op with
  | salsa g => exact ⟨rfl, rfl, rfl, rfl, Datapath.set_ji _ _ _⟩
  | _ => exact hr

theorem steady_performAll {ops : List MicroOp} (h : ∀ op ∈ ops, op.IsPlain) (s : State) : Steady s (performAll ops s) := by
  induction ops generalizing s with
  | nil => exact Steady.refl s
  | cons op ops ih => exact (steady_perform (h op (by simp)) s).trans (ih (fun o ho => h o (by simp [ho])) _)

/-! ### A list of micro-operations, step by step -/

/-- Every micro-operation of the list is served when its turn comes. -/
def ServedAll : List MicroOp → State → Prop
  | [], _ => True
  | op :: ops, s => Served op s ∧ ServedAll ops (op.perform s)

theorem servedAll_append {as bs : List MicroOp} {s : State} :
    ServedAll (as ++ bs) s ↔ ServedAll as s ∧ ServedAll bs (performAll as s) := by
  induction as generalizing s with
  | nil => simp [ServedAll]
  | cons op as ih => simp [ServedAll, ih, and_assoc]

/-- Served micro-operations keep the port in order (R70, R76). -/
theorem portOk_perform {op : MicroOp} {s : State} (h : PortOk s) (hs : Served op s) : PortOk (op.perform s) := by
  have hr : PortOk (op.run (op.place s)) := by
    unfold MicroOp.place
    cases hq : op.request s with
    | none => exact portOk_run h fun q hq' => by rw [hq] at hq'; cases hq'
    | some q =>
      refine portOk_run (h.of_eq rfl rfl) fun q' hq' => ?_
      rw [show op.request (s.record q) = op.request s by cases op <;> rfl] at hq'
      exact (hs q' hq').1
  cases op with
  | salsa g => exact h.of_eq rfl rfl
  | _ => exact hr

theorem portOk_performAll {ops : List MicroOp} {s : State} (h : PortOk s) (hs : ServedAll ops s) :
    PortOk (performAll ops s) := by
  induction ops generalizing s with
  | nil => exact h
  | cons op ops ih => exact ih (portOk_perform h hs.1) hs.2

/-- A served micro-operation at the position is performed. -/
theorem performOp_served {op : MicroOp} {s : State} (h : Served op s) : performOp op s = .next (op.run (op.place s)) := by
  unfold performOp MicroOp.place
  cases hq : op.request s with
  | none => rfl
  | some q =>
    obtain ⟨h1, h2, h3⟩ := h q hq
    simp [h1, h2, h3]

theorem Running.step_op {s : State} (hr : Running s) {op : MicroOp} (hop : s.blockOps[s.seq.q]? = some op)
    (hs : Served op s) : Steps 1 s (op.run (op.place s)) :=
  steps_of_engineStep hr.busy (by rw [hr.engineStep_eq, sequencerStep, hop]; exact performOp_served hs)

/-- SALSA_CORE after `t` of its rounds (R50). -/
def State.salsaMid (s : State) (g : BlkReg) (t : Nat) : State :=
  { s with
    dp := { s.dp with rows := salsaRounds t (s.dp.get g), saved := s.dp.get g }
    seq := { s.seq with t := t } }

theorem run_salsa_first {s : State} (g : BlkReg) (h : s.seq.t = 0) : (MicroOp.salsa g).run s = s.salsaMid g 1 := by
  simp [MicroOp.run, MicroOp.effect, opSalsa, MicroOp.advance, State.nextRound, State.salsaMid, h, Config.rounds, salsaRounds]

theorem run_salsa_next (s : State) (g : BlkReg) {t : Nat} (h : t + 1 < Config.rounds) :
    (MicroOp.salsa g).run (s.salsaMid g (t + 1)) = s.salsaMid g (t + 2) := by
  simp [MicroOp.run, MicroOp.effect, opSalsa, MicroOp.advance, State.nextRound, State.salsaMid, h, salsaRounds]

theorem run_salsa_last (s : State) (g : BlkReg) :
    (MicroOp.salsa g).run (s.salsaMid g Config.rounds) = (s.salsaWhole g).nextOp := by
  simp [MicroOp.run, MicroOp.effect, opSalsa, MicroOp.advance, State.nextOp, State.salsaMid, State.salsaWhole,
    State.setBlk, salsaCore]

theorem Running.steps_salsaMid {s : State} (hr : Running s) {g : BlkReg} (ht : s.seq.t = 0)
    (hop : s.blockOps[s.seq.q]? = some (.salsa g)) (k : Nat) (hk : k + 1 ≤ Config.rounds) :
    Steps (k + 1) s (s.salsaMid g (k + 1)) := by
  have hserved : ∀ u, Served (.salsa g) u := fun u q hq => by cases hq
  induction k with
  | zero =>
    rw [← run_salsa_first g ht]
    exact hr.step_op hop (hserved s)
  | succ k ih =>
    have hmid : Running (s.salsaMid g (k + 1)) := ⟨hr.busy, hr.noError⟩
    have hops : (s.salsaMid g (k + 1)).blockOps = s.blockOps := State.blockOps_congr rfl rfl rfl
    have hstep := hmid.step_op (op := .salsa g) (by rw [hops]; exact hop) (hserved _)
    rw [show (MicroOp.salsa g).place (s.salsaMid g (k + 1)) = s.salsaMid g (k + 1) from rfl, run_salsa_next s g hk] at hstep
    exact (ih (by omega)).trans hstep

/-- A micro-operation at the start of its turn takes its cost in steps and is performed whole (R252, log 18). -/
theorem Running.steps_perform {s : State} (hr : Running s) {op : MicroOp} (ht : s.seq.t = 0)
    (hop : s.blockOps[s.seq.q]? = some op) (hs : Served op s) : Steps op.cost s (op.perform s) := by
  have hone := hr.step_op hop hs
  cases op with
  | salsa g =>
    have hmid : Running (s.salsaMid g Config.rounds) := ⟨hr.busy, hr.noError⟩
    have hops : (s.salsaMid g Config.rounds).blockOps = s.blockOps := State.blockOps_congr rfl rfl rfl
    have hlast := hmid.step_op (op := .salsa g) (by rw [hops]; exact hop) (fun q hq => by cases hq)
    rw [show (MicroOp.salsa g).place (s.salsaMid g Config.rounds) = s.salsaMid g Config.rounds from rfl, run_salsa_last] at hlast
    exact (hr.steps_salsaMid ht hop 7 (by decide)).trans hlast
  | _ => exact hone

theorem quiet_running_perform {s : State} (hr : Running s) (op : MicroOp) : Running (op.perform s) := by
  by_cases h : op = .integ .j
  · subst h
    exact ⟨hr.busy, hr.noError⟩
  · exact (quiet_perform h s).running hr

theorem perform_latched (op : MicroOp) (s : State) : (op.perform s).latched = s.latched := by
  by_cases h : op = .integ .j
  · subst h
    rfl
  · exact (quiet_perform h s).latched

/-- Served micro-operations from the position on take their cost in steps. -/
theorem Running.steps_performAll {ops rest : List MicroOp} {s : State} (hr : Running s) (ht : s.seq.t = 0)
    (hops : s.blockOps.drop s.seq.q = ops ++ rest) (hs : ServedAll ops s) : Steps (opsCost ops) s (performAll ops s) := by
  induction ops generalizing s with
  | nil => exact Steps.refl s
  | cons op ops ih =>
    have hget : s.blockOps[s.seq.q]? = some op := by
      have := congrArg (·[0]?) hops
      simpa using this
    have hdrop : (op.perform s).blockOps.drop (op.perform s).seq.q = ops ++ rest := by
      rw [State.blockOps_congr (perform_latched op s) (by simp) (by simp), MicroOp.perform_seq, ← List.tail_drop, hops]
      rfl
    have h := (hr.steps_perform ht hget hs.1).trans (ih (quiet_running_perform hr op) (by simp) hdrop hs.2)
    simpa [opsCost] using h

@[simp] theorem performAll_seq (ops : List MicroOp) {s : State} (ht : s.seq.t = 0) :
    (performAll ops s).seq = { s.seq with q := s.seq.q + ops.length } := by
  induction ops generalizing s with
  | nil => rfl
  | cons op ops ih =>
    rw [performAll_cons, ih (by simp)]
    simp [ht, Nat.add_assoc, Nat.add_comm 1]

theorem performAll_latched (ops : List MicroOp) (s : State) : (performAll ops s).latched = s.latched := by
  induction ops generalizing s with
  | nil => rfl
  | cons op ops ih => exact (ih _).trans (perform_latched op s)

theorem running_performAll (ops : List MicroOp) {s : State} (h : Running s) : Running (performAll ops s) := by
  induction ops generalizing s with
  | nil => exact h
  | cons op ops ih => exact ih (quiet_running_perform h op)

/-- A block sequence from its start: its micro-operations performed, then the step that ends it (R252). -/
theorem Running.steps_block {s : State} (hr : Running s) {ph : Phase} {i : Nat} (hseq : s.seq = ⟨ph, i, 0, 0⟩)
    {ops : List MicroOp} (hops : s.blockOps = ops) (hs : ServedAll ops s) :
    Steps (seqCost ops) s (endBlock (performAll ops s)) := by
  have ht : s.seq.t = 0 := by rw [hseq]
  have hq := performAll_seq ops ht
  have hend : Running (performAll ops s) := running_performAll ops hr
  have hnone : (performAll ops s).blockOps[(performAll ops s).seq.q]? = none := by
    rw [State.blockOps_congr (performAll_latched ops s) (by rw [hq]) (by rw [hq]), hq, hops, hseq]
    simp
  have hlast : Steps 1 (performAll ops s) (endBlock (performAll ops s)) :=
    steps_of_engineStep hend.busy (by rw [hend.engineStep_eq, sequencerStep, hnone])
  exact (hr.steps_performAll (rest := []) ht (by simp [hseq, hops]) hs).trans hlast

end Sys2Proof.Machine

/-! PROOFS. Requests inside usable buffers are served (20_memory.md R75, R76, 41_blockops.md R170, 60_exceptions.md R286). -/

namespace Sys2Proof.Machine

/-! ### Requests inside usable buffers are served -/

/-- The bytes of the buffer a base stands for (R245). -/
def Base.span (r n : Nat) : Base → Nat
  | .table => 128 * r * n
  | .elem => 128 * r
  | .cw => 128 * r
  | .cs => 128 * r
  | .work => 128 * r
  | .shuf => 128 * r
  | .tableAtJI => 128 * r
  | .other => 128 * r

/-- A buffer the engine may access: aligned but for the element (R26, R244), inside the address space (R245), and on a platform
that answers no request in it with an error (R286). -/
structure Usable (r n : Nat) (s : State) (b : Base) : Prop where
  aligned : b ≠ .elem → s.baseAddr b % 64 = 0
  inSpace : s.baseAddr b + b.span r n ≤ Config.addressLimit
  served : ∀ q : Request, s.baseAddr b ≤ q.addr → q.addr < s.baseAddr b + b.span r n → q.fails s.platform = false

theorem Usable.of_eq {r n : Nat} {s t : State} {b : Base} (h : Usable r n s b) (ha : t.baseAddr b = s.baseAddr b)
    (hp : t.platform = s.platform) : Usable r n t b :=
  ⟨by rw [ha]; exact h.aligned, by rw [ha]; exact h.inSpace, by rw [ha, hp]; exact h.served⟩

/-- A request of the width of a block inside a usable buffer. -/
theorem Usable.request_ok {r n : Nat} {s : State} {b : Base} (h : Usable r n s b) {k : ReqKind} {o : Nat}
    (ho : offsetOk r n b o) (hk : k.align = 1 ∨ (k.align = 64 ∧ b ≠ .elem)) (hsz : k.size = 64) :
    (⟨k, s.baseAddr b + o⟩ : Request).inSpace = true ∧ (⟨k, s.baseAddr b + o⟩ : Request).isAligned = true
      ∧ (⟨k, s.baseAddr b + o⟩ : Request).fails s.platform = false := by
  have hbound : o + 64 ≤ b.span r n ∧ (b ≠ .elem → o % 64 = 0) := by
    cases b <;> simp only [offsetOk] at ho <;> simp [Base.span, ho]
  have hspace := h.inSpace
  refine ⟨?_, ?_, h.served _ (Nat.le_add_right _ _) ?_⟩
  · simp only [Request.inSpace, hsz, decide_eq_true_eq]
    omega
  · rcases hk with hk | ⟨hk, hb⟩
    · simp [Request.isAligned, hk, Nat.mod_one]
    · have := h.aligned hb
      have := hbound.2 hb
      simp only [Request.isAligned, hk, beq_iff_eq]
      omega
  · show s.baseAddr b + o < _
    omega

/-- The word INTEG reads, inside a usable buffer CW. -/
theorem Usable.word_ok {r n : Nat} {s : State} (hr : 1 ≤ r) (h : Usable r n s .cw) :
    (⟨.readWord, s.cw + 16⟩ : Request).inSpace = true ∧ (⟨.readWord, s.cw + 16⟩ : Request).isAligned = true
      ∧ (⟨.readWord, s.cw + 16⟩ : Request).fails s.platform = false := by
  have hspace : s.cw + 128 * r ≤ Config.addressLimit := h.inSpace
  have halign : s.cw % 64 = 0 := h.aligned (by simp)
  refine ⟨?_, ?_, h.served _ ?_ ?_⟩
  · refine decide_eq_true ?_
    show s.cw + 16 + 4 ≤ Config.addressLimit
    omega
  · simp only [Request.isAligned, ReqKind.align, beq_iff_eq]
    omega
  · show s.cw ≤ s.cw + 16
    omega
  · show s.cw + 16 < s.cw + 128 * r
    omega

/-- A micro-operation that accesses usable buffers only, at offsets inside them, is served. -/
theorem served_of_opOk {r n : Nat} {s : State} (hr : 1 ≤ r) {op : MicroOp} (h : opOk r n (Usable r n s) op) :
    Served op s := by
  intro q hq
  obtain ⟨haddr, hkind⟩ := MicroOp.request_addr hq
  obtain ⟨k, a⟩ := q
  simp only at haddr hkind
  subst haddr
  cases op with
  | lda l d b o =>
    cases hkind
    exact h.1.request_ok h.2.2 (.inr ⟨rfl, h.2.1⟩) rfl
  | ldu d b o =>
    cases hkind
    exact h.1.request_ok h.2 (.inl rfl) rfl
  | sta l d b o =>
    cases hkind
    exact h.1.request_ok h.2.2 (.inr ⟨rfl, h.2.1⟩) rfl
  | staZero b o =>
    cases hkind
    exact h.1.request_ok h.2.2 (.inr ⟨rfl, h.2.1⟩) rfl
  | stu l d b o =>
    cases hkind
    exact h.1.request_ok h.2 (.inl rfl) rfl
  | stn d b o =>
    cases hkind
    exact h.1.request_ok h.2.2 (.inr ⟨rfl, h.2.1⟩) rfl
  | pfn b o =>
    obtain ⟨-, rfl⟩ : s.ctrl.pfe = true ∧ ReqKind.prefetch = k := by simpa [MicroOp.reqKind] using hkind
    exact h.1.request_ok h.2.2 (.inr ⟨rfl, h.2.1⟩) rfl
  | flush b o =>
    obtain ⟨-, rfl⟩ : s.ctrl.fle = true ∧ ReqKind.flush = k := by simpa [MicroOp.reqKind] using hkind
    exact h.1.request_ok h.2.2 (.inr ⟨rfl, h.2.1⟩) rfl
  | integ d =>
    cases hkind
    exact Usable.word_ok hr h
  | _ => cases hkind

theorem opOk_mono {r n : Nat} {p q : Base → Prop} (h : ∀ b, p b → q b) {op : MicroOp} (ho : opOk r n p op) :
    opOk r n q op := by
  cases op <;> simp only [opOk] at ho ⊢ <;> tauto

/-- Plain micro-operations on usable buffers are served one after the other: none of them moves a base. -/
theorem servedAll_of_opOk {r n : Nat} (hr : 1 ≤ r) {ops : List MicroOp} {s : State} (hplain : ∀ op ∈ ops, op.IsPlain)
    (hok : ∀ op ∈ ops, opOk r n (Usable r n s) op) : ServedAll ops s := by
  induction ops generalizing s with
  | nil => trivial
  | cons op ops ih =>
    have hst := steady_perform (hplain op (by simp)) s
    refine ⟨served_of_opOk hr (hok op (by simp)), ih (fun o ho => hplain o (by simp [ho])) fun o ho => ?_⟩
    exact opOk_mono (fun b hb => hb.of_eq (congrFun hst.baseAddr b) hst.platform) (hok o (by simp [ho]))

end Sys2Proof.Machine

/-! PROOFS. What the micro-operations make of the registers and of what the engine reads (41_blockops.md, 43_blockmix.md R211). -/

namespace Sys2Proof.Machine

/-! ### What the engine reads, and where it reads it, after an update -/

/-- Two states whose engines read the same bytes of a block load the same block. -/
theorem State.loadBlock_congr {s t : State} {a : Nat} (h : ∀ x, a ≤ x → x < a + 64 → t.readByte x = s.readByte x) :
    t.loadBlock a = s.loadBlock a :=
  Block.ofBytes_congr _ _ fun k hk => h (a + k) (by omega) (by omega)

theorem State.loadBlock_eq {s t : State} (h : t.readByte = s.readByte) : t.loadBlock = s.loadBlock := by
  funext a
  simp only [State.loadBlock, h]

@[simp] theorem State.readByte_record (s : State) (q : Request) : (s.record q).readByte = s.readByte := rfl
@[simp] theorem State.readByte_setBlk (s : State) (g : BlkReg) (b : Block) : (s.setBlk g b).readByte = s.readByte := rfl
@[simp] theorem State.readByte_nextOp (s : State) : s.nextOp.readByte = s.readByte := rfl
@[simp] theorem State.readByte_salsaWhole (s : State) (g : BlkReg) : (s.salsaWhole g).readByte = s.readByte := rfl

@[simp] theorem State.loadBlock_record (s : State) (q : Request) : (s.record q).loadBlock = s.loadBlock := rfl
@[simp] theorem State.loadBlock_setBlk (s : State) (g : BlkReg) (b : Block) : (s.setBlk g b).loadBlock = s.loadBlock := rfl
@[simp] theorem State.loadBlock_nextOp (s : State) : s.nextOp.loadBlock = s.loadBlock := rfl
@[simp] theorem State.loadBlock_salsaWhole (s : State) (g : BlkReg) : (s.salsaWhole g).loadBlock = s.loadBlock := rfl

@[simp] theorem State.baseAddr_record (s : State) (q : Request) : (s.record q).baseAddr = s.baseAddr := rfl
@[simp] theorem State.baseAddr_setBlk (s : State) (g : BlkReg) (b : Block) : (s.setBlk g b).baseAddr = s.baseAddr :=
  Steady.baseAddr ⟨rfl, rfl, rfl, rfl, Datapath.set_ji s.dp g b⟩
@[simp] theorem State.baseAddr_nextOp (s : State) : s.nextOp.baseAddr = s.baseAddr := rfl
@[simp] theorem State.baseAddr_salsaWhole (s : State) (g : BlkReg) : (s.salsaWhole g).baseAddr = s.baseAddr :=
  Steady.baseAddr ⟨rfl, rfl, rfl, rfl, Datapath.set_ji _ g _⟩
@[simp] theorem State.baseAddr_storeBlock (s : State) (a : Nat) (b : Block) : (s.storeBlock a b).baseAddr = s.baseAddr := rfl

@[simp] theorem State.salsaWhole_dp (s : State) (g : BlkReg) :
    (s.salsaWhole g).dp =
      ({ s.dp with rows := salsaRounds Config.rounds (s.dp.get g), saved := s.dp.get g }).set g (salsaCore (s.dp.get g)) :=
  rfl

/-! ### The micro-operations performed -/

@[simp] theorem perform_lda (l : Layout) (d : BlkReg) (b : Base) (o : Nat) (s : State) :
    (MicroOp.lda l d b o).perform s =
      ((s.record ⟨.readAligned, s.baseAddr b + o⟩).setBlk d (l.apply (s.loadBlock (s.baseAddr b + o)))).nextOp := rfl

@[simp] theorem perform_ldu (d : BlkReg) (b : Base) (o : Nat) (s : State) :
    (MicroOp.ldu d b o).perform s =
      ((s.record ⟨.readUnaligned, s.baseAddr b + o⟩).setBlk d (s.loadBlock (s.baseAddr b + o))).nextOp := rfl

@[simp] theorem perform_sta (l : Layout) (g : BlkReg) (b : Base) (o : Nat) (s : State) :
    (MicroOp.sta l g b o).perform s =
      ((s.record ⟨.writeAligned, s.baseAddr b + o⟩).storeBlock (s.baseAddr b + o) (l.apply (s.dp.get g))).nextOp := rfl

@[simp] theorem perform_staZero (b : Base) (o : Nat) (s : State) :
    (MicroOp.staZero b o).perform s =
      ((s.record ⟨.writeAligned, s.baseAddr b + o⟩).storeBlock (s.baseAddr b + o) zeroBlock).nextOp := rfl

@[simp] theorem perform_stu (l : Layout) (g : BlkReg) (b : Base) (o : Nat) (s : State) :
    (MicroOp.stu l g b o).perform s =
      ((s.record ⟨.writeUnaligned, s.baseAddr b + o⟩).storeBlock (s.baseAddr b + o) (l.apply (s.dp.get g))).nextOp := rfl

@[simp] theorem perform_stn (g : BlkReg) (b : Base) (o : Nat) (s : State) :
    (MicroOp.stn g b o).perform s =
      ((s.record ⟨.writeNonTemporal, s.baseAddr b + o⟩).storeBlock (s.baseAddr b + o) (s.dp.get g)).nextOp := rfl

@[simp] theorem perform_xorb (d a b : BlkReg) (s : State) :
    (MicroOp.xorb d a b).perform s = (s.setBlk d ((s.dp.get a).xorb (s.dp.get b))).nextOp := rfl

@[simp] theorem perform_move (d a : BlkReg) (s : State) :
    (MicroOp.move d a).perform s = (s.setBlk d (s.dp.get a)).nextOp := rfl

@[simp] theorem perform_salsa (g : BlkReg) (s : State) : (MicroOp.salsa g).perform s = (s.salsaWhole g).nextOp := rfl

/-- What a hint leaves: everything but the position and the record of the requests (R80). -/
structure HintFrame (s t : State) : Prop where
  dp : t.dp = s.dp
  readByte : t.readByte = s.readByte
  baseAddr : t.baseAddr = s.baseAddr

theorem HintFrame.trans {s t u : State} (h₁ : HintFrame s t) (h₂ : HintFrame t u) : HintFrame s u :=
  ⟨h₂.dp.trans h₁.dp, h₂.readByte.trans h₁.readByte, h₂.baseAddr.trans h₁.baseAddr⟩

theorem hintFrame_place (op : MicroOp) (s : State) : HintFrame s (op.place s).nextOp := by
  rcases op.place_eq s with h | ⟨q, h⟩ <;> rw [h] <;> exact ⟨rfl, rfl, rfl⟩

theorem hintFrame_pfn (b : Base) (o : Nat) (s : State) : HintFrame s ((MicroOp.pfn b o).perform s) := hintFrame_place _ s

theorem hintFrame_flush (b : Base) (o : Nat) (s : State) : HintFrame s ((MicroOp.flush b o).perform s) := hintFrame_place _ s

theorem hintFrame_prefetches (b : Base) (f : Nat → Nat) (qs : List Nat) (s : State) :
    HintFrame s (performAll (qs.map fun q => .pfn b (f q)) s) := by
  induction qs generalizing s with
  | nil => exact ⟨rfl, rfl, rfl⟩
  | cons q qs ih => exact (hintFrame_pfn b (f q) s).trans (ih _)

@[simp] theorem perform_pfn_dp (b : Base) (o : Nat) (s : State) : ((MicroOp.pfn b o).perform s).dp = s.dp :=
  (hintFrame_pfn b o s).dp
@[simp] theorem perform_pfn_readByte (b : Base) (o : Nat) (s : State) :
    ((MicroOp.pfn b o).perform s).readByte = s.readByte := (hintFrame_pfn b o s).readByte
@[simp] theorem perform_pfn_loadBlock (b : Base) (o : Nat) (s : State) :
    ((MicroOp.pfn b o).perform s).loadBlock = s.loadBlock := State.loadBlock_eq (hintFrame_pfn b o s).readByte
@[simp] theorem perform_pfn_baseAddr (b : Base) (o : Nat) (s : State) :
    ((MicroOp.pfn b o).perform s).baseAddr = s.baseAddr := (hintFrame_pfn b o s).baseAddr

@[simp] theorem perform_flush_dp (b : Base) (o : Nat) (s : State) : ((MicroOp.flush b o).perform s).dp = s.dp :=
  (hintFrame_flush b o s).dp
@[simp] theorem perform_flush_readByte (b : Base) (o : Nat) (s : State) :
    ((MicroOp.flush b o).perform s).readByte = s.readByte := (hintFrame_flush b o s).readByte
@[simp] theorem perform_flush_loadBlock (b : Base) (o : Nat) (s : State) :
    ((MicroOp.flush b o).perform s).loadBlock = s.loadBlock := State.loadBlock_eq (hintFrame_flush b o s).readByte
@[simp] theorem perform_flush_baseAddr (b : Base) (o : Nat) (s : State) :
    ((MicroOp.flush b o).perform s).baseAddr = s.baseAddr := (hintFrame_flush b o s).baseAddr

/-! ### One BlockMix -/

/-- The block BM mixes in at position `k` of the working buffer: CW's, in mode Xor XORed with the other buffer's (R211). -/
def bmInput (mode : BmMode) (ob : Base) (oo : Nat) (s : State) (k : Nat) : Block :=
  match mode with
  | .none => s.loadBlock (s.baseAddr .cw + 64 * k)
  | .copy => s.loadBlock (s.baseAddr .cw + 64 * k)
  | .xor => (s.loadBlock (s.baseAddr .cw + 64 * k)).xorb (s.loadBlock (s.baseAddr ob + (oo + 64 * k)))

/-- The state after BM in mode Copy has stored block `k` of the working buffer to the other buffer (R211). -/
def bmCopy (mode : BmMode) (ob : Base) (oo : Nat) (s : State) (k : Nat) : State :=
  match mode with
  | .none => s
  | .copy => s.storeBlock (s.baseAddr ob + (oo + 64 * k)) (s.loadBlock (s.baseAddr .cw + 64 * k))
  | .xor => s

/-- Steps 1 and 2 of BM: LAST and PREV hold the first input, and mode Copy has stored the first block (R211, R212). -/
theorem bmHead_effect (r : Nat) (mode : BmMode) (ob : Base) (oo : Nat) (s : State) :
    let t := performAll (bmHead r mode ob oo) s
    t.dp.last = bmInput mode ob oo s 0 ∧ t.dp.prev = bmInput mode ob oo s 0
      ∧ t.readByte = (bmCopy mode ob oo s 0).readByte := by
  cases mode with
  | none => simp [bmHead, bmInput, bmCopy, Datapath.get, Datapath.set, Layout.apply]
  | copy =>
    refine ⟨?_, ?_, funext fun x => ?_⟩ <;> simp [bmHead, bmInput, bmCopy, Datapath.get, Datapath.set, Layout.apply]
  | xor =>
    have hp := hintFrame_prefetches ob (fun q => oo + 64 * q) (List.range r)
    simp [bmHead, bmInput, bmCopy, Datapath.get, Datapath.set, Layout.apply, (hp _).dp, (hp _).readByte, (hp _).baseAddr,
      State.loadBlock_eq (hp _).readByte]

/-- Steps 3a to 3e of BM: the core of the input XOR PREV becomes PREV and is stored at its shuffle position; mode Copy has
stored the block read (R211, R213). -/
theorem bmIter_effect (r : Nat) (mode : BmMode) (ob : Base) (oo i : Nat) (s : State) :
    let t := performAll (bmIter r mode ob oo i) s
    let y := salsaCore ((bmInput mode ob oo s (i + 1)).xorb s.dp.prev)
    t.dp.last = s.dp.last ∧ t.dp.prev = y
      ∧ t.readByte = ((bmCopy mode ob oo s (i + 1)).storeBlock (s.baseAddr .cs + 64 * fanOut r i) y).readByte := by
  cases mode with
  | none =>
    refine ⟨?_, ?_, funext fun x => ?_⟩ <;> simp [bmIter, bmInput, bmCopy, Datapath.get, Datapath.set, Layout.apply]
  | copy =>
    refine ⟨?_, ?_, funext fun x => ?_⟩ <;> simp [bmIter, bmInput, bmCopy, Datapath.get, Datapath.set, Layout.apply]
  | xor =>
    by_cases h : i < r <;> refine ⟨?_, ?_, funext fun x => ?_⟩ <;>
      simp [bmIter, h, bmInput, bmCopy, Datapath.get, Datapath.set, Layout.apply]

end Sys2Proof.Machine

/-! PROOFS. One BlockMix leaves WL(BlockMix(b)) in CS (43_blockmix.md R211 to R224). -/

namespace Sys2Proof.Machine

/-- Two intervals of `n` bytes that do not meet (R245). -/
def Apart (n a b : Nat) : Prop := a + n ≤ b ∨ b + n ≤ a

/-- What BM needs of the state it starts in: buffers that do not meet (R247), and as its inputs the working layout of the
nominal blocks `b` (R193). -/
structure BmReady (r : Nat) (mode : BmMode) (ob : Base) (oo : Nat) (b : Nat → Block) (s : State) : Prop where
  csApartCw : Apart (128 * r) (s.baseAddr .cs) (s.baseAddr .cw)
  csApartOther : mode ≠ .none → Apart (128 * r) (s.baseAddr .cs) (s.baseAddr ob + oo)
  cwApartOther : mode = .copy → Apart (128 * r) (s.baseAddr .cw) (s.baseAddr ob + oo)
  inputFirst : bmInput mode ob oo s 0 = diag (b (2 * r - 1))
  input : ∀ k, k < 2 * r - 1 → bmInput mode ob oo s (k + 1) = diag (b k)

/-- The bytes BM writes: CS, and in mode Copy the other buffer (R211). -/
def bmWrites (r : Nat) (mode : BmMode) (ob : Base) (oo : Nat) (s : State) (x : Nat) : Prop :=
  (s.baseAddr .cs ≤ x ∧ x < s.baseAddr .cs + 128 * r)
    ∨ (mode = .copy ∧ s.baseAddr ob + oo ≤ x ∧ x < s.baseAddr ob + oo + 128 * r)

/-- BM before loop iteration `k`: PREV holds the chain's value, the outputs so far stand at their shuffle positions, and mode
Copy has stored the blocks read so far (R211, R213). -/
structure BmLoop (r : Nat) (mode : BmMode) (ob : Base) (oo : Nat) (b : Nat → Block) (s u : State) (k : Nat) : Prop where
  steady : Steady s u
  last : u.dp.last = diag (b (2 * r - 1))
  prev : u.dp.prev = diag (chainAt (b (2 * r - 1)) b k)
  mixed : ∀ j, j < k → u.loadBlock (s.baseAddr .cs + 64 * fanOut r j) = diag (chainAt (b (2 * r - 1)) b (j + 1))
  copied : mode = .copy → ∀ j, j ≤ k →
    u.loadBlock (s.baseAddr ob + oo + 64 * j) = s.loadBlock (s.baseAddr .cw + 64 * j)
  kept : ∀ x, ¬ bmWrites r mode ob oo s x → u.readByte x = s.readByte x

theorem fanOut_inj {r i j : Nat} (hi : i < 2 * r - 1) (hj : j < 2 * r - 1) (h : fanOut r i = fanOut r j) : i = j := by
  unfold fanOut at h
  split at h <;> split at h <;> omega

/-- BM's inputs from position `k` on are still there: it has written only behind its reads (R211). -/
theorem BmReady.loadBlock_cw {r : Nat} {mode : BmMode} {ob : Base} {oo : Nat} {b : Nat → Block} {s u : State}
    (h : BmReady r mode ob oo b s) (kept : ∀ x, ¬ bmWrites r mode ob oo s x → u.readByte x = s.readByte x) {k : Nat}
    (hk : k < 2 * r) : u.loadBlock (s.baseAddr .cw + 64 * k) = s.loadBlock (s.baseAddr .cw + 64 * k) := by
  refine State.loadBlock_congr fun x h1 h2 => kept x ?_
  have hcs := h.csApartCw
  have hob := h.cwApartOther
  unfold Apart at hcs hob
  rintro (⟨h3, h4⟩ | ⟨hm, h3, h4⟩)
  · omega
  · have := hob hm
    omega

theorem BmReady.bmInput_eq {r : Nat} {mode : BmMode} {ob : Base} {oo : Nat} {b : Nat → Block} {s u : State}
    (h : BmReady r mode ob oo b s) (hbase : u.baseAddr = s.baseAddr)
    (kept : ∀ x, ¬ bmWrites r mode ob oo s x → u.readByte x = s.readByte x) {k : Nat} (hk : k < 2 * r) :
    bmInput mode ob oo u k = bmInput mode ob oo s k := by
  have hcw := h.loadBlock_cw kept hk
  cases mode with
  | none => simpa only [bmInput, hbase] using hcw
  | copy => simpa only [bmInput, hbase] using hcw
  | xor =>
    have hob : u.loadBlock (s.baseAddr ob + (oo + 64 * k)) = s.loadBlock (s.baseAddr ob + (oo + 64 * k)) := by
      refine State.loadBlock_congr fun x h1 h2 => kept x ?_
      have hcs := h.csApartOther (by simp)
      unfold Apart at hcs
      rintro (⟨h3, h4⟩ | ⟨hm, _⟩)
      · omega
      · cases hm
    simp only [bmInput, hbase, hcw, hob]

/-- A store to a block of CS is a write of BM. -/
theorem bmWrites_cs {r : Nat} {mode : BmMode} {ob : Base} {oo : Nat} {s : State} {f x : Nat} (hf : f < 2 * r)
    (h : s.baseAddr .cs + 64 * f ≤ x ∧ x < s.baseAddr .cs + 64 * f + Config.blockBytes) : bmWrites r mode ob oo s x := by
  simp only [Config.blockBytes] at h
  exact .inl ⟨by omega, by omega⟩

/-- Mode Copy's store of block `k` is a write of BM. -/
theorem readByte_bmCopy {r : Nat} {mode : BmMode} {ob : Base} {oo : Nat} {s u : State} (hbase : u.baseAddr = s.baseAddr)
    {k : Nat} (hk : k < 2 * r) {x : Nat} (hx : ¬ bmWrites r mode ob oo s x) :
    (bmCopy mode ob oo u k).readByte x = u.readByte x := by
  cases mode with
  | none => rfl
  | xor => rfl
  | copy =>
    rw [bmCopy, State.readByte_storeBlock, if_neg]
    intro h
    rw [hbase] at h
    simp only [Config.blockBytes] at h
    exact hx (.inr ⟨rfl, by omega, by omega⟩)

/-- Mode Copy's store leaves every block that does not meet it. -/
theorem loadBlock_bmCopy {mode : BmMode} {ob : Base} {oo : Nat} {u : State} {k c : Nat}
    (h : mode = .copy → Apart 64 (u.baseAddr ob + (oo + 64 * k)) c) : (bmCopy mode ob oo u k).loadBlock c = u.loadBlock c := by
  cases mode with
  | none => rfl
  | xor => rfl
  | copy => exact State.loadBlock_storeBlock_other _ _ _ _ (h rfl)

/-- Steps 1 and 2 of BM establish the loop's invariant (R211, R212). -/
theorem BmReady.loop_zero {r : Nat} {mode : BmMode} {ob : Base} {oo : Nat} {b : Nat → Block} {s : State} (hr : 1 ≤ r)
    (h : BmReady r mode ob oo b s) (hplain : ∀ op ∈ bmHead r mode ob oo, op.IsPlain) :
    BmLoop r mode ob oo b s (performAll (bmHead r mode ob oo) s) 0 := by
  obtain ⟨hlast, hprev, hread⟩ := bmHead_effect r mode ob oo s
  refine ⟨steady_performAll hplain s, hlast.trans h.inputFirst, hprev.trans h.inputFirst, fun j hj => absurd hj (by omega), ?_, ?_⟩
  · intro hm j hj
    obtain rfl : j = 0 := by omega
    subst hm
    rw [State.loadBlock_eq hread]
    exact State.loadBlock_storeBlock_same _ _ _
  · intro x hx
    rw [hread]
    exact readByte_bmCopy rfl (by omega) hx

/-- Steps 3a to 3e of BM keep the loop's invariant (R211). -/
theorem BmReady.loop_succ {r : Nat} {mode : BmMode} {ob : Base} {oo : Nat} {b : Nat → Block} {s u : State} {k : Nat}
    (h : BmReady r mode ob oo b s) (hk : k < 2 * r - 1) (hplain : ∀ op ∈ bmIter r mode ob oo k, op.IsPlain)
    (hl : BmLoop r mode ob oo b s u k) : BmLoop r mode ob oo b s (performAll (bmIter r mode ob oo k) u) (k + 1) := by
  obtain ⟨hlast, hprev, hread⟩ := bmIter_effect r mode ob oo k u
  have hbase := hl.steady.baseAddr
  have hfan : fanOut r k < 2 * r := fanOut_lt (by omega) hk
  have hcs := h.csApartOther
  have hy : salsaCore ((bmInput mode ob oo u (k + 1)).xorb u.dp.prev) = diag (chainAt (b (2 * r - 1)) b (k + 1)) := by
    rw [h.bmInput_eq hbase hl.kept (by omega), h.input k hk, hl.prev, Block.xorb_comm, diag_xorb, salsaCore_diag, chainAt]
  simp only [hy, hbase] at hprev hread
  have hload := State.loadBlock_eq hread
  refine ⟨hl.steady.trans (steady_performAll hplain u), hlast.trans hl.last, hprev, ?_, ?_, ?_⟩
  · intro j hj
    rw [hload]
    rcases Nat.lt_succ_iff_lt_or_eq.1 hj with hj | rfl
    · have hne : fanOut r k ≠ fanOut r j := fun he => by have := fanOut_inj hk (by omega) he; omega
      have hj2 : fanOut r j < 2 * r := fanOut_lt (by omega) (by omega)
      rw [State.loadBlock_storeBlock_other _ _ _ _ (by omega), loadBlock_bmCopy, hl.mixed j hj]
      intro hm
      have := hcs (by simp [hm])
      unfold Apart at this ⊢
      rw [hbase]
      omega
    · exact State.loadBlock_storeBlock_same _ _ _
  · intro hm j hj
    have hap := hcs (by simp [hm])
    unfold Apart at hap
    rw [hload, State.loadBlock_storeBlock_other _ _ _ _ (by omega)]
    rcases Nat.le_succ_iff.1 hj with hj | rfl
    · rw [loadBlock_bmCopy, hl.copied hm j hj]
      intro _
      unfold Apart
      rw [hbase]
      omega
    · subst hm
      rw [bmCopy, hbase, ← Nat.add_assoc, State.loadBlock_storeBlock_same]
      exact h.loadBlock_cw hl.kept (by omega)
  · intro x hx
    rw [hread, State.readByte_storeBlock, if_neg (fun hc => hx (bmWrites_cs hfan hc)), readByte_bmCopy hbase (by omega) hx]
    exact hl.kept x hx

theorem BmReady.loop {r : Nat} {mode : BmMode} {ob : Base} {oo : Nat} {b : Nat → Block} {s : State} (hr : 1 ≤ r)
    (h : BmReady r mode ob oo b s) (k : Nat) (hk : k ≤ 2 * r - 1) :
    BmLoop r mode ob oo b s
      (performAll (bmHead r mode ob oo ++ (List.range k).flatMap (bmIter r mode ob oo)) s) k := by
  have hplain : ∀ op ∈ bmBody r mode ob oo, op.IsPlain := bmBody_ops
  induction k with
  | zero => simpa using h.loop_zero hr fun op ho => hplain op (by simp [bmBody, ho])
  | succ k ih =>
    have hstep := h.loop_succ (by omega) (fun op ho => hplain op ?_) (ih (by omega))
    · simpa [List.range_succ] using hstep
    · simp only [bmBody, List.mem_append, List.mem_flatMap, List.mem_range]
      exact .inl (.inr ⟨k, by omega, ho⟩)

/-- The `k` blocks the engine reads from an address up. -/
def State.loadBlocks (s : State) (a k : Nat) : List Block := (List.range k).map fun q => s.loadBlock (a + 64 * q)

@[simp] theorem State.length_loadBlocks (s : State) (a k : Nat) : (s.loadBlocks a k).length = k := by
  simp [State.loadBlocks]

/-- Blocks none of whose bytes read otherwise are the same blocks. -/
theorem State.loadBlocks_congr {s t : State} {a k : Nat}
    (h : ∀ x, a ≤ x → x < a + 64 * k → t.readByte x = s.readByte x) : t.loadBlocks a k = s.loadBlocks a k := by
  refine List.map_congr_left fun q hq => State.loadBlock_congr fun x h1 h2 => h x (by omega) ?_
  have := List.mem_range.1 hq
  omega

/-- What BM leaves: WL(BlockMix(b)) at the old CS, in mode Copy the input verbatim in the other buffer, SWAP toggled and
PROGRESS counted, and nothing else (R211, R220, R224). -/
structure BmDone (r : Nat) (mode : BmMode) (ob : Base) (oo : Nat) (b : Nat → Block) (s t : State) : Prop where
  quiet : Quiet s t
  swap : t.status.swap = !s.status.swap
  progress : t.progress = s.progress + 1#64
  mixed : t.loadBlocks (s.baseAddr .cs) (2 * r) = workLayout (blockMix ((List.range (2 * r)).map b))
  copied : mode = .copy → t.loadBlocks (s.baseAddr ob + oo) (2 * r) = s.loadBlocks (s.baseAddr .cw) (2 * r)
  kept : ∀ x, ¬ bmWrites r mode ob oo s x → t.readByte x = s.readByte x

/-- The position of the shuffle buffer behind the first block holds the output that FAN_OUT sends there (R213). -/
theorem exists_fanOut {r j : Nat} (hj : j + 1 < 2 * r) :
    ∃ i, i < 2 * r - 1 ∧ fanOut r i = j + 1 ∧ i + 1 = if j < r then 2 * j + 1 else 2 * (j - r) + 2 := by
  by_cases h : j < r
  · exact ⟨2 * j, by omega, by simp [fanOut], by simp [h]⟩
  · refine ⟨2 * (j - r) + 1, by omega, ?_, by simp [h]⟩
    have : (2 * (j - r) + 1) % 2 = 1 := by omega
    simp only [fanOut, this, one_ne_zero, if_false]
    omega

@[simp] theorem State.salsaWhole_status (s : State) (g : BlkReg) : (s.salsaWhole g).status = s.status := rfl
@[simp] theorem State.salsaWhole_progress (s : State) (g : BlkReg) : (s.salsaWhole g).progress = s.progress := rfl

/-- Steps 4 and 5 of BM: the core of LAST XOR PREV is stored to the first block of CS, then SWAP toggles and PROGRESS counts
(R211, R220). -/
theorem bmTail_effect (s : State) :
    let t := performAll bmTail s
    t.readByte = (s.storeBlock (s.baseAddr .cs) (salsaCore (s.dp.last.xorb s.dp.prev))).readByte
      ∧ t.status.swap = !s.status.swap ∧ t.progress = s.progress + 1#64 := by
  have hend : ∀ u, (MicroOp.bmEnd.perform u).readByte = u.readByte ∧ (MicroOp.bmEnd.perform u).status.swap = !u.status.swap
      ∧ (MicroOp.bmEnd.perform u).progress = u.progress + 1#64 := fun _ => ⟨rfl, rfl, rfl⟩
  refine ⟨funext fun x => ?_, ?_, ?_⟩ <;> simp [bmTail, hend, Datapath.get, Datapath.set, Layout.apply]

/-- BM from a ready state (R211, R224). -/
theorem BmReady.done {r : Nat} {mode : BmMode} {ob : Base} {oo : Nat} {b : Nat → Block} {s : State} (hr : 1 ≤ r)
    (h : BmReady r mode ob oo b s) : BmDone r mode ob oo b s (performAll (bmSeq r mode ob oo) s) := by
  have hq : ∀ op ∈ bmSeq r mode ob oo, op ≠ .integ .j := by
    intro op ho
    rw [bmSeq_eq, List.mem_append] at ho
    rcases ho with ho | ho
    · exact (bmBody_ops op ho).2.2 .j
    · simp_all
  have hl := h.loop hr (2 * r - 1) le_rfl
  have hquiet := quiet_performAll hq s
  rw [bmSeq, performAll_append] at hquiet ⊢
  generalize performAll (bmHead r mode ob oo ++ (List.range (2 * r - 1)).flatMap (bmIter r mode ob oo)) s = u at hl hquiet
  have hy : salsaCore (u.dp.last.xorb u.dp.prev) = diag (chainAt (b (2 * r - 1)) b (2 * r)) := by
    rw [hl.last, hl.prev, Block.xorb_comm, diag_xorb, salsaCore_diag, show 2 * r = 2 * r - 1 + 1 by omega, chainAt]
    rfl
  obtain ⟨hread, hswap, hprogress⟩ := bmTail_effect u
  rw [hy, hl.steady.baseAddr] at hread
  have hload := State.loadBlock_eq hread
  have hcs := h.csApartOther
  refine ⟨hquiet, by rw [hswap, hl.steady.status], by rw [hprogress, hl.steady.progress], ?_, ?_, ?_⟩
  · rw [blockMix_map_range r hr, workLayout_map_range _ (by omega)]
    refine List.map_congr_left fun j hj => ?_
    have hj := List.mem_range.1 hj
    rw [hload]
    cases j with
    | zero =>
      have hlast : ¬ 2 * r - 1 < r := by omega
      simp only [if_true, if_neg hlast, Nat.mul_zero, Nat.add_zero, State.loadBlock_storeBlock_same]
      congr 2
      omega
    | succ j =>
      obtain ⟨i, hi, hf, hidx⟩ := exists_fanOut hj
      rw [State.loadBlock_storeBlock_other _ _ _ _ (by omega), ← hf, hl.mixed i hi, hf, hidx]
      simp
  · intro hm
    refine List.map_congr_left fun j hj => ?_
    have hj := List.mem_range.1 hj
    have hap := hcs (by simp [hm])
    unfold Apart at hap
    rw [hload, State.loadBlock_storeBlock_other _ _ _ _ (by omega)]
    exact hl.copied hm j (by omega)
  · intro x hx
    rw [hread, State.readByte_storeBlock, if_neg, hl.kept x hx]
    exact fun hc => hx (bmWrites_cs (f := 0) (by omega) (by simpa using hc))

end Sys2Proof.Machine

/-! PROOFS. PREP_SEQ, REST_SEQ and ZERO_SEQ (42_layout.md R194, R197, 44_controller.md R258). -/

namespace Sys2Proof.Machine

/-! ### The block transfers: PREP_SEQ, REST_SEQ and ZERO_SEQ -/

/-- The bytes of `k` blocks from an address up. -/
def inBlocks (d k x : Nat) : Prop := d ≤ x ∧ x < d + 64 * k

/-- The `k` blocks from `d` up read as given and every other byte as before; no base has moved. -/
structure Filled (d k : Nat) (val : Nat → Block) (s t : State) : Prop where
  steady : Steady s t
  blocks : ∀ j, j < k → t.loadBlock (d + 64 * j) = val j
  kept : ∀ x, ¬ inBlocks d k x → t.readByte x = s.readByte x

theorem Filled.nil (d : Nat) (val : Nat → Block) (s : State) : Filled d 0 val s s :=
  ⟨Steady.refl s, fun j hj => absurd hj (by omega), fun _ _ => rfl⟩

/-- One more block stored behind those filled. -/
theorem Filled.succ {d k : Nat} {val : Nat → Block} {s u t : State} (h : Filled d k val s u) (ht : Steady u t)
    (hread : t.readByte = (u.storeBlock (d + 64 * k) (val k)).readByte) : Filled d (k + 1) val s t := by
  refine ⟨h.steady.trans ht, fun j hj => ?_, fun x hx => ?_⟩
  · rw [State.loadBlock_eq hread]
    rcases Nat.lt_succ_iff_lt_or_eq.1 hj with hj | rfl
    · rw [State.loadBlock_storeBlock_other _ _ _ _ (by omega), h.blocks j hj]
    · exact State.loadBlock_storeBlock_same _ _ _
  · unfold inBlocks at hx
    rw [hread, State.readByte_storeBlock, if_neg (by simp only [Config.blockBytes]; omega)]
    exact h.kept x (by unfold inBlocks; omega)

/-- A loop whose iteration `i` stores the block `val i` behind the blocks filled so far fills `k` blocks in `k` iterations. -/
theorem filled_loop {d n : Nat} {val : Nat → Block} {iter : Nat → List MicroOp} {s : State}
    (hplain : ∀ i, ∀ op ∈ iter i, op.IsPlain)
    (hiter : ∀ i u, i < n → Filled d i val s u →
      (performAll (iter i) u).readByte = (u.storeBlock (d + 64 * i) (val i)).readByte) (k : Nat) (hk : k ≤ n) :
    Filled d k val s (performAll ((List.range k).flatMap iter) s) := by
  induction k with
  | zero => exact Filled.nil d val s
  | succ k ih =>
    have h := ih (by omega)
    rw [List.range_succ, List.flatMap_append, performAll_append, List.flatMap_singleton]
    exact h.succ (steady_performAll (hplain k) _) (hiter k _ (by omega) h)

/-- Blocks beside the filled ones are still there. -/
theorem Filled.loadBlock_other {d k a : Nat} {val : Nat → Block} {s t : State} (h : Filled d k val s t)
    (ha : a + 64 ≤ d ∨ d + 64 * k ≤ a) : t.loadBlock a = s.loadBlock a :=
  State.loadBlock_congr fun x h1 h2 => h.kept x (by unfold inBlocks; omega)

theorem prepIter_isPlain (i : Nat) : ∀ op ∈ prepIter i, op.IsPlain := by
  simp [prepIter, MicroOp.IsPlain]

theorem restIter_isPlain (k : Nat) : ∀ op ∈ restIter k, op.IsPlain := by
  simp [restIter, MicroOp.IsPlain]

theorem prepIter_readByte (i : Nat) (s : State) :
    (performAll (prepIter i) s).readByte
      = (s.storeBlock (s.baseAddr .work + 64 * (i + 1)) (diag (s.loadBlock (s.baseAddr .elem + 64 * i)))).readByte := by
  funext x
  simp [prepIter, Datapath.get, Datapath.set, Layout.apply]

theorem restIter_readByte (k : Nat) (s : State) :
    (performAll (restIter k) s).readByte
      = (s.storeBlock (s.baseAddr .elem + 64 * k) (undiag (s.loadBlock (s.baseAddr .cw + 64 * (k + 1))))).readByte := by
  funext x
  simp [restIter, Datapath.get, Datapath.set, Layout.apply]

theorem restIter_held (k : Nat) (s : State) : (performAll (restIter k) s).dp.held = s.dp.held := by
  simp [restIter, Datapath.set]

theorem restLoop_held (k : Nat) (s : State) :
    (performAll ((List.range k).flatMap restIter) s).dp.held = s.dp.held := by
  induction k with
  | zero => rfl
  | succ k ih => rw [List.range_succ, List.flatMap_append, performAll_append, List.flatMap_singleton, restIter_held, ih]

/-- PREP_SEQ leaves WL of the element in the working buffer and every other byte as before (R194, R195). -/
structure PrepDone (r : Nat) (s t : State) : Prop where
  steady : Steady s t
  quiet : Quiet s t
  work : t.loadBlocks (s.baseAddr .work) (2 * r) = workLayout (s.loadBlocks (s.baseAddr .elem) (2 * r))
  kept : ∀ x, ¬ inBlocks (s.baseAddr .work) (2 * r) x → t.readByte x = s.readByte x

theorem prepSeq_isPlain (r : Nat) : ∀ op ∈ prepSeq r, op.IsPlain := by
  intro op h
  simp only [prepSeq, List.mem_append, List.mem_flatMap] at h
  rcases h with ⟨i, _, h⟩ | h
  · exact prepIter_isPlain i op h
  · revert op
    simp [MicroOp.IsPlain]

theorem prepSeq_done {r : Nat} {s : State} (hr : 1 ≤ r) (h : Apart (128 * r) (s.baseAddr .elem) (s.baseAddr .work)) :
    PrepDone r s (performAll (prepSeq r) s) := by
  unfold Apart at h
  have hplain := prepSeq_isPlain r
  have hsteady := steady_performAll hplain s
  have hquiet := quiet_performAll (fun op ho => (hplain op ho).2.2 .j) s
  have hloop := filled_loop (d := s.baseAddr .work + 64) (n := 2 * r - 1)
    (val := fun i => diag (s.loadBlock (s.baseAddr .elem + 64 * i))) (s := s) prepIter_isPlain
    (fun i u hi hu => by
      rw [prepIter_readByte, hu.steady.baseAddr, hu.loadBlock_other (by omega),
        show s.baseAddr .work + 64 * (i + 1) = s.baseAddr .work + 64 + 64 * i by omega]) (2 * r - 1) le_rfl
  rw [prepSeq, performAll_append] at hsteady hquiet ⊢
  generalize performAll ((List.range (2 * r - 1)).flatMap prepIter) s = u at hloop hsteady hquiet
  have hread : (performAll [.ldu .cur .elem (64 * (2 * r - 1)), .sta .diag .cur .work 0] u).readByte
      = (u.storeBlock (s.baseAddr .work) (diag (s.loadBlock (s.baseAddr .elem + 64 * (2 * r - 1))))).readByte := by
    funext x
    rw [← hloop.loadBlock_other (a := s.baseAddr .elem + 64 * (2 * r - 1)) (by omega), ← hloop.steady.baseAddr]
    simp [Datapath.get, Datapath.set, Layout.apply]
  refine ⟨hsteady, hquiet, ?_, fun x hx => ?_⟩
  · rw [State.loadBlocks, State.loadBlocks, workLayout_map_range _ (by omega)]
    refine List.map_congr_left fun j hj => ?_
    have hj := List.mem_range.1 hj
    rw [State.loadBlock_eq hread]
    cases j with
    | zero => exact State.loadBlock_storeBlock_same _ _ _
    | succ j =>
      rw [State.loadBlock_storeBlock_other _ _ _ _ (by omega),
        show s.baseAddr .work + 64 * (j + 1) = s.baseAddr .work + 64 + 64 * j by omega, hloop.blocks j (by omega)]
      rfl
  · unfold inBlocks at hx
    rw [hread, State.readByte_storeBlock, if_neg (by simp only [Config.blockBytes]; omega)]
    exact hloop.kept x (by unfold inBlocks; omega)

/-- REST_SEQ leaves WLINV of the working buffer in the element and every other byte as before (R197, R198). -/
structure RestDone (r : Nat) (s t : State) : Prop where
  steady : Steady s t
  quiet : Quiet s t
  elem : t.loadBlocks (s.baseAddr .elem) (2 * r) = workLayoutInv (s.loadBlocks (s.baseAddr .cw) (2 * r))
  kept : ∀ x, ¬ inBlocks (s.baseAddr .elem) (2 * r) x → t.readByte x = s.readByte x

theorem restSeq_isPlain (r : Nat) : ∀ op ∈ restSeq r, op.IsPlain := by
  intro op h
  simp only [restSeq, List.mem_append, List.mem_flatMap] at h
  rcases h with (h | ⟨i, _, h⟩) | h
  · revert op
    simp [MicroOp.IsPlain]
  · exact restIter_isPlain i op h
  · revert op
    simp [MicroOp.IsPlain]

theorem restSeq_done {r : Nat} {s : State} (hr : 1 ≤ r) (h : Apart (128 * r) (s.baseAddr .elem) (s.baseAddr .cw)) :
    RestDone r s (performAll (restSeq r) s) := by
  unfold Apart at h
  have hplain := restSeq_isPlain r
  have hsteady := steady_performAll hplain s
  have hquiet := quiet_performAll (fun op ho => (hplain op ho).2.2 .j) s
  rw [restSeq, performAll_append, performAll_append] at hsteady hquiet ⊢
  have hhead : Steady s (performAll [.lda .keep .held .cw 0] s) := steady_performAll (by simp [MicroOp.IsPlain]) s
  have hheld : (performAll [.lda .keep .held .cw 0] s).dp.held = s.loadBlock (s.baseAddr .cw) := by
    simp [Datapath.set, Layout.apply]
  have hheadRead : (performAll [.lda .keep .held .cw 0] s).readByte = s.readByte := by simp
  generalize performAll [.lda .keep .held .cw 0] s = u at hhead hheld hheadRead hsteady hquiet
  have hloop := filled_loop (d := s.baseAddr .elem) (n := 2 * r - 1)
    (val := fun i => undiag (s.loadBlock (s.baseAddr .cw + 64 * (i + 1)))) (s := u) restIter_isPlain
    (fun i v hi hv => by
      rw [restIter_readByte, hv.steady.baseAddr, hhead.baseAddr, hv.loadBlock_other (by omega),
        State.loadBlock_eq hheadRead]) (2 * r - 1) le_rfl
  have hheld' := (restLoop_held (2 * r - 1) u).trans hheld
  generalize performAll ((List.range (2 * r - 1)).flatMap restIter) u = v at hloop hheld' hsteady hquiet
  have hread : (performAll [.stu .undiag .held .elem (64 * (2 * r - 1))] v).readByte
      = (v.storeBlock (s.baseAddr .elem + 64 * (2 * r - 1)) (undiag (s.loadBlock (s.baseAddr .cw)))).readByte := by
    funext x
    rw [← hheld', ← hhead.baseAddr, ← hloop.steady.baseAddr]
    simp [Datapath.get, Layout.apply]
  refine ⟨hsteady, hquiet, ?_, fun x hx => ?_⟩
  · rw [State.loadBlocks, State.loadBlocks, workLayoutInv_map_range _ (by omega)]
    refine List.map_congr_left fun j hj => ?_
    have hj := List.mem_range.1 hj
    rw [State.loadBlock_eq hread]
    by_cases hlast : j + 1 = 2 * r
    · obtain rfl : j = 2 * r - 1 := by omega
      rw [if_pos hlast]
      exact State.loadBlock_storeBlock_same _ _ _
    · rw [State.loadBlock_storeBlock_other _ _ _ _ (by omega), hloop.blocks j (by omega), if_neg hlast]
  · unfold inBlocks at hx
    rw [hread, State.readByte_storeBlock, if_neg (by simp only [Config.blockBytes]; omega), ← hheadRead]
    exact hloop.kept x (by unfold inBlocks; omega)

/-! ### ZERO_SEQ -/

theorem State.byte_loadBlock (s : State) (a k : Nat) (hk : k < 64) : (s.loadBlock a).byte k = s.readByte (a + k) :=
  Block.byte_ofBytes _ k hk

theorem zeroBlock_byte (k : Nat) : zeroBlock.byte k = 0#8 := by
  have h : ∀ p, zeroBlock.word p = 0#32 := by decide
  simp [Block.byte, h, byteOf]

theorem zeroFill_isPlain (b : Base) (k : Nat) : ∀ op ∈ zeroFill b k, op.IsPlain := by
  simp [zeroFill, MicroOp.IsPlain]

/-- The zero writes of a buffer (R258). -/
theorem zeroFill_filled (b : Base) (k : Nat) (s : State) :
    Filled (s.baseAddr b) k (fun _ => zeroBlock) s (performAll (zeroFill b k) s) := by
  rw [zeroFill, List.map_eq_flatMap]
  refine filled_loop (n := k) (iter := fun q => [.staZero b (64 * q)]) (by simp [MicroOp.IsPlain]) (fun i u _ hu => ?_) k le_rfl
  funext x
  rw [← hu.steady.baseAddr]
  simp

/-- The bytes `p` read 0 and every other byte as before; ZERO_SEQ's `ok` and the bases stay (R258). -/
structure Zeroed (p : Nat → Prop) (s t : State) : Prop where
  steady : Steady s t
  zeroOk : t.zeroOk = s.zeroOk
  zero : ∀ x, p x → t.readByte x = 0#8
  kept : ∀ x, ¬ p x → t.readByte x = s.readByte x

theorem Zeroed.trans {p q : Nat → Prop} {s t u : State} (h₁ : Zeroed p s t) (h₂ : Zeroed q t u) :
    Zeroed (fun x => p x ∨ q x) s u := by
  refine ⟨h₁.steady.trans h₂.steady, h₂.zeroOk.trans h₁.zeroOk, fun x hx => ?_, fun x hx => ?_⟩
  · by_cases hq : q x
    · exact h₂.zero x hq
    · rw [h₂.kept x hq, h₁.zero x (hx.resolve_right hq)]
  · rw [h₂.kept x (fun hq => hx (.inr hq)), h₁.kept x (fun hp => hx (.inl hp))]

theorem zeroFill_zeroOk (b : Base) (k : Nat) (s : State) : (performAll (zeroFill b k) s).zeroOk = s.zeroOk := by
  induction k with
  | zero => rfl
  | succ k ih =>
    rw [zeroFill, List.range_succ, List.map_append, performAll_append]
    exact ih

theorem zeroFill_zeroed {b : Base} {d k : Nat} {s : State} (hd : s.baseAddr b = d) :
    Zeroed (inBlocks d k) s (performAll (zeroFill b k) s) := by
  subst hd
  have h := zeroFill_filled b k s
  refine ⟨h.steady, zeroFill_zeroOk b k s, fun x hx => ?_, h.kept⟩
  unfold inBlocks at hx
  have hj := (performAll (zeroFill b k) s).byte_loadBlock (s.baseAddr b + 64 * ((x - s.baseAddr b) / 64))
    ((x - s.baseAddr b) % 64) (by omega)
  rw [h.blocks ((x - s.baseAddr b) / 64) (by omega), zeroBlock_byte,
    show s.baseAddr b + 64 * ((x - s.baseAddr b) / 64) + (x - s.baseAddr b) % 64 = x by omega] at hj
  exact hj.symm

/-- The scratch ZERO_SEQ writes: the two buffers of EB bytes and the table of TB bytes (R258). -/
def inScratch (r n : Nat) (s : State) (x : Nat) : Prop :=
  (inBlocks (s.baseAddr .work) (2 * r) x ∨ inBlocks (s.baseAddr .shuf) (2 * r) x)
    ∨ inBlocks (s.baseAddr .table) (2 * r * n) x

/-- ZERO_SEQ leaves the scratch zero, the datapath cleared and `ok` set, and every other byte as before (R258). -/
structure ZeroDone (r n : Nat) (s t : State) : Prop where
  quiet : Quiet s t
  status : t.status = s.status
  progress : t.progress = s.progress
  dp : t.dp = zeroDatapath
  zeroOk : t.zeroOk = true
  zero : ∀ x, inScratch r n s x → t.readByte x = 0#8
  kept : ∀ x, ¬ inScratch r n s x → t.readByte x = s.readByte x

/-- ZERO_SEQ without its last micro-operation. -/
def zeroBody (r n : Nat) : List MicroOp :=
  [.zeroBegin] ++ zeroFill .work (2 * r) ++ zeroFill .shuf (2 * r) ++ zeroFill .table (2 * r * n)

theorem zeroSeq_eq (r n : Nat) : zeroSeq r n = zeroBody r n ++ [.zeroEnd] := rfl

theorem zeroBody_isPlain (r n : Nat) : ∀ op ∈ zeroBody r n, op.IsPlain := by
  intro op h
  simp only [zeroBody, List.mem_append, List.mem_singleton] at h
  rcases h with ((rfl | h) | h) | h
  · simp [MicroOp.IsPlain]
  · exact zeroFill_isPlain _ _ op h
  · exact zeroFill_isPlain _ _ op h
  · exact zeroFill_isPlain _ _ op h

theorem zeroSeq_noIndex (r n : Nat) : ∀ op ∈ zeroSeq r n, op ≠ .integ .j := by
  intro op h
  rw [zeroSeq_eq, List.mem_append, List.mem_singleton] at h
  rcases h with h | rfl
  · exact (zeroBody_isPlain r n op h).2.2 .j
  · simp

theorem zeroSeq_done (r n : Nat) (s : State) : ZeroDone r n s (performAll (zeroSeq r n) s) := by
  have hquiet := quiet_performAll (zeroSeq_noIndex r n) s
  simp only [zeroSeq, performAll_append] at hquiet ⊢
  have hbegin : Steady s (performAll [.zeroBegin] s) := steady_performAll (by simp [MicroOp.IsPlain]) s
  have hread : (performAll [.zeroBegin] s).readByte = s.readByte := rfl
  have hok : (performAll [.zeroBegin] s).zeroOk = true := rfl
  generalize performAll [.zeroBegin] s = u at hbegin hread hok hquiet ⊢
  have h1 : Zeroed _ u _ := zeroFill_zeroed (b := .work) (k := 2 * r) (congrFun hbegin.baseAddr _)
  have h2 := h1.trans (zeroFill_zeroed (b := .shuf) (k := 2 * r) (congrFun (hbegin.trans h1.steady).baseAddr _))
  have h3 : Zeroed (inScratch r n s) u _ :=
    h2.trans (zeroFill_zeroed (b := .table) (k := 2 * r * n) (congrFun (hbegin.trans h2.steady).baseAddr _))
  generalize performAll (zeroFill .table (2 * r * n)) _ = v at h3 hquiet ⊢
  have hst := hbegin.trans h3.steady
  exact
    { quiet := hquiet
      status := hst.status
      progress := hst.progress
      dp := rfl
      zeroOk := h3.zeroOk.trans hok
      zero := h3.zero
      kept := fun x hx => (h3.kept x hx).trans (congrFun hread x) }

end Sys2Proof.Machine

/-! PROOFS. The working layout as the engine reads it, Integerify, and the cost of a loop (42_layout.md R193, R227, R343). -/

namespace Sys2Proof

/-- The working layout undone (R193). -/
theorem workLayoutInv_workLayout {m : Nat} (hm : 1 ≤ m) {x : List Block} (hx : x.length = m) :
    workLayoutInv (workLayout x) = x := by
  obtain ⟨b, rfl⟩ : ∃ b, x = (List.range m).map b := ⟨_, hx ▸ eq_map_range_getD x⟩
  rw [workLayout_map_range m hm, workLayoutInv_map_range m hm]
  refine List.map_congr_left fun j hj => ?_
  have hj := List.mem_range.1 hj
  by_cases hlast : j + 1 = m
  · simp [hlast, show m - 1 = j by omega]
  · simp [hlast]

/-- The last block of an element of `m` blocks. -/
theorem lastBlock_eq_getD {m : Nat} (hm : 1 ≤ m) {x : List Block} (hx : x.length = m) :
    lastBlock x = x.getD (m - 1) Machine.zeroBlock := by
  obtain ⟨m, rfl⟩ : ∃ k, m = k + 1 := ⟨m - 1, by omega⟩
  conv_lhs => rw [eq_map_range_getD x, hx, lastBlock_map_range]
  rfl

/-- Two elements XORed, block by block. -/
theorem xorBlocks_eq_map_range {m : Nat} {x y : List Block} (hx : x.length = m) (hy : y.length = m) :
    xorBlocks x y = (List.range m).map fun k => (x.getD k Machine.zeroBlock).xorb (y.getD k Machine.zeroBlock) := by
  conv_lhs => rw [eq_map_range_getD x, eq_map_range_getD y, hx, hy]
  simp [xorBlocks, List.zipWith_map, List.zipWith_self]

namespace Machine

/-- Blocks in the working layout of an element, one by one: the last nominal block first (R193). -/
theorem loadBlock_of_workLayout {m a : Nat} (hm : 1 ≤ m) {u : State} {x : List Block} (hx : x.length = m)
    (h : u.loadBlocks a m = workLayout x) {j : Nat} (hj : j < m) :
    u.loadBlock (a + 64 * j) = diag (x.getD (if j = 0 then m - 1 else j - 1) zeroBlock) := by
  rw [eq_map_range_getD x, hx, workLayout_map_range m hm, State.loadBlocks, List.map_inj_left] at h
  exact h j (List.mem_range.2 hj)

/-- The word INTEG reads is word 4 of the first block of CW (R227). -/
theorem loadWord_eq_word (u : State) (a : Nat) : u.loadWord (a + 16) = (u.loadBlock a).word 4 := by
  rw [State.loadBlock, Block.ofBytes, Block.word_ofWords]
  rfl

/-- The index INTEG computes from a working buffer is Integerify of the element it images (R15, R227). -/
theorem integValue_toNat {m n : Nat} (hm : 1 ≤ m) {u : State} {x : List Block} (hx : x.length = m)
    (hn : u.latched.n.toNat = n) (h : u.loadBlocks u.cw m = workLayout x) :
    (integValue u (u.cw + 16)).toNat = integerifyIndex n x := by
  have hfirst := loadBlock_of_workLayout hm hx h hm
  rw [Nat.mul_zero, Nat.add_zero, if_pos rfl, ← lastBlock_eq_getD hm hx] at hfirst
  have hlt : ((lastBlock x).word 0).toNat % n < 2 ^ 32 :=
    lt_of_le_of_lt (Nat.mod_le _ _) ((lastBlock x).word 0).isLt
  rw [integValue, hn, loadWord_eq_word, hfirst, word_diag, BitVec.toNat_ofNat, show permPI 4 = 0 by decide,
    Nat.mod_eq_of_lt hlt, integerifyIndex]

/-- Loops of the sequencer: an iteration of `c` steps `n` times. -/
theorem steps_loop {P : Nat → State → Prop} {c n : Nat}
    (hstep : ∀ i u, i < n → P i u → ∃ v, Steps c u v ∧ P (i + 1) v) {u : State} (h0 : P 0 u) (k : Nat) (hk : k ≤ n) :
    ∃ v, Steps (k * c) u v ∧ P k v := by
  induction k with
  | zero => exact ⟨u, by simpa using Steps.refl u, h0⟩
  | succ k ih =>
    obtain ⟨v, hv, hp⟩ := ih (by omega)
    obtain ⟨w, hw, hq⟩ := hstep k v (by omega) hp
    exact ⟨w, by rw [Nat.succ_mul]; exact hv.trans hw, hq⟩

/-! ### The cost of BM -/

theorem opsCost_append (as bs : List MicroOp) : opsCost (as ++ bs) = opsCost as + opsCost bs := by
  simp [opsCost]

theorem opsCost_flatMap_congr {f g : Nat → List MicroOp} (h : ∀ i, opsCost (f i) = opsCost (g i)) (l : List Nat) :
    opsCost (l.flatMap f) = opsCost (l.flatMap g) := by
  induction l with
  | nil => rfl
  | cons i l ih => simp only [List.flatMap_cons, opsCost_append, h, ih]

/-- The steps of BM do not depend on where the other buffer stands (R216, R344). -/
theorem opsCost_bmSeq (r : Nat) (mode : BmMode) (ob : Base) (oo oo' : Nat) :
    opsCost (bmSeq r mode ob oo) = opsCost (bmSeq r mode ob oo') := by
  have hhead : opsCost (bmHead r mode ob oo) = opsCost (bmHead r mode ob oo') := by
    cases mode <;> simp [bmHead, opsCost, MicroOp.cost, Function.comp_def]
  have hiter : ∀ i, opsCost (bmIter r mode ob oo i) = opsCost (bmIter r mode ob oo' i) := by
    intro i
    cases mode <;> by_cases h : i < r <;> simp [bmIter, h, opsCost, MicroOp.cost]
  simp only [bmSeq, opsCost_append, hhead, opsCost_flatMap_congr hiter]

/-- BM on usable buffers is served (R76, R170). -/
theorem servedAll_bmSeq {r n : Nat} (hr : 1 ≤ r) {mode : BmMode} {ob : Base} {oo : Nat} {s : State}
    (hcw : Usable r n s .cw) (hcs : Usable r n s .cs)
    (hob : mode ≠ .none → Usable r n s ob ∧ ob ≠ .elem ∧ ∀ q, q < 2 * r → offsetOk r n ob (oo + 64 * q)) :
    ServedAll (bmSeq r mode ob oo) s := by
  have hok := bmSeq_ok hr hcw hcs hob
  rw [bmSeq_eq] at hok ⊢
  refine servedAll_append.2 ⟨servedAll_of_opOk hr bmBody_ops fun op ho => hok op (by simp [ho]), ?_, trivial⟩
  intro q hq
  cases hq

end Machine
end Sys2Proof

/-! PROOFS. SMIX's buffers and the state between its block sequences (44_controller.md R253 to R257). -/

namespace Sys2Proof.Machine

/-! ### SMIX phase by phase -/

/-- What acceptance leaves SMIX with: the latched sizes, usable buffers, and buffers that do not meet (R242 to R247). -/
structure SmixReady (r n : Nat) (s : State) : Prop where
  cmd : s.latched.cmd = some .smix
  latchedR : s.latched.r.toNat = r
  latchedEb : s.latched.eb.toNat = 128 * r
  latchedN : s.latched.n.toNat = n
  rPos : 1 ≤ r
  nPos : 1 ≤ n
  elem : Usable r n s .elem
  work : Usable r n s .work
  shuf : Usable r n s .shuf
  table : Usable r n s .table
  elemApartWork : Apart (128 * r) (s.baseAddr .elem) (s.baseAddr .work)
  elemApartShuf : Apart (128 * r) (s.baseAddr .elem) (s.baseAddr .shuf)
  elemApartTable : s.baseAddr .elem + 128 * r ≤ s.baseAddr .table ∨ s.baseAddr .table + 128 * r * n ≤ s.baseAddr .elem
  workApartShuf : Apart (128 * r) (s.baseAddr .work) (s.baseAddr .shuf)
  workApartTable : s.baseAddr .work + 128 * r ≤ s.baseAddr .table ∨ s.baseAddr .table + 128 * r * n ≤ s.baseAddr .work
  shufApartTable : s.baseAddr .shuf + 128 * r ≤ s.baseAddr .table ∨ s.baseAddr .table + 128 * r * n ≤ s.baseAddr .shuf

/-- SMIX's geometry is that of the latched parameters and the platform. -/
theorem SmixReady.of_quiet {r n : Nat} {s u : State} (h : SmixReady r n s) (hq : Quiet s u) : SmixReady r n u := by
  have hl := hq.latched
  have ha : ∀ b, b = .elem ∨ b = .work ∨ b = .shuf ∨ b = .table → u.baseAddr b = s.baseAddr b := by
    rintro b (rfl | rfl | rfl | rfl) <;> simp only [State.baseAddr, hl]
  have hel := ha .elem (by simp)
  have hwo := ha .work (by simp)
  have hsh := ha .shuf (by simp)
  have hta := ha .table (by simp)
  refine ⟨hl ▸ h.cmd, hl ▸ h.latchedR, hl ▸ h.latchedEb, hl ▸ h.latchedN, h.rPos, h.nPos, h.elem.of_eq hel hq.platform,
    h.work.of_eq hwo hq.platform, h.shuf.of_eq hsh hq.platform, h.table.of_eq hta hq.platform, ?_, ?_, ?_, ?_, ?_, ?_⟩
  · rw [hel, hwo]; exact h.elemApartWork
  · rw [hel, hsh]; exact h.elemApartShuf
  · rw [hel, hta]; exact h.elemApartTable
  · rw [hwo, hsh]; exact h.workApartShuf
  · rw [hwo, hta]; exact h.workApartTable
  · rw [hsh, hta]; exact h.shufApartTable

theorem SmixReady.blockOps {r n : Nat} {s : State} (h : SmixReady r n s) {ph : Phase} {i q t : Nat}
    (hseq : s.seq = ⟨ph, i, q, t⟩) : s.blockOps = blockSeq .smix r n ph i := by
  simp only [State.blockOps, h.cmd, h.latchedR, h.latchedN, hseq]

theorem SmixReady.isSmix {r n : Nat} {s : State} (h : SmixReady r n s) : s.isSmix = true := by
  simp [State.isSmix, h.cmd]

/-- CW and CS are the working and the shuffle buffer, in the order SWAP says (R33). -/
theorem State.cw_cs_cases (s : State) :
    (s.baseAddr .cw = s.baseAddr .work ∧ s.baseAddr .cs = s.baseAddr .shuf)
      ∨ (s.baseAddr .cw = s.baseAddr .shuf ∧ s.baseAddr .cs = s.baseAddr .work) := by
  cases h : s.status.swap
  · exact .inl (by simp [State.baseAddr, State.cw, State.cs, h])
  · exact .inr (by simp [State.baseAddr, State.cw, State.cs, h])

/-- When SWAP toggles, CW and CS exchange (R33, R220). -/
theorem cw_eq_cs_of_swap {s t : State} (hl : t.latched = s.latched) (h : t.status.swap = !s.status.swap) :
    t.baseAddr .cw = s.baseAddr .cs := by
  cases hs : s.status.swap <;> simp [State.baseAddr, State.cw, State.cs, hl, h, hs]

theorem SmixReady.cw {r n : Nat} {s : State} (h : SmixReady r n s) : Usable r n s .cw := by
  rcases s.cw_cs_cases with ⟨hc, _⟩ | ⟨hc, _⟩
  · exact ⟨fun _ => hc ▸ h.work.aligned (by simp), hc ▸ h.work.inSpace, hc ▸ h.work.served⟩
  · exact ⟨fun _ => hc ▸ h.shuf.aligned (by simp), hc ▸ h.shuf.inSpace, hc ▸ h.shuf.served⟩

theorem SmixReady.cs {r n : Nat} {s : State} (h : SmixReady r n s) : Usable r n s .cs := by
  rcases s.cw_cs_cases with ⟨_, hc⟩ | ⟨_, hc⟩
  · exact ⟨fun _ => hc ▸ h.shuf.aligned (by simp), hc ▸ h.shuf.inSpace, hc ▸ h.shuf.served⟩
  · exact ⟨fun _ => hc ▸ h.work.aligned (by simp), hc ▸ h.work.inSpace, hc ▸ h.work.served⟩

theorem SmixReady.csApartCw {r n : Nat} {s : State} (h : SmixReady r n s) :
    Apart (128 * r) (s.baseAddr .cs) (s.baseAddr .cw) := by
  have hws := h.workApartShuf
  unfold Apart at hws ⊢
  rcases s.cw_cs_cases with ⟨h1, h2⟩ | ⟨h1, h2⟩ <;> rw [h1, h2] <;> omega

theorem SmixReady.elemApartCw {r n : Nat} {s : State} (h : SmixReady r n s) :
    Apart (128 * r) (s.baseAddr .elem) (s.baseAddr .cw) := by
  rcases s.cw_cs_cases with ⟨h1, _⟩ | ⟨h1, _⟩ <;> rw [h1]
  · exact h.elemApartWork
  · exact h.elemApartShuf

/-- Entry `j` of the table lies inside it (R254). -/
theorem tableEntry_le {r n j : Nat} (hj : j < n) : j * (128 * r) + 128 * r ≤ 128 * r * n := by
  calc j * (128 * r) + 128 * r = 128 * r * (j + 1) := by ring
    _ ≤ 128 * r * n := Nat.mul_le_mul_left _ hj

/-- A table entry meets neither buffer. -/
theorem SmixReady.buffersApartEntry {r n j : Nat} {s : State} (h : SmixReady r n s) (hj : j < n) :
    Apart (128 * r) (s.baseAddr .cs) (s.baseAddr .table + j * (128 * r))
      ∧ Apart (128 * r) (s.baseAddr .cw) (s.baseAddr .table + j * (128 * r)) := by
  have hle := tableEntry_le (r := r) hj
  have hw := h.workApartTable
  have hs := h.shufApartTable
  unfold Apart
  rcases s.cw_cs_cases with ⟨h1, h2⟩ | ⟨h1, h2⟩ <;> rw [h1, h2] <;> constructor <;> omega

/-- Offsets inside a table entry are offsets inside the table. -/
theorem tableEntry_offsetOk {r n i : Nat} (hi : i < n) :
    ∀ q, q < 2 * r → offsetOk r n .table (i * (128 * r) + 64 * q) := by
  intro q hq
  have hle := tableEntry_le (r := r) hi
  refine ⟨?_, by omega⟩
  rw [show i * (128 * r) + 64 * q = 64 * (2 * (i * r) + q) by ring]
  exact Nat.mul_mod_right _ _

theorem SmixReady.baseAddr_tableAtJI {r n : Nat} {s : State} (h : SmixReady r n s) :
    s.baseAddr .tableAtJI = s.baseAddr .table + s.dp.ji.toNat * (128 * r) := by
  simp [State.baseAddr, h.latchedEb]

/-- The table entry JI names is usable (R256). -/
theorem SmixReady.tableAtJI {r n : Nat} {s : State} (h : SmixReady r n s) (hji : s.dp.ji.toNat < n) :
    Usable r n s .tableAtJI := by
  have ha := h.baseAddr_tableAtJI
  have hle := tableEntry_le (r := r) hji
  have hspan : s.baseAddr .table + 128 * r * n ≤ Config.addressLimit := h.table.inSpace
  have halign : s.baseAddr .table % 64 = 0 := h.table.aligned (by simp)
  refine ⟨fun _ => ?_, ?_, fun q h1 h2 => h.table.served q ?_ ?_⟩
  · rw [ha, show s.dp.ji.toNat * (128 * r) = 64 * (2 * (s.dp.ji.toNat * r)) by ring, Nat.add_mul_mod_self_left, halign]
  · show s.baseAddr .tableAtJI + 128 * r ≤ _
    omega
  · omega
  · have h2' : q.addr < s.baseAddr .tableAtJI + 128 * r := h2
    show q.addr < s.baseAddr .table + 128 * r * n
    omega

/-- The bytes BM writes in SMIX are scratch. -/
theorem inScratch_of_cs {r n : Nat} {s : State} {x : Nat}
    (hx : s.baseAddr .cs ≤ x ∧ x < s.baseAddr .cs + 128 * r) : inScratch r n s x := by
  unfold inScratch inBlocks
  rcases s.cw_cs_cases with ⟨_, hc⟩ | ⟨_, hc⟩ <;> rw [hc] at hx
  · exact .inl (.inr ⟨hx.1, by omega⟩)
  · exact .inl (.inl ⟨hx.1, by omega⟩)

theorem inScratch_of_entry {r n j : Nat} {s : State} (hj : j < n) {x : Nat}
    (hx : s.baseAddr .table + j * (128 * r) ≤ x ∧ x < s.baseAddr .table + j * (128 * r) + 128 * r) : inScratch r n s x := by
  have hle := tableEntry_le (r := r) hj
  refine .inr ⟨by omega, ?_⟩
  rw [show 64 * (2 * r * n) = 128 * r * n by ring]
  omega

/-- The scratch is where it was: the latched bases do not move. -/
theorem inScratch_congr {r n : Nat} {s u : State} (hl : u.latched = s.latched) : inScratch r n u = inScratch r n s := by
  funext x
  simp only [inScratch, State.baseAddr, hl]

/-- SMIX, started in `s`, at the start of a block sequence with `p` BlockMix operations behind it: CW holds the working layout
of `x`, the first `k` table entries those of the BlockMix powers of `x₀` (R254), and outside the scratch nothing has changed. -/
structure SmixAt (r n : Nat) (s : State) (x₀ : List Block) (q : Seq) (p k : Nat) (x : List Block) (u : State) : Prop where
  quiet : Quiet s u
  port : PortOk u
  seq : u.seq = q
  swap : u.status.swap = decide (p % 2 = 1)
  progress : u.progress = BitVec.ofNat 64 p
  current : u.loadBlocks (u.baseAddr .cw) (2 * r) = workLayout x
  table : ∀ j, j < k →
    u.loadBlocks (u.baseAddr .table + j * (128 * r)) (2 * r) = workLayout (blockMixTimes j x₀)
  kept : ∀ a, ¬ inScratch r n s a → u.readByte a = s.readByte a

end Sys2Proof.Machine

/-! PROOFS. SMIX's phases PREPARE and FILL (44_controller.md R253, R254). -/

namespace Sys2Proof.Machine

theorem Quiet.tableAddr {s t : State} (h : Quiet s t) : t.baseAddr .table = s.baseAddr .table := by
  simp only [State.baseAddr, h.latched]

/-- The position alone moves at the end of a block sequence that is not the command's last (R253). -/
theorem SmixAt.moved {r n p k : Nat} {s t : State} {x₀ x : List Block} {q : Seq} (h : SmixAt r n s x₀ q p k x t) (q' : Seq)
    (d : List Phase) : SmixAt r n s x₀ q' p k x { t with seq := q', phaseDraw := d } :=
  ⟨h.quiet.trans ⟨⟨⟨rfl, rfl, rfl, rfl, rfl, rfl⟩, rfl, rfl, rfl, rfl⟩, rfl, rfl, rfl, rfl, rfl⟩, h.port.of_eq rfl rfl, rfl, h.swap,
    h.progress, h.current, h.table, h.kept⟩

/-- The position in the fill loop after `i` of its `n` iterations (R254). -/
def fillSeq (n i : Nat) : Seq := if i < n then ⟨.fill, i, 0, 0⟩ else ⟨.fence, 0, 0, 0⟩

/-- The position in the mix loop after `i` of its `n` iterations (R256). -/
def mixSeq (n i : Nat) : Seq := if i < n then ⟨.mix, i, 0, 0⟩ else ⟨.restore, 0, 0, 0⟩

theorem SmixAt.moved_fill {r n p k i : Nat} {s t : State} {x₀ x : List Block} {q : Seq} (hr : SmixReady r n s)
    (h : SmixAt r n s x₀ q p k x t) (hph : t.seq.phase = .fill) (hi : t.seq.i = i) :
    SmixAt r n s x₀ (fillSeq n (i + 1)) p k x (endBlock t) := by
  have hn := (hr.of_quiet h.quiet).latchedN
  subst hi
  by_cases hlt : t.seq.i + 1 < n
  · simp only [endBlock, hph, hn, hlt, if_true, fillSeq, State.nextIter]
    exact h.moved _ _
  · simp only [endBlock, hph, hn, hlt, if_false, fillSeq, State.enterPhase]
    exact h.moved _ _

theorem SmixAt.moved_mix {r n p k i : Nat} {s t : State} {x₀ x : List Block} {q : Seq} (hr : SmixReady r n s)
    (h : SmixAt r n s x₀ q p k x t) (hph : t.seq.phase = .mix) (hi : t.seq.i = i) :
    SmixAt r n s x₀ (mixSeq n (i + 1)) p k x (endBlock t) := by
  have hn := (hr.of_quiet h.quiet).latchedN
  subst hi
  by_cases hlt : t.seq.i + 1 < n
  · simp only [endBlock, hph, hn, hlt, if_true, mixSeq, State.nextIter]
    exact h.moved _ _
  · simp only [endBlock, hph, hn, hlt, if_false, mixSeq, State.enterPhase]
    exact h.moved _ _

/-- PREPARE: the element stands in the working buffer in working layout (R194, R253). -/
theorem SmixReady.steps_prepare {r n : Nat} {s : State} (h : SmixReady r n s) (hrun : Running s) (hport : PortOk s)
    (hseq : s.seq = ⟨.prepare, 0, 0, 0⟩) (hswap : s.status.swap = false) (hprogress : s.progress = 0#64) :
    ∃ t, Steps (seqCost (prepSeq r)) s t
      ∧ SmixAt r n s (s.loadBlocks (s.baseAddr .elem) (2 * r)) (fillSeq n 0) 0 0 (s.loadBlocks (s.baseAddr .elem) (2 * r)) t := by
  have hserved : ServedAll (prepSeq r) s :=
    servedAll_of_opOk h.rPos (prepSeq_isPlain r) (prepSeq_ok h.rPos h.elem h.work)
  have hdone := prepSeq_done h.rPos h.elemApartWork
  have hcw : s.baseAddr .cw = s.baseAddr .work := by simp [State.baseAddr, State.cw, hswap]
  have hat : SmixAt r n s (s.loadBlocks (s.baseAddr .elem) (2 * r)) (performAll (prepSeq r) s).seq 0 0
      (s.loadBlocks (s.baseAddr .elem) (2 * r)) (performAll (prepSeq r) s) :=
    { quiet := hdone.quiet
      port := portOk_performAll hport hserved
      seq := rfl
      swap := by rw [hdone.steady.status, hswap]; rfl
      progress := hdone.steady.progress.trans hprogress
      current := by rw [hdone.steady.baseAddr, hcw, hdone.work]
      table := fun j hj => absurd hj (by omega)
      kept := fun a ha => hdone.kept a fun hw => ha (.inl (.inl hw)) }
  have hend : endBlock (performAll (prepSeq r) s) = (performAll (prepSeq r) s).enterPhase .fill := by
    simp only [endBlock, performAll_seq (prepSeq r) (show s.seq.t = 0 by rw [hseq]), hseq,
      (h.of_quiet hdone.quiet).isSmix, if_true]
  refine ⟨_, hrun.steps_block hseq (h.blockOps hseq) hserved, ?_⟩
  rw [hend, fillSeq, if_pos (show 0 < n from h.nPos)]
  exact hat.moved _ _

theorem decide_odd_succ (p : Nat) : decide ((p + 1) % 2 = 1) = !decide (p % 2 = 1) := by
  rcases Nat.mod_two_eq_zero_or_one p with h | h <;> simp [Nat.add_mod, h]

/-- The bytes BM writes in SMIX are scratch, and none lies in a table entry made before (R254, R256). -/
theorem bmWrites_scratch {r n k : Nat} {w : State} {mode : BmMode} {ob : Base} {oo : Nat}
    (hcopy : mode = .copy → ob = .table ∧ oo = k * (128 * r) ∧ k < n) {x : Nat} (hx : bmWrites r mode ob oo w x) :
    inScratch r n w x := by
  rcases hx with hx | ⟨hm, h1, h2⟩
  · exact inScratch_of_cs hx
  · obtain ⟨rfl, rfl, hk⟩ := hcopy hm
    exact inScratch_of_entry hk ⟨h1, h2⟩

theorem SmixReady.not_bmWrites_entry {r n k j : Nat} {w : State} {mode : BmMode} {ob : Base} {oo : Nat}
    (h : SmixReady r n w) (hcopy : mode = .copy → ob = .table ∧ oo = k * (128 * r) ∧ k < n) (hj : j < k) (hk : k ≤ n) {x : Nat}
    (h1 : w.baseAddr .table + j * (128 * r) ≤ x) (h2 : x < w.baseAddr .table + j * (128 * r) + 128 * r) :
    ¬ bmWrites r mode ob oo w x := by
  rintro (⟨h3, h4⟩ | ⟨hm, h3, h4⟩)
  · have hap := (h.buffersApartEntry (show j < n by omega)).1
    unfold Apart at hap
    omega
  · obtain ⟨rfl, rfl, _⟩ := hcopy hm
    have hle : (j + 1) * (128 * r) ≤ k * (128 * r) := Nat.mul_le_mul_right _ hj
    rw [Nat.succ_mul] at hle
    omega

/-- A BM in SMIX: CW holds the new working layout, one more BlockMix is counted, the table entries made before stand (R253). -/
theorem SmixAt.bm {r n p k : Nat} {s w t : State} {x₀ x : List Block} {q : Seq} {mode : BmMode} {ob : Base} {oo : Nat}
    {b : Nat → Block} (hr : SmixReady r n s) (h : SmixAt r n s x₀ q p k x w) (hdone : BmDone r mode ob oo b w t)
    (hport : PortOk t) (hk : k ≤ n) (hcopy : mode = .copy → ob = .table ∧ oo = k * (128 * r) ∧ k < n) :
    SmixAt r n s x₀ t.seq (p + 1) k (blockMix ((List.range (2 * r)).map b)) t := by
  have hw := hr.of_quiet h.quiet
  have hl := hdone.quiet.latched
  refine ⟨h.quiet.trans hdone.quiet, hport, rfl, ?_, ?_, ?_, ?_, ?_⟩
  · rw [hdone.swap, h.swap, decide_odd_succ]
  · rw [hdone.progress, h.progress, BitVec.ofNat_add]
  · rw [cw_eq_cs_of_swap hl hdone.swap, hdone.mixed]
  · intro j hj
    rw [hdone.quiet.tableAddr, ← h.table j hj]
    exact State.loadBlocks_congr fun y h1 h2 =>
      hdone.kept y (hw.not_bmWrites_entry hcopy hj hk h1 (by omega))
  · intro a ha
    rw [hdone.kept a fun hb => ha ?_, h.kept a ha]
    rw [← inScratch_congr h.quiet.latched]
    exact bmWrites_scratch hcopy hb

/-- One more table entry made (R254). -/
theorem SmixAt.addEntry {r n p k : Nat} {s t : State} {x₀ x : List Block} {q : Seq} (h : SmixAt r n s x₀ q p k x t)
    (he : t.loadBlocks (t.baseAddr .table + k * (128 * r)) (2 * r) = workLayout (blockMixTimes k x₀)) :
    SmixAt r n s x₀ q p (k + 1) x t := by
  refine { h with table := fun j hj => ?_ }
  rcases Nat.lt_succ_iff_lt_or_eq.1 hj with hj | rfl
  · exact h.table j hj
  · exact he

/-- FILL, one iteration: the working buffer goes to table entry `i` and is mixed (R254). -/
theorem SmixReady.steps_fill {r n i : Nat} {s u : State} {x₀ : List Block} (hs : SmixReady r n s) (hrun : Running s)
    (hx₀ : x₀.length = 2 * r) (hi : i < n) (h : SmixAt r n s x₀ (fillSeq n i) i i (blockMixTimes i x₀) u) :
    ∃ t, Steps (seqCost (bmSeq r .copy .table 0)) u t
      ∧ SmixAt r n s x₀ (fillSeq n (i + 1)) (i + 1) (i + 1) (blockMixTimes (i + 1) x₀) t := by
  have hr := hs.rPos
  have hu := hs.of_quiet h.quiet
  have hseq : u.seq = ⟨.fill, i, 0, 0⟩ := by rw [h.seq, fillSeq, if_pos hi]
  have hlen := length_blockMixTimes hs.rPos hx₀ i
  generalize hx : blockMixTimes i x₀ = x at h hlen
  have happart := hu.buffersApartEntry hi
  have hserved : ServedAll (bmSeq r .copy .table (i * (128 * r))) u :=
    servedAll_bmSeq hs.rPos hu.cw hu.cs fun _ => ⟨hu.table, by simp, tableEntry_offsetOk hi⟩
  have hready : BmReady r .copy .table (i * (128 * r)) (fun k => x.getD k zeroBlock) u :=
    { csApartCw := hu.csApartCw
      csApartOther := fun _ => happart.1
      cwApartOther := fun _ => happart.2
      inputFirst := loadBlock_of_workLayout (by omega) hlen h.current (j := 0) (by omega)
      input := fun k hk => loadBlock_of_workLayout (by omega) hlen h.current (j := k + 1) (by omega) }
  have hdone := hready.done hs.rPos
  have hat := h.bm hs hdone (portOk_performAll h.port hserved) (by omega) (fun _ => ⟨rfl, rfl, hi⟩)
  have hentry := hdone.copied rfl
  have hq := performAll_seq (bmSeq r .copy .table (i * (128 * r))) (show u.seq.t = 0 by rw [hseq])
  have hsteps := (h.quiet.running hrun).steps_block (ops := bmSeq r .copy .table (i * (128 * r))) hseq
    (hu.blockOps hseq) hserved
  rw [← hlen, ← eq_map_range_getD x, ← hx, ← blockMixTimes] at hat
  have hat' := hat.addEntry (by
    rw [hdone.quiet.tableAddr, hentry, h.current, hx])
  refine ⟨_, ?_, hat'.moved_fill hs (i := i) (by rw [hq, hseq]) (by rw [hq, hseq])⟩
  simpa only [seqCost, opsCost_bmSeq r .copy .table (i * (128 * r)) 0] using hsteps

end Sys2Proof.Machine

/-! PROOFS. SMIX's phases FENCE and MIX (44_controller.md R255, R256). -/

namespace Sys2Proof.Machine

/-- FENCE: every pending write is performed, and the engine reads as before (R87, R255). -/
theorem SmixReady.steps_fence {r n p k : Nat} {s u : State} {x₀ x : List Block} (hs : SmixReady r n s) (hrun : Running s)
    (h : SmixAt r n s x₀ ⟨.fence, 0, 0, 0⟩ p k x u) :
    ∃ t, Steps (seqCost [.fence]) u t ∧ SmixAt r n s x₀ (mixSeq n 0) p k x t := by
  have hu := hs.of_quiet h.quiet
  have hserved : ServedAll [.fence] u := ⟨fun q hq => (by cases hq), trivial⟩
  have hquiet := quiet_performAll (ops := [.fence]) (by simp) u
  have hbase := (steady_performAll (ops := [.fence]) (by simp [MicroOp.IsPlain]) u).baseAddr
  have hread : (performAll [.fence] u).readByte = u.readByte := by
    funext x
    rw [State.readByte_of_wbuf_nil rfl]
    exact u.read_drainAll h.port.mem h.port.wbuf x
  have hload := State.loadBlock_eq hread
  have hat : SmixAt r n s x₀ (performAll [.fence] u).seq p k x (performAll [.fence] u) :=
    { quiet := h.quiet.trans hquiet
      port := portOk_performAll h.port hserved
      seq := rfl
      swap := h.swap
      progress := h.progress
      current := by rw [hbase, ← h.current]; simp only [State.loadBlocks, hload]
      table := fun j hj => by rw [hbase, ← h.table j hj]; simp only [State.loadBlocks, hload]
      kept := fun a ha => by rw [hread, h.kept a ha] }
  have hend : endBlock (performAll [.fence] u) = (performAll [.fence] u).enterPhase .mix := by
    simp only [endBlock, performAll_seq [.fence] (show u.seq.t = 0 by rw [h.seq]), h.seq,
      ((h.quiet.trans hquiet).running hrun).noError, Option.isSome_none, Bool.false_eq_true, if_false]
  refine ⟨_, (h.quiet.running hrun).steps_block h.seq (hu.blockOps h.seq) hserved, ?_⟩
  rw [hend, mixSeq, if_pos (show 0 < n from hs.nPos)]
  exact hat.moved _ _

/-- INTEG leaves the index of the current element in JI (R227, R256). -/
theorem SmixAt.integ {r n p k : Nat} {s u : State} {x₀ x : List Block} {q : Seq} (hs : SmixReady r n s)
    (h : SmixAt r n s x₀ q p k x u) (hx : x.length = 2 * r) :
    SmixAt r n s x₀ ((MicroOp.integ .ji).perform u).seq p k x ((MicroOp.integ .ji).perform u)
      ∧ ((MicroOp.integ .ji).perform u).dp.ji.toNat = integerifyIndex n x := by
  have hr := hs.rPos
  refine ⟨⟨h.quiet.trans (quiet_perform (by simp) u), h.port.of_eq rfl rfl, rfl, h.swap, h.progress, h.current, h.table,
    h.kept⟩, ?_⟩
  exact integValue_toNat (by omega) hx (hs.of_quiet h.quiet).latchedN h.current

/-- MIX's BM is ready: its input is the current element XOR the table entry INTEG names (R256). -/
theorem SmixAt.mixReady {r n p : Nat} {s w : State} {x₀ y : List Block} {q : Seq} (hs : SmixReady r n s)
    (h : SmixAt r n s x₀ q p n y w) (hx₀ : x₀.length = 2 * r) (hy : y.length = 2 * r)
    (hji : w.dp.ji.toNat = integerifyIndex n y) (hlt : integerifyIndex n y < n) :
    BmReady r .xor .tableAtJI 0
      (fun k => (y.getD k zeroBlock).xorb ((blockMixTimes (integerifyIndex n y) x₀).getD k zeroBlock)) w := by
  have hr := hs.rPos
  have hw := hs.of_quiet h.quiet
  have hentry : w.baseAddr .tableAtJI = w.baseAddr .table + integerifyIndex n y * (128 * r) := by
    rw [hw.baseAddr_tableAtJI, hji]
  have hv := h.table _ hlt
  have hvlen := length_blockMixTimes hr hx₀ (integerifyIndex n y)
  rw [← hentry] at hv
  have hinput : ∀ k, k < 2 * r → bmInput .xor .tableAtJI 0 w k
      = diag ((y.getD (if k = 0 then 2 * r - 1 else k - 1) zeroBlock).xorb
          ((blockMixTimes (integerifyIndex n y) x₀).getD (if k = 0 then 2 * r - 1 else k - 1) zeroBlock)) := by
    intro k hk
    rw [bmInput, Nat.zero_add, loadBlock_of_workLayout (by omega) hy h.current hk,
      loadBlock_of_workLayout (by omega) hvlen hv hk, diag_xorb]
  exact
    { csApartCw := hw.csApartCw
      csApartOther := fun _ => by rw [Nat.add_zero, hentry]; exact (hw.buffersApartEntry hlt).1
      cwApartOther := fun hm => by cases hm
      inputFirst := hinput 0 (by omega)
      input := fun k hk => hinput (k + 1) (by omega) }

/-- MIX, one iteration: INTEG, then BM of the working buffer XOR the table entry it names (R256). -/
theorem SmixReady.steps_mix {r n i : Nat} {s u : State} {x₀ x : List Block} (hs : SmixReady r n s) (hrun : Running s)
    (hx₀ : x₀.length = 2 * r) (hx : x.length = 2 * r) (hi : i < n)
    (h : SmixAt r n s x₀ (mixSeq n i) (n + i) n (mixTimes n x₀ i x) u) :
    ∃ t, Steps (seqCost (.integ .ji :: bmSeq r .xor .tableAtJI 0)) u t
      ∧ SmixAt r n s x₀ (mixSeq n (i + 1)) (n + (i + 1)) n (mixTimes n x₀ (i + 1) x) t := by
  have hr := hs.rPos
  have hu := hs.of_quiet h.quiet
  have hseq : u.seq = ⟨.mix, i, 0, 0⟩ := by rw [h.seq, mixSeq, if_pos hi]
  have hylen := length_mixTimes hr n hx₀ hx i
  rw [mixTimes]
  generalize mixTimes n x₀ i x = y at h hylen
  have hlt : integerifyIndex n y < n := Nat.mod_lt _ hs.nPos
  obtain ⟨hw, hji⟩ := h.integ hs hylen
  have hready := hs.of_quiet hw.quiet
  have hserved : ServedAll (.integ .ji :: bmSeq r .xor .tableAtJI 0) u :=
    ⟨served_of_opOk (n := n) hr hu.cw, servedAll_bmSeq hr hready.cw hready.cs fun _ =>
      ⟨hready.tableAtJI (hji ▸ hlt), by simp, fun q hq => ⟨by omega, by omega⟩⟩⟩
  have hdone := (hw.mixReady hs hx₀ hylen hji hlt).done hr
  have hat := hw.bm hs hdone (portOk_performAll hw.port hserved.2) le_rfl (fun hm => by cases hm)
  rw [← xorBlocks_eq_map_range hylen (length_blockMixTimes hr hx₀ _), Nat.add_assoc] at hat
  have hq := performAll_seq (.integ .ji :: bmSeq r .xor .tableAtJI 0) (show u.seq.t = 0 by rw [hseq])
  refine ⟨_, (h.quiet.running hrun).steps_block hseq (hu.blockOps hseq) hserved, ?_⟩
  exact hat.moved_mix hs (i := i) (by rw [hq, hseq]) (by rw [hq, hseq])

end Sys2Proof.Machine

/-! PROOFS. SMIX's phases RESTORE and ZEROIZE, and its completion (44_controller.md R253, R258). -/

namespace Sys2Proof.Machine

/-- SMIX, started in `s`, at the start of its ZERO_SEQ: the element holds `y`, and outside element and scratch nothing has
changed (R253). -/
structure SmixRestored (r n : Nat) (s : State) (p : Nat) (y : List Block) (u : State) : Prop where
  quiet : Quiet s u
  port : PortOk u
  seq : u.seq = ⟨.zeroize, 0, 0, 0⟩
  swap : u.status.swap = decide (p % 2 = 1)
  progress : u.progress = BitVec.ofNat 64 p
  elem : u.loadBlocks (s.baseAddr .elem) (2 * r) = y
  kept : ∀ a, ¬ inScratch r n s a → ¬ inBlocks (s.baseAddr .elem) (2 * r) a → u.readByte a = s.readByte a

/-- RESTORE: the element CW images stands in the element region in natural layout and nominal order (R198, R253). -/
theorem SmixReady.steps_restore {r n p k : Nat} {s u : State} {x₀ x : List Block} (hs : SmixReady r n s) (hrun : Running s)
    (hx : x.length = 2 * r) (h : SmixAt r n s x₀ ⟨.restore, 0, 0, 0⟩ p k x u) :
    ∃ t, Steps (seqCost (restSeq r)) u t ∧ SmixRestored r n s p x t := by
  have hr := hs.rPos
  have hu := hs.of_quiet h.quiet
  have hserved : ServedAll (restSeq r) u :=
    servedAll_of_opOk hr (restSeq_isPlain r) (restSeq_ok hr hu.elem hu.cw)
  have hdone := restSeq_done hr hu.elemApartCw
  have hquiet := h.quiet.trans hdone.quiet
  have helem : u.baseAddr .elem = s.baseAddr .elem := by simp only [State.baseAddr, h.quiet.latched]
  have hblocks := hdone.elem
  rw [h.current, workLayoutInv_workLayout (by omega) hx, helem] at hblocks
  have hend : endBlock (performAll (restSeq r) u) = (performAll (restSeq r) u).enterPhase .zeroize := by
    simp only [endBlock, performAll_seq (restSeq r) (show u.seq.t = 0 by rw [h.seq]), h.seq,
      (hs.of_quiet hquiet).isSmix, if_true]
  have hport := portOk_performAll h.port hserved
  refine ⟨_, (h.quiet.running hrun).steps_block h.seq (hu.blockOps h.seq) hserved, ?_⟩
  rw [hend]
  generalize performAll (restSeq r) u = v at hdone hquiet hblocks hport
  exact
    { quiet := hquiet.trans ⟨stepFrame_enterPhase _ _, rfl, rfl, rfl, rfl, rfl⟩
      port := hport.of_eq rfl rfl
      seq := rfl
      swap := by rw [← h.swap, ← hdone.steady.status]; rfl
      progress := hdone.steady.progress.trans h.progress
      elem := hblocks
      kept := fun a h1 h2 => (hdone.kept a (helem ▸ h2)).trans (h.kept a h1) }

/-- What SMIX leaves, started in `s`, with `y` in the element (R253, R258, R260). -/
structure SmixDone (r n : Nat) (s : State) (p : Nat) (y : List Block) (t : State) : Prop where
  frame : StepFrame s t
  status : t.status = ⟨false, true, s.status.err, decide (p % 2 = 1), s.status.wign, true⟩
  errInfo : t.errInfo = s.errInfo
  errAddr : t.errAddr = s.errAddr
  j : t.j = s.j
  progress : t.progress = BitVec.ofNat 64 p
  seq : t.seq = idleSeq
  wbuf : t.wbuf = []
  dp : t.dp = zeroDatapath
  elem : t.mem.blocks (s.baseAddr .elem) (2 * r) = y
  zero : ∀ a, inScratch r n s a → t.mem.read a = 0#8
  kept : ∀ a, ¬ inScratch r n s a → ¬ inBlocks (s.baseAddr .elem) (2 * r) a → t.mem.read a = s.readByte a

/-- The element is not scratch (R247). -/
theorem SmixReady.not_inScratch_of_elem {r n : Nat} {s : State} (h : SmixReady r n s) {a : Nat}
    (ha : inBlocks (s.baseAddr .elem) (2 * r) a) : ¬ inScratch r n s a := by
  have h1 := h.elemApartWork
  have h2 := h.elemApartShuf
  have h3 := h.elemApartTable
  unfold inBlocks at ha
  unfold Apart at h1 h2
  have htb : 64 * (2 * r * n) = 128 * r * n := by ring
  unfold inScratch inBlocks
  rw [htb]
  omega

/-- Memory after the completion fence reads as the engine read before it (R88). -/
theorem read_complete {s : State} (h : PortOk s) (a : Nat) : s.complete.mem.read a = s.readByte a := by
  rw [State.complete_mem]
  exact s.read_drainAll h.mem h.wbuf a

theorem blocks_complete {s : State} (h : PortOk s) (a k : Nat) : s.complete.mem.blocks a k = s.loadBlocks a k := by
  refine List.map_congr_left fun q _ => Block.ofBytes_congr _ _ fun i _ => ?_
  exact read_complete h _

/-- Completion with no error reports none (R285). -/
theorem complete_noError {s : State} (h : s.pendingErr = none) :
    s.complete.errInfo = s.errInfo ∧ s.complete.errAddr = s.errAddr := by
  simp [State.complete, State.reportError, h]

/-- ZERO_SEQ and completion end SMIX (R253, R258). -/
theorem SmixReady.steps_zeroize {r n p : Nat} {s u : State} {y : List Block} (hs : SmixReady r n s) (hrun : Running s)
    (h : SmixRestored r n s p y u) : ∃ t, Steps (seqCost (zeroSeq r n)) u t ∧ SmixDone r n s p y t := by
  have hr := hs.rPos
  have hu := hs.of_quiet h.quiet
  have hserved : ServedAll (zeroSeq r n) u := by
    have hok := zeroSeq_ok (r := r) (n := n) (sh := Usable r n u) hu.work hu.shuf hu.table
    rw [zeroSeq_eq] at hok ⊢
    refine servedAll_append.2 ⟨servedAll_of_opOk hr (zeroBody_isPlain r n) fun op ho => hok op (by simp [ho]), ?_, trivial⟩
    intro q hq
    cases hq
  have hdone := zeroSeq_done r n u
  have hport := portOk_performAll h.port hserved
  generalize hv : performAll (zeroSeq r n) u = v at hdone hport
  have hquiet := h.quiet.trans hdone.quiet
  have hscratch : inScratch r n u = inScratch r n s := inScratch_congr h.quiet.latched
  have hend : endBlock v = v.complete := by
    have hseq := performAll_seq (zeroSeq r n) (show u.seq.t = 0 by rw [h.seq])
    rw [hv] at hseq
    simp only [endBlock, hseq, h.seq]
  have hnone : v.pendingErr = none := (hquiet.running hrun).noError
  refine ⟨v.complete, ?_, ?_⟩
  · rw [← hend, ← hv]
    exact (h.quiet.running hrun).steps_block h.seq (hu.blockOps h.seq) hserved
  · refine
      { frame := hquiet.frame.trans (stepFrame_complete v)
        status := ?_
        errInfo := (complete_noError hnone).1.trans hquiet.errInfo
        errAddr := (complete_noError hnone).2.trans hquiet.errAddr
        j := by rw [State.complete_j, hquiet.j]
        progress := by rw [State.complete_progress, hdone.progress, h.progress]
        seq := State.complete_seq v
        wbuf := State.complete_wbuf v
        dp := by rw [State.complete_dp, hdone.dp]
        elem := ?_
        zero := fun a ha => (read_complete hport a).trans (hdone.zero a (hscratch ▸ ha))
        kept := fun a h1 h2 => by
          rw [read_complete hport, hdone.kept a (hscratch ▸ h1), h.kept a h1 h2] }
    · rw [State.complete_status, hnone, State.zeroizing, (hs.of_quiet hquiet).cmd, hdone.zeroOk, hquiet.status, hdone.status,
        h.swap]
      simp [Status.completed, zeroizes]
    · rw [blocks_complete hport, ← h.elem]
      refine State.loadBlocks_congr fun a h1 h2 => hdone.kept a ?_
      rw [hscratch]
      exact hs.not_inScratch_of_elem ⟨h1, h2⟩

end Sys2Proof.Machine

/-! PROOFS. SMIX from acceptance to completion (44_controller.md R253, R260). -/

namespace Sys2Proof.Machine

/-- SMIX from its acceptance to its completion, in as many steps as its budget (R252, R253, R343). -/
theorem SmixReady.steps_smix {r n : Nat} {s : State} (hs : SmixReady r n s) (hrun : Running s) (hport : PortOk s)
    (hseq : s.seq = ⟨.prepare, 0, 0, 0⟩) (hswap : s.status.swap = false) (hprogress : s.progress = 0#64) :
    ∃ t, Steps (commandBudget .smix r n) s t
      ∧ SmixDone r n s (2 * n) (scryptSMix n (s.loadBlocks (s.baseAddr .elem) (2 * r))) t := by
  have hlen := s.length_loadBlocks (s.baseAddr .elem) (2 * r)
  obtain ⟨a, ha, hA⟩ := hs.steps_prepare hrun hport hseq hswap hprogress
  generalize s.loadBlocks (s.baseAddr .elem) (2 * r) = x at hA hlen
  obtain ⟨b, hb, hB⟩ := steps_loop (P := fun i u => SmixAt r n s x (fillSeq n i) i i (blockMixTimes i x) u)
    (fun i u hi hu => hs.steps_fill hrun hlen hi hu) hA n le_rfl
  rw [fillSeq, if_neg (lt_irrefl n)] at hB
  obtain ⟨c, hc, hC⟩ := hs.steps_fence hrun hB
  have hfilled := length_blockMixTimes hs.rPos hlen n
  obtain ⟨d, hd, hD⟩ := steps_loop
    (P := fun i u => SmixAt r n s x (mixSeq n i) (n + i) n (mixTimes n x i (blockMixTimes n x)) u)
    (fun i u hi hu => hs.steps_mix hrun hlen hfilled hi hu) hC n le_rfl
  rw [mixSeq, if_neg (lt_irrefl n), ← Nat.two_mul] at hD
  obtain ⟨e, he, hE⟩ := hs.steps_restore hrun (length_mixTimes hs.rPos n hlen hfilled n) hD
  obtain ⟨t, ht, hT⟩ := hs.steps_zeroize hrun hE
  exact ⟨t, ((((ha.trans hb).trans hc).trans hd).trans he).trans ht, hT⟩

/-! ### SMIX's acceptance -/

/-- The state an accepted SMIX starts in (R240, R241). -/
def State.smixStart (s : State) : State := (s.beginIssue (encode .smix)).accept .smix

/-- The latched quantities of SMIX are those of the parameter registers (R241, R242). -/
theorem smixStart_latched {s : State} (h1 : ArgCheck.a1.holds s.params = true) (h2 : ArgCheck.a2.holds s.params = true)
    (h3 : ArgCheck.a3.holds s.params = true) :
    s.smixStart.latched.r.toNat = s.params.r ∧ s.smixStart.latched.eb.toNat = 128 * s.params.r
      ∧ s.smixStart.latched.n.toNat = s.params.n ∧ s.smixStart.baseAddr .elem = s.params.elem := by
  obtain ⟨hr, hlr, hleb⟩ := a1_sizes h1 s.latched
  have helem := a2_elem h1 h2
  have heb : s.params.eb = 128 * s.params.r := rfl
  simp only [ArgCheck.holds, decide_eq_true_eq] at h3
  refine ⟨hlr, hleb, ?_, ?_⟩
  · show (s.params.costN.setWidth 32).toNat = s.params.costN.toNat
    rw [BitVec.toNat_setWidth, Nat.mod_eq_of_lt]
    have : s.params.costN.toNat ≤ 2 ^ 32 - 1 := h3.2
    omega
  · show (BitVec.ofNat 64 s.params.elem).toNat = s.params.elem
    rw [BitVec.toNat_ofNat, Nat.mod_eq_of_lt (by omega)]

/-- A region of the command is usable as the buffer of a base, when it stands where the base points (R244, R245, R286). -/
theorem usable_of_region {r n : Nat} {s u : State} {b : Base} {g : Region} (hbase : u.baseAddr b = g.base)
    (hspan : b.span r n = g.size) (hplatform : u.platform = s.platform) (halign : b ≠ .elem → g.base % 64 = 0)
    (hspace : g.stop ≤ Config.addressLimit) (hg : g ∈ commandRegions .smix s) (hbus : NoBusError .smix s) : Usable r n u b := by
  refine ⟨hbase ▸ halign, by rw [hbase, hspan]; exact hspace, fun q h1 h2 => ?_⟩
  rw [hplatform]
  refine hbus q (List.any_eq_true.2 ⟨g, hg, ?_⟩)
  rw [hbase] at h1 h2
  rw [hspan] at h2
  exact decide_eq_true ⟨h1, h2⟩

/-- The argument checks of an accepted SMIX (R247). -/
theorem Accepts.smix_args {s : State} (h : Accepts .smix s) :
    ArgCheck.a1.holds s.params = true ∧ ArgCheck.a2.holds s.params = true ∧ ArgCheck.a3.holds s.params = true := by
  obtain ⟨_, hcheck, _, _⟩ := h
  obtain ⟨hargs, _⟩ := verdict_none hcheck
  exact ⟨hargs .a1 (by simp [commandChecks, smixChecks]), hargs .a2 (by simp [commandChecks, smixChecks]),
    hargs .a3 (by simp [commandChecks, smixChecks])⟩

/-- What acceptance has checked makes SMIX ready (R242 to R247). -/
theorem smixReady_of_runs {s : State} (h : Runs .smix s) : SmixReady s.params.r s.params.n s.smixStart := by
  obtain ⟨hacc, hbus, _⟩ := h
  obtain ⟨h1, h2, h3⟩ := hacc.smix_args
  obtain ⟨_, hcheck, _, _⟩ := hacc
  obtain ⟨_, haligned, hscratch, hdisjoint⟩ := verdict_none hcheck
  obtain ⟨hlr, hleb, hln, hle⟩ := smixStart_latched h1 h2 h3
  have hstop : ∀ g ∈ (commandChecks .smix s).scratch, g.stop ≤ Config.addressLimit := fun g hg =>
    (of_decide_eq_true (hscratch g hg)).2
  simp only [commandChecks, smixChecks, List.mem_cons, List.not_mem_nil, or_false, forall_eq_or_imp, forall_eq] at haligned hstop
  simp only [commandChecks, smixChecks, pairwiseDisjoint, List.all_cons, List.all_nil, Bool.and_true, Bool.and_eq_true,
    Region.disjoint, decide_eq_true_eq] at hdisjoint
  obtain ⟨hwork, hshuf, htable⟩ := haligned
  obtain ⟨hworkStop, hshufStop, htableStop⟩ := hstop
  obtain ⟨⟨hew, hes, het⟩, ⟨hws, hwt⟩, hst⟩ := hdisjoint
  have helemStop : s.elemRegion.stop ≤ Config.addressLimit := a2_elem h1 h2
  exact
    { cmd := rfl
      latchedR := hlr
      latchedEb := hleb
      latchedN := hln
      rPos := (a1_sizes h1 s.latched).1
      nPos := (of_decide_eq_true h3).1
      elem := usable_of_region (s := s) (g := s.elemRegion) hle rfl rfl (fun h => absurd rfl h) helemStop (by simp [commandRegions]) hbus
      work := usable_of_region (s := s) (g := s.workRegion) rfl rfl rfl (fun _ => hwork) hworkStop (by simp [commandRegions]) hbus
      shuf := usable_of_region (s := s) (g := s.shufRegion) rfl rfl rfl (fun _ => hshuf) hshufStop (by simp [commandRegions]) hbus
      table := usable_of_region (s := s) (g := s.tableRegion) rfl rfl rfl (fun _ => htable) htableStop (by simp [commandRegions]) hbus
      elemApartWork := hle ▸ hew
      elemApartShuf := hle ▸ hes
      elemApartTable := hle ▸ het
      workApartShuf := hws
      workApartTable := hwt
      shufApartTable := hst }

/-- An element is 2r blocks (R242). -/
theorem Params.eb_eq_blocks (p : Params) : p.eb = 64 * (2 * p.r) := by
  unfold Params.eb
  ring

/-- A region of whole blocks (R245). -/
theorem Region.has_iff_inBlocks {g : Region} {k : Nat} (h : g.size = 64 * k) (a : Nat) :
    g.has a = true ↔ inBlocks g.base k a := by
  simp [Region.has, Region.stop, inBlocks, h]

/-- The scratch of SMIX is its three scratch regions (R247, R258). -/
theorem inScratch_iff_inRegions (s : State) (a : Nat) :
    inScratch s.params.r s.params.n s.smixStart a ↔ inRegions [s.workRegion, s.shufRegion, s.tableRegion] a = true := by
  have heb := s.params.eb_eq_blocks
  have htb : s.params.tb = 64 * (2 * s.params.r * s.params.n) := by unfold Params.tb Params.eb; ring
  rw [inRegions, List.any_cons, List.any_cons, List.any_cons, List.any_nil, Bool.or_false, Bool.or_eq_true, Bool.or_eq_true,
    Region.has_iff_inBlocks (g := s.workRegion) heb, Region.has_iff_inBlocks (g := s.shufRegion) heb,
    Region.has_iff_inBlocks (g := s.tableRegion) htb, ← or_assoc]
  rfl

/-- Settles O27: the run from acceptance to completion, phase by phase, ends with SMix(E, N) in the element. -/
theorem smixComputesScryptSMix : Obligations.SmixComputesScryptSMix := by
  intro s h
  have hready := smixReady_of_runs h
  obtain ⟨hacc, _, hwf, hwbuf⟩ := h
  have hport : PortOk s.smixStart := ⟨hwf, show BufferOk s.wbuf from hwbuf ▸ bufferOk_nil⟩
  obtain ⟨t, hsteps, hdone⟩ := hready.steps_smix ⟨rfl, rfl⟩ hport rfl (Bool.and_false _) rfl
  obtain ⟨h1, h2, h3⟩ := hacc.smix_args
  obtain ⟨_, _, _, helem⟩ := smixStart_latched h1 h2 h3
  have hread : s.smixStart.readByte = s.mem.read := funext fun a => State.readByte_of_wbuf_nil (s := s.smixStart) hwbuf a
  have hexec : exec .smix s = .next t := by
    rw [exec_eq_runCommand, runCommand_accepts hacc]
    have hbudget := hsteps.runToIdle_eq
    rwa [← hready.latchedR, ← hready.latchedN] at hbudget
  have hn : s.params.n < 2 ^ 32 := by
    rw [← hready.latchedN]
    exact s.smixStart.latched.n.isLt
  refine ⟨t, hexec, ?_, fun a ha => ?_, fun a ha => ?_, hdone.dp, hdone.j, ?_⟩
  · have hblocks : s.smixStart.loadBlocks s.params.elem (2 * s.params.r) = s.mem.blocks s.params.elem (2 * s.params.r) := by
      simp only [State.loadBlocks, State.loadBlock, hread, Memory.blocks, Memory.readBlock]
    have helems := hdone.elem
    rwa [helem, hblocks] at helems
  · exact hdone.zero a ((inScratch_iff_inRegions s a).2 ha)
  · obtain ⟨hel, hsc⟩ : s.elemRegion.has a = false ∧ inRegions [s.workRegion, s.shufRegion, s.tableRegion] a = false := by
      simpa [inRegions] using ha
    have heb := s.params.eb_eq_blocks
    rw [hdone.kept a ?_ ?_, hread]
    · rw [inScratch_iff_inRegions, hsc]
      exact Bool.false_ne_true
    · rw [helem]
      exact fun hb => Bool.false_ne_true (hel.symm.trans ((Region.has_iff_inBlocks (g := s.elemRegion) heb a).2 hb))
  · exact
      { status := by rw [hdone.status, decide_eq_false (by omega)]; rfl
        cmd := hdone.frame.cmd
        errInfo := hdone.errInfo
        errAddr := hdone.errAddr
        progress := by rw [hdone.progress, BitVec.toNat_ofNat]; exact Nat.mod_eq_of_lt (by omega)
        seq := hdone.seq
        wbuf := hdone.wbuf
        outside := hdone.frame.outside }

end Sys2Proof.Machine

/-! PROOFS. One engine step, inverted: the five things it can be (44_controller.md R252, 60_exceptions.md R286). -/

namespace Sys2Proof.Machine

/-! ### What an engine step can be -/

/-- What an engine step makes of a state: the draws and the record of the requests (logs 6, 10) move beside it. -/
inductive EngineMove (s : State) : State → Prop
  /-- The micro-operation of the position is performed. -/
  | served {op : MicroOp} (tr : List Request) (d : Nat) (hop : s.blockOps[s.seq.q]? = some op) :
      EngineMove s (op.run { s with trace := tr, draws := d })
  /-- Its request fails and the sequence goes on: a streaming store's, or a zero write's (R286, R287). -/
  | passed {op : MicroOp} (tr : List Request) (d : Nat) (e : Option Reg64) (w : List PendingWrite) (ok : Bool)
      (hop : s.blockOps[s.seq.q]? = some op) (hreq : op.request s ≠ none)
      (hlate : s.seq.phase = .zeroize ∨ op.reqKind s = some .writeNonTemporal) :
      EngineMove s
        { s with
          trace := tr, draws := d, pendingErr := e, wbuf := w, zeroOk := ok
          seq := { s.seq with q := s.seq.q + 1, t := 0 } }
  /-- The command stops on an error: of the micro-operation of the position, or one that was on its way (R286). -/
  | stopped (tr : List Request) (d : Nat) (e : Reg64) (w : List PendingWrite) (ops : List MicroOp) (lost : List BlkReg)
      (hphase : s.seq.phase ≠ .zeroize)
      (hcause : s.pendingErr ≠ none ∨ ∃ op, s.blockOps[s.seq.q]? = some op ∧ op.request s ≠ none) :
      EngineMove s ({ s with trace := tr, draws := d, pendingErr := some e, wbuf := w }.stopCommand ops lost)
  /-- The block sequence ends. -/
  | ended (d : Nat) (hend : s.blockOps[s.seq.q]? = none) (hfence : s.seq.phase = .fence → s.pendingErr = none) :
      EngineMove s (endBlock { s with draws := d })

/-- What a failing request leaves (R169, R286). -/
theorem State.failRequest_eq (s : State) (q : Request) :
    ∃ d e w, s.failRequest q = { s with draws := d, pendingErr := some e, wbuf := w } := by
  have he : ∃ e, s.pendingErr.or (some (BitVec.ofNat 64 q.addr)) = some e := by cases s.pendingErr <;> simp
  obtain ⟨e, he⟩ := he
  unfold State.failRequest
  split
  · exact ⟨s.draws + 16, e, s.wbuf ++ [⟨q.addr, s.freeBlock⟩], by rw [← he]; rfl⟩
  · exact ⟨s.draws, e, s.wbuf, by rw [← he]; rfl⟩

theorem State.countArrival_eq (s : State) : ∃ d, s.countArrival = { s with draws := d } := by
  unfold State.countArrival
  split
  · exact ⟨s.draws + 1, rfl⟩
  · exact ⟨s.draws, rfl⟩

/-- A failing request stops the command, but for a streaming store's and a zero write's (R286, R287). -/
theorem EngineMove.of_busError {s : State} {op : MicroOp} {q : Request} {d : Nat} (hop : s.blockOps[s.seq.q]? = some op)
    (hq : op.request s = some q) : EngineMove s (busError op q ({ s with draws := d }.record q)) := by
  have hreq : op.request s ≠ none := by rw [hq]; simp
  obtain ⟨d', e, w, hf⟩ := ({ s with draws := d }.record q).failRequest_eq q
  unfold busError
  split
  next hz =>
    rw [failedZero, hf]
    exact .passed (q :: s.trace) d' (some e) w false hop hreq (.inl hz)
  next hz =>
    split
    next hk =>
      rw [streamError, hf]
      exact .passed (q :: s.trace) d' (some e) w s.zeroOk hop hreq (.inr (hk ▸ (MicroOp.request_addr hq).2))
    next =>
      rw [errorStop, hf]
      exact .stopped (q :: s.trace) d' e w _ _ hz (.inr ⟨op, hop, hreq⟩)

/-- The sequencer's step, after the draw of an arrival. -/
theorem EngineMove.of_sequencerStep {s t : State} {d : Nat} (h : sequencerStep { s with draws := d } = .next t) :
    EngineMove s t := by
  rcases sequencerStep_cases h with ⟨op, hop, hp⟩ | ⟨hend, rfl⟩
  · rcases performOp_cases hp with ⟨_, rfl⟩ | ⟨q, hq, _, _, ⟨_, rfl⟩ | ⟨_, rfl⟩⟩
    · exact .served s.trace d hop
    · exact .of_busError hop (by rw [← hq]; cases op <;> rfl)
    · exact .served (q :: s.trace) d hop
  · by_cases hf : s.seq.phase = .fence ∧ s.pendingErr ≠ none
    · obtain ⟨e, he⟩ := Option.ne_none_iff_exists'.1 hf.2
      have hstop : endBlock { s with draws := d } = { s with draws := d, pendingErr := some e }.stopCommand
          ({ s with draws := d }.blockOps.drop s.seq.q) [] := by
        rw [show ({ s with draws := d, pendingErr := some e } : State) = { s with draws := d } by rw [← he]]
        simp only [endBlock, hf.1, he, Option.isSome_some, if_true, lateStop]
      rw [hstop]
      exact .stopped s.trace d e s.wbuf _ _ (by rw [hf.1]; simp) (.inl hf.2)
    · exact .ended d hend fun hp => by_contra fun he => hf ⟨hp, he⟩

/-- Every engine step is one of the moves. -/
theorem engineMove_of_engineStep {s t : State} (h : engineStep s = .next t) : EngineMove s t := by
  obtain ⟨d, hd⟩ := s.countArrival_eq
  rcases engineStep_cases h with ⟨ha, rfl⟩ | ⟨_, hs⟩
  · obtain ⟨⟨he, hz⟩, _⟩ : (s.pendingErr.isSome = true ∧ s.seq.phase ≠ .zeroize) ∧ Config.freeBool s.draws = true := by
      simpa [State.errorArrives, State.errorInFlight] using ha
    obtain ⟨e, he⟩ := Option.isSome_iff_exists.1 he
    have hsame : s.countArrival = { s with draws := d, pendingErr := some e } := by rw [hd, ← he]
    rw [lateStop, hsame]
    exact .stopped s.trace d e s.wbuf _ _ hz (.inl (by rw [he]; simp))
  · exact .of_sequencerStep (hd ▸ hs)

end Sys2Proof.Machine

/-! PROOFS. Which micro-operations stand in which phase's block sequence (44_controller.md R253). -/

namespace Sys2Proof.Machine

/-- The phases that are one BM an iteration (R253). -/
def Phase.countsBm : Phase → Bool
  | .fill => true
  | .mix => true
  | .blockmix => true
  | .idle => false
  | .prepare => false
  | .fence => false
  | .restore => false
  | .zeroize => false
  | .integerify => false
  | .salsa => false

/-- Where a phase runs BM, the end of BM stands last and nowhere else (R220). -/
theorem blockSeq_endsBm (c : Instr) (r n i : Nat) {ph : Phase} (h : ph.countsBm = true) :
    ∃ body, blockSeq c r n ph i = body ++ [.bmEnd] ∧ ∀ op ∈ body, op ≠ .bmEnd := by
  have hbody : ∀ mode ob oo, ∀ op ∈ bmBody r mode ob oo, op ≠ .bmEnd := fun _ _ _ op hop => (bmBody_ops op hop).2.1
  cases ph with
  | fill => exact ⟨_, bmSeq_eq _ _ _ _, hbody _ _ _⟩
  | blockmix => exact ⟨_, bmSeq_eq _ _ _ _, hbody _ _ _⟩
  | mix =>
    refine ⟨.integ .ji :: bmBody r .xor .tableAtJI 0, by rw [blockSeq, bmSeq_eq]; rfl, ?_⟩
    rintro op (_ | ⟨_, hop⟩)
    · simp
    · exact hbody _ _ _ op hop
  | _ => cases h

/-- The micro-operations BM has for the other buffer alone: streaming stores and hints (R211). -/
def MicroOp.forOther : MicroOp → Bool
  | .stn _ _ _ => true
  | .pfn _ _ => true
  | .flush _ _ => true
  | .lda _ _ _ _ => false
  | .ldu _ _ _ => false
  | .integ _ => false
  | .sta _ _ _ _ => false
  | .staZero _ _ => false
  | .stu _ _ _ _ => false
  | .xorb _ _ _ => false
  | .move _ _ => false
  | .salsa _ => false
  | .bmEnd => false
  | .fence => false
  | .zeroBegin => false
  | .zeroEnd => false

theorem salsaSeq_ops (c : Instr) : ∀ op ∈ salsaSeq c, op.IsPlain ∧ op.forOther = false := by
  cases c <;> simp [salsaSeq, MicroOp.IsPlain, MicroOp.forOther]

theorem prepSeq_ops (r : Nat) : ∀ op ∈ prepSeq r, op.IsPlain ∧ op.forOther = false := by
  intro op h
  simp only [prepSeq, prepIter, List.mem_append, List.mem_flatMap, List.mem_range, List.mem_cons, List.not_mem_nil, or_false] at h
  rcases h with ⟨i, _, rfl | rfl⟩ | rfl | rfl <;> simp [MicroOp.IsPlain, MicroOp.forOther]

theorem restSeq_ops (r : Nat) : ∀ op ∈ restSeq r, op.IsPlain ∧ op.forOther = false := by
  intro op h
  simp only [restSeq, restIter, List.mem_append, List.mem_flatMap, List.mem_range, List.mem_cons, List.not_mem_nil, or_false] at h
  rcases h with (rfl | ⟨i, _, rfl | rfl⟩) | rfl <;> simp [MicroOp.IsPlain, MicroOp.forOther]

theorem zeroBody_ops (r n : Nat) : ∀ op ∈ zeroBody r n, op.IsPlain ∧ op.forOther = false := by
  intro op h
  simp only [zeroBody, zeroFill, List.mem_append, List.mem_map, List.mem_cons, List.not_mem_nil, or_false] at h
  rcases h with ((rfl | ⟨q, _, rfl⟩) | ⟨q, _, rfl⟩) | ⟨q, _, rfl⟩ <;> simp [MicroOp.IsPlain, MicroOp.forOther]

/-- A streaming store stands in BM in mode Copy alone (R211). -/
theorem stn_mem_bmSeq {r oo o : Nat} {mode : BmMode} {ob b : Base} {g : BlkReg}
    (h : MicroOp.stn g b o ∈ bmSeq r mode ob oo) : mode = .copy := by
  cases mode with
  | copy => rfl
  | none => simp [bmSeq, bmHead, bmIter, bmTail] at h
  | xor => simp [bmSeq, bmHead, bmIter, bmTail] at h

/-- Where no BM runs, no micro-operation counts one (R220). -/
theorem blockSeq_noBmEnd {c : Instr} {r n i : Nat} {ph : Phase} (h : ph.countsBm = false) :
    ∀ op ∈ blockSeq c r n ph i, op ≠ .bmEnd := by
  intro op hop
  cases ph with
  | prepare => exact (prepSeq_ops r op hop).1.2.1
  | restore => exact (restSeq_ops r op hop).1.2.1
  | salsa => exact (salsaSeq_ops c op hop).1.2.1
  | zeroize =>
    rcases List.mem_append.1 hop with hop | hop
    · exact (zeroBody_ops r n op hop).1.2.1
    · rw [List.mem_singleton.1 hop]; simp
  | fence => rw [List.mem_singleton.1 hop]; simp
  | integerify => rw [List.mem_singleton.1 hop]; simp
  | idle => cases hop
  | _ => cases h

/-- The end of BM is reached exactly by performing it (R220). -/
theorem blockSeq_bmEnd_iff {c : Instr} {r n i q : Nat} {ph : Phase} {op : MicroOp}
    (hop : (blockSeq c r n ph i)[q]? = some op) :
    op = .bmEnd ↔ ph.countsBm = true ∧ q + 1 = (blockSeq c r n ph i).length := by
  cases hc : ph.countsBm with
  | true =>
    obtain ⟨body, hb, hbody⟩ := blockSeq_endsBm c r n i hc
    rw [hb] at hop ⊢
    simpa using bmEnd_iff_last hbody hop
  | false => simpa using blockSeq_noBmEnd hc op (List.mem_of_getElem? hop)

/-- The micro-operations for the other buffer stand where BM runs (R211). -/
theorem countsBm_of_forOther {c : Instr} {r n i : Nat} {ph : Phase} {op : MicroOp} (ho : op.forOther = true)
    (h : op ∈ blockSeq c r n ph i) : ph.countsBm = true := by
  have absurd' : op.forOther = false → ph.countsBm = true := fun hf => by rw [ho] at hf; cases hf
  cases ph with
  | fill | mix | blockmix => rfl
  | prepare => exact absurd' (prepSeq_ops r op h).2
  | restore => exact absurd' (restSeq_ops r op h).2
  | salsa => exact absurd' (salsaSeq_ops c op h).2
  | zeroize =>
    rcases List.mem_append.1 h with h | h
    · exact absurd' (zeroBody_ops r n op h).2
    · exact absurd' (by rw [List.mem_singleton.1 h]; rfl)
  | fence => exact absurd' (by rw [List.mem_singleton.1 h]; rfl)
  | integerify => exact absurd' (by rw [List.mem_singleton.1 h]; rfl)
  | idle => cases h

/-- Streaming stores stand where their error may be on its way (R165, R286). -/
theorem streamPhases_of_stn {c : Instr} {r n i o : Nat} {ph : Phase} {g : BlkReg} {b : Base} (hph : ph ∈ phasesOf c)
    (h : MicroOp.stn g b o ∈ blockSeq c r n ph i) : ph ∈ streamPhases c := by
  have hcounts := countsBm_of_forOther rfl h
  cases ph with
  | fill =>
    cases c <;> simp [phasesOf] at hph
    simp [streamPhases]
  | blockmix =>
    have hmode : blockmixMode c = .copy := stn_mem_bmSeq h
    cases c <;> simp [blockmixMode] at hmode
    simp [streamPhases]
  | mix =>
    rcases List.mem_cons.1 h with h | h
    · cases h
    · cases stn_mem_bmSeq h
  | _ => cases hcounts

/-- Behind MIX's INTEG nothing writes JI (R256). -/
theorem blockSeq_mix_tail {c : Instr} {r n i q : Nat} {op : MicroOp} (hq : q ≠ 0)
    (hop : (blockSeq c r n .mix i)[q]? = some op) : op ≠ .zeroEnd ∧ ∀ d, op ≠ .integ d := by
  obtain ⟨q, rfl⟩ := Nat.exists_eq_succ_of_ne_zero hq
  have hmem : op ∈ bmSeq r .xor .tableAtJI 0 := List.mem_of_getElem? (i := q) (by simpa [blockSeq] using hop)
  rw [bmSeq_eq] at hmem
  rcases List.mem_append.1 hmem with hmem | hmem
  · exact ⟨(bmBody_ops op hmem).1, (bmBody_ops op hmem).2.2⟩
  · rw [List.mem_singleton.1 hmem]; simp

end Sys2Proof.Machine

/-! PROOFS. A running command's conditions are kept by every engine step, until it has ended (10_state.md R50, R55). -/

namespace Sys2Proof.Machine

/-- The command runs on as its conditions say, or has ended and left the engine idle (R50, R88). -/
def RunsOrIdle (c : Instr) (t : State) : Prop :=
  (t.status.busy = true ∧ RunsCommand c t) ∨ (t.status.busy = false ∧ IdleOk t)

/-! ### What a running command's conditions say of its position -/

section
variable {c : Instr} {s : State}

theorem RunsCommand.blockOps_eq (h : RunsCommand c s) :
    s.blockOps = blockSeq c s.latched.r.toNat s.latched.n.toNat s.seq.phase s.seq.i := by
  simp [State.blockOps, h.cmd]

theorem RunsCommand.phase_mem (h : RunsCommand c s) : s.seq.phase ∈ phasesOf c := h.position.1

theorem RunsCommand.op_eq (h : RunsCommand c s) {op : MicroOp} (hop : s.blockOps[s.seq.q]? = some op) :
    (blockSeq c s.latched.r.toNat s.latched.n.toNat s.seq.phase s.seq.i)[s.seq.q]? = some op := h.blockOps_eq ▸ hop

theorem RunsCommand.isSmix_iff (h : RunsCommand c s) : s.isSmix = true ↔ c = .smix := by
  simp [State.isSmix, h.cmd]

/-- At the end of the block sequence the position stands behind its last micro-operation. -/
theorem RunsCommand.atEnd (h : RunsCommand c s) (hend : s.blockOps[s.seq.q]? = none) : s.seq.q = s.blockOps.length := by
  obtain ⟨_, _, hq, _⟩ := h.position
  exact Nat.le_antisymm hq (List.getElem?_eq_none_iff.1 hend)

/-- The end of BM is performed exactly where PROGRESS is about to count it (R220). -/
theorem RunsCommand.bmEnd_iff (h : RunsCommand c s) {op : MicroOp} (hop : s.blockOps[s.seq.q]? = some op) :
    op = .bmEnd ↔ s.seq.phase.countsBm = true ∧ s.seq.q + 1 = s.blockOps.length := by
  rw [h.blockOps_eq]
  exact blockSeq_bmEnd_iff (h.op_eq hop)

end

/-- 1 at the end of the block sequence, whose last micro-operation counts where BM runs. -/
def State.ended (s : State) : Nat := if s.seq.q = s.blockOps.length then 1 else 0

/-- PROGRESS at the position: the BMs of the phases and iterations before it, and the one that has just ended (R49). -/
theorem progressOk_of_counts {c : Instr} {s t : State} (hl : t.latched = s.latched) (hp : t.seq.phase = s.seq.phase)
    (hi : t.seq.i = s.seq.i) (h : progressOk c s)
    (hcount : t.progress.toNat + (if s.seq.phase.countsBm then s.ended else 0)
      = s.progress.toNat + (if s.seq.phase.countsBm then t.ended else 0)) : progressOk c t := by
  have hends : (if t.seq.q = t.blockOps.length then 1 else 0) = t.ended := rfl
  have hends' : (if s.seq.q = s.blockOps.length then 1 else 0) = s.ended := rfl
  simp only [progressOk, hl, hp, hi, hends, hends'] at h ⊢
  cases hph : s.seq.phase <;> simp only [hph, Phase.countsBm, if_true, Bool.false_eq_true, if_false] at h hcount ⊢ <;> omega

theorem RunsCommand.smix_of_phase {c : Instr} {s : State} (h : RunsCommand c s)
    (hp : s.seq.phase = .fill ∨ s.seq.phase = .fence ∨ s.seq.phase = .mix) : c = .smix := by
  have only : ∀ ph ∈ phasesOf c, ph = .fill ∨ ph = .fence ∨ ph = .mix → c = .smix := by cases c <;> decide
  exact only _ h.phase_mem hp

/-- The iteration is one of the phase's (R55). -/
theorem RunsCommand.iter_lt {c : Instr} {s : State} (h : RunsCommand c s)
    (hp : s.seq.phase = .fill ∨ s.seq.phase = .mix) : s.seq.i < s.latched.n.toNat := by
  obtain ⟨_, hi, _, _⟩ := h.position
  rwa [if_pos hp] at hi

theorem State.ended_le (s : State) : s.ended ≤ 1 := by unfold State.ended; split <;> omega

/-- PROGRESS is never above the final count (R49). -/
theorem RunsCommand.progress_le {c : Instr} {s : State} (h : RunsCommand c s) :
    s.progress.toNat ≤ finalProgress s.latched.n.toNat c := by
  have hends := s.ended_le
  have hp := h.progress
  cases hphase : s.seq.phase with simp only [progressOk, hphase] at hp
  | fill =>
    obtain rfl := h.smix_of_phase (.inl hphase)
    have hi := h.iter_lt (.inl hphase)
    exact hp.trans_le (show s.seq.i + s.ended ≤ 2 * _ by omega)
  | fence =>
    obtain rfl := h.smix_of_phase (.inr (.inl hphase))
    exact hp.trans_le (show _ ≤ 2 * _ by omega)
  | mix =>
    obtain rfl := h.smix_of_phase (.inr (.inr hphase))
    have hi := h.iter_lt (.inr hphase)
    exact hp.trans_le (show _ + s.seq.i + s.ended ≤ 2 * _ by omega)
  | blockmix =>
    have hone : finalProgress s.latched.n.toNat c = 1 := by
      have only : Phase.blockmix ∈ phasesOf c → ∀ n, finalProgress n c = 1 := by cases c <;> simp [phasesOf, finalProgress]
      exact only (hphase ▸ h.phase_mem) _
    rw [hone]
    exact hp.trans_le hends
  | restore => exact hp.le
  | zeroize => exact hp
  | _ => omega

theorem finalProgress_le (c : Instr) (n : Nat) : finalProgress n c ≤ 2 * n + 1 := by
  cases c <;> simp only [finalProgress] <;> omega

/-- Counting a BM does not overflow. -/
theorem RunsCommand.progress_succ {c : Instr} {s : State} (h : RunsCommand c s) :
    (s.progress + 1#64).toNat = s.progress.toNat + 1 := by
  have hle := h.progress_le.trans (finalProgress_le c _)
  have hn := s.latched.n.isLt
  rw [BitVec.toNat_add]
  exact Nat.mod_eq_of_lt (by simp; omega)

/-! ### A micro-operation performed -/

theorem opInteg_ji_lt {a : Nat} {s : State} (hn : 1 ≤ s.latched.n.toNat) :
    ((opInteg .ji a s).dp.ji).toNat < s.latched.n.toNat := by
  have hlt : (s.loadWord a).toNat % s.latched.n.toNat < s.latched.n.toNat := Nat.mod_lt _ hn
  have := s.latched.n.isLt
  simp only [opInteg, integValue, BitVec.toNat_ofNat]
  rwa [Nat.mod_eq_of_lt (by omega)]

theorem RunsCommand.n_pos {s : State} (h : RunsCommand .smix s) : 1 ≤ s.latched.n.toNat := h.geometry.2.1

/-- JI stays a table index (R256). -/
theorem RunsCommand.tableIndex_run {c : Instr} {s : State} (h : RunsCommand c s) {op : MicroOp}
    (hop : s.blockOps[s.seq.q]? = some op) (hp : s.seq.phase = .mix) :
    (op.run s).dp.ji.toNat < s.latched.n.toNat := by
  obtain rfl := h.smix_of_phase (.inr (.inr hp))
  have hop' := hp ▸ h.op_eq hop
  by_cases h0 : s.seq.q = 0
  · have hinteg : op = .integ .ji := by
      rw [h0] at hop'
      simpa [blockSeq] using hop'.symm
    rw [hinteg]
    exact opInteg_ji_lt h.n_pos
  · obtain ⟨hz, hi⟩ := blockSeq_mix_tail h0 hop'
    rw [op.run_ji s hz hi]
    exact h.tableIndex hp (Nat.one_le_iff_ne_zero.2 h0)

/-- The FENCE performs every pending write (R87). -/
theorem RunsCommand.fenced_run {c : Instr} {s : State} (h : RunsCommand c s) {op : MicroOp}
    (hop : s.blockOps[s.seq.q]? = some op) (hp : s.seq.phase = .fence) : (op.run s).wbuf = [] := by
  have hop' := List.mem_of_getElem? (h.op_eq hop)
  rw [hp] at hop'
  rw [List.mem_singleton.1 hop']
  rfl

/-- PROGRESS counts a BM exactly where the position reaches its end (R220). -/
theorem RunsCommand.counts_run {c : Instr} {s : State} (h : RunsCommand c s) {op : MicroOp}
    (hop : s.blockOps[s.seq.q]? = some op) :
    (op.run s).progress.toNat + (if s.seq.phase.countsBm then s.ended else 0)
      = s.progress.toNat + (if s.seq.phase.countsBm then (op.run s).ended else 0) := by
  have hends : s.ended = 0 := if_neg (List.getElem?_eq_some_iff.1 hop).1.ne
  obtain ⟨hph, hi, _, _, _, _, _⟩ := op.run_fields s
  obtain ⟨_, hsame, hcount⟩ := op.run_progress s
  have hops : (op.run s).blockOps = s.blockOps := State.blockOps_congr (stepFrame_run op s).latched hph hi
  have hiff := h.bmEnd_iff hop
  by_cases hb : op = .bmEnd
  · obtain ⟨hc, hlast⟩ := hiff.1 hb
    have hends' : (op.run s).ended = 1 := by
      subst hb
      exact if_pos (by rw [hops]; exact hlast)
    rw [(hcount hb).1, h.progress_succ, hends, hends']
    simp [hc]
  · rw [hsame hb, hends]
    cases hc : s.seq.phase.countsBm with
    | false => rfl
    | true =>
      have hne : s.seq.q + 1 ≠ s.blockOps.length := fun hl => hb (hiff.2 ⟨hc, hl⟩)
      have hlt := (List.getElem?_eq_some_iff.1 hop).1
      have hends' : (op.run s).ended = 0 := if_neg (by rw [hops]; omega)
      rw [hends']

/-- A micro-operation performed keeps the running command's conditions. -/
theorem RunsCommand.run {c : Instr} {s : State} (h : RunsCommand c s) {op : MicroOp}
    (hop : s.blockOps[s.seq.q]? = some op) : RunsCommand c (op.run s) := by
  have hl := (stepFrame_run op s).latched
  obtain ⟨hph, hi, herr, hdraw, _, hstatus, hq⟩ := op.run_fields s
  obtain ⟨hseen, hsame, hcount⟩ := op.run_progress s
  have hops : (op.run s).blockOps = s.blockOps := State.blockOps_congr hl hph hi
  have hlt := (List.getElem?_eq_some_iff.1 hop).1
  obtain ⟨p1, p2, p3, p4⟩ := h.position
  refine ⟨hl ▸ h.cmd, geometryOk_congr hl (fun hc => ?_) h.geometry, ⟨?_, ?_, ?_, ?_⟩, ?_, ?_, fun hp _ => ?_, ?_,
    progressOk_of_counts hl hph hi h.progress (h.counts_run hop), ?_, fun hc => ?_, hl ▸ h.writes⟩
  · have hb : op ≠ .bmEnd := fun hb => by
      have hcounts := ((h.bmEnd_iff hop).1 hb).1
      rcases hc with rfl | rfl <;> simp [phasesOf] at p1 <;> simp [p1, Phase.countsBm] at hcounts
    rw [hstatus hb]
  · rw [hph]; exact p1
  · rw [hph, hi, hl]; exact p2
  · rw [hops]; omega
  · omega
  · rw [hph, hl]; exact fun hp _ => h.tableIndex_run hop hp
  · rw [hph, herr]; exact h.errorPhase
  · exact h.fenced_run hop (hph ▸ hp)
  · rw [hph, hdraw]; exact h.phases
  · rw [hseen]
    refine h.progressSeen.trans ?_
    by_cases hb : op = .bmEnd
    · rw [(hcount hb).1, h.progress_succ]; omega
    · rw [hsame hb]
  · by_cases hb : op = .bmEnd
    · obtain ⟨hpr, hsw⟩ := hcount hb
      rw [hpr, hsw, h.progress_succ, h.swap hc, decide_odd_succ]
    · rw [hstatus hb, hsame hb, h.swap hc]

end Sys2Proof.Machine

/-! PROOFS. A running command passes an error by, stops, or moves to its next block sequence (60_exceptions.md R286, R287,
44_controller.md R253). -/

namespace Sys2Proof.Machine

/-! ### The phases in their order -/

theorem phasesOf_nodup (c : Instr) : (phasesOf c).Nodup := by cases c <;> decide

/-- Where nothing repeats, a sublist may be followed by whatever stands behind its last element. -/
theorem sublist_append_of_last {α : Type} {l m : List α} {p p' : α} (hl : l.Sublist m) (hm : m.Nodup)
    (hlast : l.getLast? = some p) (hafter : [p, p'].Sublist m) : (l ++ [p']).Sublist m := by
  induction hl with
  | slnil => cases hlast
  | @cons l m a hl ih =>
    obtain ⟨ha, hm⟩ := List.nodup_cons.1 hm
    have hp : p ∈ m := hl.subset (List.mem_of_getLast? hlast)
    rcases List.sublist_cons_iff.1 hafter with h | ⟨_, h, _⟩
    · exact (ih hm hlast h).cons a
    · cases h
      exact absurd hp ha
  | @cons_cons l m a hl ih =>
    obtain ⟨ha, hm⟩ := List.nodup_cons.1 hm
    cases l with
    | nil =>
      obtain rfl : a = p := by simpa using hlast
      exact hafter
    | cons b l =>
      have hlast' : (b :: l).getLast? = some p := by simpa using hlast
      have hp : p ∈ m := hl.subset (List.mem_of_getLast? hlast')
      rcases List.sublist_cons_iff.1 hafter with h | ⟨_, h, _⟩
      · exact (ih hm hlast' h).cons_cons a
      · cases h
        exact absurd hp ha

/-! ### An error passed by -/

/-- A failing request that lets the sequence go on keeps the running command's conditions (R286, R287). -/
theorem RunsCommand.pass {c : Instr} {s : State} (h : RunsCommand c s) {op : MicroOp}
    (hop : s.blockOps[s.seq.q]? = some op) (hreq : op.request s ≠ none)
    (hlate : s.seq.phase = .zeroize ∨ op.reqKind s = some .writeNonTemporal) (tr : List Request) (d : Nat)
    (e : Option Reg64) (w : List PendingWrite) (ok : Bool) :
    RunsCommand c
      { s with
        trace := tr, draws := d, pendingErr := e, wbuf := w, zeroOk := ok
        seq := { s.seq with q := s.seq.q + 1, t := 0 } } := by
  obtain ⟨p1, p2, p3, p4⟩ := h.position
  have hlt := (List.getElem?_eq_some_iff.1 hop).1
  have hmem := List.mem_of_getElem? (h.op_eq hop)
  have hb : op ≠ .bmEnd := fun hb => by subst hb; exact hreq rfl
  have hphase : s.seq.phase ∈ Phase.zeroize :: streamPhases c := by
    rcases hlate with hz | hk
    · rw [hz]; exact List.mem_cons_self ..
    · refine List.mem_cons_of_mem _ ?_
      cases op with
      | stn g b o => exact streamPhases_of_stn p1 hmem
      | pfn b o => cases hp : s.ctrl.pfe <;> simp [MicroOp.reqKind, hp] at hk
      | flush b o => cases hp : s.ctrl.fle <;> simp [MicroOp.reqKind, hp] at hk
      | _ => cases hk
  have hcounts : s.seq.phase.countsBm = true → s.seq.q + 1 ≠ s.blockOps.length := fun hc hl => hb ((h.bmEnd_iff hop).2 ⟨hc, hl⟩)
  refine ⟨h.cmd, h.geometry, ⟨p1, p2, hlt, Nat.zero_le _⟩, fun hp _ => ?_, fun _ => hphase, fun hp _ => ?_, h.phases,
    progressOk_of_counts (s := s) rfl rfl rfl h.progress ?_, h.progressSeen, h.swap, h.writes⟩
  · have hp' : s.seq.phase = .mix := hp
    obtain rfl := h.smix_of_phase (.inr (.inr hp'))
    simp [hp', streamPhases] at hphase
  · have hp' : s.seq.phase = .fence := hp
    rw [hp'] at hmem
    rw [List.mem_singleton.1 hmem] at hreq
    exact absurd rfl hreq
  · cases hc : s.seq.phase.countsBm with
    | false => rfl
    | true => exact congrArg (s.progress.toNat + ·) ((if_neg hlt.ne : s.ended = 0).trans (if_neg (hcounts hc)).symm)

/-! ### The next phase, the next iteration, and the end -/

/-- SMIX enters a later phase (R253). -/
theorem RunsCommand.enterPhase {s : State} (h : RunsCommand .smix s) {ph : Phase}
    (hafter : [s.seq.phase, ph].Sublist (phasesOf .smix)) (hprogress : progressOk .smix (s.enterPhase ph))
    (tr : List Request) (d : Nat) {e : Option Reg64} (w : List PendingWrite)
    (herr : e.isSome → ph ∈ Phase.zeroize :: streamPhases .smix) :
    RunsCommand .smix ({ s with trace := tr, draws := d, pendingErr := e, wbuf := w }.enterPhase ph) := by
  refine ⟨h.cmd, h.geometry, ⟨hafter.subset (by simp), ?_, Nat.zero_le _, Nat.zero_le _⟩, fun _ hq => absurd hq (by simp), herr,
    fun _ hq => absurd hq (by simp), ⟨sublist_append_of_last h.phases.1 (phasesOf_nodup _) h.phases.2 hafter, by simp⟩,
    hprogress, h.progressSeen, h.swap, h.writes⟩
  show if ph = .fill ∨ ph = .mix then 0 < s.latched.n.toNat else 0 = 0
  split
  · exact h.n_pos
  · rfl

/-- ZERO_SEQ comes last in SMIX (R253). -/
theorem sublist_zeroize {ph : Phase} (hmem : ph ∈ phasesOf .smix) (hz : ph ≠ .zeroize) : [ph, .zeroize].Sublist (phasesOf .smix) := by
  revert hmem hz
  cases ph <;> decide

/-- A running command stops on an error: SMIX in ZERO_SEQ, any other at its end (R286 items 6 to 8). -/
theorem RunsCommand.stop {c : Instr} {s : State} (h : RunsCommand c s) (hb : s.status.busy = true)
    (hphase : s.seq.phase ≠ .zeroize) (tr : List Request)
    (d : Nat) (e : Reg64) (w : List PendingWrite) (ops : List MicroOp) (lost : List BlkReg) :
    RunsOrIdle c ({ s with trace := tr, draws := d, pendingErr := some e, wbuf := w }.stopCommand ops lost) := by
  obtain ⟨u, hu, hc⟩ := State.stopCommand_cases { s with trace := tr, draws := d, pendingErr := some e, wbuf := w } ops lost
  obtain ⟨d', w', rfl⟩ : ∃ d' w', u = { s with trace := tr, draws := d', pendingErr := some e, wbuf := w' } := by
    rcases hu with rfl | rfl
    · exact ⟨d, w, rfl⟩
    · exact ⟨_, _, rfl⟩
  rcases hc with ⟨hsmix, hc⟩ | ⟨_, hc⟩ <;> rw [hc]
  · obtain rfl := h.isSmix_iff.1 hsmix
    exact .inl ⟨hb, h.enterPhase (sublist_zeroize h.phase_mem hphase) h.progress_le tr d' w' fun _ => List.mem_cons_self ..⟩
  · exact .inr ⟨rfl, State.complete_idleOk _⟩

theorem progressOk_fill {c : Instr} {s : State} (hp : s.seq.phase = .fill) :
    progressOk c s ↔ s.progress.toNat = s.seq.i + s.ended := by
  simp only [progressOk, hp, State.ended]

theorem progressOk_mix {c : Instr} {s : State} (hp : s.seq.phase = .mix) :
    progressOk c s ↔ s.progress.toNat = s.latched.n.toNat + s.seq.i + s.ended := by
  simp only [progressOk, hp, State.ended]

/-- FILL and MIX go on with their next iteration (R253). -/
theorem RunsCommand.nextIter {s : State} (h : RunsCommand .smix s) (hend : s.seq.q = s.blockOps.length)
    (hp : s.seq.phase = .fill ∨ s.seq.phase = .mix) (hi : s.seq.i + 1 < s.latched.n.toNat) :
    RunsCommand .smix s.nextIter := by
  have hends : s.ended = 1 := if_pos hend
  have hends' : s.nextIter.ended = 0 := by
    have hcounts : s.seq.phase.countsBm = true := by rcases hp with hp | hp <;> rw [hp] <;> rfl
    obtain ⟨body, hbody, _⟩ := blockSeq_endsBm .smix s.latched.r.toNat s.latched.n.toNat (s.seq.i + 1) hcounts
    have hops : s.nextIter.blockOps = body ++ [.bmEnd] := by
      rw [← hbody]; simp [State.blockOps, h.cmd]
    refine if_neg ?_
    rw [hops]
    simp
  have hprogress : progressOk .smix s.nextIter := by
    rcases hp with hp | hp
    · have h0 := (progressOk_fill hp).1 h.progress
      refine (progressOk_fill (s := s.nextIter) hp).2 ?_
      rw [hends']
      show s.progress.toNat = s.seq.i + 1 + 0
      omega
    · have h0 := (progressOk_mix hp).1 h.progress
      refine (progressOk_mix (s := s.nextIter) hp).2 ?_
      rw [hends']
      show s.progress.toNat = s.latched.n.toNat + (s.seq.i + 1) + 0
      omega
  exact ⟨h.cmd, h.geometry, ⟨h.phase_mem, by rw [State.nextIter_seq, if_pos hp]; exact hi, Nat.zero_le _, Nat.zero_le _⟩,
    fun _ hq => absurd hq (by simp), h.errorPhase, fun _ hq => absurd hq (by simp), h.phases, hprogress, h.progressSeen, h.swap,
    h.writes⟩

/-- After its last iteration a phase has run its N BMs (R254, R256). -/
theorem RunsCommand.last_iter {s : State} (h : RunsCommand .smix s) (hp : s.seq.phase = .fill ∨ s.seq.phase = .mix)
    (hi : ¬ s.seq.i + 1 < s.latched.n.toNat) : s.seq.i + 1 = s.latched.n.toNat := by
  have := h.iter_lt hp
  omega

/-- A later phase begins with no BM of its own counted (R49). -/
theorem State.enterPhase_ended {c : Instr} {s : State} (h : RunsCommand c s) {ph : Phase}
    (hpos : blockSeq c s.latched.r.toNat s.latched.n.toNat ph 0 ≠ []) : (s.enterPhase ph).ended = 0 := by
  refine if_neg fun hq => hpos (List.eq_nil_of_length_eq_zero ?_)
  have hops : (s.enterPhase ph).blockOps = blockSeq c s.latched.r.toNat s.latched.n.toNat ph 0 := by
    simp [State.blockOps, h.cmd]
  rw [← hops]
  exact hq.symm

/-- Outside FILL, FENCE and ZERO_SEQ no error of SMIX is on its way (R286). -/
theorem RunsCommand.noError {s : State} (h : RunsCommand .smix s)
    (hp : s.seq.phase = .prepare ∨ s.seq.phase = .mix ∨ s.seq.phase = .restore) : ¬ s.pendingErr.isSome := fun he => by
  have hmem := h.errorPhase he
  rcases hp with hp | hp | hp <;> simp [hp, streamPhases] at hmem

/-- The end of a block sequence keeps the running command's conditions, or ends the command (R252, R253). -/
theorem RunsCommand.endBlock {c : Instr} {s : State} (h : RunsCommand c s) (hb : s.status.busy = true)
    (hend : s.blockOps[s.seq.q]? = none) (hfence : s.seq.phase = .fence → s.pendingErr = none) : RunsOrIdle c (endBlock s) := by
  have hq := h.atEnd hend
  have hends : s.ended = 1 := if_pos hq
  have hdone : RunsOrIdle c s.complete := .inr ⟨rfl, s.complete_idleOk⟩
  have hpr := h.progress
  unfold Machine.endBlock
  split
  next hp =>
    split
    next hs =>
      obtain rfl := h.isSmix_iff.1 hs
      have h0 : s.progress.toNat = 0 := by simpa only [progressOk, hp] using hpr
      refine .inl ⟨hb, h.enterPhase (ph := .fill) (by rw [hp]; decide) ?_ s.trace s.draws s.wbuf
        fun he => absurd he (h.noError (.inl hp))⟩
      refine (progressOk_fill rfl).2 ?_
      rw [State.enterPhase_ended h (by simp [blockSeq, bmSeq_eq])]
      exact h0
    next => exact hdone
  next hp =>
    obtain rfl := h.smix_of_phase (.inl hp)
    have h0 := (progressOk_fill hp).1 hpr
    split
    next hi => exact .inl ⟨hb, h.nextIter hq (.inl hp) hi⟩
    next hi =>
      have hlast := h.last_iter (.inl hp) hi
      have hn : s.progress.toNat = s.latched.n.toNat := by omega
      exact .inl ⟨hb, h.enterPhase (ph := .fence) (by rw [hp]; decide) hn s.trace s.draws s.wbuf fun _ => by simp [streamPhases]⟩
  next hp =>
    obtain rfl := h.smix_of_phase (.inr (.inl hp))
    have h0 : s.progress.toNat = s.latched.n.toNat := by simpa only [progressOk, hp] using hpr
    have hnone : ¬ s.pendingErr.isSome := by rw [hfence hp]; simp
    rw [if_neg hnone]
    refine .inl ⟨hb, h.enterPhase (ph := .mix) (by rw [hp]; decide) ?_ s.trace s.draws s.wbuf fun he => absurd he hnone⟩
    refine (progressOk_mix rfl).2 ?_
    rw [State.enterPhase_ended h (by simp [blockSeq])]
    exact h0
  next hp =>
    obtain rfl := h.smix_of_phase (.inr (.inr hp))
    have h0 := (progressOk_mix hp).1 hpr
    split
    next hi => exact .inl ⟨hb, h.nextIter hq (.inr hp) hi⟩
    next hi =>
      have hlast := h.last_iter (.inr hp) hi
      have hn : s.progress.toNat = 2 * s.latched.n.toNat := by omega
      exact .inl ⟨hb, h.enterPhase (ph := .restore) (by rw [hp]; decide) hn s.trace s.draws s.wbuf
        fun he => absurd he (h.noError (.inr (.inl hp)))⟩
  next hp =>
    split
    next hs =>
      obtain rfl := h.isSmix_iff.1 hs
      exact .inl ⟨hb, h.enterPhase (ph := .zeroize) (by rw [hp]; decide) h.progress_le s.trace s.draws s.wbuf
        fun _ => List.mem_cons_self ..⟩
    next => exact hdone
  all_goals exact hdone

/-- Every engine step of a running command keeps its conditions, or ends it (R50, R55). -/
theorem RunsCommand.engineStep {c : Instr} {s t : State} (h : RunsCommand c s) (hb : s.status.busy = true)
    (hstep : engineStep s = .next t) : RunsOrIdle c t := by
  cases engineMove_of_engineStep hstep with
  | @served op tr d hop =>
    have hu : RunsCommand c { s with trace := tr, draws := d } := h.of_eq rfl rfl rfl rfl rfl rfl rfl rfl id
    obtain ⟨_, _, _, _, hbusy, _⟩ := op.run_fields { s with trace := tr, draws := d }
    exact .inl ⟨hbusy.trans hb, hu.run hop⟩
  | passed tr d e w ok hop hreq hlate => exact .inl ⟨hb, h.pass hop hreq hlate tr d e w ok⟩
  | stopped tr d e w ops lost hphase _ => exact h.stop hb hphase tr d e w ops lost
  | ended d hend hfence =>
    have hu : RunsCommand c { s with draws := d } := h.of_eq rfl rfl rfl rfl rfl rfl rfl rfl id
    exact hu.endBlock hb hend hfence

end Sys2Proof.Machine

/-! PROOFS. An accepted command starts as its conditions say (44_controller.md R241 to R247). -/

namespace Sys2Proof.Machine

/-! ### What acceptance has checked -/

section
variable {i : Instr} {s : State}

/-- A scratch region whose base is among the aligned ones is a buffer for aligned requests (R244, R245). -/
theorem Accepts.placed (h : Accepts i s) {g : Region} (hs : g ∈ (commandChecks i s).scratch)
    (ha : g.base ∈ (commandChecks i s).aligned) : Placed g.base g.size := by
  obtain ⟨_, hcheck, _, _⟩ := h
  obtain ⟨_, haligned, husable, _⟩ := verdict_none hcheck
  exact ⟨haligned _ ha, (of_decide_eq_true (husable g hs)).2⟩

/-- A1: the latched r and EB are exact (R242). -/
theorem Accepts.sizes (h : Accepts i s) (ha : .a1 ∈ (commandChecks i s).args) :
    1 ≤ s.params.r ∧ (BitVec.ofNat 64 s.params.r).toNat = s.params.r
      ∧ (BitVec.ofNat 64 s.params.eb).toNat = 128 * s.params.r := by
  obtain ⟨_, hcheck, _, _⟩ := h
  exact a1_sizes ((verdict_none hcheck).1 .a1 ha) s.latched

/-- A1 and A2: the latched element lies inside the address space (R242). -/
theorem Accepts.elemFits (h : Accepts i s) (ha : .a1 ∈ (commandChecks i s).args) (hb : .a2 ∈ (commandChecks i s).args) :
    (BitVec.ofNat 64 s.params.elem).toNat + 128 * s.params.r ≤ Config.addressLimit := by
  obtain ⟨_, hcheck, _, _⟩ := h
  obtain ⟨hargs, _⟩ := verdict_none hcheck
  have hfits : s.params.elem + 128 * s.params.r ≤ Config.addressLimit := a2_elem (hargs .a1 ha) (hargs .a2 hb)
  have hle : (BitVec.ofNat 64 s.params.elem).toNat ≤ s.params.elem := by
    rw [BitVec.toNat_ofNat]
    exact Nat.mod_le _ _
  omega

/-- A3: the latched N is exact and at least 1 (R242). -/
theorem Accepts.count (h : Accepts i s) (ha : .a3 ∈ (commandChecks i s).args) :
    1 ≤ s.params.n ∧ (s.params.costN.setWidth 32).toNat = s.params.n := by
  obtain ⟨_, hcheck, _, _⟩ := h
  have h3 := (verdict_none hcheck).1 .a3 ha
  simp only [ArgCheck.holds, decide_eq_true_eq] at h3
  refine ⟨h3.1, ?_⟩
  rw [BitVec.toNat_setWidth]
  exact Nat.mod_eq_of_lt (show s.params.n < _ by omega)

/-- A scratch region ends inside the address space (R245). -/
theorem Accepts.scratchFits (h : Accepts i s) {g : Region} (hs : g ∈ (commandChecks i s).scratch) :
    g.stop ≤ Config.addressLimit := by
  obtain ⟨_, hcheck, _, _⟩ := h
  obtain ⟨_, _, husable, _⟩ := verdict_none hcheck
  exact (of_decide_eq_true (husable g hs)).2

end

/-- The state an accepted command starts in (R240, R241). -/
def State.started (s : State) (i : Instr) : State := (s.beginIssue (encode i)).accept i

/-! ### The quantities latched (R34, R241, log 17) -/

section
variable (s : State) (i : Instr)

theorem State.started_r : (s.started i).latched.r =
    if i ∈ [.integerify, .salsa8, .salsa8Nat] then s.latched.r else BitVec.ofNat 64 s.params.r := by
  cases i <;> rfl

theorem State.started_eb : (s.started i).latched.eb =
    if i ∈ [.integerify, .salsa8, .salsa8Nat] then s.latched.eb else BitVec.ofNat 64 s.params.eb := by
  cases i <;> rfl

theorem State.started_n : (s.started i).latched.n =
    if i ∈ [.smix, .integerify, .zeroize] then s.params.costN.setWidth 32 else s.latched.n := by
  cases i <;> rfl

theorem State.started_elem : (s.started i).latched.elem =
    if i ∈ [.smix, .prepare, .restore] then BitVec.ofNat 64 s.params.elem else s.latched.elem := by
  cases i <;> rfl

theorem State.started_work : (s.started i).latched.work =
    if i ∈ [.salsa8, .salsa8Nat] then s.latched.work else s.params.workBase := by
  cases i <;> rfl

theorem State.started_shuf : (s.started i).latched.shuf =
    if i ∈ [.prepare, .salsa8, .salsa8Nat] then s.latched.shuf else s.params.shufBase := by
  cases i <;> rfl

theorem State.started_table : (s.started i).latched.table =
    if i ∈ [.smix, .zeroize] then s.params.tableBase else s.latched.table := by
  cases i <;> rfl

theorem State.started_other : (s.started i).latched.other =
    if i ∈ [.blockmixCopy, .blockmixXor, .salsa8, .salsa8Nat] then s.params.otherBase else s.latched.other := by
  cases i <;> rfl

theorem State.started_owned : (s.started i).latched.owned = commandRegions i s := by
  cases i <;> rfl

theorem State.started_writes : (s.started i).latched.writes = commandWrites i s := by
  cases i <;> rfl

end

/-- CW names the same buffer before acceptance and after it, where acceptance leaves SWAP (R33, R241). -/
theorem State.started_cw (s : State) {i : Instr} (h : i = .restore ∨ i = .integerify) : (s.started i).cw = s.cwParam := by
  have hswap : (s.started i).status.swap = s.status.swap := by rcases h with rfl | rfl <;> exact Bool.and_true _
  rcases h with rfl | rfl <;> simp [State.cw, State.cwParam, hswap, State.started_work, State.started_shuf]

/-- The latched parameters of an accepted command passed its checks (R242 to R247). -/
theorem Accepts.geometry {i : Instr} {s : State} (h : Accepts i s) : geometryOk i (s.started i) := by
  cases i with
    simp only [geometryOk, sizesOk, State.started_r, State.started_eb, State.started_n, State.started_elem, State.started_work,
      State.started_shuf, State.started_table, State.started_other, List.mem_cons, List.not_mem_nil, reduceCtorEq, or_false,
      or_true, or_self, if_true, if_false]
  | smix =>
    obtain ⟨hr, er, eb⟩ := h.sizes (.head _)
    obtain ⟨hn, en⟩ := h.count (.tail _ (.tail _ (.head _)))
    rw [er, eb, en]
    exact ⟨⟨hr, rfl⟩, hn, er ▸ h.elemFits (.head _) (.tail _ (.head _)), h.placed (g := s.workRegion) (.head _) (.head _),
      h.placed (g := s.shufRegion) (.tail _ (.head _)) (.tail _ (.head _)),
      h.placed (g := s.tableRegion) (.tail _ (.tail _ (.head _))) (.tail _ (.tail _ (.head _)))⟩
  | prepare =>
    obtain ⟨hr, er, eb⟩ := h.sizes (.head _)
    rw [er, eb]
    exact ⟨⟨hr, rfl⟩, h.elemFits (.head _) (.tail _ (.head _)), h.placed (g := s.workRegion) (.head _) (.head _)⟩
  | restore =>
    obtain ⟨hr, er, eb⟩ := h.sizes (.head _)
    rw [er, eb, s.started_cw (.inl rfl)]
    exact ⟨⟨hr, rfl⟩, h.elemFits (.head _) (.tail _ (.head _)), h.placed (g := s.cwRegion) (.head _) (.head _)⟩
  | blockmixNone =>
    obtain ⟨hr, er, eb⟩ := h.sizes (.head _)
    rw [er, eb]
    exact ⟨⟨hr, rfl⟩, h.placed (g := s.workRegion) (.head _) (.head _),
      h.placed (g := s.shufRegion) (.tail _ (.head _)) (.tail _ (.head _))⟩
  | blockmixCopy =>
    obtain ⟨hr, er, eb⟩ := h.sizes (.head _)
    rw [er, eb]
    exact ⟨⟨hr, rfl⟩, h.placed (g := s.workRegion) (.head _) (.head _),
      h.placed (g := s.shufRegion) (.tail _ (.head _)) (.tail _ (.head _)),
      h.placed (g := s.otherRegion) (.tail _ (.tail _ (.head _))) (.tail _ (.tail _ (.head _)))⟩
  | blockmixXor =>
    obtain ⟨hr, er, eb⟩ := h.sizes (.head _)
    rw [er, eb]
    exact ⟨⟨hr, rfl⟩, h.placed (g := s.workRegion) (.head _) (.head _),
      h.placed (g := s.shufRegion) (.tail _ (.head _)) (.tail _ (.head _)),
      h.placed (g := s.otherRegion) (.tail _ (.tail _ (.head _))) (.tail _ (.tail _ (.head _)))⟩
  | integerify =>
    obtain ⟨hn, en⟩ := h.count (.head _)
    rw [en, s.started_cw (.inr rfl)]
    exact ⟨hn, h.placed (g := s.cwBlockRegion) (.head _) (.head _)⟩
  | salsa8 => exact h.placed (g := s.otherBlockRegion) (.head _) (.head _)
  | salsa8Nat => exact h.placed (g := s.otherBlockRegion) (.head _) (.head _)
  | zeroize =>
    obtain ⟨hr, er, eb⟩ := h.sizes (.head _)
    obtain ⟨hn, en⟩ := h.count (.tail _ (.head _))
    rw [er, eb, en]
    exact ⟨⟨hr, rfl⟩, hn, h.placed (g := s.workRegion) (.head _) (.head _),
      h.placed (g := s.shufRegion) (.tail _ (.head _)) (.tail _ (.head _)),
      h.placed (g := s.tableRegion) (.tail _ (.tail _ (.head _))) (.tail _ (.tail _ (.head _)))⟩

/-- A region the command writes is one of its scratch regions or its element (R90, R245). -/
theorem commandWrites_cases {i : Instr} {s : State} {g : Region} (hg : g ∈ commandWrites i s) :
    g ∈ (commandChecks i s).scratch ∨ (g = s.elemRegion ∧ .a1 ∈ (commandChecks i s).args ∧ .a2 ∈ (commandChecks i s).args) := by
  have hcs : s.csRegion = s.workRegion ∨ s.csRegion = s.shufRegion := by
    unfold State.csRegion State.csParam
    split
    · exact .inl rfl
    · exact .inr rfl
  cases i with
  | smix =>
    rcases List.mem_cons.1 hg with rfl | hg
    · exact .inr ⟨rfl, .head _, .tail _ (.head _)⟩
    · exact .inl hg
  | prepare => exact .inl hg
  | restore =>
    obtain rfl := List.mem_singleton.1 hg
    exact .inr ⟨rfl, .head _, .tail _ (.head _)⟩
  | blockmixNone =>
    obtain rfl := List.mem_singleton.1 hg
    rcases hcs with hcs | hcs <;> rw [hcs]
    · exact .inl (.head _)
    · exact .inl (.tail _ (.head _))
  | blockmixCopy =>
    rcases List.mem_cons.1 hg with rfl | hg
    · rcases hcs with hcs | hcs <;> rw [hcs]
      · exact .inl (.head _)
      · exact .inl (.tail _ (.head _))
    · exact .inl (.tail _ (.tail _ hg))
  | blockmixXor =>
    obtain rfl := List.mem_singleton.1 hg
    rcases hcs with hcs | hcs <;> rw [hcs]
    · exact .inl (.head _)
    · exact .inl (.tail _ (.head _))
  | integerify => cases hg
  | salsa8 => exact .inl hg
  | salsa8Nat => exact .inl hg
  | zeroize => exact .inl hg

/-- The write set of an accepted command lies in the address space (R242, R245). -/
theorem Accepts.writesFit {i : Instr} {s : State} (h : Accepts i s) {g : Region} (hg : g ∈ commandWrites i s) :
    g.stop ≤ Config.addressLimit := by
  rcases commandWrites_cases hg with hs | ⟨rfl, ha, hb⟩
  · exact h.scratchFits hs
  · obtain ⟨_, hcheck, _, _⟩ := h
    exact a2_elem ((verdict_none hcheck).1 .a1 ha) ((verdict_none hcheck).1 .a2 hb)

/-- A command starts with its first phase (R51). -/
theorem firstPhase_head (i : Instr) : (phasesOf i).head? = some (firstPhase i) := by cases i <;> rfl

theorem firstPhase_mem (i : Instr) : firstPhase i ∈ phasesOf i := List.mem_of_head? (firstPhase_head i)

/-- A BM has not ended before it began. -/
theorem State.started_ended (s : State) {i : Instr} (h : (firstPhase i).countsBm = true) : (s.started i).ended = 0 := by
  obtain ⟨body, hbody, _⟩ := blockSeq_endsBm i (s.started i).latched.r.toNat (s.started i).latched.n.toNat 0 h
  have hops : (s.started i).blockOps = body ++ [.bmEnd] := hbody
  refine if_neg fun hq => ?_
  rw [hops, List.length_append] at hq
  exact absurd hq.symm (Nat.succ_ne_zero body.length)

/-- No BM has been counted when a command starts (R49). -/
theorem State.started_progressOk (s : State) (i : Instr) : progressOk i (s.started i) := by
  cases i with
  | blockmixNone => exact (s.started_ended (i := .blockmixNone) rfl).symm
  | blockmixCopy => exact (s.started_ended (i := .blockmixCopy) rfl).symm
  | blockmixXor => exact (s.started_ended (i := .blockmixXor) rfl).symm
  | zeroize => exact Nat.zero_le _
  | _ => rfl

/-- An accepted command meets a running command's conditions in its first phase (R50, R241). -/
theorem runsCommand_started {i : Instr} {s : State} (h : Accepts i s) : RunsCommand i (s.started i) where
  cmd := rfl
  geometry := h.geometry
  position := by
    have hfirst : ¬ (firstPhase i = .fill ∨ firstPhase i = .mix) := by cases i <;> decide
    exact ⟨firstPhase_mem i, (if_neg hfirst).mpr rfl, Nat.zero_le _, Nat.zero_le _⟩
  tableIndex := fun _ hq => absurd hq (by simp [State.started])
  errorPhase := fun he => absurd he (by simp [State.started])
  fenced := fun _ hq => absurd hq (by simp [State.started])
  phases := ⟨List.singleton_sublist.2 (firstPhase_mem i), rfl⟩
  progress := s.started_progressOk i
  progressSeen := Nat.zero_le _
  swap := fun hc => by
    subst hc
    exact Bool.and_false _
  writes := fun g hg => h.writesFit (s.started_writes i ▸ hg)

end Sys2Proof.Machine

/-! PROOFS. Every step keeps the invariant (10_state.md R50, R55, 20_memory.md R84, R88). -/

namespace Sys2Proof.Machine

/-! ### The engine's agents -/

theorem portOk_performOp {op : MicroOp} {s t : State} (h : PortOk s) (ht : performOp op s = .next t) : PortOk t := by
  rcases performOp_cases ht with ⟨hq, rfl⟩ | ⟨q, hq, hin, _, ⟨_, rfl⟩ | ⟨_, rfl⟩⟩
  · exact portOk_run h fun q hq' => by rw [hq] at hq'; cases hq'
  · exact portOk_busError (h.of_eq rfl rfl) hin
  · refine portOk_run (h.of_eq rfl rfl) fun q' hq' => ?_
    rw [show op.request (s.record q) = op.request s by cases op <;> rfl, hq] at hq'
    cases hq'
    exact hin

/-- Every engine step keeps the port in order (R70, R76). -/
theorem portOk_engineStep {s t : State} (h : PortOk s) (ht : engineStep s = .next t) : PortOk t := by
  have hcount : PortOk s.countArrival := h.of_eq (by simp) (by simp)
  rcases engineStep_cases ht with ⟨_, rfl⟩ | ⟨_, ht⟩
  · exact portOk_lateStop hcount
  · rcases sequencerStep_cases ht with ⟨op, _, hp⟩ | ⟨_, rfl⟩
    · exact portOk_performOp hcount hp
    · exact portOk_endBlock hcount

theorem Invariant.portOk {s : State} (h : Invariant s) : PortOk s := ⟨h.1, h.2.1⟩

theorem Invariant.running {s : State} (h : Invariant s) (hb : s.status.busy = true) : RunningOk s := h.2.2.1 hb

theorem Invariant.idle {s : State} (h : Invariant s) (hb : s.status.busy = false) : IdleOk s := h.2.2.2 hb

theorem RunsOrIdle.invariant {c : Instr} {s : State} (h : RunsOrIdle c s) (hp : PortOk s) : Invariant s := by
  rcases h with ⟨hb, hc⟩ | ⟨hb, hi⟩
  · exact ⟨hp.mem, hp.wbuf, fun _ => ⟨c, hc⟩, fun hb' => by rw [hb] at hb'; cases hb'⟩
  · exact ⟨hp.mem, hp.wbuf, fun hb' => (by rw [hb] at hb'; cases hb'), fun _ => hi⟩

/-- Every engine step keeps the invariant. -/
theorem Invariant.engineStep {s t : State} (h : Invariant s) (hb : s.status.busy = true) (ht : engineStep s = .next t) :
    Invariant t := by
  obtain ⟨c, hc⟩ := h.running hb
  exact (hc.engineStep hb ht).invariant (portOk_engineStep h.portOk ht)

theorem Invariant.engineTurn {s t : State} (h : Invariant s) (ht : engineTurn s = .next t) : Invariant t := by
  unfold Machine.engineTurn at ht
  split at ht
  next hb => exact h.engineStep hb ht
  next => cases ht; exact h

/-! ### Issue -/

/-- An idle state keeps the invariant while only these fields change. -/
theorem Invariant.of_idle {s t : State} (h : Invariant s) (hb : s.status.busy = false) (hmem : t.mem = s.mem)
    (hbuf : t.wbuf = s.wbuf) (hbusy : t.status.busy = false) (hseq : t.seq = s.seq) (herr : t.pendingErr = s.pendingErr)
    (hdraw : t.phaseDraw = s.phaseDraw) : Invariant t := by
  refine ⟨hmem ▸ h.portOk.mem, hbuf ▸ h.portOk.wbuf, fun hb' => (by rw [hbusy] at hb'; cases hb'), fun _ => ?_⟩
  simpa only [IdleOk, hseq, hbuf, herr, hdraw] using h.idle hb

theorem Invariant.ignoreWrite {s : State} (h : Invariant s) : Invariant s.ignoreWrite :=
  h.of_eq rfl rfl rfl rfl rfl rfl rfl rfl rfl rfl rfl

theorem Invariant.reject {s : State} (h : Invariant s) (hb : s.status.busy = false) (v : Reg64) (e : ErrCode) :
    Invariant ((s.beginIssue v).reject e) := h.of_idle hb rfl rfl hb rfl rfl rfl

theorem Invariant.started {i : Instr} {s : State} (h : Invariant s) (ha : Accepts i s) : Invariant (s.started i) :=
  RunsOrIdle.invariant (.inl ⟨rfl, runsCommand_started ha⟩) (h.portOk.of_eq rfl rfl)

theorem Invariant.issueCommand {i : Instr} {s t : State} (h : Invariant s) (ht : issueCommand i s = .next t) : Invariant t := by
  rcases issueCommand_cases ht with ⟨_, rfl⟩ | ⟨hb, e, _, rfl⟩ | ⟨ha, rfl⟩
  · exact h.ignoreWrite
  · exact h.reject hb _ e
  · exact h.started ha

theorem Invariant.exec {i : Instr} {s t : State} (h : Invariant s) (ht : exec i s = .next t) : Invariant t := by
  rw [exec_eq_runCommand] at ht
  rcases runCommand_cases ht with ⟨_, rfl⟩ | ⟨hb, e, _, rfl⟩ | ⟨ha, hrun⟩
  · exact h.ignoreWrite
  · exact h.reject hb _ e
  · exact runToIdle_induct (fun _ _ hs hb hst => hs.engineStep hb hst) _ _ _ (h.started ha) hrun

/-! ### The host -/

/-- PHASE drops phases already passed over, never the current one (R51). -/
theorem phaseIndex_lt {s : State} (h : s.phaseDraw ≠ []) : s.phaseIndex < s.phaseDraw.length :=
  Nat.mod_lt _ (List.length_pos_of_ne_nil h)

theorem RunsCommand.phaseDraw_ne_nil {c : Instr} {s : State} (h : RunsCommand c s) : s.phaseDraw ≠ [] := fun hn => by
  have hlast := h.phases.2
  rw [hn] at hlast
  cases hlast

theorem RunsCommand.dropPhases {c : Instr} {s : State} (h : RunsCommand c s) : RunsCommand c (s.dropPhases s.phaseIndex) := by
  have hlt := phaseIndex_lt h.phaseDraw_ne_nil
  refine ⟨h.cmd, h.geometry, h.position, h.tableIndex, h.errorPhase, h.fenced, ⟨?_, ?_⟩, h.progress, h.progressSeen, h.swap, h.writes⟩
  · exact (List.drop_sublist _ _).trans h.phases.1
  · rw [State.dropPhases_phaseDraw, List.getLast?_drop, if_neg (by omega)]
    exact h.phases.2

theorem Invariant.readStatus {s : State} (h : Invariant s) : Invariant s.readStatus.2 := by
  unfold State.readStatus
  split
  next hb =>
    obtain ⟨c, hc⟩ := h.running hb
    exact RunsOrIdle.invariant (.inl ⟨hb, hc.dropPhases⟩) (h.portOk.of_eq rfl rfl)
  next => exact h

/-- PROGRESS shows no more than has been counted (R49). -/
theorem State.progressDraw_le {s : State} (h : s.progressSeen ≤ s.progress.toNat) : s.progressDraw ≤ s.progress.toNat := by
  have := Nat.mod_lt (Config.freeNat s.draws) (show 0 < s.progress.toNat - s.progressSeen + 1 by omega)
  unfold State.progressDraw
  omega

theorem Invariant.readProgress {s : State} (h : Invariant s) : Invariant s.readProgress.2 := by
  unfold State.readProgress
  split
  next hb =>
    obtain ⟨c, hc⟩ := h.running hb
    refine RunsOrIdle.invariant (c := c) (.inl ⟨hb, ?_⟩) (h.portOk.of_eq rfl rfl)
    exact ⟨hc.cmd, hc.geometry, hc.position, hc.tableIndex, hc.errorPhase, hc.fenced, hc.phases, hc.progress,
      State.progressDraw_le hc.progressSeen, hc.swap, hc.writes⟩
  next => exact h

theorem Invariant.readOffset {s : State} (h : Invariant s) (o : BitVec 8) : Invariant (readOffset o s).2 := by
  unfold Machine.readOffset
  split
  next r _ =>
    cases r with
    | status => exact h.readStatus
    | progress => exact h.readProgress
    | _ => exact h
  next => exact h

theorem Invariant.writeParams {s : State} (h : Invariant s) (p : Params) : Invariant (s.writeParams p) := by
  unfold State.writeParams
  split
  · exact h.ignoreWrite
  · exact h.of_eq rfl rfl rfl rfl rfl rfl rfl rfl rfl rfl rfl

theorem Invariant.writeCmd {s t : State} (h : Invariant s) {v : Reg64} (ht : writeCmd v s = .next t) : Invariant t := by
  unfold Machine.writeCmd at ht
  split at ht
  next => cases ht; exact h.ignoreWrite
  next hb =>
    split at ht
    next => cases ht; exact h.reject (by simpa using hb) v _
    next =>
      split at ht
      · exact h.exec ht
      · exact h.issueCommand ht

theorem Invariant.writeOffset {s t : State} (h : Invariant s) {o : BitVec 8} {v : Reg64} (ht : writeOffset o v s = .next t) :
    Invariant t := by
  unfold Machine.writeOffset at ht
  split at ht
  next r _ =>
    cases r with
    | cmd => exact h.writeCmd ht
    | ctrl => cases ht; exact h.of_eq rfl rfl rfl rfl rfl rfl rfl rfl rfl rfl rfl
    | status => cases ht; exact h.of_eq rfl rfl rfl rfl rfl rfl rfl rfl rfl rfl rfl
    | id | errInfo | errAddr | j | progress => cases ht; exact h
    | _ => cases ht; exact h.writeParams _
  next => cases ht; exact h

theorem Invariant.respond {s : State} (h : Invariant s) (d : Reg64) (e : Bool) : Invariant (s.respond d e) :=
  h.of_eq rfl rfl rfl rfl rfl rfl rfl rfl rfl rfl rfl

theorem Invariant.hostAccess {s t : State} (h : Invariant s) {a : Access} (ht : hostAccess a s = .next t) : Invariant t := by
  unfold Machine.hostAccess at ht
  split at ht
  next => cases ht; exact h.respond _ _
  next =>
    split at ht
    next => cases ht; exact (h.readOffset _).respond _ _
    next => exact (h.respond _ _).writeOffset ht

theorem Invariant.waitTurn {s t : State} (h : Invariant s) (ht : waitTurn s = .next t) : Invariant t := by
  have hread := h.readStatus.respond s.readStatus.1 false
  unfold Machine.waitTurn at ht
  dsimp only at ht
  split at ht
  next hb =>
    split at ht
    next u hu =>
      cases ht
      exact (hread.engineStep hb hu).of_eq rfl rfl rfl rfl rfl rfl rfl rfl rfl rfl rfl
    all_goals cases ht
  next => cases ht; exact hread

/-! ### Memory's other agents, and the step -/

theorem Invariant.drainOldest {s : State} (h : Invariant s) : Invariant s.drainOldest := by
  have hport := portOk_drainOldest h.portOk
  unfold State.drainOldest at hport ⊢
  split
  next => exact h
  next w ws hw =>
    rw [hw] at hport
    refine ⟨hport.mem, hport.wbuf, fun hb => ?_, fun hb => ?_⟩
    · obtain ⟨c, hc⟩ := h.running hb
      exact ⟨c, hc.of_eq rfl rfl rfl rfl rfl rfl rfl rfl fun hn => by rw [hw] at hn; cases hn⟩
    · obtain ⟨_, hn, _⟩ := h.idle hb
      rw [hw] at hn
      cases hn

theorem Invariant.foreignStore {s t : State} (h : Invariant s) {a : Nat} {v : Byte} (ht : foreignStore a v s = .next t) :
    Invariant t := by
  have hwf := wf_foreignStore h.portOk.mem ht
  unfold Machine.foreignStore at ht
  split at ht
  next => cases ht
  next =>
    split at ht
    next => cases ht
    next =>
      cases ht
      refine ⟨hwf, h.portOk.wbuf, fun hb => ?_, h.idle⟩
      obtain ⟨c, hc⟩ := h.running hb
      exact ⟨c, hc.of_eq rfl rfl rfl rfl rfl rfl rfl rfl id⟩

theorem Invariant.foreignLoad {s t : State} (h : Invariant s) {a : Nat} (ht : foreignLoad a s = .next t) : Invariant t := by
  unfold Machine.foreignLoad at ht
  split at ht
  next => cases ht
  next =>
    split at ht
    next => cases ht
    next => cases ht; exact h.respond _ _

/-- A reset leaves the engine idle and memory canonical (R320, R321). -/
theorem Invariant.resetEngine {s : State} (h : Invariant s) : Invariant (resetEngine s) := by
  refine ⟨?_, bufferOk_nil, fun hb => (by cases hb), fun _ => ⟨rfl, rfl, rfl, rfl⟩⟩
  show s.memoryAfterReset.1.wf
  cases hb : s.status.busy with
  | true =>
    obtain ⟨c, hc⟩ := h.running hb
    exact wf_memoryAfterReset h.portOk.mem hc.writes
  | false => simpa [State.memoryAfterReset, hb] using h.portOk.mem

theorem Invariant.takeInput {s t : State} (h : Invariant s) {i : Input} (ht : takeInput i s = .next t) : Invariant t := by
  cases i with
  | access a => exact h.hostAccess ht
  | wait => exact h.waitTurn ht
  | tick => exact h.engineTurn ht
  | drain => cases ht; exact h.drainOldest
  | memStore a v => exact h.foreignStore ht
  | memLoad a => exact h.foreignLoad ht
  | reset => cases ht; exact h.resetEngine

theorem Invariant.popInput {s : State} (h : Invariant s) (rest : List Input) : Invariant (s.popInput rest) :=
  h.of_eq rfl rfl rfl rfl rfl rfl rfl rfl rfl rfl rfl

/-- Settles O9: an engine turn keeps the running command's conditions or ends it, and every other agent's turn touches what the
invariant reads only where it may. -/
theorem stepKeepsTheInvariant : Obligations.StepKeepsTheInvariant := by
  intro s t h ht
  unfold step at ht
  split at ht
  next => exact h.engineTurn ht
  next i rest _ => exact (h.popInput rest).takeInput ht

/-- Settles O8: after reset the engine is idle and memory holds no byte. -/
theorem resetMeetsInvariant : Obligations.ResetMeetsInvariant :=
  ⟨Memory.wf_nil, bufferOk_nil, fun hb => (by cases hb), fun _ => ⟨rfl, rfl, rfl, rfl⟩⟩

end Sys2Proof.Machine

/-! PROOFS. A hint never stops a command: its line is aligned and inside the address space (20_memory.md R75, R76, R80). -/

namespace Sys2Proof.Machine

/-- A hint's line: aligned and inside the address space (R74, R75, R76). -/
def HintLine (a : Nat) : Prop := a % 64 = 0 ∧ a + 64 ≤ Config.addressLimit

/-- Hints stand in BM in mode Xor alone (R211). -/
theorem hint_mem_bmSeq {r oo o : Nat} {mode : BmMode} {ob b : Base}
    (h : MicroOp.pfn b o ∈ bmSeq r mode ob oo ∨ MicroOp.flush b o ∈ bmSeq r mode ob oo) : mode = .xor := by
  cases mode with
  | xor => rfl
  | none => simp [bmSeq, bmHead, bmIter, bmTail] at h
  | copy => simp [bmSeq, bmHead, bmIter, bmTail] at h

/-- A hint of a BM whose buffers are placed names a line inside them (R170). -/
theorem hint_of_bmSeq {r n oo o : Nat} {s : State} {ob b : Base} (hr : 1 ≤ r)
    (hcw : Placed (s.baseAddr .cw) (128 * r)) (hcs : Placed (s.baseAddr .cs) (128 * r))
    (hob : Placed (s.baseAddr ob) (ob.span r n)) (hne : ob ≠ .elem) (hoff : ∀ q, q < 2 * r → offsetOk r n ob (oo + 64 * q))
    (h : MicroOp.pfn b o ∈ bmSeq r .xor ob oo ∨ MicroOp.flush b o ∈ bmSeq r .xor ob oo) :
    HintLine (s.baseAddr b + o) := by
  have hok := bmSeq_ok (r := r) (n := n) (sh := fun b => Placed (s.baseAddr b) (b.span r n)) (mode := .xor) (ob := ob) (oo := oo)
    hr hcw hcs fun _ => ⟨hob, hne, hoff⟩
  obtain ⟨⟨halign, hspan⟩, hb, ho⟩ : Placed (s.baseAddr b) (b.span r n) ∧ b ≠ .elem ∧ offsetOk r n b o := by
    rcases h with h | h <;> exact hok _ h
  obtain ⟨ho1, ho2⟩ : o % 64 = 0 ∧ o + 64 ≤ b.span r n := by
    cases b with
    | elem => exact absurd rfl hb
    | _ => exact ho
  exact ⟨by omega, by omega⟩

theorem placed_cw {s : State} {k : Nat} (hw : Placed s.latched.work.toNat k) (hs : Placed s.latched.shuf.toNat k) :
    Placed (s.baseAddr .cw) k ∧ Placed (s.baseAddr .cs) k := by
  rcases s.cw_cs_cases with ⟨h1, h2⟩ | ⟨h1, h2⟩ <;> rw [h1, h2]
  · exact ⟨hw, hs⟩
  · exact ⟨hs, hw⟩

/-- The table entry JI names is placed as the table is (R253, R256). -/
theorem placed_tableAtJI {r n : Nat} {s : State} (heb : s.latched.eb.toNat = 128 * r)
    (ht : Placed s.latched.table.toNat (128 * r * n)) (hji : s.dp.ji.toNat < n) : Placed (s.baseAddr .tableAtJI) (128 * r) := by
  obtain ⟨halign, hspan⟩ := ht
  have hle := tableEntry_le (r := r) hji
  have haddr : s.baseAddr .tableAtJI = s.latched.table.toNat + s.dp.ji.toNat * (128 * r) := by rw [← heb]; rfl
  have hmul : s.dp.ji.toNat * (128 * r) = 64 * (2 * (s.dp.ji.toNat * r)) := by ring
  rw [haddr]
  exact ⟨by omega, by omega⟩

/-- A running command's hint names an aligned line inside the address space (R75, R76). -/
theorem RunsCommand.hint_ok {c : Instr} {s : State} (h : RunsCommand c s) {b : Base} {o : Nat}
    (hop : s.blockOps[s.seq.q]? = some (.pfn b o) ∨ s.blockOps[s.seq.q]? = some (.flush b o)) :
    HintLine (s.baseAddr b + o) := by
  have hmem : MicroOp.pfn b o ∈ blockSeq c s.latched.r.toNat s.latched.n.toNat s.seq.phase s.seq.i
      ∨ MicroOp.flush b o ∈ blockSeq c s.latched.r.toNat s.latched.n.toNat s.seq.phase s.seq.i :=
    hop.imp (fun ho => List.mem_of_getElem? (h.op_eq ho)) (fun ho => List.mem_of_getElem? (h.op_eq ho))
  have hcounts : s.seq.phase.countsBm = true := hmem.elim (countsBm_of_forOther rfl) (countsBm_of_forOther rfl)
  have hoffset : ∀ q, q < 2 * s.latched.r.toNat → offsetOk s.latched.r.toNat 0 .other (0 + 64 * q) :=
    fun _ hq => ⟨by omega, by omega⟩
  cases hp : s.seq.phase with
  | fill =>
    rw [hp] at hmem
    cases hint_mem_bmSeq hmem
  | mix =>
    obtain rfl := h.smix_of_phase (.inr (.inr hp))
    obtain ⟨⟨hr, heb⟩, _, _, hw, hs, ht⟩ := h.geometry
    have hq : 1 ≤ s.seq.q := by
      refine Nat.one_le_iff_ne_zero.2 fun h0 => ?_
      have hfirst : s.blockOps[s.seq.q]? = some (.integ .ji) := by rw [h.blockOps_eq, hp, h0]; rfl
      rw [hfirst] at hop
      rcases hop with hop | hop <;> cases hop
    rw [hp] at hmem
    simp only [blockSeq, List.mem_cons, reduceCtorEq, false_or] at hmem
    obtain ⟨hcw, hcs⟩ := placed_cw hw hs
    exact hint_of_bmSeq (n := 0) (ob := .tableAtJI) hr hcw hcs (placed_tableAtJI heb ht (h.tableIndex hp hq)) (by simp) hoffset hmem
  | blockmix =>
    rw [hp] at hmem
    have hmode := hint_mem_bmSeq hmem
    cases c with
    | blockmixXor =>
      obtain ⟨⟨hr, _⟩, hw, hs, ho⟩ := h.geometry
      obtain ⟨hcw, hcs⟩ := placed_cw hw hs
      exact hint_of_bmSeq (n := 0) (ob := .other) hr hcw hcs ho (by simp) hoffset hmem
    | _ => cases hmode
  | _ => rw [hp] at hcounts; cases hcounts

end Sys2Proof.Machine

/-! PROOFS. What the engine does depends neither on the hint enables nor on what the write buffer still holds
(10_state.md R42, 20_memory.md R80, R85). -/

namespace Sys2Proof.Machine

/-! ### What the engine sees of the port -/

/-- The hint enables, the record of the requests, memory and the write buffer. -/
structure View where
  ctrl : Ctrl
  trace : List Request
  mem : Memory
  wbuf : List PendingWrite

def State.view (s : State) : View := ⟨s.ctrl, s.trace, s.mem, s.wbuf⟩

/-- The state with another view. -/
def State.see (s : State) (v : View) : State := { s with ctrl := v.ctrl, trace := v.trace, mem := v.mem, wbuf := v.wbuf }

@[simp] theorem State.see_seq (s : State) (v : View) : (s.see v).seq = s.seq := rfl
@[simp] theorem State.see_latched (s : State) (v : View) : (s.see v).latched = s.latched := rfl
@[simp] theorem State.see_status (s : State) (v : View) : (s.see v).status = s.status := rfl
@[simp] theorem State.see_pendingErr (s : State) (v : View) : (s.see v).pendingErr = s.pendingErr := rfl
@[simp] theorem State.see_platform (s : State) (v : View) : (s.see v).platform = s.platform := rfl
@[simp] theorem State.see_draws (s : State) (v : View) : (s.see v).draws = s.draws := rfl
@[simp] theorem State.see_isSmix (s : State) (v : View) : (s.see v).isSmix = s.isSmix := rfl
@[simp] theorem State.see_blockOps (s : State) (v : View) : (s.see v).blockOps = s.blockOps := rfl
@[simp] theorem State.see_errorInFlight (s : State) (v : View) : (s.see v).errorInFlight = s.errorInFlight := rfl

def View.readByte (v : View) (a : Nat) : Byte := v.wbuf.foldl (fun x w => w.patch a x) (v.mem.read a)

def View.store (v : View) (a : Nat) (b : Block) : View := { v with wbuf := v.wbuf ++ [⟨a, b⟩] }

def View.drain (v : View) : View := { v with mem := v.wbuf.foldl Memory.perform v.mem, wbuf := [] }

def View.record (v : View) (q : Request) : View := { v with trace := q :: v.trace }

/-- A hint recorded where it is enabled (R167, R168). -/
def View.hint (v : View) (enabled : Ctrl → Bool) (q : Request) : View := if enabled v.ctrl then v.record q else v

/-- Views the engine cannot tell apart: it reads the same bytes, and no access of its own makes a difference. -/
structure Indistinct (P : View → View → Prop) : Prop where
  reads : ∀ {v v'}, P v v' → ∀ a, v'.readByte a = v.readByte a
  store : ∀ {v v'}, P v v' → ∀ {a}, a + Config.blockBytes ≤ Config.addressLimit → ∀ b, P (v.store a b) (v'.store a b)
  drain : ∀ {v v'}, P v v' → P v.drain v'.drain
  record : ∀ {v v'}, P v v' → ∀ q, P (v.record q) (v'.record q)
  hint : ∀ {v v'}, P v v' → ∀ enabled q, P (v.hint enabled q) (v'.hint enabled q)

/-- A later load changes no part of the view. -/
theorem laterLoad_view (l : Layout) (dst : BlkReg) (q : Request) (acc : State × List BlkReg) :
    (laterLoad l dst q acc).1.view = acc.1.view := by
  unfold laterLoad
  split <;> rfl

theorem laterCompute_view (dst : BlkReg) (srcs : List BlkReg) (b : Block) (acc : State × List BlkReg) :
    (laterCompute dst srcs b acc).1.view = acc.1.view := by
  unfold laterCompute
  split <;> rfl

/-- A later store changes the write buffer, no other part of the view. -/
theorem laterStore_view (l : Layout) (src : BlkReg) (q : Request) (acc : State × List BlkReg) :
    ∃ w, (laterStore l src q acc).1.view = { acc.1.view with wbuf := w } := by
  unfold laterStore
  split
  · exact ⟨_, rfl⟩
  · dsimp only
    split
    · split <;> exact ⟨_, rfl⟩
    · exact ⟨_, rfl⟩

theorem laterOp_view (acc : State × List BlkReg) (op : MicroOp) : ∃ w, (laterOp acc op).1.view = { acc.1.view with wbuf := w } := by
  cases op with
  | lda | ldu => exact ⟨acc.1.wbuf, laterLoad_view _ _ _ _⟩
  | sta | stu | stn => exact laterStore_view _ _ _ _
  | xorb | move | salsa => exact ⟨acc.1.wbuf, laterCompute_view _ _ _ _⟩
  | _ => exact ⟨acc.1.wbuf, rfl⟩

/-- Later micro-operations change no more of the view than the write buffer (R286). -/
theorem laterOps_view (ops : List MicroOp) (acc : State × List BlkReg) :
    ∃ w, (ops.foldl laterOp acc).1.view = { acc.1.view with wbuf := w } := by
  induction ops generalizing acc with
  | nil => exact ⟨acc.1.wbuf, rfl⟩
  | cons op ops ih =>
    obtain ⟨w, hw⟩ := laterOp_view acc op
    obtain ⟨w', hw'⟩ := ih (laterOp acc op)
    exact ⟨w', by rw [List.foldl_cons, hw', hw]⟩

/-- What is left of the view after a stop's later writes (R286). -/
theorem State.laterWrites_view (s : State) (ops : List MicroOp) (lost : List BlkReg) :
    (s.laterWrites ops lost).view = (ops.foldl laterOp (s, lost)).1.view := by
  obtain ⟨w, hw⟩ := laterOps_view ops (s, lost)
  have hbuf : (ops.foldl laterOp (s, lost)).1.wbuf = w := congrArg View.wbuf hw
  rw [hw, ← hbuf]
  rfl

/-- Two states that agree but for their views, which are related by `P`. -/
inductive Alike (P : View → View → Prop) (s : State) : State → Prop
  | mk (v : View) (h : P s.view v) : Alike P s (s.see v)

/-- As `Alike`, with the registers that hold no value after a failing read (R286 item 5). -/
structure AlikeAcc (P : View → View → Prop) (acc acc' : State × List BlkReg) : Prop where
  state : Alike P acc.1 acc'.1
  lost : acc'.2 = acc.2

section
variable {P : View → View → Prop} {s s' : State}

/-- An operation that neither reads nor writes the view. -/
theorem Alike.map {f : State → State} (hview : ∀ s, (f s).view = s.view) (hsee : ∀ s v, f (s.see v) = (f s).see v)
    (h : Alike P s s') : Alike P (f s) (f s') := by
  obtain ⟨v, hv⟩ := h
  rw [hsee]
  exact ⟨v, (hview s).symm ▸ hv⟩

theorem Alike.setBlk (h : Alike P s s') (g : BlkReg) (b : Block) : Alike P (s.setBlk g b) (s'.setBlk g b) :=
  h.map (f := fun u => u.setBlk g b) (fun _ => rfl) fun _ _ => rfl

theorem Alike.nextOp (h : Alike P s s') : Alike P s.nextOp s'.nextOp := h.map (fun _ => rfl) fun _ _ => rfl

theorem Alike.opSalsa (h : Alike P s s') (g : BlkReg) : Alike P (opSalsa g s) (opSalsa g s') := by
  refine h.map (f := Machine.opSalsa g) (fun s => ?_) (fun s v => ?_) <;> unfold Machine.opSalsa
  · split <;> rfl
  · rw [State.see_seq]
    split <;> rfl

theorem Alike.advance (h : Alike P s s') (op : MicroOp) : Alike P (op.advance s) (op.advance s') := by
  cases op with
  | salsa g =>
    refine h.map (f := (MicroOp.salsa g).advance) (fun s => ?_) (fun s v => ?_) <;> simp only [MicroOp.advance]
    · split <;> rfl
    · rw [State.see_seq]
      split <;> rfl
  | _ => exact h.nextOp

theorem Alike.view (h : Alike P s s') : P s.view s'.view := by obtain ⟨v, hv⟩ := h; exact hv

theorem Alike.enterPhase (h : Alike P s s') (ph : Phase) : Alike P (s.enterPhase ph) (s'.enterPhase ph) :=
  h.map (f := fun u => u.enterPhase ph) (fun _ => rfl) fun _ _ => rfl

theorem Alike.nextIter (h : Alike P s s') : Alike P s.nextIter s'.nextIter := h.map (fun _ => rfl) fun _ _ => rfl

theorem Alike.blockOps_eq (h : Alike P s s') : s'.blockOps = s.blockOps := by obtain ⟨v, _⟩ := h; rfl

theorem Alike.seq_eq (h : Alike P s s') : s'.seq = s.seq := by obtain ⟨v, _⟩ := h; rfl

theorem Alike.dp_eq (h : Alike P s s') : s'.dp = s.dp := by obtain ⟨v, _⟩ := h; rfl

theorem Alike.platform_eq (h : Alike P s s') : s'.platform = s.platform := by obtain ⟨v, _⟩ := h; rfl

theorem Alike.draws_eq (h : Alike P s s') : s'.draws = s.draws := by obtain ⟨v, _⟩ := h; rfl

theorem Alike.addr_eq (h : Alike P s s') (op : MicroOp) : op.addr s' = op.addr s := by
  obtain ⟨v, _⟩ := h
  have hbase : (s.see v).baseAddr = s.baseAddr := by funext b; cases b <;> rfl
  cases op with
  | integ d => rfl
  | _ => simp only [MicroOp.addr, hbase]

theorem AlikeAcc.laterCompute {acc acc' : State × List BlkReg} (h : AlikeAcc P acc acc') (dst : BlkReg) (srcs : List BlkReg)
    (b : Block) : AlikeAcc P (laterCompute dst srcs b acc) (laterCompute dst srcs b acc') := by
  unfold Machine.laterCompute
  rw [h.lost]
  split
  · exact ⟨h.state, rfl⟩
  · exact ⟨h.state.setBlk _ _, rfl⟩

section
variable (hP : Indistinct P)
include hP

theorem Alike.readByte_eq (h : Alike P s s') (a : Nat) : s'.readByte a = s.readByte a := by
  obtain ⟨v, hv⟩ := h
  exact hP.reads hv a

theorem Alike.loadBlock_eq (h : Alike P s s') (a : Nat) : s'.loadBlock a = s.loadBlock a :=
  State.loadBlock_congr fun x _ _ => h.readByte_eq hP x

theorem Alike.loadWord_eq (h : Alike P s s') (a : Nat) : s'.loadWord a = s.loadWord a := by
  simp only [State.loadWord, h.readByte_eq hP]

theorem Alike.storeBlock (h : Alike P s s') {a : Nat} (ha : a + Config.blockBytes ≤ Config.addressLimit) (b : Block) :
    Alike P (s.storeBlock a b) (s'.storeBlock a b) := by
  obtain ⟨v, hv⟩ := h
  exact ⟨v.store a b, hP.store hv ha b⟩

theorem Alike.storeFree (h : Alike P s s') {a : Nat} (ha : a + Config.blockBytes ≤ Config.addressLimit) :
    Alike P (s.storeFree a) (s'.storeFree a) := by
  obtain ⟨v, hv⟩ := h
  exact ⟨v.store a s.freeBlock, hP.store hv ha s.freeBlock⟩

theorem Alike.drainAll (h : Alike P s s') : Alike P s.drainAll s'.drainAll := by
  obtain ⟨v, hv⟩ := h
  exact ⟨v.drain, hP.drain hv⟩

theorem Alike.record (h : Alike P s s') (q : Request) : Alike P (s.record q) (s'.record q) := by
  obtain ⟨v, hv⟩ := h
  exact ⟨v.record q, hP.record hv q⟩

theorem Alike.opLoad (h : Alike P s s') (l : Layout) (dst : BlkReg) (a : Nat) :
    Alike P (opLoad l dst a s) (opLoad l dst a s') := by
  unfold Machine.opLoad
  rw [h.loadBlock_eq hP]
  exact h.setBlk dst _

theorem Alike.opStore (h : Alike P s s') (l : Layout) (src : BlkReg) {a : Nat}
    (ha : a + Config.blockBytes ≤ Config.addressLimit) : Alike P (opStore l src a s) (opStore l src a s') := by
  unfold Machine.opStore
  rw [h.dp_eq]
  exact h.storeBlock hP ha _

/-- A micro-operation performed does the same on both, when its request stays in the address space. -/
theorem Alike.effect (h : Alike P s s') {op : MicroOp} (hq : ∀ q, op.request s = some q → q.inSpace = true) :
    Alike P (op.effect s) (op.effect s') := by
  have hfits : ∀ k, op.request s = some ⟨k, op.addr s⟩ → k.isWrite = true →
      op.addr s + Config.blockBytes ≤ Config.addressLimit := fun k hr hk => Request.inSpace_block (hq _ hr) hk
  have haddr := h.addr_eq op
  cases op with
  | lda l dst b o => simp only [MicroOp.effect, haddr]; exact h.opLoad hP _ _ _
  | ldu dst b o => simp only [MicroOp.effect, haddr]; exact h.opLoad hP _ _ _
  | sta l src b o => simp only [MicroOp.effect, haddr]; exact h.opStore hP _ _ (hfits .writeAligned rfl rfl)
  | staZero b o => simp only [MicroOp.effect, haddr]; exact h.storeBlock hP (hfits .writeAligned rfl rfl) _
  | stu l src b o => simp only [MicroOp.effect, haddr]; exact h.opStore hP _ _ (hfits .writeUnaligned rfl rfl)
  | stn src b o => simp only [MicroOp.effect, haddr]; exact h.opStore hP _ _ (hfits .writeNonTemporal rfl rfl)
  | integ dst =>
    have hvalue : integValue s' (MicroOp.addr s (.integ dst)) = integValue s (MicroOp.addr s (.integ dst)) := by
      simp only [integValue, h.loadWord_eq hP]
      obtain ⟨v, _⟩ := h
      rfl
    simp only [MicroOp.effect, haddr]
    obtain ⟨v, hv⟩ := h
    cases dst <;> simp only [opInteg, hvalue] <;> exact ⟨v, hv⟩
  | salsa g => exact h.opSalsa g
  | fence => exact h.drainAll hP
  | xorb dst a b => simp only [MicroOp.effect, opXor, h.dp_eq]; exact h.setBlk _ _
  | move dst src => simp only [MicroOp.effect, opMove, h.dp_eq]; exact h.setBlk _ _
  | pfn b o => exact h
  | flush b o => exact h
  | bmEnd | zeroBegin | zeroEnd => obtain ⟨v, hv⟩ := h; exact ⟨v, hv⟩

theorem Alike.run (h : Alike P s s') {op : MicroOp} (hq : ∀ q, op.request s = some q → q.inSpace = true) :
    Alike P (op.run s) (op.run s') := (h.effect hP hq).advance op

/-! ### The end of a command -/

theorem Alike.complete (h : Alike P s s') : Alike P s.complete s'.complete := by
  obtain ⟨v, hv⟩ := h
  have hreport : ∀ u : State, (u.see v.drain).reportError = u.reportError.see v.drain := fun u => by
    unfold State.reportError
    rw [State.see_pendingErr]
    split <;> rfl
  have hview : s.complete.view = s.view.drain := by simp [State.view, View.drain]
  have hsee : (s.see v).complete = s.complete.see v.drain := by
    have h1 : (s.see v).drainAll.reportError = s.drainAll.reportError.see v.drain := hreport s.drainAll
    simp only [State.complete, h1]
    rfl
  rw [hsee]
  exact ⟨v.drain, hview ▸ hP.drain hv⟩

/-! ### After a failing request -/

theorem Alike.failRequest (h : Alike P s s') {q : Request} (hq : q.inSpace = true) :
    Alike P (s.failRequest q) (s'.failRequest q) := by
  have hnote : Alike P (s.noteError q.addr) (s'.noteError q.addr) :=
    h.map (f := fun u => u.noteError q.addr) (fun _ => rfl) fun _ _ => rfl
  unfold State.failRequest
  split
  next hw => exact hnote.storeFree hP (Request.inSpace_block hq hw)
  next => exact hnote

theorem AlikeAcc.laterLoad {acc acc' : State × List BlkReg} (h : AlikeAcc P acc acc') (l : Layout) (dst : BlkReg) (q : Request) :
    AlikeAcc P (laterLoad l dst q acc) (laterLoad l dst q acc') := by
  unfold Machine.laterLoad
  rw [h.state.platform_eq, h.lost]
  split
  · exact ⟨h.state, rfl⟩
  · exact ⟨h.state.opLoad hP _ _ _, rfl⟩

theorem AlikeAcc.laterStore {acc acc' : State × List BlkReg} (h : AlikeAcc P acc acc') (l : Layout) (src : BlkReg) {q : Request}
    (hk : q.kind.isWrite = true) : AlikeAcc P (laterStore l src q acc) (laterStore l src q acc') := by
  have hcount : Alike P { acc.1 with draws := acc.1.draws + 1 } { acc'.1 with draws := acc'.1.draws + 1 } :=
    h.state.map (f := fun u => { u with draws := u.draws + 1 }) (fun _ => rfl) fun _ _ => rfl
  unfold Machine.laterStore
  rw [h.lost]
  split
  next => exact h
  next hc =>
    have hq : q.inSpace = true := by
      by_contra hn
      exact hc (.inr hn)
    have hfits := Request.inSpace_block hq hk
    dsimp only
    rw [h.state.draws_eq] at hcount ⊢
    rw [show q.fails acc'.1.platform = q.fails acc.1.platform by rw [h.state.platform_eq]]
    split
    · split
      · exact ⟨hcount.storeFree hP hfits, rfl⟩
      · exact ⟨hcount.opStore hP _ _ hfits, rfl⟩
    · exact ⟨hcount, rfl⟩

theorem AlikeAcc.laterOp {acc acc' : State × List BlkReg} (h : AlikeAcc P acc acc') (op : MicroOp) :
    AlikeAcc P (laterOp acc op) (laterOp acc' op) := by
  have haddr := h.state.addr_eq op
  have hdp := h.state.dp_eq
  cases op with
  | lda l dst b o => simp only [Machine.laterOp, haddr]; exact h.laterLoad hP _ _ _
  | ldu dst b o => simp only [Machine.laterOp, haddr]; exact h.laterLoad hP _ _ _
  | sta l src b o => simp only [Machine.laterOp, haddr]; exact h.laterStore hP _ _ rfl
  | stu l src b o => simp only [Machine.laterOp, haddr]; exact h.laterStore hP _ _ rfl
  | stn src b o => simp only [Machine.laterOp, haddr]; exact h.laterStore hP _ _ rfl
  | xorb dst a b => simp only [Machine.laterOp, hdp]; exact h.laterCompute _ _ _
  | move dst src => simp only [Machine.laterOp, hdp]; exact h.laterCompute _ _ _
  | salsa g => simp only [Machine.laterOp, hdp]; exact h.laterCompute _ _ _
  | _ => exact h

theorem AlikeAcc.laterOps {acc acc' : State × List BlkReg} (h : AlikeAcc P acc acc') (ops : List MicroOp) :
    AlikeAcc P (ops.foldl Machine.laterOp acc) (ops.foldl Machine.laterOp acc') := by
  induction ops generalizing acc acc' with
  | nil => exact h
  | cons op ops ih => exact ih (h.laterOp hP op)

theorem Alike.laterWrites (h : Alike P s s') (ops : List MicroOp) (lost : List BlkReg) :
    Alike P (s.laterWrites ops lost) (s'.laterWrites ops lost) := by
  have hr := (AlikeAcc.laterOps hP (acc := (s, lost)) (acc' := (s', lost)) ⟨h, rfl⟩ ops).state
  have hview : P (s.laterWrites ops lost).view (s'.laterWrites ops lost).view := by
    rw [State.laterWrites_view, State.laterWrites_view]
    exact hr.view
  have hdraws := hr.draws_eq
  obtain ⟨v, hv⟩ := h
  have hsee : (s.see v).laterWrites ops lost = (s.laterWrites ops lost).see ((s.see v).laterWrites ops lost).view := by
    simp only [State.laterWrites, hdraws]
    rfl
  rw [hsee]
  exact ⟨_, hview⟩

theorem Alike.stopCommand (h : Alike P s s') (ops : List MicroOp) (lost : List BlkReg) :
    Alike P (s.stopCommand ops lost) (s'.stopCommand ops lost) := by
  have hsmix : s'.isSmix = s.isSmix := by obtain ⟨v, _⟩ := h; rfl
  have hbefore : s'.beforeRestore = s.beforeRestore := by obtain ⟨v, _⟩ := h; rfl
  have hu : Alike P (if s.beforeRestore then s else s.laterWrites ops lost)
      (if s.beforeRestore then s' else s'.laterWrites ops lost) := by
    split
    · exact h
    · exact h.laterWrites hP ops lost
  unfold State.stopCommand
  dsimp only
  rw [hsmix, hbefore]
  split
  · exact hu.map (f := fun u => u.enterPhase .zeroize) (fun _ => rfl) fun _ _ => rfl
  · exact hu.complete hP

/-! ### The end of a block sequence, and a bus error -/

theorem Alike.lateStop (h : Alike P s s') : Alike P (lateStop s) (lateStop s') := by
  unfold Machine.lateStop
  rw [h.blockOps_eq, h.seq_eq]
  exact h.stopCommand hP _ _

theorem Alike.endBlock (h : Alike P s s') : Alike P (endBlock s) (endBlock s') := by
  have hlatched : s'.latched = s.latched := by obtain ⟨v, _⟩ := h; rfl
  have hsmix : s'.isSmix = s.isSmix := by obtain ⟨v, _⟩ := h; rfl
  have herr : s'.pendingErr = s.pendingErr := by obtain ⟨v, _⟩ := h; rfl
  unfold Machine.endBlock
  rw [h.seq_eq, hlatched, hsmix, herr]
  cases s.seq.phase <;> dsimp only
  case prepare | restore => split; exacts [h.enterPhase _, h.complete hP]
  case fill | mix => split; exacts [h.nextIter, h.enterPhase _]
  case fence => split; exacts [h.lateStop hP, h.enterPhase _]
  all_goals exact h.complete hP

theorem Alike.busError (h : Alike P s s') (op : MicroOp) {q : Request} (hq : q.inSpace = true) :
    Alike P (busError op q s) (busError op q s') := by
  have hf := h.failRequest hP hq
  unfold Machine.busError
  rw [h.seq_eq]
  split
  · exact hf.map (f := fun u => { u.nextOp with zeroOk := false }) (fun _ => rfl) fun _ _ => rfl
  · split
    · exact hf.nextOp
    · unfold errorStop
      rw [h.blockOps_eq, h.seq_eq]
      exact hf.stopCommand hP _ _

end
end
end Sys2Proof.Machine

/-! PROOFS. Hint enables change no value, and a drain nothing the engine does (10_state.md R42, 20_memory.md R80, R85, R86). -/

namespace Sys2Proof.Machine

/-! ### The engine's step on two states it cannot tell apart -/

/-- A hint is recorded where it is enabled, and does nothing else (R80). -/
theorem performOp_hint {op : MicroOp} {s : State} {kind : ReqKind} {a : Nat} (enabled : Ctrl → Bool) (hline : HintLine a)
    (hkind : kind = .prefetch ∨ kind = .flush) (hreq : op.request s = if enabled s.ctrl then some ⟨kind, a⟩ else none)
    (hrun : ∀ u, op.run u = u.nextOp) : performOp op s = .next (s.see (s.view.hint enabled ⟨kind, a⟩)).nextOp := by
  have hsize : kind.size = 64 ∧ kind.align = 64 ∧ kind.isHint = true := by rcases hkind with rfl | rfl <;> exact ⟨rfl, rfl, rfl⟩
  obtain ⟨hsize, halign, hhint⟩ := hsize
  have hin : (⟨kind, a⟩ : Request).inSpace = true := decide_eq_true (by rw [hsize]; exact hline.2)
  have hal : (⟨kind, a⟩ : Request).isAligned = true := beq_iff_eq.2 (by rw [halign]; exact hline.1)
  have hno : (⟨kind, a⟩ : Request).fails s.platform = false := by rw [Request.fails, hhint]; rfl
  cases hc : enabled s.ctrl with
  | true =>
    have hview : s.view.hint enabled ⟨kind, a⟩ = s.view.record ⟨kind, a⟩ := if_pos hc
    rw [hc, if_pos rfl] at hreq
    simp only [performOp, hreq, hin, hal, hno, hrun, hview]
    rfl
  | false =>
    have hview : s.view.hint enabled ⟨kind, a⟩ = s.view := if_neg (by rw [show enabled s.view.ctrl = false from hc]; decide)
    rw [hc, if_neg (by decide)] at hreq
    simp only [performOp, hreq, hrun, hview]
    rfl

theorem performOp_pfn {s : State} {b : Base} {o : Nat} (h : HintLine (s.baseAddr b + o)) :
    performOp (.pfn b o) s = .next (s.see (s.view.hint Ctrl.pfe ⟨.prefetch, s.baseAddr b + o⟩)).nextOp :=
  performOp_hint Ctrl.pfe h (.inl rfl) (by cases hc : s.ctrl.pfe <;> simp [MicroOp.request, MicroOp.reqKind, MicroOp.addr, hc]) fun _ => rfl

theorem performOp_flush {s : State} {b : Base} {o : Nat} (h : HintLine (s.baseAddr b + o)) :
    performOp (.flush b o) s = .next (s.see (s.view.hint Ctrl.fle ⟨.flush, s.baseAddr b + o⟩)).nextOp :=
  performOp_hint Ctrl.fle h (.inr rfl) (by cases hc : s.ctrl.fle <;> simp [MicroOp.request, MicroOp.reqKind, MicroOp.addr, hc]) fun _ => rfl

section
variable {P : View → View → Prop} {s s' t : State} {c : Instr} (hP : Indistinct P)
include hP

/-- A micro-operation that is no hint places the same request on both ports. -/
theorem Alike.performOp_noHint (h : Alike P s s') {op : MicroOp} (hreq : op.request s' = op.request s)
    (ht : performOp op s = .next t) : ∃ t', performOp op s' = .next t' ∧ Alike P t t' := by
  have hrecord : ∀ q, op.request (s.record q) = op.request s := fun q => by cases op <;> rfl
  rcases performOp_cases ht with ⟨hq, rfl⟩ | ⟨q, hq, hin, hal, ⟨hf, rfl⟩ | ⟨hf, rfl⟩⟩
  · refine ⟨op.run s', ?_, h.run hP fun q hq' => by rw [hq] at hq'; cases hq'⟩
    simp [performOp, hreq, hq]
  · refine ⟨Machine.busError op q (s'.record q), ?_, (h.record hP q).busError hP op hin⟩
    simp [performOp, hreq, hq, hin, hal, h.platform_eq, hf]
  · refine ⟨op.run (s'.record q), ?_, (h.record hP q).run hP fun q' hq' => ?_⟩
    · simp [performOp, hreq, hq, hin, hal, h.platform_eq, hf]
    · rw [hrecord, hq] at hq'
      cases hq'
      exact hin

/-- A micro-operation does the same on both. -/
theorem Alike.performOp (h : Alike P s s') {op : MicroOp}
    (hhint : ∀ b o, op = .pfn b o ∨ op = .flush b o → HintLine (s.baseAddr b + o))
    (ht : performOp op s = .next t) : ∃ t', performOp op s' = .next t' ∧ Alike P t t' := by
  have hbase : ∀ b, s'.baseAddr b = s.baseAddr b := fun b => h.addr_eq (.pfn b 0)
  cases op with
  | pfn b o =>
    have hline := hhint b o (.inl rfl)
    rw [performOp_pfn hline] at ht
    cases ht
    refine ⟨_, performOp_pfn (by rw [hbase]; exact hline), ?_⟩
    rw [hbase]
    obtain ⟨v, hv⟩ := h
    exact Alike.nextOp ⟨v.hint Ctrl.pfe _, hP.hint hv _ _⟩
  | flush b o =>
    have hline := hhint b o (.inr rfl)
    rw [performOp_flush hline] at ht
    cases ht
    refine ⟨_, performOp_flush (by rw [hbase]; exact hline), ?_⟩
    rw [hbase]
    obtain ⟨v, hv⟩ := h
    exact Alike.nextOp ⟨v.hint Ctrl.fle _, hP.hint hv _ _⟩
  | _ => exact h.performOp_noHint hP (by simp only [MicroOp.request, h.addr_eq]; rfl) ht

theorem Alike.sequencerStep (h : Alike P s s') (hc : RunsCommand c s) (ht : sequencerStep s = .next t) :
    ∃ t', sequencerStep s' = .next t' ∧ Alike P t t' := by
  rcases sequencerStep_cases ht with ⟨op, hop, hp⟩ | ⟨hend, rfl⟩
  · obtain ⟨t', ht', ha⟩ := h.performOp hP (op := op) (fun b o hh => by
      refine hc.hint_ok ?_
      rcases hh with rfl | rfl
      · exact .inl hop
      · exact .inr hop) hp
    exact ⟨t', by rw [Machine.sequencerStep, h.blockOps_eq, h.seq_eq, hop]; exact ht', ha⟩
  · exact ⟨Machine.endBlock s', by rw [Machine.sequencerStep, h.blockOps_eq, h.seq_eq, hend], h.endBlock hP⟩

/-- An engine step of a running command does the same on both (R252). -/
theorem Alike.engineStep (h : Alike P s s') (hc : RunsCommand c s) (ht : engineStep s = .next t) :
    ∃ t', engineStep s' = .next t' ∧ Alike P t t' := by
  have hcount : Alike P s.countArrival s'.countArrival := by
    refine h.map (fun s => ?_) (fun s v => ?_) <;> unfold State.countArrival
    · split <;> rfl
    · rw [State.see_errorInFlight]
      split <;> rfl
  have hc' : RunsCommand c s.countArrival :=
    hc.of_eq (by simp) (by simp) (by simp) (by simp) (by simp) (by simp) (by simp) (by simp) (by simp)
  have harrives : s'.errorArrives = s.errorArrives := by obtain ⟨v, _⟩ := h; rfl
  rcases engineStep_cases ht with ⟨ha, rfl⟩ | ⟨ha, hs⟩
  · exact ⟨Machine.lateStop s'.countArrival, by simp [Machine.engineStep, harrives, ha], hcount.lateStop hP⟩
  · obtain ⟨t', ht', halike⟩ := hcount.sequencerStep hP hc' hs
    exact ⟨t', by simp [Machine.engineStep, harrives, ha, ht'], halike⟩

/-- A run to the end does the same on both. -/
theorem Alike.runToIdle (fuel : Nat) (h : Alike P s s') (hc : s.status.busy = true → RunsCommand c s)
    (ht : runToIdle fuel s = .next t) : ∃ t', runToIdle fuel s' = .next t' ∧ Alike P t t' := by
  induction fuel generalizing s s' with
  | zero =>
    cases ht
    exact ⟨s', rfl, h⟩
  | succ fuel ih =>
    have hstatus : s'.status = s.status := by obtain ⟨v, _⟩ := h; rfl
    cases hb : s.status.busy with
    | false =>
      rw [runToIdle_idle _ _ hb] at ht
      cases ht
      exact ⟨s', runToIdle_idle _ _ (by rw [hstatus]; exact hb), h⟩
    | true =>
      cases hu : Machine.engineStep s with
      | fault f => simp [Machine.runToIdle, hb, hu] at ht
      | refused r => simp [Machine.runToIdle, hb, hu] at ht
      | next u =>
        rw [runToIdle_busy hb hu] at ht
        obtain ⟨u', hu', halike⟩ := h.engineStep hP (hc hb) hu
        rw [runToIdle_busy (by rw [hstatus]; exact hb) hu']
        refine ih halike (fun hbu => ?_) ht
        rcases (hc hb).engineStep hb hu with ⟨_, hcu⟩ | ⟨hidle, _⟩
        · exact hcu
        · rw [hbu] at hidle
          cases hidle

omit hP in
/-- The issue of a command does the same on both (R240, R241). -/
theorem Alike.issueCommand (h : Alike P s s') {i : Instr} (ht : issueCommand i s = .next t) :
    ∃ t', issueCommand i s' = .next t' ∧ Alike P t t' := by
  obtain ⟨v, hv⟩ := h
  have hcheck : check i (s.see v) = check i s := by cases i <;> rfl
  have hregions : commandRegions i (s.see v) = commandRegions i s := by cases i <;> rfl
  have haccept : ((s.see v).beginIssue (encode i)).accept i = ((s.beginIssue (encode i)).accept i).see v := by
    cases i <;> rfl
  rcases issueCommand_cases ht with ⟨hb, rfl⟩ | ⟨hb, e, he, rfl⟩ | ⟨⟨h1, h2, h3, h4⟩, rfl⟩
  · exact ⟨(s.see v).ignoreWrite, by simp [Machine.issueCommand, hb], v, hv⟩
  · exact ⟨((s.see v).beginIssue (encode i)).reject e, by simp [Machine.issueCommand, hb, hcheck, he], v, hv⟩
  · refine ⟨_, issueCommand_accepts ⟨h1, hcheck.trans h2, ?_, ?_⟩, haccept ▸ ⟨v, hv⟩⟩
    · rw [hregions]; exact h3
    · rw [hregions]; exact h4

/-- A whole command does the same on both (R252). -/
theorem Alike.exec (h : Alike P s s') {i : Instr} (ht : exec i s = .next t) : ∃ t', exec i s' = .next t' ∧ Alike P t t' := by
  have hstatus : s'.status = s.status := by obtain ⟨v, _⟩ := h; rfl
  rw [exec_eq_runCommand] at ht ⊢
  unfold runCommand at ht ⊢
  rw [hstatus]
  split at ht
  next hb =>
    cases ht
    exact ⟨s'.ignoreWrite, if_pos hb, h.map (f := State.ignoreWrite) (fun _ => rfl) fun _ _ => rfl⟩
  next hb =>
    cases hu : Machine.issueCommand i s with
    | fault f => rw [hu] at ht; cases ht
    | refused r => rw [hu] at ht; cases ht
    | next u =>
      rw [hu] at ht
      obtain ⟨u', hu', halike⟩ := h.issueCommand hu
      have hlatched : u'.latched = u.latched := by obtain ⟨v, _⟩ := halike; rfl
      rw [if_neg hb, hu']
      dsimp only at ht ⊢
      rw [hlatched]
      refine halike.runToIdle hP _ (c := i) (fun hbu => ?_) ht
      rcases issueCommand_cases hu with ⟨hb', _⟩ | ⟨hb', e, _, rfl⟩ | ⟨ha, rfl⟩
      · exact absurd hb' hb
      · exact absurd (hbu : s.status.busy = true) hb
      · exact runsCommand_started ha

end

/-! ### Hint enables (R80) -/

/-- The same memory and the same write buffer. -/
def SamePort (v v' : View) : Prop := v'.mem = v.mem ∧ v'.wbuf = v.wbuf

theorem indistinct_samePort : Indistinct SamePort where
  reads h a := by obtain ⟨hm, hw⟩ := h; simp only [View.readByte, hm, hw]
  store h a _ b := ⟨h.1, by simp only [View.store, h.2]⟩
  drain h := ⟨by simp only [View.drain, h.1, h.2], rfl⟩
  record h _ := h
  hint h enabled q := by
    unfold View.hint
    split <;> split <;> exact h

/-- Settles O31: hint enables belong to the view the engine cannot tell apart, memory and write buffer being the same. -/
theorem hintEnablesChangeNoValue : Obligations.HintEnablesChangeNoValue := by
  intro i s t p f ht
  have h : Alike SamePort s { s with ctrl := { s.ctrl with pfe := p, fle := f } } :=
    ⟨⟨{ s.ctrl with pfe := p, fle := f }, s.trace, s.mem, s.wbuf⟩, rfl, rfl⟩
  obtain ⟨_, ht', ⟨v, hm, hw⟩⟩ := h.exec indistinct_samePort ht
  refine ⟨t.see v, ht', ?_⟩
  have hm' : v.mem = t.mem := hm
  have hw' : v.wbuf = t.wbuf := hw
  simp only [State.see, hm', hw']

/-! ### Drains (R85, R86) -/

/-- The same CTRL and requests recorded, and ports in order that the engine reads the same through. -/
structure SameReads (v v' : View) : Prop where
  ctrl : v'.ctrl = v.ctrl
  trace : v'.trace = v.trace
  mem : v.mem.wf
  wbuf : BufferOk v.wbuf
  mem' : v'.mem.wf
  wbuf' : BufferOk v'.wbuf
  reads : ∀ a, v'.readByte a = v.readByte a

theorem View.readByte_store (v : View) (a : Nat) (b : Block) (x : Nat) :
    (v.store a b).readByte x = (PendingWrite.mk a b).patch x (v.readByte x) := by
  simp [View.readByte, View.store, List.foldl_append]

theorem View.readByte_drain {v : View} (hm : v.mem.wf) (hw : BufferOk v.wbuf) (x : Nat) : v.drain.readByte x = v.readByte x :=
  Memory.read_performAll v.wbuf hw v.mem hm x

theorem indistinct_sameReads : Indistinct SameReads where
  reads h := h.reads
  store h _ ha b :=
    ⟨h.ctrl, h.trace, h.mem, bufferOk_append h.wbuf ha, h.mem', bufferOk_append h.wbuf' ha, fun x => by
      rw [View.readByte_store, View.readByte_store, h.reads]⟩
  drain h :=
    ⟨h.ctrl, h.trace, Memory.wf_performAll _ h.wbuf _ h.mem, bufferOk_nil, Memory.wf_performAll _ h.wbuf' _ h.mem', bufferOk_nil,
      fun x => by rw [View.readByte_drain h.mem h.wbuf, View.readByte_drain h.mem' h.wbuf', h.reads]⟩
  record h q := ⟨h.ctrl, congrArg (q :: ·) h.trace, h.mem, h.wbuf, h.mem', h.wbuf', h.reads⟩
  hint h enabled q := by
    unfold View.hint
    rw [h.ctrl]
    split
    · exact ⟨h.ctrl, congrArg (q :: ·) h.trace, h.mem, h.wbuf, h.mem', h.wbuf', h.reads⟩
    · exact h

/-- A drain performs the oldest write, if there is one, and leaves everything but memory and the write buffer (R86). -/
theorem State.drainOldest_eq (s : State) : ∃ m, s.drainOldest = { s with mem := m, wbuf := s.wbuf.drop 1 } := by
  cases hw : s.wbuf with
  | nil =>
    have h : s.drainOldest = s := by simp [State.drainOldest, hw]
    exact ⟨s.mem, by rw [h, List.drop_nil, ← hw]⟩
  | cons w ws => exact ⟨s.mem.perform w, by simp [State.drainOldest, hw]⟩

theorem Invariant.alike_drainOldest {s : State} (h : Invariant s) : Alike SameReads s s.drainOldest := by
  obtain ⟨hmem, hwbuf, hreads⟩ := s.drainOldest_spec h.portOk.mem h.portOk.wbuf
  obtain ⟨m, hm⟩ := s.drainOldest_eq
  rw [hm] at hmem hwbuf hreads ⊢
  exact .mk ⟨s.ctrl, s.trace, m, s.wbuf.drop 1⟩ ⟨rfl, rfl, h.portOk.mem, h.portOk.wbuf, hmem, hwbuf, hreads⟩

/-- Settles O60: a drain leaves a view the engine cannot tell from the one before. -/
theorem drainChangesNothingTheEngineDoes : Obligations.DrainChangesNothingTheEngineDoes := by
  refine ⟨fun s rest h hin => ?_, fun s t h hb ht => ?_⟩
  · obtain ⟨m, hm⟩ := (s.popInput rest).drainOldest_eq
    obtain ⟨_, _, hreads⟩ := (s.popInput rest).drainOldest_spec h.portOk.mem h.portOk.wbuf
    rw [hm] at hreads
    exact ⟨_, by simp only [step, hin, takeInput, hm], rfl, rfl, hreads⟩
  · obtain ⟨c, hc⟩ := h.running hb
    obtain ⟨_, ht', ⟨v, hv⟩⟩ := h.alike_drainOldest.engineStep indistinct_sameReads hc ht
    refine ⟨t.see v, ht', ?_, hv.reads⟩
    have hctrl : v.ctrl = t.ctrl := hv.ctrl
    have htrace : v.trace = t.trace := hv.trace
    simp only [State.see, hctrl, htrace]

end Sys2Proof.Machine

/-! PROOFS. The register window: which register an offset reaches, and what reads and writes of it do (10_state.md R40 to R53). -/

namespace Sys2Proof.Machine

/-! ### Offsets -/

/-- Every register of the map is found at its offset (R40). -/
theorem Reg.atOffset_offset (r : Reg) : Reg.atOffset r.offset = some r := by cases r <;> rfl

theorem readOffset_reg (r : Reg) (s : State) : readOffset r.offset s = readReg r s := by
  rw [readOffset, Reg.atOffset_offset]

theorem writeOffset_reg (r : Reg) (v : Reg64) (s : State) : writeOffset r.offset v s = writeReg r v s := by
  rw [writeOffset, Reg.atOffset_offset]

/-- No register stands behind PROGRESS (R52). -/
theorem Reg.atOffset_reserved {o : BitVec 8} (h : 0x88 ≤ o.toNat) : Reg.atOffset o = none := by
  have hle : ∀ r : Reg, r.offset.toNat ≤ 0x80 := fun r => by cases r <;> decide
  refine List.find?_eq_none.2 fun r _ hr => ?_
  have hro := of_decide_eq_true hr
  have := hle r
  rw [hro] at this
  omega

theorem readOffset_reserved {o : BitVec 8} (h : 0x88 ≤ o.toNat) (s : State) : readOffset o s = (0#64, s) := by
  rw [readOffset, Reg.atOffset_reserved h]

theorem writeOffset_reserved {o : BitVec 8} (h : 0x88 ≤ o.toNat) (v : Reg64) (s : State) : writeOffset o v s = .next s := by
  rw [writeOffset, Reg.atOffset_reserved h]

/-- A multiple of 8 is a register's offset or a reserved one (R40, R52). -/
theorem offset_cases {o : BitVec 8} (h : o.toNat % 8 = 0) : (∃ r : Reg, o = r.offset) ∨ 0x88 ≤ o.toNat := by
  by_cases hr : 0x88 ≤ o.toNat
  · exact .inr hr
  · refine .inl ?_
    have hfind : ∀ k : Fin 17, ∃ r ∈ Reg.all, r.offset.toNat = 8 * k.val := by decide
    obtain ⟨r, _, hk⟩ := hfind ⟨o.toNat / 8, by omega⟩
    exact ⟨r, BitVec.eq_of_toNat_eq (by simp only at hk; omega)⟩

/-! ### The bits of CTRL and STATUS -/

/-- STATUS bit by bit: six flags, two reserved bits, then PHASE (R43). -/
theorem Status.getLsbD_word (st : Status) (ph : Phase) (i : Nat) :
    (st.word ph).getLsbD i =
      if i < 8 then [st.busy, st.done, st.err, st.swap, st.wign, st.zeroed].getD i false else ph.code.getLsbD (i - 8) := by
  simp only [Status.word, BitVec.getLsbD_append]
  by_cases hi : i < 8
  · rw [if_pos hi]
    interval_cases i <;> simp
  · have hsub : i - 1 - 1 - 1 - 1 - 1 - 1 - 2 = i - 8 := by omega
    rw [if_neg hi, if_neg (by omega), if_neg (by omega), if_neg (by omega), if_neg (by omega), if_neg (by omega),
      if_neg (by omega), if_neg (by omega), hsub]
    split
    next => rfl
    next hj => rw [BitVec.getLsbD_zero, BitVec.getLsbD_of_ge _ _ (by omega)]

/-- PHASE stands in bits 15:8 of STATUS (R43, R51). -/
theorem Status.word_phase (st : Status) (ph : Phase) : (st.word ph).extractLsb' 8 8 = ph.code := by
  apply BitVec.eq_of_getLsbD_eq
  intro i hi
  rw [BitVec.getLsbD_extractLsb', Status.getLsbD_word, if_neg (by omega), Nat.add_sub_cancel_left, decide_eq_true hi, Bool.true_and]

/-- CTRL bit by bit (R42). -/
theorem Ctrl.getLsbD_word (c : Ctrl) (i : Nat) : c.word.getLsbD i = [c.ie, c.pfe, c.fle].getD i false := by
  simp only [Ctrl.word, BitVec.getLsbD_append]
  by_cases hi : i < 3
  · interval_cases i <;> simp
  · rw [if_neg (by omega), if_neg (by omega), if_neg (by omega), BitVec.getLsbD_zero, List.getD_eq_default _ _ (by simp; omega)]

/-- Bits that are all zero outside a mask vanish under its complement. -/
theorem and_not_eq_zero {v m : Reg64} (h : ∀ i, i < 64 → m.getLsbD i = false → v.getLsbD i = false) : v &&& ~~~m = 0#64 := by
  apply BitVec.eq_of_getLsbD_eq
  intro i hi
  rw [BitVec.getLsbD_and, BitVec.getLsbD_not, BitVec.getLsbD_zero]
  cases hm : m.getLsbD i with
  | true => simp
  | false => rw [h i hi hm]; rfl

/-- A read of STATUS shows the status bits with some phase (R43). -/
theorem readStatus_fst (s : State) : ∃ ph, s.readStatus.1 = s.status.word ph := by
  unfold State.readStatus
  split
  · exact ⟨_, rfl⟩
  · exact ⟨_, rfl⟩

/-- A word of at most `n` bits has nothing outside any mask that covers its low `n` bits. -/
theorem getLsbD_setWidth_of_ge {n i : Nat} (x : BitVec n) (h : n ≤ i) : (x.setWidth 64).getLsbD i = false := by
  rw [BitVec.getLsbD_setWidth, BitVec.getLsbD_of_ge x i h, Bool.and_false]

/-- A write of CTRL sees IE, PFE and FLE alone (R42). -/
theorem Ctrl.ofWord_and_mask (v : Reg64) : Ctrl.ofWord (v &&& 0x7#64) = Ctrl.ofWord v := by
  simp [Ctrl.ofWord]

/-- A write of STATUS sees DONE, ERR and WIGN alone (R43). -/
theorem State.writeStatus_and_mask (s : State) (v : Reg64) : s.writeStatus (v &&& 0x16#64) = s.writeStatus v := by
  simp [State.writeStatus, Status.clearOnes]

/-- Settles O52: no register stands at a reserved offset, and the reserved bits stand outside the masks. -/
theorem reservedOffsetsAndBitsReadZeroAndIgnoreWrites : Obligations.ReservedOffsetsAndBitsReadZeroAndIgnoreWrites := by
  refine ⟨fun s o v h _ => ⟨readOffset_reserved h s, writeOffset_reserved h v s⟩, fun s => ⟨?_, ?_, ?_, ?_⟩,
    fun s v => ⟨?_, ?_, rfl, rfl⟩⟩
  · refine and_not_eq_zero fun i hi hm => ?_
    rw [show (readOffset 0x08#8 s).1 = s.ctrl.word from rfl, Ctrl.getLsbD_word]
    interval_cases i <;> simp at hm ⊢
  · obtain ⟨ph, hph⟩ := readStatus_fst s
    refine and_not_eq_zero fun i hi hm => ?_
    rw [show (readOffset 0x10#8 s).1 = s.readStatus.1 from rfl, hph, Status.getLsbD_word]
    split
    next hlow => interval_cases i <;> simp at hm ⊢
    next hhigh =>
      refine BitVec.getLsbD_of_ge _ _ ?_
      by_contra hcode
      interval_cases i <;> simp at hm hhigh hcode
  · refine and_not_eq_zero fun i hi hm => getLsbD_setWidth_of_ge s.errInfo.code ?_
    interval_cases i <;> simp at hm ⊢
  · refine and_not_eq_zero fun i hi hm => getLsbD_setWidth_of_ge s.j ?_
    interval_cases i <;> simp at hm ⊢
  · exact congrArg (fun c => Host.Outcome.next { s with ctrl := c }) (Ctrl.ofWord_and_mask v).symm
  · exact congrArg Host.Outcome.next (s.writeStatus_and_mask v).symm

end Sys2Proof.Machine

/-! PROOFS. One access of the host to the window (10_state.md R43 to R54, 30_encoding.md R110), and the acceptance step (44_controller.md R241). -/

namespace Sys2Proof

/-! ### The word of a decoded command -/

/-- A word is its four fields (R101). -/
theorem fields_append (v : Reg64) : fieldRsv v ++ fieldNat v ++ fieldMode v ++ fieldOpc v = v := by
  apply BitVec.eq_of_getLsbD_eq
  intro k hk
  simp only [BitVec.getLsbD_append, fieldRsv, fieldNat, fieldMode, fieldOpc, BitVec.getLsbD_extractLsb']
  by_cases h₁ : k < 8
  · rw [if_pos h₁, decide_eq_true h₁, Nat.zero_add, Bool.true_and]
  by_cases h₂ : k - 8 < 2
  · rw [if_neg h₁, if_pos h₂, decide_eq_true h₂, show 8 + (k - 8) = k by omega, Bool.true_and]
  by_cases h₃ : k - 8 - 2 < 1
  · rw [if_neg h₁, if_neg h₂, if_pos h₃, decide_eq_true h₃, show 10 + (k - 8 - 2) = k by omega, Bool.true_and]
  · rw [if_neg h₁, if_neg h₂, if_neg h₃, show 11 + (k - 8 - 2 - 1) = k by omega, decide_eq_true (by omega), Bool.true_and]

/-- A word with the fields of a command is the command's word (R100). -/
theorem eq_encode_of_fields {v : Reg64} {i : Instr} (hr : fieldRsv v = 0#53) (hn : fieldNat v = natOf i) (hm : fieldMode v = modeOf i)
    (ho : fieldOpc v = opcOf i) : v = encode i := by
  rw [← fields_append v, hr, hn, hm, ho, encode]

/-- An operation code without MODE and NAT decodes to its command alone (R103). -/
theorem decodePlain_ok {v : Reg64} {i j : Instr} (h : decodePlain v i = .ok j) : j = i ∧ fieldMode v = 0#2 ∧ fieldNat v = 0#1 := by
  unfold decodePlain at h
  split at h
  next => cases h
  next hm =>
    split at h
    next => cases h
    next hn => exact ⟨(Except.ok.inj h).symm, of_not_not hm, of_not_not hn⟩

/-- OPC = 0x04 decodes by MODE, with NAT clear (R103). -/
theorem decodeBlockmix_ok {v : Reg64} {i : Instr} (h : decodeBlockmix v = .ok i) :
    fieldMode v = modeOf i ∧ fieldNat v = natOf i ∧ opcOf i = 0x04#8 := by
  unfold decodeBlockmix at h
  split at h
  next => cases h
  next hn =>
    have hn' := of_not_not hn
    split at h
    next hm => cases h; exact ⟨hm, hn', rfl⟩
    next =>
      split at h
      next hm => cases h; exact ⟨hm, hn', rfl⟩
      next =>
        split at h
        next hm => cases h; exact ⟨hm, hn', rfl⟩
        next => cases h

/-- OPC = 0x06 decodes by NAT, with MODE clear (R103). -/
theorem decodeSalsa_ok {v : Reg64} {i : Instr} (h : decodeSalsa v = .ok i) :
    fieldMode v = modeOf i ∧ fieldNat v = natOf i ∧ opcOf i = 0x06#8 := by
  have hbit : ∀ b : BitVec 1, b ≠ 0#1 → b = 1#1 := by decide
  unfold decodeSalsa at h
  split at h
  next => cases h
  next hm =>
    have hm' := of_not_not hm
    split at h
    next hn => cases h; exact ⟨hm', hn, rfl⟩
    next hn => cases h; exact ⟨hm', hbit _ hn, rfl⟩

/-- Only the word of a command decodes to it (R100, R103). -/
theorem eq_encode_of_decode {v : Reg64} {i : Instr} (h : decode v = .ok i) : v = encode i := by
  have plain : ∀ {j : Instr}, fieldRsv v = 0#53 → natOf j = 0#1 → modeOf j = 0#2 → fieldOpc v = opcOf j →
      decodePlain v j = .ok i → v = encode i := fun hr hn hm ho hd => by
    obtain ⟨rfl, hmv, hnv⟩ := decodePlain_ok hd
    exact eq_encode_of_fields hr (hnv.trans hn.symm) (hmv.trans hm.symm) ho
  unfold decode at h
  split at h
  next => cases h
  next hr =>
    have hr' := of_not_not hr
    split at h
    next ho => exact plain (j := .smix) hr' rfl rfl ho h
    split at h
    next ho => exact plain (j := .prepare) hr' rfl rfl ho h
    split at h
    next ho => exact plain (j := .restore) hr' rfl rfl ho h
    split at h
    next ho =>
      obtain ⟨hm, hn, hi⟩ := decodeBlockmix_ok h
      exact eq_encode_of_fields hr' hn hm (ho.trans hi.symm)
    split at h
    next ho => exact plain (j := .integerify) hr' rfl rfl ho h
    split at h
    next ho =>
      obtain ⟨hm, hn, hi⟩ := decodeSalsa_ok h
      exact eq_encode_of_fields hr' hn hm (ho.trans hi.symm)
    split at h
    next ho => exact plain (j := .zeroize) hr' rfl rfl ho h
    next => cases h

/-! ### The parameter registers' offsets -/

/-- The parameter registers (R47). -/
def Reg.isParam : Reg → Bool
  | .dataBase | .byteLen | .elemCount | .elemIndex | .costN | .workBase | .shufBase | .tableBase | .otherBase => true
  | .id | .ctrl | .status | .cmd | .errInfo | .errAddr | .j | .progress => false

/-- The parameter registers stand from 0x30 to 0x70 (R40). -/
theorem Reg.isParam_iff (r : Reg) : r.isParam = true ↔ 0x30 ≤ r.offset.toNat ∧ r.offset.toNat ≤ 0x70 := by
  cases r <;> decide

/-- CMD stands at 0x18 (R40). -/
theorem Reg.eq_cmd_of_offset {r : Reg} (h : r.offset.toNat = 0x18) : r = .cmd := by
  revert h
  cases r <;> decide

end Sys2Proof

namespace Sys2Proof.Machine

/-! ### Steps on an access -/

/-- An 8-byte write at a multiple of 8 is the write at that offset; the bus answers 0 without an error (R110). -/
theorem step_write {s : State} {o : BitVec 8} {v : Reg64} {rest : List Input} (hin : s.inputs = .access ⟨o, 8, .write v⟩ :: rest)
    (ho : o.toNat % 8 = 0) : step s = writeOffset o v ((s.popInput rest).respond 0#64 false) := by
  simp [step, hin, takeInput, hostAccess, Access.wellFormed, ho]

/-- An 8-byte read at a multiple of 8 answers the value the offset shows (R110). -/
theorem step_read {s : State} {o : BitVec 8} {rest : List Input} (hin : s.inputs = .access ⟨o, 8, .read⟩ :: rest)
    (ho : o.toNat % 8 = 0) :
    step s = .next ((readOffset o (s.popInput rest)).2.respond (readOffset o (s.popInput rest)).1 false) := by
  simp [step, hin, takeInput, hostAccess, Access.wellFormed, ho]

/-- A reset input resets the engine (R320). -/
theorem step_reset {s : State} {rest : List Input} (hin : s.inputs = .reset :: rest) : step s = .next (resetEngine (s.popInput rest)) := by
  simp [step, hin, takeInput]

/-- Settles O49: the step is `writeStatus`. -/
theorem statusWriteOneToClear : Obligations.StatusWriteOneToClear := by
  intro s v rest hin
  refine ⟨_, (step_write hin rfl).trans (writeOffset_reg .status v _), rfl, rfl, rfl, rfl, rfl, rfl, fun h => ?_, fun h => ?_,
    rfl, rfl, rfl, rfl, rfl, rfl⟩
  · exact ⟨if_pos h, if_pos h⟩
  · have h' : ¬ v.getLsbD 2 = true := by rw [h]; exact Bool.false_ne_true
    exact ⟨if_neg h', if_neg h'⟩

/-! ### Reset -/

/-- After reset a register other than ID and CTRL reads 0 (R40, R322). -/
theorem readReg_resetEngine (r : Reg) (s : State) (hid : r ≠ .id) (hctrl : r ≠ .ctrl) : (readReg r (resetEngine s)).1 = 0#64 := by
  cases r with
  | id => exact absurd rfl hid
  | ctrl => exact absurd rfl hctrl
  | status => exact (by decide : resetStatus.word .idle = 0#64)
  | _ => rfl

/-- Settles O6: `resetEngine` sets every register of the map, and memory changes only where a running command writes. -/
theorem resetRegisterMap : Obligations.ResetRegisterMap := by
  intro s rest hin
  refine ⟨_, step_reset hin, rfl, (by decide : resetCtrl.word = 0x6#64), fun o ho hge => ?_, rfl, rfl, rfl, rfl, fun hidle => ?_⟩
  · rcases offset_cases ho with ⟨r, rfl⟩ | hres
    · rw [readOffset_reg]
      refine readReg_resetEngine r _ ?_ ?_
      · rintro rfl
        exact absurd hge (by decide)
      · rintro rfl
        exact absurd hge (by decide)
    · rw [readOffset_reserved hres]
  · have hmem : (s.popInput rest).memoryAfterReset = (s.mem, s.draws) := if_neg (by rw [State.popInput_status, hidle]; decide)
    exact congrArg Prod.fst hmem

/-! ### Acceptance -/

/-- Settles O16: the acceptance step is `State.started`, whose latched quantities the `started_` lemmas list. -/
theorem acceptanceStep : Obligations.AcceptanceStep := by
  intro i s h
  have hstatus : (s.started i).status =
      ⟨true, false, false, s.status.swap && !(decide (i = .prepare ∨ i = .smix)), s.status.wign, false⟩ := by
    cases i <;> rfl
  exact ⟨s.started i, issueCommand_accepts h, hstatus, firstPhase_mem i, firstPhase_head i, rfl, rfl, rfl, rfl, rfl, rfl, rfl, rfl,
    rfl, rfl, ⟨rfl, rfl, rfl, rfl, rfl, rfl⟩, s.started_r i, s.started_eb i, s.started_n i, s.started_elem i, s.started_work i,
    s.started_shuf i, s.started_table i, s.started_other i, s.started_owned i, s.started_writes i, rfl, rfl⟩

/-! ### Parameter registers -/

/-- The value of a parameter register. -/
def Params.get (p : Params) : Reg → Reg64
  | .dataBase => p.dataBase
  | .byteLen => p.byteLen
  | .elemCount => p.elemCount
  | .elemIndex => p.elemIndex
  | .costN => p.costN
  | .workBase => p.workBase
  | .shufBase => p.shufBase
  | .tableBase => p.tableBase
  | .otherBase => p.otherBase
  | .id | .ctrl | .status | .cmd | .errInfo | .errAddr | .j | .progress => 0#64

/-- The parameter registers with given values. -/
def Params.ofFun (f : Reg → Reg64) : Params :=
  ⟨f .dataBase, f .byteLen, f .elemCount, f .elemIndex, f .costN, f .workBase, f .shufBase, f .tableBase, f .otherBase⟩

/-- One parameter register written. -/
def Params.set (p : Params) (r : Reg) (v : Reg64) : Params := .ofFun (Function.update p.get r v)

theorem Params.get_ofFun (f : Reg → Reg64) {r : Reg} (h : r.isParam = true) : (Params.ofFun f).get r = f r := by
  cases r <;> simp only [Reg.isParam, reduceCtorEq] at h <;> rfl

theorem Params.get_set_same (p : Params) {r : Reg} (v : Reg64) (h : r.isParam = true) : (p.set r v).get r = v :=
  (Params.get_ofFun _ h).trans (Function.update_self r v p.get)

theorem Params.get_set_ne (p : Params) {r r' : Reg} (v : Reg64) (h : r'.isParam = true) (hne : r' ≠ r) : (p.set r v).get r' = p.get r' :=
  (Params.get_ofFun _ h).trans (Function.update_of_ne hne v p.get)

/-- A parameter register is written while idle (R47). -/
theorem writeReg_param {r : Reg} {s : State} (v : Reg64) (hr : r.isParam = true) (h : s.status.busy = false) :
    writeReg r v s = .next { s with params := s.params.set r v } := by
  have hp : ∀ p, s.writeParams p = { s with params := p } := fun p => if_neg (by rw [h]; decide)
  cases r <;> simp only [Reg.isParam, reduceCtorEq] at hr <;> exact congrArg Host.Outcome.next (hp _)

/-- While busy a write of CMD or of a parameter register is ignored, and WIGN set (R53). -/
theorem writeReg_ignored {r : Reg} {s : State} (v : Reg64) (hr : r = .cmd ∨ r.isParam = true) (h : s.status.busy = true) :
    writeReg r v s = .next s.ignoreWrite := by
  have hp : ∀ p, s.writeParams p = s.ignoreWrite := fun p => if_pos h
  rcases hr with rfl | hr
  · exact if_pos h
  · cases r <;> simp only [Reg.isParam, reduceCtorEq] at hr <;> exact congrArg Host.Outcome.next (hp _)

/-- ID, ERRINFO, ERRADDR, J and PROGRESS ignore writes (R53). -/
theorem writeReg_readOnly {r : Reg} (v : Reg64) (s : State) (hr : r ∈ [Reg.id, .errInfo, .errAddr, .j, .progress]) :
    writeReg r v s = .next s := by
  fin_cases hr <;> rfl

/-- Settles O12: by the register at the offset. -/
theorem writesWhileBusy : Obligations.WritesWhileBusy := by
  intro s v o rest hin ho
  simp only [step_write hin ho]
  refine ⟨fun hbusy hoff => ?_, fun hoff => ?_, fun hoff => ?_, fun hoff => ?_⟩
  · rcases offset_cases ho with ⟨r, rfl⟩ | hres
    · have hr : r = .cmd ∨ r.isParam = true := by
        rw [Reg.isParam_iff]
        exact hoff.imp_left Reg.eq_cmd_of_offset
      exact (writeOffset_reg r v _).trans (writeReg_ignored v hr hbusy)
    · omega
  · rw [hoff]
    rfl
  · rw [hoff]
    rfl
  · rcases offset_cases ho with ⟨r, rfl⟩ | hres
    · have hr : r ∈ [Reg.id, .errInfo, .errAddr, .j, .progress] := by revert hoff; cases r <;> decide
      exact (writeOffset_reg r v _).trans (writeReg_readOnly v _ hr)
    · exact writeOffset_reserved hres v _

end Sys2Proof.Machine

/-! PROOFS. Registers read back (10_state.md R40 to R53): a read depends on nothing outside the engine but the parameter
registers, and changes nothing but the model's draws. -/

namespace Sys2Proof.Machine

/-! ### What a read depends on, and what it leaves -/

/-- The state with other inputs, another answer and other parameter registers. -/
def State.withOutside (s : State) (inputs : List Input) (resp : Option Response) (p : Params) : State :=
  { s with inputs := inputs, resp := resp, params := p }

theorem State.readStatus_busy {s : State} (h : s.status.busy = true) :
    s.readStatus = (s.status.word (s.phaseDraw.getD s.phaseIndex s.seq.phase), s.dropPhases s.phaseIndex) := if_pos h

theorem State.readStatus_idle {s : State} (h : s.status.busy = false) : s.readStatus = (s.status.word s.seq.phase, s) :=
  if_neg (by rw [h]; decide)

theorem State.readProgress_busy {s : State} (h : s.status.busy = true) :
    s.readProgress = (BitVec.ofNat 64 s.progressDraw, { s with progressSeen := s.progressDraw, draws := s.draws + 1 }) := if_pos h

theorem State.readProgress_idle {s : State} (h : s.status.busy = false) : s.readProgress = (s.progress, s) :=
  if_neg (by rw [h]; decide)

/-- What a register shows and what reading it leaves, with other inputs, answer and parameters: only the parameter registers
show the difference. -/
theorem readReg_withOutside (r : Reg) (s : State) (inputs : List Input) (resp : Option Response) (p : Params) :
    readReg r (s.withOutside inputs resp p) =
      (if r.isParam then p.get r else (readReg r s).1, (readReg r s).2.withOutside inputs resp p) := by
  have hbusy : (s.withOutside inputs resp p).status.busy = s.status.busy := rfl
  cases r with
  | status =>
    cases hb : s.status.busy with
    | true => simp only [readReg, State.readStatus_busy (hbusy.trans hb), State.readStatus_busy hb]; rfl
    | false => simp only [readReg, State.readStatus_idle (hbusy.trans hb), State.readStatus_idle hb]; rfl
  | progress =>
    cases hb : s.status.busy with
    | true => simp only [readReg, State.readProgress_busy (hbusy.trans hb), State.readProgress_busy hb]; rfl
    | false => simp only [readReg, State.readProgress_idle (hbusy.trans hb), State.readProgress_idle hb]; rfl
  | _ => rfl

/-- A parameter register shows its value (R47). -/
theorem readReg_param {r : Reg} (hp : r.isParam = true) (s : State) : (readReg r s).1 = s.params.get r := by
  cases r <;> simp only [Reg.isParam, reduceCtorEq] at hp <;> rfl

/-- A read of a register moves at most the model's draws (R78, log 13). -/
theorem readReg_snd (r : Reg) (s : State) :
    ∃ p k d, (readReg r s).2 = { s with phaseDraw := p, progressSeen := k, draws := d } := by
  cases r with
  | status =>
    simp only [readReg, State.readStatus]
    split
    · exact ⟨_, _, _, rfl⟩
    · exact ⟨_, _, _, rfl⟩
  | progress =>
    simp only [readReg, State.readProgress]
    split
    · exact ⟨_, _, _, rfl⟩
    · exact ⟨_, _, _, rfl⟩
  | _ => exact ⟨_, _, _, rfl⟩

/-- A read changes nothing but for busy reads of STATUS and PROGRESS. -/
theorem readReg_snd_eq {r : Reg} {s : State} (h : s.status.busy = false ∨ (r ≠ .status ∧ r ≠ .progress)) : (readReg r s).2 = s := by
  have hbusy : r = .status ∨ r = .progress → ¬ s.status.busy = true := fun hr => by
    rcases h with h | ⟨h₁, h₂⟩
    · simp [h]
    · exact absurd hr (by simp [h₁, h₂])
  cases r with
  | status => exact congrArg Prod.snd (if_neg (hbusy (.inl rfl)))
  | progress => exact congrArg Prod.snd (if_neg (hbusy (.inr rfl)))
  | _ => rfl

/-- The register found at an offset stands there. -/
theorem offset_of_atOffset {o : BitVec 8} {r : Reg} (h : Reg.atOffset o = some r) : r.offset = o := by
  unfold Reg.atOffset at h
  simpa using List.find?_some h

/-- What an offset shows does not depend on the inputs, the answer, or a parameter register at another offset. -/
theorem readOffset_withOutside_ne {o : BitVec 8} {r : Reg} (hne : o ≠ r.offset) (s : State) (v : Reg64) (inputs : List Input)
    (resp : Option Response) : (readOffset o (s.withOutside inputs resp (s.params.set r v))).1 = (readOffset o s).1 := by
  unfold readOffset
  split
  next r' hr' =>
    have hr : r' ≠ r := fun h => hne (by rw [← offset_of_atOffset hr', h])
    rw [readReg_withOutside]
    by_cases hp : r'.isParam = true
    · rw [if_pos hp, Params.get_set_ne _ v hp hr, readReg_param hp]
    · rw [if_neg hp]
  next => rfl

/-- A parameter register reads the value written. -/
theorem readOffset_withOutside_same {r : Reg} (hp : r.isParam = true) (s : State) (v : Reg64) (inputs : List Input) (resp : Option Response) :
    (readOffset r.offset (s.withOutside inputs resp (s.params.set r v))).1 = v := by
  rw [readOffset_reg, readReg_withOutside, if_pos hp, Params.get_set_same _ v hp]

/-- What an offset shows, and what reading it leaves, does not depend on the inputs. -/
theorem readOffset_popInput (o : BitVec 8) (s : State) (rest : List Input) :
    readOffset o (s.popInput rest) = ((readOffset o s).1, (readOffset o s).2.popInput rest) := by
  unfold readOffset
  split
  next r _ =>
    obtain ⟨p, k, d, hsnd⟩ := readReg_snd r s
    refine (readReg_withOutside r s rest s.resp s.params).trans (Prod.ext ?_ ?_)
    · show (if r.isParam then s.params.get r else (readReg r s).1) = (readReg r s).1
      split
      next hp => exact (readReg_param hp s).symm
      next => rfl
    · show (readReg r s).2.withOutside rest s.resp s.params = (readReg r s).2.popInput rest
      rw [hsnd]
      rfl
  next => rfl

/-! ### CMD -/

/-- CMD holds the word of the command written, accepted or rejected (R44, R240). -/
theorem exec_cmd {i : Instr} {s t : State} (hidle : s.status.busy = false) (h : exec i s = .next t) : t.cmd = encode i := by
  rw [exec_eq_runCommand] at h
  rcases runCommand_cases h with ⟨hbusy, _⟩ | ⟨_, e, _, rfl⟩ | ⟨_, hrun⟩
  · simp [hidle] at hbusy
  · rfl
  · exact (stepFrame_runToIdle hrun).cmd

/-- CMD holds the last word written while idle (R44). -/
theorem writeCmd_cmd {v : Reg64} {s t : State} (hidle : s.status.busy = false) (h : writeCmd v s = .next t) : t.cmd = v := by
  rw [writeCmd, if_neg (by rw [hidle]; decide)] at h
  split at h
  next => cases h; rfl
  next i hi =>
    rw [eq_encode_of_decode hi]
    split at h
    next => exact exec_cmd hidle h
    next =>
      rcases issueCommand_cases h with ⟨hbusy, _⟩ | ⟨_, e, _, rfl⟩ | ⟨_, rfl⟩
      · simp [hidle] at hbusy
      · rfl
      · rfl

/-! ### The parts of the statement -/

/-- A parameter register reads back what was written, and no other offset shows a difference. -/
theorem param_reads_back {r : Reg} (hp : r.isParam = true) {s : State} (v : Reg64) (hidle : s.status.busy = false) :
    (∃ t, writeOffset r.offset v s = .next t ∧ (readOffset r.offset t).1 = v
      ∧ ∀ o' : BitVec 8, o' ≠ r.offset → (readOffset o' t).1 = (readOffset o' s).1)
    ∧ ∀ rest, s.inputs = .access ⟨r.offset, 8, .write v⟩ :: rest →
      ∃ t, step s = .next t ∧ t = { s with inputs := rest, resp := some ⟨0#64, false⟩, params := t.params }
        ∧ (readOffset r.offset t).1 = v ∧ ∀ o' : BitVec 8, o' ≠ r.offset → (readOffset o' t).1 = (readOffset o' s).1 := by
  have hmod : r.offset.toNat % 8 = 0 := by cases r <;> rfl
  refine ⟨⟨_, (writeOffset_reg r v s).trans (writeReg_param v hp hidle), ?_, fun o' hne => ?_⟩, fun rest hin =>
    ⟨_, (step_write hin hmod).trans ((writeOffset_reg r v _).trans (writeReg_param v hp hidle)), rfl, ?_, fun o' hne => ?_⟩⟩
  · exact readOffset_withOutside_same hp s v s.inputs s.resp
  · exact readOffset_withOutside_ne hne s v s.inputs s.resp
  · exact readOffset_withOutside_same hp s v rest (some ⟨0#64, false⟩)
  · exact readOffset_withOutside_ne hne s v rest (some ⟨0#64, false⟩)

/-- What a read at an offset leaves: the model's draws moved, and only by a busy read of STATUS or PROGRESS. -/
theorem readOffset_snd {o : BitVec 8} (ho : o.toNat % 8 = 0) (s : State) :
    (∃ p k d, (readOffset o s).2 = { s with phaseDraw := p, progressSeen := k, draws := d })
      ∧ (s.status.busy = false ∨ (o ≠ 0x10#8 ∧ o ≠ 0x80#8) → (readOffset o s).2 = s) := by
  rcases offset_cases ho with ⟨r, rfl⟩ | hres
  · rw [readOffset_reg]
    refine ⟨readReg_snd r s, fun h => readReg_snd_eq (h.imp_right fun ⟨h₁, h₂⟩ => ⟨?_, ?_⟩)⟩
    · rintro rfl
      exact h₁ rfl
    · rintro rfl
      exact h₂ rfl
  · rw [readOffset_reserved hres]
    exact ⟨⟨_, _, _, rfl⟩, fun _ => rfl⟩

/-- A step on a read answers the value the offset shows and changes nothing but the model's draws. -/
theorem step_read_frame {s : State} {o : BitVec 8} {rest : List Input} (ho : o.toNat % 8 = 0)
    (hin : s.inputs = .access ⟨o, 8, .read⟩ :: rest) :
    (∃ t, step s = .next t ∧ t.resp = some ⟨(readOffset o s).1, false⟩
        ∧ t = { (readOffset o s).2 with inputs := rest, resp := t.resp }
        ∧ t = { s with
            inputs := rest, resp := t.resp, phaseDraw := t.phaseDraw, progressSeen := t.progressSeen, draws := t.draws })
      ∧ (s.status.busy = false ∨ (o ≠ 0x10#8 ∧ o ≠ 0x80#8) →
        step s = .next { s with inputs := rest, resp := some ⟨(readOffset o s).1, false⟩ }) := by
  have hstep := step_read hin ho
  rw [readOffset_popInput] at hstep
  obtain ⟨⟨p, k, d, hsnd⟩, hsame⟩ := readOffset_snd ho s
  refine ⟨⟨_, hstep, rfl, rfl, ?_⟩, fun h => ?_⟩
  · rw [hsnd]
    rfl
  · rw [hstep, hsame h]
    rfl

/-- Settles O53: reads and writes by the register at the offset. -/
theorem registersReadBack : Obligations.RegistersReadBack := by
  intro s v
  refine ⟨fun hidle => ⟨fun o ho hge hle => ?_, fun t h => writeCmd_cmd hidle h, fun t rest hin h => ?_⟩,
    fun o rest ho hin => step_read_frame ho hin, ?_, ?_, ?_, fun hidle => ?_, rfl, rfl, rfl, rfl, rfl, rfl⟩
  · rcases offset_cases ho with ⟨r, rfl⟩ | hres
    · exact param_reads_back (r.isParam_iff.2 ⟨hge, hle⟩) v hidle
    · omega
  · exact writeCmd_cmd (s := (s.popInput rest).respond 0#64 false) hidle ((step_write hin rfl).symm.trans h)
  · exact ⟨s.ctrl.getLsbD_word 0, s.ctrl.getLsbD_word 1, s.ctrl.getLsbD_word 2⟩
  · obtain ⟨ph, hph⟩ := readStatus_fst s
    have hbit := fun k => (congrArg (fun w => BitVec.getLsbD w k) hph).trans (s.status.getLsbD_word ph k)
    exact ⟨hbit 0, hbit 1, hbit 2, hbit 3, hbit 4, hbit 5⟩
  · exact ⟨rfl, rfl, rfl, rfl, rfl, rfl, rfl, rfl, rfl, rfl, rfl, rfl, rfl, rfl,
      fun hidle => congrArg Prod.fst (State.readProgress_idle hidle)⟩
  · have htakes := fun r (hp : r.isParam = true) => (writeOffset_reg r v s).trans (writeReg_param v hp hidle)
    exact ⟨htakes .dataBase rfl, htakes .byteLen rfl, htakes .elemCount rfl, htakes .elemIndex rfl, htakes .costN rfl,
      htakes .workBase rfl, htakes .shufBase rfl, htakes .tableBase rfl, htakes .otherBase rfl⟩

end Sys2Proof.Machine

/-! PROOFS. One engine step of a running command: a micro-operation, the move to another block sequence of SMIX, or the end
(44_controller.md R252, R253, 60_exceptions.md R286). -/

namespace Sys2Proof.Machine

/-- The block sequence SMIX runs after the one of a phase and iteration (R253). -/
def nextBlock (n : Nat) : Phase → Nat → Option (Phase × Nat)
  | .prepare, _ => some (.fill, 0)
  | .fill, i => some (if i + 1 < n then (.fill, i + 1) else (.fence, 0))
  | .fence, _ => some (.mix, 0)
  | .mix, i => some (if i + 1 < n then (.mix, i + 1) else (.restore, 0))
  | .restore, _ => some (.zeroize, 0)
  | .zeroize, _ | .blockmix, _ | .integerify, _ | .salsa, _ | .idle, _ => none

/-- SMIX goes on at `next`: with the next block sequence, or after an error with ZERO_SEQ (R253, R286). -/
def GoesOnAt (s : State) (next : Phase × Nat) : Prop :=
  (s.blockOps[s.seq.q]? = none ∧ nextBlock s.latched.n.toNat s.seq.phase s.seq.i = some next)
    ∨ (s.seq.phase ≠ .zeroize ∧ next = (.zeroize, 0))

/-- A command other than SMIX stops on an error: of the micro-operation of the position, or one on its way (R286). -/
structure StopsCommand (c : Instr) (s : State) : Prop where
  notSmix : c ≠ .smix
  phase : s.seq.phase ≠ .zeroize
  cause : s.pendingErr ≠ none ∨ ∃ op, s.blockOps[s.seq.q]? = some op ∧ op.request s ≠ none

/-- What an engine step makes of a state that runs `c`; the draws and the record of the requests (logs 6, 10) move beside it. -/
inductive CommandMove (c : Instr) (s : State) : State → Prop
  /-- The micro-operation of the position is performed. -/
  | served {op : MicroOp} (tr : List Request) (d : Nat) (hop : s.blockOps[s.seq.q]? = some op) :
      CommandMove c s (op.run { s with trace := tr, draws := d })
  /-- Its request fails and the sequence goes on (R286, R287). -/
  | passed {op : MicroOp} (tr : List Request) (d : Nat) (e : Option Reg64) (w : List PendingWrite) (ok : Bool)
      (hop : s.blockOps[s.seq.q]? = some op) (hreq : op.request s ≠ none) :
      CommandMove c s
        { s with
          trace := tr, draws := d, pendingErr := e, wbuf := w, zeroOk := ok
          seq := { s.seq with q := s.seq.q + 1, t := 0 } }
  /-- SMIX goes on with another block sequence. -/
  | moved (tr : List Request) (d : Nat) (e : Option Reg64) (w : List PendingWrite) {next : Phase × Nat} {draw : List Phase}
      (hsmix : c = .smix) (hnext : GoesOnAt s next) (hdraw : draw = s.phaseDraw ∨ draw = s.phaseDraw ++ [next.1]) :
      CommandMove c s
        { s with
          trace := tr, draws := d, pendingErr := e, wbuf := w, phaseDraw := draw
          seq := ⟨next.1, next.2, 0, 0⟩ }
  /-- The command ends with its last block sequence. -/
  | finished (d : Nat) (hend : s.blockOps[s.seq.q]? = none) (hlast : c = .smix → s.seq.phase = .zeroize) :
      CommandMove c s ({ s with draws := d } : State).complete
  /-- The command ends on an error. -/
  | stopped (tr : List Request) (d : Nat) (e : Reg64) (w : List PendingWrite) (hstop : StopsCommand c s) :
      CommandMove c s ({ s with trace := tr, draws := d, pendingErr := some e, wbuf := w } : State).complete

/-- The end of a block sequence, as a move of the command (R252, R253). -/
theorem RunsCommand.commandMove_endBlock {c : Instr} {s : State} (h : RunsCommand c s) (d : Nat)
    (hend : s.blockOps[s.seq.q]? = none) (hfence : s.seq.phase = .fence → s.pendingErr = none) :
    CommandMove c s (Machine.endBlock { s with draws := d }) := by
  have smix : ∀ {ph}, s.seq.phase = ph → (ph = .fill ∨ ph = .fence ∨ ph = .mix) → c = .smix := fun hp hor =>
    h.smix_of_phase (hp ▸ hor)
  have enter : ∀ {ph}, c = .smix → nextBlock s.latched.n.toNat s.seq.phase s.seq.i = some (ph, 0) →
      CommandMove c s (({ s with draws := d } : State).enterPhase ph) := fun hc hn =>
    .moved s.trace d s.pendingErr s.wbuf hc (.inl ⟨hend, hn⟩) (.inr rfl)
  have iter : c = .smix → nextBlock s.latched.n.toNat s.seq.phase s.seq.i = some (s.seq.phase, s.seq.i + 1) →
      CommandMove c s ({ s with draws := d } : State).nextIter := fun hc hn =>
    .moved s.trace d s.pendingErr s.wbuf hc (.inl ⟨hend, hn⟩) (.inl rfl)
  have finish : (c = .smix → s.seq.phase = .zeroize) → CommandMove c s ({ s with draws := d } : State).complete := .finished d hend
  have notSmix : ¬ s.isSmix = true → c = .smix → s.seq.phase = .zeroize := fun hs hc => absurd (h.isSmix_iff.2 hc) hs
  unfold Machine.endBlock
  split
  next hp =>
    have hp : s.seq.phase = .prepare := hp
    split
    next hs => exact enter (h.isSmix_iff.1 hs) (by rw [hp]; rfl)
    next hs => exact finish (notSmix hs)
  next hp =>
    have hp : s.seq.phase = .fill := hp
    split
    next hi => exact iter (smix hp (by simp)) (by rw [hp, nextBlock, if_pos hi])
    next hi => exact enter (smix hp (by simp)) (by rw [hp, nextBlock, if_neg hi])
  next hp =>
    have hp : s.seq.phase = .fence := hp
    have hnone : ¬ (s.pendingErr.isSome = true) := by rw [hfence hp]; decide
    rw [if_neg hnone]
    exact enter (smix hp (by simp)) (by rw [hp]; rfl)
  next hp =>
    have hp : s.seq.phase = .mix := hp
    split
    next hi => exact iter (smix hp (by simp)) (by rw [hp, nextBlock, if_pos hi])
    next hi => exact enter (smix hp (by simp)) (by rw [hp, nextBlock, if_neg hi])
  next hp =>
    have hp : s.seq.phase = .restore := hp
    split
    next hs => exact enter (h.isSmix_iff.1 hs) (by rw [hp]; rfl)
    next hs => exact finish (notSmix hs)
  next hp => exact finish fun _ => hp
  all_goals
    next hp =>
      refine finish fun hc => ?_
      have hmem := h.phase_mem
      rw [show s.seq.phase = _ from hp, hc] at hmem
      exact absurd hmem (by decide)

/-- Every engine step of a running command is one of the moves. -/
theorem RunsCommand.commandMove {c : Instr} {s t : State} (h : RunsCommand c s) (hstep : Machine.engineStep s = .next t) : CommandMove c s t := by
  cases engineMove_of_engineStep hstep with
  | served tr d hop => exact .served tr d hop
  | passed tr d e w ok hop hreq _ => exact .passed tr d e w ok hop hreq
  | ended d hend hfence => exact h.commandMove_endBlock d hend hfence
  | stopped tr d e w ops lost hphase hcause =>
    obtain ⟨u, hu, hc⟩ := State.stopCommand_cases { s with trace := tr, draws := d, pendingErr := some e, wbuf := w } ops lost
    obtain ⟨d', w', rfl⟩ : ∃ d' w', u = { s with trace := tr, draws := d', pendingErr := some e, wbuf := w' } := by
      rcases hu with rfl | rfl
      · exact ⟨d, w, rfl⟩
      · exact ⟨_, _, rfl⟩
    rcases hc with ⟨hs, hc⟩ | ⟨hs, hc⟩ <;> rw [hc]
    · exact .moved tr d' (some e) w' (h.isSmix_iff.1 hs) (.inr ⟨hphase, rfl⟩) (.inr rfl)
    · exact .stopped tr d' e w' ⟨fun hsmix => Bool.false_ne_true (hs.symm.trans (h.isSmix_iff.2 hsmix)), hphase, hcause⟩

end Sys2Proof.Machine

/-! PROOFS. What PHASE and PROGRESS show while a command runs only moves forward (10_state.md R49, R51, 93_implementation_defined.md R339). -/

namespace Sys2Proof.Machine

/-! ### Forward -/

/-- What a step may make of the model's record of the phases reached: it adds the phase it ends in, and the phase shown last is
one reached before. -/
structure DrawsForward (s t : State) : Prop where
  added : ∀ p ∈ t.phaseDraw, p ∈ s.phaseDraw ∨ p = t.seq.phase
  head : ∀ p, t.phaseDraw.head? = some p → p ∈ s.phaseDraw

theorem DrawsForward.of_eq {s t : State} (h : t.phaseDraw = s.phaseDraw) : DrawsForward s t := by
  refine ⟨fun p hp => .inl ?_, fun p hp => ?_⟩
  · rwa [h] at hp
  · rw [h] at hp
    exact List.mem_of_head? hp

theorem DrawsForward.of_append {s t : State} (h : t.phaseDraw = s.phaseDraw ++ [t.seq.phase]) (hne : s.phaseDraw ≠ []) : DrawsForward s t := by
  refine ⟨fun p hp => ?_, fun p hp => ?_⟩
  · rw [h] at hp
    exact (List.mem_append.1 hp).imp_right List.mem_singleton.1
  · rw [h, List.head?_append_of_ne_nil _ hne] at hp
    exact List.mem_of_head? hp

/-- A step takes what PHASE and PROGRESS show forward, not back. -/
structure ReadsForward (s t : State) : Prop where
  progress : s.progress.toNat ≤ t.progress.toNat
  seen : s.progressSeen ≤ t.progressSeen
  draws : t.status.busy = true → DrawsForward s t

/-- A turn of another agent, or a read: the engine stays where it is, and PHASE may drop phases passed over. -/
structure BesideEngine (s t : State) : Prop where
  progress : t.progress = s.progress
  seen : s.progressSeen ≤ t.progressSeen
  draws : t.phaseDraw ⊆ s.phaseDraw

theorem BesideEngine.of_eq {s t : State} (hp : t.progress = s.progress) (hs : t.progressSeen = s.progressSeen)
    (hd : t.phaseDraw = s.phaseDraw) : BesideEngine s t :=
  ⟨hp, hs.ge, fun p hmem => by rwa [hd] at hmem⟩

theorem BesideEngine.readsForward {s t : State} (h : BesideEngine s t) : ReadsForward s t :=
  ⟨(congrArg BitVec.toNat h.progress).ge, h.seen, fun _ => ⟨fun _ hp => .inl (h.draws hp), fun _ hp => h.draws (List.mem_of_head? hp)⟩⟩

theorem BesideEngine.trans_forward {s u t : State} (h : BesideEngine s u) (ht : ReadsForward u t) : ReadsForward s t := by
  refine ⟨(congrArg BitVec.toNat h.progress).ge.trans ht.progress, h.seen.trans ht.seen, fun hb => ?_⟩
  obtain ⟨hadd, hhead⟩ := ht.draws hb
  exact ⟨fun p hp => (hadd p hp).imp_left fun hu => h.draws hu, fun p hp => h.draws (hhead p hp)⟩

/-! ### Engine steps -/

/-- A micro-operation performed counts at most one BM more (R220). -/
theorem RunsCommand.progress_run_le {c : Instr} {s : State} (h : RunsCommand c s) (op : MicroOp) (tr : List Request) (d : Nat) :
    s.progress.toNat ≤ (op.run { s with trace := tr, draws := d }).progress.toNat := by
  obtain ⟨_, hsame, hcount⟩ := op.run_progress { s with trace := tr, draws := d }
  by_cases hb : op = .bmEnd
  · rw [(hcount hb).1]
    exact (Nat.le_succ _).trans h.progress_succ.ge
  · rw [hsame hb]

/-- An engine step takes what PHASE and PROGRESS show forward. -/
theorem RunsCommand.readsForward {c : Instr} {s t : State} (h : RunsCommand c s) (hstep : Machine.engineStep s = .next t) : ReadsForward s t := by
  have hseen : s.progressSeen ≤ t.progressSeen := (stepFrame_engineStep hstep).progressSeen.ge
  cases h.commandMove hstep with
  | @served op tr d hop =>
    obtain ⟨_, _, _, hdraw, _⟩ := op.run_fields { s with trace := tr, draws := d }
    exact ⟨h.progress_run_le op tr d, hseen, fun _ => .of_eq hdraw⟩
  | passed tr d e w ok _ _ => exact ⟨le_rfl, hseen, fun _ => .of_eq rfl⟩
  | moved tr d e w _ _ hdraw =>
    refine ⟨le_rfl, hseen, fun _ => ?_⟩
    rcases hdraw with rfl | rfl
    · exact .of_eq rfl
    · exact .of_append rfl h.phaseDraw_ne_nil
  | finished d _ _ => exact ⟨(congrArg BitVec.toNat ({ s with draws := d } : State).complete_progress).ge, hseen, fun hb => (by cases hb)⟩
  | stopped tr d e w _ =>
    exact ⟨(congrArg BitVec.toNat ({ s with trace := tr, draws := d, pendingErr := some e, wbuf := w } : State).complete_progress).ge, hseen,
      fun hb => (by cases hb)⟩

theorem Invariant.readsForward {s t : State} (h : Invariant s) (hb : s.status.busy = true) (hstep : Machine.engineStep s = .next t) :
    ReadsForward s t := by
  obtain ⟨c, hc⟩ := h.running hb
  exact hc.readsForward hstep

/-! ### The host while a command runs -/

theorem besideEngine_readStatus (s : State) : BesideEngine s s.readStatus.2 := by
  cases hb : s.status.busy with
  | true =>
    rw [State.readStatus_busy hb]
    exact ⟨rfl, le_rfl, List.drop_subset _ _⟩
  | false =>
    rw [State.readStatus_idle hb]
    exact .of_eq rfl rfl rfl

theorem besideEngine_readProgress (s : State) : BesideEngine s s.readProgress.2 := by
  cases hb : s.status.busy with
  | true =>
    rw [State.readProgress_busy hb]
    exact ⟨rfl, Nat.le_add_right _ _, List.Subset.refl _⟩
  | false =>
    rw [State.readProgress_idle hb]
    exact .of_eq rfl rfl rfl

theorem besideEngine_readOffset (o : BitVec 8) (s : State) : BesideEngine s (readOffset o s).2 := by
  unfold readOffset
  split
  next r _ =>
    cases r with
    | status => exact besideEngine_readStatus s
    | progress => exact besideEngine_readProgress s
    | _ => exact .of_eq rfl rfl rfl
  next => exact .of_eq rfl rfl rfl

/-- While busy no write at an offset touches what PHASE and PROGRESS show (R53). -/
theorem besideEngine_writeOffset {s t : State} {o : BitVec 8} {v : Reg64} (hb : s.status.busy = true) (h : writeOffset o v s = .next t) :
    BesideEngine s t := by
  unfold writeOffset at h
  split at h
  next r _ =>
    by_cases hr : r = .cmd ∨ r.isParam = true
    · rw [writeReg_ignored v hr hb] at h
      cases h
      exact .of_eq rfl rfl rfl
    · cases r with
      | cmd => exact absurd (.inl rfl) hr
      | id | ctrl | status | errInfo | errAddr | j | progress => cases h; exact .of_eq rfl rfl rfl
      | _ => exact absurd (.inr rfl) hr
  next => cases h; exact .of_eq rfl rfl rfl

theorem besideEngine_hostAccess {s t : State} {a : Access} (hb : s.status.busy = true) (h : hostAccess a s = .next t) : BesideEngine s t := by
  unfold hostAccess at h
  split at h
  next => cases h; exact .of_eq rfl rfl rfl
  next =>
    split at h
    next =>
      cases h
      obtain ⟨h₁, h₂, h₃⟩ := besideEngine_readOffset a.offset s
      exact ⟨h₁, h₂, h₃⟩
    next =>
      obtain ⟨h₁, h₂, h₃⟩ := besideEngine_writeOffset (s := s.respond 0#64 false) hb h
      exact ⟨h₁, h₂, h₃⟩

theorem besideEngine_drainOldest (s : State) : BesideEngine s s.drainOldest := by
  unfold State.drainOldest
  split
  · exact .of_eq rfl rfl rfl
  · exact .of_eq rfl rfl rfl

theorem besideEngine_foreignStore {s t : State} {a : Nat} {v : Byte} (h : foreignStore a v s = .next t) : BesideEngine s t := by
  unfold foreignStore at h
  split at h
  next => cases h
  next =>
    split at h
    next => cases h
    next => cases h; exact .of_eq rfl rfl rfl

theorem besideEngine_foreignLoad {s t : State} {a : Nat} (h : foreignLoad a s = .next t) : BesideEngine s t := by
  unfold foreignLoad at h
  split at h
  next => cases h
  next =>
    split at h
    next => cases h
    next => cases h; exact .of_eq rfl rfl rfl

/-- A wait is a read of STATUS, then an engine step (R112). -/
theorem Invariant.readsForward_waitTurn {s t : State} (h : Invariant s) (ht : Machine.waitTurn s = .next t) : ReadsForward s t := by
  have hread := h.readStatus.respond s.readStatus.1 false
  have hbeside : BesideEngine s (s.readStatus.2.respond s.readStatus.1 false) := by
    obtain ⟨h₁, h₂, h₃⟩ := besideEngine_readStatus s
    exact ⟨h₁, h₂, h₃⟩
  unfold Machine.waitTurn at ht
  dsimp only at ht
  split at ht
  next hb =>
    split at ht
    next u hu =>
      cases ht
      obtain ⟨h₁, h₂, h₃⟩ := hbeside.trans_forward (hread.readsForward hb hu)
      exact ⟨h₁, h₂, fun hbusy => ⟨(h₃ hbusy).added, (h₃ hbusy).head⟩⟩
    all_goals cases ht
  next => cases ht; exact hbeside.readsForward

theorem Invariant.readsForward_engineTurn {s t : State} (h : Invariant s) (hb : s.status.busy = true) (ht : Machine.engineTurn s = .next t) :
    ReadsForward s t := by
  rw [Machine.engineTurn, if_pos hb] at ht
  exact h.readsForward hb ht

/-- No input but a reset takes what PHASE and PROGRESS show back. -/
theorem Invariant.readsForward_takeInput {s t : State} (h : Invariant s) (hb : s.status.busy = true) {i : Input} (hi : i ≠ .reset)
    (ht : Machine.takeInput i s = .next t) : ReadsForward s t := by
  cases i with
  | access a => exact (besideEngine_hostAccess hb ht).readsForward
  | wait => exact h.readsForward_waitTurn ht
  | tick => exact h.readsForward_engineTurn hb ht
  | drain => cases ht; exact (besideEngine_drainOldest s).readsForward
  | memStore a v => exact (besideEngine_foreignStore ht).readsForward
  | memLoad a => exact (besideEngine_foreignLoad ht).readsForward
  | reset => exact absurd rfl hi

theorem Invariant.readsForward_step {s t : State} (h : Invariant s) (hb : s.status.busy = true) (hr : s.inputs.head? ≠ some .reset)
    (ht : step s = .next t) : ReadsForward s t := by
  unfold step at ht
  split at ht
  next => exact h.readsForward_engineTurn hb ht
  next i rest hin =>
    have hi : i ≠ .reset := fun hi => hr (by rw [hin, hi]; rfl)
    obtain ⟨h₁, h₂, h₃⟩ := (h.popInput rest).readsForward_takeInput hb hi ht
    exact ⟨h₁, h₂, fun hbusy => ⟨(h₃ hbusy).added, (h₃ hbusy).head⟩⟩

/-! ### PROGRESS -/

/-- Settles O55: a read draws between the last value read and the count, and no step but a reset takes either back. -/
theorem progressReadsAreMonotone : Obligations.ProgressReadsAreMonotone := by
  intro s h
  refine ⟨fun hb => ?_, fun hb => (readOffset_reg .progress s).trans (State.readProgress_idle hb)⟩
  obtain ⟨c, hc⟩ := h.running hb
  have hle : s.progressDraw ≤ s.progress.toNat := State.progressDraw_le hc.progressSeen
  have hread : readOffset 0x80#8 s = _ := (readOffset_reg .progress s).trans (State.readProgress_busy hb)
  have hval : (BitVec.ofNat 64 s.progressDraw).toNat = s.progressDraw :=
    (BitVec.toNat_ofNat ..).trans (Nat.mod_eq_of_lt (hle.trans_lt s.progress.isLt))
  simp only [hread, hval]
  refine ⟨Nat.le_add_right _ _, hle, trivial, fun t hr ht => ?_⟩
  obtain ⟨h₁, h₂, _⟩ := h.readsForward_step hb hr ht
  exact ⟨h₁, h₂⟩

/-! ### PHASE -/

/-- Each phase stands where its index says: earlier in the list, lower. -/
theorem phasesOf_pairwise (c : Instr) : (phasesOf c).Pairwise fun p q => (phasesOf c).idxOf p ≤ (phasesOf c).idxOf q := by
  cases c <;> decide

/-- The phases PHASE can still show stand in the command's order. -/
theorem RunsCommand.phaseDraw_pairwise {c : Instr} {s : State} (h : RunsCommand c s) :
    s.phaseDraw.Pairwise fun p q => (phasesOf c).idxOf p ≤ (phasesOf c).idxOf q :=
  (phasesOf_pairwise c).sublist h.phases.1

/-- No phase PHASE can still show comes before the one shown last. -/
theorem RunsCommand.place_head_le {c : Instr} {s : State} (h : RunsCommand c s) {last p : Phase} (hlast : s.phaseDraw.head? = some last)
    (hp : p ∈ s.phaseDraw) : (phasesOf c).idxOf last ≤ (phasesOf c).idxOf p := by
  obtain ⟨rest, hrest⟩ := List.head?_eq_some_iff.1 hlast
  have hpair := h.phaseDraw_pairwise
  rw [hrest, List.pairwise_cons] at hpair
  rw [hrest] at hp
  rcases List.mem_cons.1 hp with rfl | hp
  · exact le_rfl
  · exact hpair.1 p hp

/-- No phase PHASE can still show comes after the current one. -/
theorem RunsCommand.place_le_phase {c : Instr} {s : State} (h : RunsCommand c s) {p : Phase} (hp : p ∈ s.phaseDraw) :
    (phasesOf c).idxOf p ≤ (phasesOf c).idxOf s.seq.phase := by
  obtain ⟨front, hfront⟩ := List.getLast?_eq_some_iff.1 h.phases.2
  have hpair := h.phaseDraw_pairwise
  rw [hfront, List.pairwise_append] at hpair
  rw [hfront] at hp
  rcases List.mem_append.1 hp with hp | hp
  · exact hpair.2.2 p hp _ (List.mem_singleton_self _)
  · rw [List.mem_singleton.1 hp]

theorem RunsCommand.exists_head {c : Instr} {s : State} (h : RunsCommand c s) : ∃ last, s.phaseDraw.head? = some last :=
  Option.isSome_iff_exists.1 (List.isSome_head?.2 h.phaseDraw_ne_nil)

/-- A read of STATUS while busy shows a phase reached and remembers it. -/
theorem RunsCommand.readStatus_shows {c : Instr} {s : State} (h : RunsCommand c s) (hb : s.status.busy = true) :
    ∃ shown ∈ s.phaseDraw, (readOffset 0x10#8 s).1.extractLsb' 8 8 = shown.code
      ∧ (readOffset 0x10#8 s).2.phaseDraw.head? = some shown := by
  have hlt := phaseIndex_lt h.phaseDraw_ne_nil
  have hread : readOffset 0x10#8 s = _ := (readOffset_reg .status s).trans (State.readStatus_busy hb)
  refine ⟨s.phaseDraw[s.phaseIndex], List.getElem_mem hlt, ?_, ?_⟩
  · rw [hread, List.getD_eq_getElem _ _ hlt]
    exact Status.word_phase _ _
  · rw [hread, State.dropPhases_phaseDraw, List.head?_drop]
    exact List.getElem?_eq_getElem hlt

/-- Settles O54: a read shows a phase of `phaseDraw`, whose phases stand in the command's order, and no step takes its head back. -/
theorem phaseReadsAreMonotone : Obligations.PhaseReadsAreMonotone := by
  refine ⟨rfl, rfl, rfl, rfl, rfl, rfl, rfl, rfl, rfl, rfl, fun s h hb => ?_, fun s c h hb hcmd => ?_⟩
  · have hread : readOffset 0x10#8 s = _ := (readOffset_reg .status s).trans (State.readStatus_idle hb)
    rw [hread, (h.idle hb).1]
    exact ⟨Status.word_phase _ _, rfl⟩
  · obtain ⟨c', hc⟩ := h.running hb
    obtain rfl : c = c' := Option.some.inj (hcmd.symm.trans hc.cmd)
    obtain ⟨last, hlast⟩ := hc.exists_head
    obtain ⟨shown, hshown, hcode, hhead⟩ := hc.readStatus_shows hb
    refine ⟨⟨shown, last, hlast, hcode, hshown, hc.phases.1.subset hshown, hc.place_head_le hlast hshown, hc.place_le_phase hshown, hhead⟩,
      fun t ht htb => ?_⟩
    have hr : s.inputs.head? ≠ some .reset := fun hr => by
      obtain ⟨rest, hin⟩ := List.head?_eq_some_iff.1 hr
      rw [step_reset hin] at ht
      cases ht
      cases htb
    obtain ⟨hadd, hfirst⟩ := (h.readsForward_step hb hr ht).draws htb
    obtain ⟨_, hct⟩ := (stepKeepsTheInvariant s t h ht).running htb
    obtain ⟨later, hlater⟩ := hct.exists_head
    exact ⟨hadd, last, later, hlast, hlater, hc.place_head_le hlast (hfirst later hlater)⟩

end Sys2Proof.Machine

/-! PROOFS. A command ends within its budget, whatever requests fail (44_controller.md R252, R343). -/

namespace Sys2Proof.Machine

/-! ### The steps a command has left -/

/-- The steps a micro-operation has left at round `t`. -/
def MicroOp.stepsLeft (t : Nat) : MicroOp → Nat
  | .salsa _ => Config.rounds + 1 - t
  | _ => 1

/-- The steps of a block sequence from round `t` of its first micro-operation on, with the step that ends it. -/
def seqLeft (t : Nat) : List MicroOp → Nat
  | [] => 1
  | op :: ops => op.stepsLeft t + seqCost ops

/-- The steps of the block sequences SMIX runs after the one of a phase and iteration. -/
def laterCost (r n : Nat) : Phase → Nat → Nat
  | .prepare, _ =>
    n * seqCost (bmSeq r .copy .table 0) + seqCost [.fence]
      + n * seqCost (.integ .ji :: bmSeq r .xor .tableAtJI 0) + seqCost (restSeq r) + seqCost (zeroSeq r n)
  | .fill, i =>
    (n - (i + 1)) * seqCost (bmSeq r .copy .table 0) + seqCost [.fence]
      + n * seqCost (.integ .ji :: bmSeq r .xor .tableAtJI 0) + seqCost (restSeq r) + seqCost (zeroSeq r n)
  | .fence, _ => n * seqCost (.integ .ji :: bmSeq r .xor .tableAtJI 0) + seqCost (restSeq r) + seqCost (zeroSeq r n)
  | .mix, i =>
    (n - (i + 1)) * seqCost (.integ .ji :: bmSeq r .xor .tableAtJI 0) + seqCost (restSeq r) + seqCost (zeroSeq r n)
  | .restore, _ => seqCost (zeroSeq r n)
  | .zeroize, _ | .blockmix, _ | .integerify, _ | .salsa, _ | .idle, _ => 0

/-- A bound on the engine steps a running command has left. -/
def State.stepsLeft (s : State) : Nat :=
  seqLeft s.seq.t (s.blockOps.drop s.seq.q)
    + if s.isSmix then laterCost s.latched.r.toNat s.latched.n.toNat s.seq.phase s.seq.i else 0

theorem seqLeft_zero (ops : List MicroOp) : seqLeft 0 ops = seqCost ops := by
  cases ops with
  | nil => rfl
  | cons op ops => cases op <;> simp [seqLeft, seqCost, opsCost, MicroOp.stepsLeft, MicroOp.cost] <;> omega

theorem seqLeft_pos (t : Nat) (ops : List MicroOp) : 1 ≤ seqLeft t ops := by
  cases ops with
  | nil => exact le_rfl
  | cons op ops => exact Nat.le_add_left_of_le (Nat.le_add_left 1 _)

/-- The steps after a block sequence are those of the next one and what comes after it. -/
theorem laterCost_next {r n i : Nat} {ph : Phase} {next : Phase × Nat} (hi : ph = .fill ∨ ph = .mix → i < n) (hn : 1 ≤ n)
    (h : nextBlock n ph i = some next) :
    laterCost r n ph i = seqCost (blockSeq .smix r n next.1 next.2) + laterCost r n next.1 next.2 := by
  have step : ∀ k x : Nat, k < n → (n - k) * x = x + (n - (k + 1)) * x := fun k x hk => by
    rw [show n - k = (n - (k + 1)) + 1 by omega, Nat.succ_mul, Nat.add_comm]
  have step₀ : ∀ x : Nat, n * x = x + (n - (0 + 1)) * x := fun x => step 0 x hn
  have hfill : ∀ i, seqCost (bmSeq r .copy .table (i * (128 * r))) = seqCost (bmSeq r .copy .table 0) := fun i =>
    congrArg (· + 1) (opsCost_bmSeq r .copy .table _ 0)
  cases ph with
  | prepare =>
    cases h
    simp only [laterCost, blockSeq, hfill]
    rw [step₀ (seqCost (bmSeq r .copy .table 0))]
    omega
  | fill =>
    simp only [nextBlock, Option.some.injEq] at h
    split at h <;> cases h <;> simp only [laterCost, blockSeq, hfill]
    next hlt => rw [step (i + 1) (seqCost (bmSeq r .copy .table 0)) hlt]; omega
    next hge =>
      rw [show n - (i + 1) = 0 by omega]
      omega
  | fence =>
    cases h
    simp only [laterCost, blockSeq]
    rw [step₀]
    omega
  | mix =>
    simp only [nextBlock, Option.some.injEq] at h
    split at h <;> cases h <;> simp only [laterCost, blockSeq]
    next hlt => rw [step (i + 1) _ hlt]; omega
    next hge =>
      rw [show n - (i + 1) = 0 by omega]
      omega
  | restore => cases h; rfl
  | _ => cases h

/-- ZERO_SEQ comes after every other block sequence of SMIX (R253). -/
theorem zeroSeq_le_laterCost {r n i : Nat} {ph : Phase} (hmem : ph ∈ phasesOf .smix) (hz : ph ≠ .zeroize) :
    seqCost (zeroSeq r n) ≤ laterCost r n ph i := by
  cases ph with
  | prepare | fill | fence | mix => exact Nat.le_add_left _ _
  | restore => exact le_rfl
  | zeroize => exact absurd rfl hz
  | blockmix | integerify | salsa | idle => exact absurd hmem (by decide)

/-! ### Every step takes one of them -/

/-- A micro-operation performed moves the position on, or within SALSA_CORE the round (R50, R55). -/
theorem MicroOp.run_stepsLeft (op : MicroOp) (s : State) :
    ((op.run s).seq.q = s.seq.q + 1 ∧ (op.run s).seq.t = 0)
      ∨ ((op.run s).seq.q = s.seq.q ∧ op.stepsLeft (op.run s).seq.t + 1 = op.stepsLeft s.seq.t) := by
  obtain ⟨_, _, _, _, _, _, h | ⟨hq, hlt, ht⟩⟩ := op.run_fields s
  · exact .inl h
  · cases op with
    | salsa g =>
      refine .inr ⟨hq, ?_⟩
      rw [ht]
      simp only [MicroOp.stepsLeft]
      omega
    | integ d => cases d <;> exact .inl ⟨rfl, rfl⟩
    | _ => exact .inl ⟨rfl, rfl⟩

/-- At a micro-operation, the steps left are its own, then those of what stands behind it. -/
theorem State.stepsLeft_op {s : State} {op : MicroOp} (hop : s.blockOps[s.seq.q]? = some op) :
    seqLeft s.seq.t (s.blockOps.drop s.seq.q) = op.stepsLeft s.seq.t + seqCost (s.blockOps.drop (s.seq.q + 1)) := by
  obtain ⟨hlt, hget⟩ := List.getElem?_eq_some_iff.1 hop
  rw [List.drop_eq_getElem_cons hlt, hget]
  rfl

theorem MicroOp.stepsLeft_pos {op : MicroOp} {t : Nat} (ht : t ≤ Config.rounds) : 1 ≤ op.stepsLeft t := by
  cases op with
  | salsa g => exact Nat.le_sub_of_add_le (by omega)
  | _ => exact le_rfl

/-- Two states at the same block sequence differ in the steps left by those of the sequence. -/
theorem State.stepsLeft_lt {s t : State} (hl : t.latched = s.latched) (hp : t.seq.phase = s.seq.phase) (hi : t.seq.i = s.seq.i)
    (h : seqLeft t.seq.t (s.blockOps.drop t.seq.q) < seqLeft s.seq.t (s.blockOps.drop s.seq.q)) : t.stepsLeft < s.stepsLeft := by
  have hops : t.blockOps = s.blockOps := State.blockOps_congr hl hp hi
  have hsmix : t.isSmix = s.isSmix := by rw [State.isSmix, hl]; rfl
  rw [State.stepsLeft, State.stepsLeft, hops, hsmix, hl, hp, hi]
  exact Nat.add_lt_add_right h _

/-- The first step of a block sequence SMIX goes on with leaves fewer steps than there were. -/
theorem RunsCommand.stepsLeft_goesOnAt {s t : State} (h : RunsCommand .smix s) {next : Phase × Nat} (hnext : GoesOnAt s next)
    (hl : t.latched = s.latched) (hseq : t.seq = ⟨next.1, next.2, 0, 0⟩) : t.stepsLeft < s.stepsLeft := by
  have hsmix : t.isSmix = true := by rw [State.isSmix, hl, h.cmd]; rfl
  have ht : t.stepsLeft = seqCost (blockSeq .smix s.latched.r.toNat s.latched.n.toNat next.1 next.2)
      + laterCost s.latched.r.toNat s.latched.n.toNat next.1 next.2 := by
    rw [State.stepsLeft, if_pos hsmix, State.blockOps, hl, h.cmd, hseq, List.drop_zero, seqLeft_zero]
  have hs : 1 + laterCost s.latched.r.toNat s.latched.n.toNat s.seq.phase s.seq.i ≤ s.stepsLeft := by
    rw [State.stepsLeft, if_pos (h.isSmix_iff.2 rfl)]
    exact Nat.add_le_add_right (seqLeft_pos _ _) _
  rw [ht]
  rcases hnext with ⟨_, hn⟩ | ⟨hz, rfl⟩
  · rw [laterCost_next h.iter_lt h.n_pos hn] at hs
    omega
  · have := zeroSeq_le_laterCost (r := s.latched.r.toNat) (n := s.latched.n.toNat) (i := s.seq.i) h.phase_mem hz
    simp only [blockSeq, laterCost]
    omega

/-- An engine step ends the command or takes one of the steps left. -/
theorem RunsCommand.stepsLeft_engineStep {c : Instr} {s t : State} (h : RunsCommand c s) (hstep : Machine.engineStep s = .next t) :
    t.status.busy = false ∨ t.stepsLeft < s.stepsLeft := by
  have hround := h.position.2.2.2
  cases h.commandMove hstep with
  | @served op tr d hop =>
    obtain ⟨hph, hi, _⟩ := op.run_fields { s with trace := tr, draws := d }
    refine .inr (State.stepsLeft_lt (stepFrame_run op _).latched hph hi ?_)
    rw [State.stepsLeft_op hop]
    rcases op.run_stepsLeft { s with trace := tr, draws := d } with ⟨hq, ht⟩ | ⟨hq, ht⟩
    · rw [hq, ht, seqLeft_zero]
      exact Nat.lt_add_of_pos_left (MicroOp.stepsLeft_pos hround)
    · obtain ⟨hlt, hget⟩ := List.getElem?_eq_some_iff.1 hop
      rw [hq, List.drop_eq_getElem_cons hlt, hget]
      exact Nat.add_lt_add_right (ht ▸ Nat.lt_succ_self _) _
  | passed tr d e w ok hop _ =>
    refine .inr (State.stepsLeft_lt rfl rfl rfl ?_)
    rw [State.stepsLeft_op hop, seqLeft_zero]
    exact Nat.lt_add_of_pos_left (MicroOp.stepsLeft_pos hround)
  | moved tr d e w hc hnext _ =>
    subst hc
    exact .inr (h.stepsLeft_goesOnAt hnext rfl rfl)
  | finished d _ _ => exact .inl rfl
  | stopped tr d e w _ => exact .inl rfl

/-! ### The budget -/

/-- With fuel for the steps left a command runs to its end. -/
theorem RunsCommand.idle_of_runToIdle {c : Instr} {fuel : Nat} {s t : State} (h : RunsCommand c s) (hb : s.status.busy = true)
    (hfuel : s.stepsLeft ≤ fuel) (hrun : runToIdle fuel s = .next t) : t.status.busy = false := by
  induction fuel generalizing s with
  | zero =>
    have := seqLeft_pos s.seq.t (s.blockOps.drop s.seq.q)
    unfold State.stepsLeft at hfuel
    omega
  | succ fuel ih =>
    simp only [runToIdle, if_pos hb] at hrun
    split at hrun
    next u hu =>
      rcases h.engineStep hb hu with ⟨hbu, hcu⟩ | ⟨hbu, _⟩
      · rcases h.stepsLeft_engineStep hu with hidle | hlt
        · rw [hbu] at hidle
          cases hidle
        · exact ih hcu hbu (by omega) hrun
      · rw [runToIdle_idle _ _ hbu] at hrun
        cases hrun
        exact hbu
    next => cases hrun
    next => cases hrun

/-- The budget of a command covers the steps it starts with (R343). -/
theorem Accepts.stepsLeft_le {i : Instr} {s : State} (h : Accepts i s) :
    (s.started i).stepsLeft ≤ commandBudget i (s.started i).latched.r.toNat (s.started i).latched.n.toNat := by
  have hstart : (s.started i).stepsLeft = seqCost (s.started i).blockOps
      + if (s.started i).isSmix then laterCost (s.started i).latched.r.toNat (s.started i).latched.n.toNat (firstPhase i) 0 else 0 :=
    congrArg (· + _) (seqLeft_zero _)
  rw [hstart]
  cases i with
  | smix =>
    show seqCost (prepSeq _) + laterCost _ _ .prepare 0 ≤ commandBudget .smix _ _
    simp only [laterCost, commandBudget]
    omega
  | _ => exact le_rfl

/-- A command that ran to an answer has ended (R252). -/
theorem exec_idle {i : Instr} {s t : State} (ha : Accepts i s) (h : exec i s = .next t) : t.status.busy = false := by
  rw [exec_eq_runCommand, runCommand_accepts ha] at h
  exact (runsCommand_started ha).idle_of_runToIdle rfl ha.stepsLeft_le h

end Sys2Proof.Machine

/-! PROOFS. What a whole command leaves in the registers it does not write, however it ends (10_state.md R53, 60_exceptions.md R281, R286). -/

namespace Sys2Proof.Machine

/-! ### Induction over the moves of a command -/

/-- What acceptance establishes and every move keeps, the end of the command has. -/
theorem exec_induct {i : Instr} {s t : State} (ha : Accepts i s) (h : exec i s = .next t) {P : State → Prop} (hstart : P (s.started i))
    (hmove : ∀ u v, RunsCommand i u → u.status.busy = true → P u → CommandMove i u v → P v) : P t := by
  rw [exec_eq_runCommand, runCommand_accepts ha] at h
  refine (runToIdle_induct (P := fun u => RunsOrIdle i u ∧ P u) ?_ _ _ _ ⟨.inl ⟨rfl, runsCommand_started ha⟩, hstart⟩ h).2
  rintro u v ⟨⟨_, hu⟩ | ⟨hidle, _⟩, hP⟩ hb hstep
  · exact ⟨hu.engineStep hb hstep, hmove u v hu hb hP (hu.commandMove hstep)⟩
  · rw [hb] at hidle
    cases hidle

/-- What a command answers: a write ignored, a rejection, or the end of an accepted command (R240). -/
theorem exec_cases {i : Instr} {s t : State} (h : exec i s = .next t) :
    (s.status.busy = true ∧ t = s.ignoreWrite)
      ∨ (s.status.busy = false ∧ ∃ e, t = (s.beginIssue (encode i)).reject e)
      ∨ (Accepts i s ∧ StepFrame (s.started i) t) := by
  rw [exec_eq_runCommand] at h
  rcases runCommand_cases h with hb | ⟨hb, e, _, ht⟩ | ⟨ha, hrun⟩
  · exact .inl hb
  · exact .inr (.inl ⟨hb, e, ht⟩)
  · exact .inr (.inr ⟨ha, stepFrame_runToIdle hrun⟩)

/-- A command leaves CTRL, the parameter registers and everything outside the engine (R281). -/
theorem exec_sameOutside {i : Instr} {s t : State} (h : exec i s = .next t) : SameOutside s t := by
  rcases exec_cases h with ⟨_, rfl⟩ | ⟨_, e, rfl⟩ | ⟨_, hframe⟩
  · exact ⟨rfl, rfl, rfl, rfl, rfl, rfl⟩
  · exact ⟨rfl, rfl, rfl, rfl, rfl, rfl⟩
  · exact hframe.outside

/-- Only a write ignored while busy sets WIGN (R53). -/
theorem exec_wign {i : Instr} {s t : State} (hb : s.status.busy = false) (h : exec i s = .next t) : t.status.wign = s.status.wign := by
  rcases exec_cases h with ⟨hb', _⟩ | ⟨_, e, rfl⟩ | ⟨_, hframe⟩
  · rw [hb] at hb'
    cases hb'
  · rfl
  · exact hframe.wign

theorem exec_busy {i : Instr} {s t : State} (hb : s.status.busy = true) (h : exec i s = .next t) : t = s.ignoreWrite := by
  rcases exec_cases h with ⟨_, ht⟩ | ⟨hb', _⟩ | ⟨ha, _⟩
  · exact ht
  · rw [hb] at hb'
    cases hb'
  · rw [ha.1] at hb
    cases hb

/-! ### J -/

/-- Only INTEG into J writes J (R48). -/
theorem MicroOp.run_j {op : MicroOp} (hop : op ≠ .integ .j) (s : State) : (op.run s).j = s.j := by
  cases op with
  | integ d =>
    cases d with
    | j => exact absurd rfl hop
    | ji => rfl
  | salsa g =>
    by_cases h : s.seq.t < Config.rounds <;> simp [MicroOp.run, MicroOp.effect, MicroOp.advance, opSalsa, h]
  | _ => rfl

/-- BM holds no INTEG (R211). -/
theorem integ_not_mem_bmSeq {r oo : Nat} {mode : BmMode} {ob : Base} {d : IndexReg} : MicroOp.integ d ∉ bmSeq r mode ob oo := by
  rw [bmSeq_eq, List.mem_append, List.mem_singleton]
  rintro (h | h)
  · exact (bmBody_ops _ h).2.2 d rfl
  · cases h

/-- INTEG into J stands in INTEGERIFY's phase alone (R228). -/
theorem phase_of_integ_j {c : Instr} {r n i : Nat} {ph : Phase} (h : MicroOp.integ .j ∈ blockSeq c r n ph i) : ph = .integerify := by
  cases ph with
  | integerify => rfl
  | prepare => exact absurd rfl ((prepSeq_ops r _ h).1.2.2 .j)
  | restore => exact absurd rfl ((restSeq_ops r _ h).1.2.2 .j)
  | salsa => exact absurd rfl ((salsaSeq_ops c _ h).1.2.2 .j)
  | zeroize =>
    rcases List.mem_append.1 h with h | h
    · exact absurd rfl ((zeroBody_ops r n _ h).1.2.2 .j)
    · cases List.mem_singleton.1 h
  | fill | blockmix => exact absurd h integ_not_mem_bmSeq
  | mix =>
    rcases List.mem_cons.1 h with h | h
    · cases h
    · exact absurd h integ_not_mem_bmSeq
  | fence => cases List.mem_singleton.1 h
  | idle => cases h

theorem RunsCommand.op_mem {c : Instr} {s : State} (h : RunsCommand c s) {op : MicroOp} (hop : s.blockOps[s.seq.q]? = some op) :
    op ∈ blockSeq c s.latched.r.toNat s.latched.n.toNat s.seq.phase s.seq.i := List.mem_of_getElem? (h.op_eq hop)

theorem eq_integerify_of_phase {c : Instr} (h : Phase.integerify ∈ phasesOf c) : c = .integerify := by
  revert h
  cases c <;> decide

/-- J changes only by INTEGERIFY (R48). -/
theorem exec_j {i : Instr} {s t : State} (hi : i ≠ .integerify) (h : exec i s = .next t) : t.j = s.j := by
  rcases exec_cases h with ⟨_, rfl⟩ | ⟨_, e, rfl⟩ | ⟨ha, _⟩
  · rfl
  · rfl
  · refine exec_induct ha h (P := fun u => u.j = s.j) rfl fun u v hu _ hj hmove => ?_
    cases hmove with
    | @served op tr d hop =>
      refine (op.run_j (fun hbad => hi ?_) _).trans hj
      subst hbad
      exact eq_integerify_of_phase (phase_of_integ_j (hu.op_mem hop) ▸ hu.phase_mem)
    | passed => exact hj
    | moved => exact hj
    | finished => exact (State.complete_j _).trans hj
    | stopped => exact (State.complete_j _).trans hj

/-! ### SWAP, PROGRESS and ZEROED -/

/-- Acceptance leaves SWAP, but for PREPARE and SMIX (R33, R241). -/
theorem State.started_swap (s : State) {i : Instr} (h : clearsSwap i = false) : (s.started i).status.swap = s.status.swap := by
  show (s.status.swap && !clearsSwap i) = s.status.swap
  rw [h]
  exact Bool.and_true _

/-- A micro-operation performed leaves the status bits but SWAP. -/
theorem MicroOp.run_status (op : MicroOp) (s : State) : (op.run s).status = { s.status with swap := (op.run s).status.swap } := by
  by_cases hb : op = .bmEnd
  · subst hb
    rfl
  · obtain ⟨_, _, _, _, _, hstatus, _⟩ := op.run_fields s
    rw [hstatus hb]

/-- Commands without BM leave SWAP and PROGRESS as acceptance set them (R33, R49). -/
theorem exec_noBm {i : Instr} {s t : State} (hi : ∀ ph ∈ phasesOf i, ph.countsBm = false) (ha : Accepts i s) (h : exec i s = .next t) :
    t.status.swap = (s.started i).status.swap ∧ t.progress = 0#64 := by
  refine exec_induct ha h (P := fun u => u.status.swap = (s.started i).status.swap ∧ u.progress = 0#64) ⟨rfl, rfl⟩
    fun u v hu _ hP hmove => ?_
  cases hmove with
  | @served op tr d hop =>
    have hb : op ≠ .bmEnd := blockSeq_noBmEnd (hi _ hu.phase_mem) op (hu.op_mem hop)
    obtain ⟨_, _, _, _, _, hstatus, _⟩ := op.run_fields { u with trace := tr, draws := d }
    obtain ⟨_, hprogress, _⟩ := op.run_progress { u with trace := tr, draws := d }
    rw [hstatus hb, hprogress hb]
    exact hP
  | passed => exact hP
  | moved => exact hP
  | finished => exact ⟨hP.1, (State.complete_progress _).trans hP.2⟩
  | stopped => exact ⟨hP.1, (State.complete_progress _).trans hP.2⟩

/-- ZEROED is 0 after a command that does not zeroize (R43). -/
theorem exec_zeroed {i : Instr} {s t : State} (hi : zeroizes i = false) (ha : Accepts i s) (h : exec i s = .next t) :
    t.status.zeroed = false := by
  refine exec_induct ha h (P := fun u => u.status.zeroed = false) rfl fun u v hu _ hP hmove => ?_
  have hnot : ¬ u.zeroizing = true := by
    simp only [State.zeroizing, hu.cmd, hi]
    decide
  cases hmove with
  | @served op tr d hop =>
    rw [op.run_status]
    exact hP
  | passed => exact hP
  | moved => exact hP
  | finished => exact (if_neg hnot).trans hP
  | stopped => exact (if_neg hnot).trans hP

/-- SMIX: SWAP counts the BMs modulo 2, and there are at most 2N (R33, R49, R257). -/
theorem exec_smix_swap {s t : State} (ha : Accepts .smix s) (h : exec .smix s = .next t) :
    t.status.swap = decide (t.progress.toNat % 2 = 1) ∧ t.progress.toNat ≤ 2 * s.params.costN.toNat := by
  have hn : (s.started .smix).latched.n.toNat ≤ s.params.costN.toNat := by
    show (s.params.costN.setWidth 32).toNat ≤ _
    rw [BitVec.toNat_setWidth]
    exact Nat.mod_le _ _
  have counts : ∀ {u}, RunsCommand .smix u → u.latched = (s.started .smix).latched →
      u.status.swap = decide (u.progress.toNat % 2 = 1) ∧ u.progress.toNat ≤ 2 * s.params.costN.toNat := fun {u} hu hl => by
    have hle := hu.progress_le
    rw [hl] at hle
    exact ⟨hu.swap rfl, hle.trans (Nat.mul_le_mul_left 2 hn)⟩
  refine (exec_induct ha h (P := fun u => u.latched = (s.started .smix).latched
    ∧ u.status.swap = decide (u.progress.toNat % 2 = 1) ∧ u.progress.toNat ≤ 2 * s.params.costN.toNat)
    ⟨rfl, counts (runsCommand_started ha) rfl⟩ fun u v hu _ hP hmove => ?_).2
  cases hmove with
  | @served op tr d hop =>
    have hrun : RunsCommand .smix (op.run { u with trace := tr, draws := d }) :=
      (hu.of_eq rfl rfl rfl rfl rfl rfl rfl rfl id : RunsCommand .smix { u with trace := tr, draws := d }).run hop
    have hl := (stepFrame_run op { u with trace := tr, draws := d }).latched.trans hP.1
    exact ⟨hl, counts hrun hl⟩
  | passed => exact hP
  | moved => exact hP
  | finished =>
    rw [State.complete_latched, State.complete_progress]
    exact hP
  | stopped =>
    rw [State.complete_latched, State.complete_progress]
    exact hP

/-! ### BLOCKMIX -/

/-- How far a BLOCKMIX command has come: before the end of its BM, where it ends only on an error, or behind it (R33, R49, R286). -/
def BlockmixCounts (i : Instr) (s u : State) : Prop :=
  (u.status.busy = true → u.status.err = false)
    ∧ ((u.status.swap = s.status.swap ∧ u.progress = 0#64 ∧ (u.status.busy = false → u.status.err = true))
      ∨ (u.status.swap = !s.status.swap ∧ u.progress = 1#64 ∧ (u.status.err = true → i = .blockmixCopy)))

section
variable {i : Instr} {s u : State} (hi : phasesOf i = [.blockmix])
include hi

theorem RunsCommand.phase_blockmix (hu : RunsCommand i u) : u.seq.phase = .blockmix :=
  List.mem_singleton.1 (hi ▸ hu.phase_mem)

/-- PROGRESS is 1 once the BM has ended, 0 before (R49). -/
theorem RunsCommand.progress_blockmix (hu : RunsCommand i u) : u.progress.toNat = u.ended := by
  have hp := hu.progress
  simp only [progressOk, hu.phase_blockmix hi] at hp
  exact hp

/-- An error on its way to BLOCKMIX is a streaming store's, and only COPY has one (R286). -/
theorem RunsCommand.copy_of_pendingErr (hu : RunsCommand i u) (he : u.pendingErr.isSome = true) : i = .blockmixCopy := by
  have hmem := hu.errorPhase he
  rw [hu.phase_blockmix hi] at hmem
  revert hmem hi
  cases i <;> decide

/-- A micro-operation performed brings BLOCKMIX on. -/
theorem BlockmixCounts.run (hu : RunsCommand i u) (hb : u.status.busy = true) (hP : BlockmixCounts i s u) {op : MicroOp}
    (hop : u.blockOps[u.seq.q]? = some op) (tr : List Request) (d : Nat) : BlockmixCounts i s (op.run { u with trace := tr, draws := d }) := by
  obtain ⟨herr, hcase⟩ := hP
  have herr := herr hb
  obtain ⟨_, _, _, _, _, hsame, _⟩ := op.run_fields { u with trace := tr, draws := d }
  obtain ⟨_, hprogress, hcount⟩ := op.run_progress { u with trace := tr, draws := d }
  by_cases hend : op = .bmEnd
  · have hzero : u.progress.toNat = 0 := (hu.progress_blockmix hi).trans (if_neg (List.getElem?_eq_some_iff.1 hop).1.ne)
    have hstatus : (op.run { u with trace := tr, draws := d }).status.err = false := by rw [op.run_status]; exact herr
    refine ⟨fun _ => hstatus, .inr ⟨?_, ?_, fun he => ?_⟩⟩
    · rcases hcase with ⟨hswap, _⟩ | ⟨_, hone, _⟩
      · rw [(hcount hend).2]
        exact congrArg Bool.not hswap
      · rw [hone] at hzero
        cases hzero
    · rw [(hcount hend).1]
      exact congrArg (· + 1#64) (BitVec.eq_of_toNat_eq hzero : u.progress = 0#64)
    · rw [hstatus] at he
      cases he
  · rw [BlockmixCounts, hsame hend, hprogress hend]
    exact ⟨fun _ => herr, hcase⟩

/-- BLOCKMIX has toggled SWAP and counted exactly if its BM ended (R33, R49). -/
theorem exec_blockmix {t : State} (ha : Accepts i s) (h : exec i s = .next t) : BlockmixCounts i s t := by
  have hstart : BlockmixCounts i s (s.started i) := by
    have hclears : clearsSwap i = false := by revert hi; cases i <;> decide
    exact ⟨fun _ => rfl, .inl ⟨s.started_swap hclears, rfl, fun hidle => (by cases hidle)⟩⟩
  refine exec_induct ha h hstart fun u v hu hb hP hmove => ?_
  have herr := hP.1 hb
  cases hmove with
  | served tr d hop => exact hP.run hi hu hb hop tr d
  | passed => exact hP
  | moved tr d e w hsmix =>
    rw [hsmix] at hi
    cases hi
  | finished d hend _ =>
    have hone : u.progress.toNat = 1 := (hu.progress_blockmix hi).trans (if_pos (hu.atEnd hend))
    refine ⟨fun hbusy => (by cases hbusy), .inr ?_⟩
    rcases hP.2 with ⟨_, hzero, _⟩ | ⟨hswap, hprogress, _⟩
    · rw [hzero] at hone
      cases hone
    · refine ⟨hswap, (State.complete_progress _).trans hprogress, fun hcode => hu.copy_of_pendingErr hi ?_⟩
      simpa [Status.completed, herr] using hcode
  | stopped tr d e w hstop =>
    refine ⟨fun hbusy => (by cases hbusy), ?_⟩
    rcases hP.2 with ⟨hswap, hprogress, _⟩ | ⟨hswap, hprogress, _⟩
    · exact .inl ⟨hswap, (State.complete_progress _).trans hprogress, fun _ => Bool.or_true _⟩
    · refine .inr ⟨hswap, (State.complete_progress _).trans hprogress, fun _ => ?_⟩
      rcases hstop.cause with he | ⟨op, hop, _⟩
      · exact hu.copy_of_pendingErr hi (Option.isSome_iff_ne_none.2 he)
      · have hzero : u.progress.toNat = 0 := (hu.progress_blockmix hi).trans (if_neg (List.getElem?_eq_some_iff.1 hop).1.ne)
        rw [hprogress] at hzero
        cases hzero

end

/-- Settles O28: the frame of `exec`, and an induction over the moves of an accepted command, which ends within its budget. -/
theorem commandsKeepTheOtherRegisters : Obligations.CommandsKeepTheOtherRegisters := by
  intro i s t h
  refine ⟨exec_sameOutside h, fun hi => exec_j hi h, fun hb => ⟨exec_wign hb h, exec_cmd hb h⟩, fun hb => exec_busy hb h,
    fun ha => ⟨fun hi => ?_, fun hi => ?_, fun hi => ?_, fun hi => ?_, fun hsmix hzero => ?_⟩⟩
  · have hno : ∀ ph ∈ phasesOf i, ph.countsBm = false := by rcases hi with rfl | rfl | rfl | rfl | rfl <;> decide
    obtain ⟨hswap, hprogress⟩ := exec_noBm hno ha h
    have hclears : clearsSwap i = false := by rcases hi with rfl | rfl | rfl | rfl | rfl <;> rfl
    exact ⟨hswap.trans (s.started_swap hclears), hprogress⟩
  · subst hi
    obtain ⟨hswap, hprogress⟩ := exec_noBm (by decide) ha h
    exact ⟨hswap.trans (Bool.and_false _), hprogress⟩
  · have hphases : phasesOf i = [.blockmix] := by rcases hi with rfl | rfl | rfl <;> rfl
    obtain ⟨_, ⟨hswap, hprogress, herr⟩ | hdone⟩ := exec_blockmix hphases ha h
    · exact .inl ⟨hswap, hprogress, herr (exec_idle ha h)⟩
    · exact .inr hdone
  · subst hi
    exact exec_smix_swap ha h
  · have hzeroizes : zeroizes i = false := by
      revert hsmix hzero
      cases i <;> decide
    exact exec_zeroed hzeroizes ha h

end Sys2Proof.Machine

/-! PROOFS. Which datapath registers a command keeps, however it ends (10_state.md R31, R32, R35, 44_controller.md R258). -/

namespace Sys2Proof.Machine

/-! ### Datapath registers kept -/

/-- Every block register but those of `gs` is kept, the rows and saved rows unless `core` says the round engine runs, and JI always. -/
structure KeepsBut (gs : List BlkReg) (core : Bool) (d d' : Datapath) : Prop where
  blk : ∀ g, g ∉ gs → d'.get g = d.get g
  rows : core = false → d'.rows = d.rows
  saved : core = false → d'.saved = d.saved
  ji : d'.ji = d.ji

theorem KeepsBut.refl (gs : List BlkReg) (core : Bool) (d : Datapath) : KeepsBut gs core d d :=
  ⟨fun _ _ => rfl, fun _ => rfl, fun _ => rfl, rfl⟩

theorem KeepsBut.trans {gs : List BlkReg} {core : Bool} {d d' d'' : Datapath} (h : KeepsBut gs core d d') (h' : KeepsBut gs core d' d'') :
    KeepsBut gs core d d'' :=
  ⟨fun g hg => (h'.blk g hg).trans (h.blk g hg), fun hc => (h'.rows hc).trans (h.rows hc), fun hc => (h'.saved hc).trans (h.saved hc),
    h'.ji.trans h.ji⟩

theorem Datapath.get_set_of_ne {d : Datapath} {g g' : BlkReg} {b : Block} (h : g' ≠ g) : (d.set g b).get g' = d.get g' := by
  revert h
  cases g <;> cases g' <;> simp [Datapath.get, Datapath.set]

theorem keepsBut_set {gs : List BlkReg} {g : BlkReg} (hg : g ∈ gs) (core : Bool) (d : Datapath) (b : Block) :
    KeepsBut gs core d (d.set g b) := by
  refine ⟨fun g' hg' => Datapath.get_set_of_ne fun h => hg' (h ▸ hg), fun _ => ?_, fun _ => ?_, Datapath.set_ji d g b⟩
  · cases g <;> rfl
  · cases g <;> rfl

/-- A micro-operation that writes no datapath registers but these. -/
def MicroOp.Within (gs : List BlkReg) (core : Bool) : MicroOp → Prop
  | .lda _ g _ _ | .ldu g _ _ | .xorb g _ _ | .move g _ => g ∈ gs
  | .salsa g => g ∈ gs ∧ core = true
  | .integ d => d = .j
  | .zeroEnd => False
  | .sta _ _ _ _ | .staZero _ _ | .stu _ _ _ _ | .stn _ _ _ | .pfn _ _ | .flush _ _ | .bmEnd | .fence | .zeroBegin => True

theorem keepsBut_run {gs : List BlkReg} {core : Bool} {op : MicroOp} (h : op.Within gs core) (s : State) :
    KeepsBut gs core s.dp (op.run s).dp := by
  cases op with
  | lda l g b o => exact keepsBut_set h core s.dp _
  | ldu g b o => exact keepsBut_set h core s.dp _
  | xorb g a b => exact keepsBut_set h core s.dp _
  | move g a => exact keepsBut_set h core s.dp _
  | salsa g =>
    obtain ⟨hg, rfl⟩ := h
    by_cases ht : s.seq.t < Config.rounds
    · have hrows : ∀ x, ((MicroOp.salsa g).run s).dp.get x = s.dp.get x := fun x => by
        cases x <;> simp [MicroOp.run, MicroOp.effect, MicroOp.advance, opSalsa, ht, Datapath.get]
      have hji := (MicroOp.salsa g).run_ji s (by simp) (by simp)
      exact ⟨fun x _ => hrows x, fun hc => (by cases hc), fun hc => (by cases hc), hji⟩
    · have hset : ((MicroOp.salsa g).run s).dp = s.dp.set g (s.dp.rows.vadd s.dp.saved) := by
        simp [MicroOp.run, MicroOp.effect, MicroOp.advance, opSalsa, ht]
      rw [hset]
      exact keepsBut_set hg true s.dp _
  | integ d =>
    obtain rfl : d = .j := h
    exact .refl gs core s.dp
  | zeroEnd => exact h.elim
  | _ => exact .refl gs core s.dp

/-! ### The registers a command uses -/

/-- The block registers of the commands that do not zeroize. -/
def commandBlks : Instr → List BlkReg
  | .prepare | .salsa8 | .salsa8Nat => [.cur]
  | .restore => [.cur, .held]
  | .blockmixNone | .blockmixCopy => [.last, .prev, .cur]
  | .blockmixXor => [.last, .prev, .cur, .tmp]
  | .integerify | .smix | .zeroize => []

/-- The commands that run the round engine and do not zeroize. -/
def usesCore : Instr → Bool
  | .salsa8 | .salsa8Nat | .blockmixNone | .blockmixCopy | .blockmixXor => true
  | .prepare | .restore | .integerify | .smix | .zeroize => false

theorem bmHead_within {gs : List BlkReg} {r oo : Nat} {mode : BmMode} {ob : Base} (hl : .last ∈ gs) (hp : .prev ∈ gs)
    (ht : mode = .xor → .tmp ∈ gs) : ∀ op ∈ bmHead r mode ob oo, op.Within gs true := by
  cases mode with
  | none => simp [bmHead, MicroOp.Within, hl, hp]
  | copy => simp [bmHead, MicroOp.Within, hl, hp]
  | xor =>
    have ht := ht rfl
    simp only [bmHead, List.forall_mem_append, List.forall_mem_cons, List.forall_mem_map, List.not_mem_nil, false_implies, MicroOp.Within, hl, hp,
      ht, implies_true, and_true]

theorem bmIter_within {gs : List BlkReg} {r oo : Nat} {mode : BmMode} {ob : Base} (hc : .cur ∈ gs) (hp : .prev ∈ gs)
    (ht : mode = .xor → .tmp ∈ gs) (i : Nat) : ∀ op ∈ bmIter r mode ob oo i, op.Within gs true := by
  cases mode with
  | none => simp [bmIter, MicroOp.Within, hc, hp]
  | copy => simp [bmIter, MicroOp.Within, hc, hp]
  | xor =>
    have ht := ht rfl
    by_cases hi : i < r <;> simp [bmIter, MicroOp.Within, hc, hp, ht, hi]

/-- BM writes LAST, PREV and CUR, and TMP in mode Xor (R211). -/
theorem bmSeq_within {gs : List BlkReg} {r oo : Nat} {mode : BmMode} {ob : Base} (hl : .last ∈ gs) (hp : .prev ∈ gs) (hc : .cur ∈ gs)
    (ht : mode = .xor → .tmp ∈ gs) : ∀ op ∈ bmSeq r mode ob oo, op.Within gs true := by
  have htail : ∀ op ∈ bmTail, op.Within gs true := by simp [bmTail, MicroOp.Within, hl]
  intro op hop
  rcases List.mem_append.1 hop with hop | hop
  · rcases List.mem_append.1 hop with hop | hop
    · exact bmHead_within hl hp ht op hop
    · obtain ⟨i, _, hop⟩ := List.mem_flatMap.1 hop
      exact bmIter_within hc hp ht i op hop
  · exact htail op hop

/-- PREP_SEQ writes CUR (R194). -/
theorem prepSeq_within (r : Nat) : ∀ op ∈ prepSeq r, op.Within [.cur] false := by
  intro op h
  simp only [prepSeq, prepIter, List.mem_append, List.mem_flatMap, List.mem_cons, List.not_mem_nil, or_false] at h
  rcases h with ⟨i, _, rfl | rfl⟩ | rfl | rfl <;> simp [MicroOp.Within]

/-- REST_SEQ writes CUR and HELD (R197). -/
theorem restSeq_within (r : Nat) : ∀ op ∈ restSeq r, op.Within [.cur, .held] false := by
  intro op h
  simp only [restSeq, restIter, List.mem_append, List.mem_flatMap, List.mem_cons, List.not_mem_nil, or_false] at h
  rcases h with (rfl | ⟨i, _, rfl | rfl⟩) | rfl <;> simp [MicroOp.Within]

/-- The micro-operations of a command that does not zeroize write its own registers alone. -/
theorem blockSeq_within {c : Instr} (hz : zeroizes c = false) {r n i : Nat} {ph : Phase} (hph : ph ∈ phasesOf c) :
    ∀ op ∈ blockSeq c r n ph i, op.Within (commandBlks c) (usesCore c) := by
  cases c with
  | smix | zeroize => cases hz
  | prepare =>
    obtain rfl := List.mem_singleton.1 hph
    exact prepSeq_within r
  | restore =>
    obtain rfl := List.mem_singleton.1 hph
    exact restSeq_within r
  | integerify =>
    obtain rfl := List.mem_singleton.1 hph
    simp [blockSeq, MicroOp.Within]
  | salsa8 | salsa8Nat =>
    obtain rfl := List.mem_singleton.1 hph
    simp [blockSeq, salsaSeq, MicroOp.Within, commandBlks, usesCore]
  | blockmixNone | blockmixCopy | blockmixXor =>
    obtain rfl := List.mem_singleton.1 hph
    exact bmSeq_within (by decide) (by decide) (by decide) (by decide)

/-- A command that does not zeroize keeps every datapath register but its own (R31, R32, R35). -/
theorem exec_keepsBut {i : Instr} {s t : State} (hz : zeroizes i = false) (h : exec i s = .next t) :
    KeepsBut (commandBlks i) (usesCore i) s.dp t.dp := by
  rcases exec_cases h with ⟨_, rfl⟩ | ⟨_, e, rfl⟩ | ⟨ha, _⟩
  · exact .refl _ _ _
  · exact .refl _ _ _
  · refine exec_induct ha h (P := fun u => KeepsBut (commandBlks i) (usesCore i) s.dp u.dp) (.refl _ _ _) fun u v hu _ hP hmove => ?_
    cases hmove with
    | @served op tr d hop =>
      exact hP.trans (keepsBut_run (blockSeq_within hz hu.phase_mem op (hu.op_mem hop)) { u with trace := tr, draws := d })
    | passed => exact hP
    | moved => exact hP
    | finished => rw [State.complete_dp]; exact hP
    | stopped => rw [State.complete_dp]; exact hP

/-! ### ZERO_SEQ -/

/-- Behind ZERO_SEQ the datapath is zero (R258). -/
def ZeroedBehind (u : State) : Prop :=
  (u.status.busy = false → u.dp = zeroDatapath)
    ∧ (u.seq.phase = .zeroize → u.blockOps[u.seq.q]? = none → u.dp = zeroDatapath)

/-- The end of ZERO_SEQ stands last (R258). -/
theorem zeroEnd_of_last {r n q : Nat} {op : MicroOp} (hop : (zeroSeq r n)[q]? = some op) (hlast : (zeroSeq r n)[q + 1]? = none) :
    op = .zeroEnd := by
  rw [zeroSeq_eq] at hop hlast
  have hlt := (List.getElem?_eq_some_iff.1 hop).1
  have hge := List.getElem?_eq_none_iff.1 hlast
  rw [List.length_append] at hlt hge
  obtain rfl : q = (zeroBody r n).length := by simp at hlt hge; omega
  simpa using hop.symm

theorem State.blockOps_zeroize {c : Instr} {u : State} (hc : u.latched.cmd = some c) (hp : u.seq.phase = .zeroize) :
    u.blockOps = zeroSeq u.latched.r.toNat u.latched.n.toNat := by
  simp only [State.blockOps, hc, hp, blockSeq]

/-- SMIX and ZEROIZE leave every datapath register zero (R258). -/
theorem exec_zeroDatapath {i : Instr} {s t : State} (hz : zeroizes i = true) (ha : Accepts i s) (h : exec i s = .next t) :
    t.dp = zeroDatapath := by
  have hzeroize : i ≠ .smix → ∀ {u}, RunsCommand i u → u.seq.phase = .zeroize := fun hns u hu => by
    have hmem := hu.phase_mem
    cases i with
    | smix => exact absurd rfl hns
    | zeroize => exact List.mem_singleton.1 hmem
    | _ => cases hz
  have hstart : ZeroedBehind (s.started i) := by
    refine ⟨fun hb => (by cases hb), fun hp hnone => ?_⟩
    rw [State.blockOps_zeroize (runsCommand_started ha).cmd hp] at hnone
    cases hnone
  refine (exec_induct ha h hstart fun u v hu hb hP hmove => ?_).1 (exec_idle ha h)
  cases hmove with
  | @served op tr d hop =>
    obtain ⟨hph, hi, _, _, hbusy, _, hq⟩ := op.run_fields { u with trace := tr, draws := d }
    have hops : (op.run { u with trace := tr, draws := d }).blockOps = u.blockOps :=
      State.blockOps_congr (stepFrame_run op _).latched hph hi
    refine ⟨fun hidle => (by rw [hbusy, hb] at hidle; cases hidle), fun hp hnone => ?_⟩
    rw [hops] at hnone
    rcases hq with ⟨hq, _⟩ | ⟨hq, _⟩ <;> rw [hq] at hnone
    · rw [State.blockOps_zeroize hu.cmd (hph.symm.trans hp)] at hop hnone
      obtain rfl := zeroEnd_of_last hop hnone
      rfl
    · rw [show u.blockOps[u.seq.q]? = none from hnone] at hop
      cases hop
  | passed tr d e w ok hop hreq =>
    refine ⟨fun hidle => (by rw [show u.status.busy = false from hidle] at hb; cases hb), fun hp hnone => ?_⟩
    have hnone : u.blockOps[u.seq.q + 1]? = none := hnone
    rw [State.blockOps_zeroize hu.cmd hp] at hop hnone
    rw [zeroEnd_of_last hop hnone] at hreq
    exact absurd rfl hreq
  | @moved tr d e w next draw hsmix hnext hdraw =>
    refine ⟨fun hidle => (by rw [show u.status.busy = false from hidle] at hb; cases hb), fun hp hnone => ?_⟩
    rw [State.blockOps_zeroize
      (u := { u with trace := tr, draws := d, pendingErr := e, wbuf := w, phaseDraw := draw, seq := ⟨next.1, next.2, 0, 0⟩ }) hu.cmd hp] at hnone
    cases hnone
  | finished d hend hlast =>
    have hp : u.seq.phase = .zeroize := by
      by_cases hc : i = .smix
      · exact hlast hc
      · exact hzeroize hc hu
    have hdp := (State.complete_dp { u with draws := d }).trans (hP.2 hp hend)
    exact ⟨fun _ => hdp, fun _ _ => hdp⟩
  | stopped tr d e w hstop => exact absurd (hzeroize hstop.notSmix hu) hstop.phase

/-! ### The statement -/

theorem Datapath.eq_of_fields {d d' : Datapath} (hrows : d.rows = d'.rows) (hsaved : d.saved = d'.saved) (hlast : d.last = d'.last)
    (hprev : d.prev = d'.prev) (hcur : d.cur = d'.cur) (htmp : d.tmp = d'.tmp) (hheld : d.held = d'.held) (hji : d.ji = d'.ji) : d = d' := by
  cases d
  cases d'
  simp_all

/-- Settles O29: a command's micro-operations write its own registers, and ZERO_SEQ, which ends SMIX and ZEROIZE, clears all. -/
theorem commandsKeepTheOtherDatapathRegisters : Obligations.CommandsKeepTheOtherDatapathRegisters := by
  intro i s t h
  refine ⟨?_, ?_, ?_, ?_, ?_, ?_, fun hi ha => exec_zeroDatapath (by rcases hi with rfl | rfl <;> rfl) ha h⟩
  · rintro rfl
    obtain ⟨hblk, hrows, hsaved, hji⟩ := exec_keepsBut rfl h
    exact Datapath.eq_of_fields (hrows rfl) (hsaved rfl) (hblk .last (by decide)) (hblk .prev (by decide)) (hblk .cur (by decide))
      (hblk .tmp (by decide)) (hblk .held (by decide)) hji
  · rintro rfl
    obtain ⟨hblk, hrows, hsaved, hji⟩ := exec_keepsBut rfl h
    exact Datapath.eq_of_fields (hrows rfl) (hsaved rfl) (hblk .last (by decide)) (hblk .prev (by decide)) rfl (hblk .tmp (by decide))
      (hblk .held (by decide)) hji
  · rintro rfl
    obtain ⟨hblk, hrows, hsaved, hji⟩ := exec_keepsBut rfl h
    exact Datapath.eq_of_fields (hrows rfl) (hsaved rfl) (hblk .last (by decide)) (hblk .prev (by decide)) rfl (hblk .tmp (by decide)) rfl hji
  · intro hi
    have hregs : commandBlks i = [.cur] ∧ zeroizes i = false := by rcases hi with rfl | rfl <;> exact ⟨rfl, rfl⟩
    obtain ⟨hblk, _, _, hji⟩ := exec_keepsBut hregs.2 h
    rw [hregs.1] at hblk
    exact Datapath.eq_of_fields rfl rfl (hblk .last (by decide)) (hblk .prev (by decide)) rfl (hblk .tmp (by decide)) (hblk .held (by decide)) hji
  · intro hi
    have hregs : commandBlks i = [.last, .prev, .cur] ∧ zeroizes i = false := by rcases hi with rfl | rfl <;> exact ⟨rfl, rfl⟩
    obtain ⟨hblk, _, _, hji⟩ := exec_keepsBut hregs.2 h
    rw [hregs.1] at hblk
    exact Datapath.eq_of_fields rfl rfl rfl rfl rfl (hblk .tmp (by decide)) (hblk .held (by decide)) hji
  · rintro rfl
    obtain ⟨hblk, _, _, hji⟩ := exec_keepsBut rfl h
    exact ⟨hblk .held (by decide), hji⟩

end Sys2Proof.Machine

/-! PROOFS. The engine never issues a request that is misaligned or leaves the address space (20_memory.md R75, R76, 41_blockops.md R170). -/

namespace Sys2Proof.Machine

/-! ### The buffers of a phase -/

/-- The buffers the block sequences of a phase access (R145, R194, R197, R211, R227, R258). -/
def phaseBases (c : Instr) : Phase → List Base
  | .prepare => [.elem, .work]
  | .fill => [.cw, .cs, .table]
  | .mix => [.cw, .cs, .tableAtJI]
  | .restore => [.elem, .cw]
  | .zeroize => [.work, .shuf, .table]
  | .blockmix => if blockmixMode c = .none then [.cw, .cs] else [.cw, .cs, .other]
  | .integerify => [.cw]
  | .salsa => [.other]
  | .idle | .fence => []

/-- Block q of a buffer of 2r blocks lies inside it. -/
theorem block_offsetOk {r n q : Nat} {b : Base} (hb : b = .other ∨ b = .tableAtJI) (hq : q < 2 * r) : offsetOk r n b (0 + 64 * q) := by
  rcases hb with rfl | rfl <;> exact ⟨by omega, by omega⟩

/-- A phase's block sequence accesses its buffers only, at offsets inside them (R170). -/
theorem blockSeq_ok {c : Instr} {r n i : Nat} {ph : Phase} (hr : 1 ≤ r) (hi : ph = .fill → i < n) :
    ∀ op ∈ blockSeq c r n ph i, opOk r n (· ∈ phaseBases c ph) op := by
  cases ph with
  | idle => exact fun op h => absurd h List.not_mem_nil
  | prepare => exact prepSeq_ok hr (by simp [phaseBases]) (by simp [phaseBases])
  | fill =>
    exact bmSeq_ok hr (by simp [phaseBases]) (by simp [phaseBases]) fun _ => ⟨by simp [phaseBases], by simp, tableEntry_offsetOk (hi rfl)⟩
  | fence =>
    intro op h
    obtain rfl := List.mem_singleton.1 h
    trivial
  | mix =>
    intro op h
    rcases List.mem_cons.1 h with rfl | h
    · show Base.cw ∈ _
      simp [phaseBases]
    · exact bmSeq_ok hr (by simp [phaseBases]) (by simp [phaseBases]) (fun _ =>
        ⟨by simp [phaseBases], by simp, fun q hq => block_offsetOk (.inr rfl) hq⟩) op h
  | restore => exact restSeq_ok hr (by simp [phaseBases]) (by simp [phaseBases])
  | zeroize => exact zeroSeq_ok (by simp [phaseBases]) (by simp [phaseBases]) (by simp [phaseBases])
  | blockmix =>
    have hcw : Base.cw ∈ phaseBases c .blockmix ∧ Base.cs ∈ phaseBases c .blockmix := by
      cases hm : blockmixMode c <;> simp [phaseBases, hm]
    exact bmSeq_ok hr hcw.1 hcw.2 fun hm => ⟨by simp [phaseBases, hm], by simp, fun q hq => block_offsetOk (.inl rfl) hq⟩
  | integerify =>
    intro op h
    obtain rfl := List.mem_singleton.1 h
    exact List.mem_singleton.2 rfl
  | salsa =>
    have hother : Base.other ∈ phaseBases c .salsa ∧ offsetOk r n .other 0 := ⟨List.mem_singleton.2 rfl, rfl, by omega⟩
    intro op h
    cases c with
    | salsa8 =>
      simp only [blockSeq, salsaSeq, List.mem_cons, List.not_mem_nil, or_false] at h
      rcases h with rfl | rfl | rfl <;> simp [opOk, hother]
    | salsa8Nat =>
      simp only [blockSeq, salsaSeq, List.mem_cons, List.not_mem_nil, or_false] at h
      rcases h with rfl | rfl | rfl <;> simp [opOk, hother]
    | _ => exact absurd h List.not_mem_nil

/-! ### The requests of a running command -/

/-- On a platform that fails no request, a buffer that is aligned and inside the address space is usable. -/
theorem usable_withoutErrors {r n : Nat} {s : State} {b : Base} (haligned : b ≠ .elem → s.baseAddr b % 64 = 0)
    (hspace : s.baseAddr b + b.span r n ≤ Config.addressLimit) : Usable r n s.withoutErrors b :=
  ⟨haligned, hspace, fun q _ _ => by simp [Request.fails, State.withoutErrors]⟩

theorem Placed.usable {r n : Nat} {s : State} {b : Base} (h : Placed (s.baseAddr b) (b.span r n)) : Usable r n s.withoutErrors b := by
  obtain ⟨haligned, hspace⟩ := h
  exact usable_withoutErrors (fun _ => haligned) hspace

/-- The phases whose buffers hold 2r blocks; INTEGERIFY and SALSA8 access one block. -/
def Phase.wholeBuffers (ph : Phase) : Prop := ph ≠ .integerify ∧ ph ≠ .salsa

variable {c : Instr} {s : State}

/-- Where a phase accesses whole buffers, r is at least 1 (R242). -/
theorem RunsCommand.r_pos (h : RunsCommand c s) (hp : s.seq.phase.wholeBuffers) : 1 ≤ s.latched.r.toNat := by
  obtain ⟨hint, hsalsa⟩ := hp
  have hgeo := h.geometry
  have hmem := h.phase_mem
  cases c with
  | integerify => exact absurd (List.mem_singleton.1 hmem) hint
  | salsa8 => exact absurd (List.mem_singleton.1 hmem) hsalsa
  | salsa8Nat => exact absurd (List.mem_singleton.1 hmem) hsalsa
  | _ => exact hgeo.1.1

theorem forall_mem_two {α : Type} {P : α → Prop} {x y : α} (hx : P x) (hy : P y) : ∀ b ∈ [x, y], P b := by
  simp [hx, hy]

theorem forall_mem_three {α : Type} {P : α → Prop} {x y z : α} (hx : P x) (hy : P y) (hz : P z) : ∀ b ∈ [x, y, z], P b := by
  simp [hx, hy, hz]

/-- The buffers of a running command's phase are placed; the table entry is named once INTEG has run (R256). -/
theorem RunsCommand.usable (h : RunsCommand c s) (hp : s.seq.phase.wholeBuffers) (hq : s.seq.phase = .mix → 1 ≤ s.seq.q) :
    ∀ b ∈ phaseBases c s.seq.phase, Usable s.latched.r.toNat s.latched.n.toNat s.withoutErrors b := by
  obtain ⟨hint, hsalsa⟩ := hp
  have hgeo := h.geometry
  have hmem := h.phase_mem
  have helem : s.latched.elem.toNat + 128 * s.latched.r.toNat ≤ Config.addressLimit →
      Usable s.latched.r.toNat s.latched.n.toNat s.withoutErrors .elem := usable_withoutErrors fun hb => absurd rfl hb
  cases c with
  | smix =>
    obtain ⟨⟨hr, heb⟩, _, he, hw, hs, ht⟩ := hgeo
    obtain ⟨hcw, hcs⟩ := placed_cw hw hs
    simp only [phasesOf, List.mem_cons, List.not_mem_nil, or_false] at hmem
    rcases hmem with hp | hp | hp | hp | hp | hp
    · exact hp ▸ forall_mem_two (helem he) (Placed.usable hw)
    · exact hp ▸ forall_mem_three (Placed.usable hcw) (Placed.usable hcs) (Placed.usable ht)
    · exact hp ▸ fun b hb => absurd hb List.not_mem_nil
    · have hentry : Placed (s.baseAddr .tableAtJI) _ := placed_tableAtJI heb ht (h.tableIndex hp (hq hp))
      exact hp ▸ forall_mem_three (Placed.usable hcw) (Placed.usable hcs) (Placed.usable hentry)
    · exact hp ▸ forall_mem_two (helem he) (Placed.usable hcw)
    · exact hp ▸ forall_mem_three (Placed.usable hw) (Placed.usable hs) (Placed.usable ht)
  | prepare =>
    obtain ⟨_, he, hw⟩ := hgeo
    exact List.mem_singleton.1 hmem ▸ forall_mem_two (helem he) (Placed.usable hw)
  | restore =>
    obtain ⟨_, he, hcw⟩ := hgeo
    exact List.mem_singleton.1 hmem ▸ forall_mem_two (helem he) (Placed.usable hcw)
  | zeroize =>
    obtain ⟨_, _, hw, hs, ht⟩ := hgeo
    exact List.mem_singleton.1 hmem ▸ forall_mem_three (Placed.usable hw) (Placed.usable hs) (Placed.usable ht)
  | blockmixNone =>
    obtain ⟨_, hw, hs⟩ := hgeo
    obtain ⟨hcw, hcs⟩ := placed_cw hw hs
    exact List.mem_singleton.1 hmem ▸ forall_mem_two (Placed.usable hcw) (Placed.usable hcs)
  | blockmixCopy =>
    obtain ⟨_, hw, hs, ho⟩ := hgeo
    obtain ⟨hcw, hcs⟩ := placed_cw hw hs
    exact List.mem_singleton.1 hmem ▸ forall_mem_three (Placed.usable hcw) (Placed.usable hcs) (Placed.usable ho)
  | blockmixXor =>
    obtain ⟨_, hw, hs, ho⟩ := hgeo
    obtain ⟨hcw, hcs⟩ := placed_cw hw hs
    exact List.mem_singleton.1 hmem ▸ forall_mem_three (Placed.usable hcw) (Placed.usable hcs) (Placed.usable ho)
  | integerify => exact absurd (List.mem_singleton.1 hmem) hint
  | salsa8 => exact absurd (List.mem_singleton.1 hmem) hsalsa
  | salsa8Nat => exact absurd (List.mem_singleton.1 hmem) hsalsa

/-- INTEGERIFY's word and SALSA8's block are aligned and inside the address space (R75, R76). -/
theorem RunsCommand.request_ok_single (h : RunsCommand c s) (hp : ¬ s.seq.phase.wholeBuffers) {op : MicroOp}
    (hop : op ∈ blockSeq c s.latched.r.toNat s.latched.n.toNat s.seq.phase s.seq.i) {q : Request}
    (hq : op.request s = some q) : q.inSpace = true ∧ q.isAligned = true := by
  have hgeo := h.geometry
  have hmem := h.phase_mem
  have block : ∀ k : ReqKind, k.size = 64 → k.align = 64 → Placed s.latched.other.toNat 64 →
      (⟨k, s.baseAddr .other + 0⟩ : Request).inSpace = true ∧ (⟨k, s.baseAddr .other + 0⟩ : Request).isAligned = true := by
    rintro k hsize halign ⟨ho, hspace⟩
    exact ⟨decide_eq_true (by rw [hsize]; exact hspace), beq_iff_eq.2 (by rw [halign]; exact ho)⟩
  rcases Classical.not_and_iff_not_or_not.1 hp with hp | hp
  · have hp : s.seq.phase = .integerify := not_not.1 hp
    obtain rfl := eq_integerify_of_phase (hp ▸ hmem)
    obtain ⟨_, halign, hspace⟩ := hgeo
    rw [hp] at hop
    obtain rfl := List.mem_singleton.1 hop
    cases hq
    refine ⟨decide_eq_true ?_, beq_iff_eq.2 ?_⟩
    · show s.cw + 16 + 4 ≤ Config.addressLimit
      omega
    · show (s.cw + 16) % 4 = 0
      omega
  · have hp : s.seq.phase = .salsa := not_not.1 hp
    rw [hp] at hop hmem
    cases c with
    | salsa8 =>
      simp only [blockSeq, salsaSeq, List.mem_cons, List.not_mem_nil, or_false] at hop
      rcases hop with rfl | rfl | rfl <;> cases hq <;> exact block _ rfl rfl hgeo
    | salsa8Nat =>
      simp only [blockSeq, salsaSeq, List.mem_cons, List.not_mem_nil, or_false] at hop
      rcases hop with rfl | rfl | rfl <;> cases hq <;> exact block _ rfl rfl hgeo
    | _ => exact absurd hmem (by decide)

/-- The request of the position's micro-operation is aligned and stays inside the address space (R75, R76). -/
theorem RunsCommand.request_ok (h : RunsCommand c s) {op : MicroOp} (hop : s.blockOps[s.seq.q]? = some op) {q : Request}
    (hq : op.request s = some q) : q.inSpace = true ∧ q.isAligned = true := by
  have hmem := h.op_mem hop
  by_cases hp : s.seq.phase.wholeBuffers
  · have served : opOk s.latched.r.toNat s.latched.n.toNat (Usable s.latched.r.toNat s.latched.n.toNat s.withoutErrors) op →
        q.inSpace = true ∧ q.isAligned = true := fun hok => by
      obtain ⟨hin, hal, _⟩ := served_of_opOk (h.r_pos hp) hok q (by rw [← hq]; cases op <;> rfl)
      exact ⟨hin, hal⟩
    by_cases hfirst : s.seq.phase = .mix ∧ s.seq.q = 0
    · obtain ⟨hm, h0⟩ := hfirst
      rw [h.blockOps_eq, hm, h0] at hop
      obtain rfl : MicroOp.integ .ji = op := Option.some.inj hop
      obtain rfl := h.smix_of_phase (.inr (.inr hm))
      obtain ⟨_, _, _, hw, hs, _⟩ := h.geometry
      exact served (Placed.usable (placed_cw hw hs).1)
    · exact served (opOk_mono (h.usable hp fun hm => Nat.one_le_iff_ne_zero.2 fun h0 => hfirst ⟨hm, h0⟩)
        (blockSeq_ok (h.r_pos hp) (fun hf => h.iter_lt (.inl hf)) op hmem))
  · exact h.request_ok_single hp hmem hq

/-! ### No fault but a foreign access's -/

/-- An engine step of a running command answers a next state (R75, R76). -/
theorem RunsCommand.engineStep_total (h : RunsCommand c s) : ∃ t, Machine.engineStep s = .next t := by
  have hcount : RunsCommand c s.countArrival :=
    h.of_eq (by simp) (by simp) (by simp) (by simp) (by simp) (by simp) (by simp) (by simp) (by simp)
  unfold Machine.engineStep
  split
  · exact ⟨_, rfl⟩
  · unfold Machine.sequencerStep
    split
    next op hop => exact performOp_total fun q hq => hcount.request_ok hop hq
    next => exact ⟨_, rfl⟩

/-- A run to the end of a running command answers a next state. -/
theorem runToIdle_total (fuel : Nat) (h : s.status.busy = true → RunsCommand c s) : ∃ t, runToIdle fuel s = .next t := by
  induction fuel generalizing s with
  | zero => exact ⟨s, rfl⟩
  | succ fuel ih =>
    cases hb : s.status.busy with
    | false => exact ⟨s, runToIdle_idle _ _ hb⟩
    | true =>
      obtain ⟨u, hu⟩ := (h hb).engineStep_total
      rw [runToIdle_busy hb hu]
      refine ih fun hbu => ?_
      rcases (h hb).engineStep hb hu with ⟨_, hc⟩ | ⟨hidle, _⟩
      · exact hc
      · rw [hidle] at hbu
        cases hbu

/-- The issue of a command stops in no fault (R240). -/
theorem issueCommand_ne_fault (i : Instr) (s : State) (f : Fault) : issueCommand i s ≠ .fault f := by
  unfold issueCommand
  split
  · nofun
  · split
    · nofun
    · split
      · nofun
      · split <;> nofun

theorem exec_ne_fault (i : Instr) (s : State) (f : Fault) : exec i s ≠ .fault f := by
  rw [exec_eq_runCommand, runCommand]
  split
  · nofun
  · split
    next u hu =>
      obtain ⟨t, ht⟩ := runToIdle_total (commandBudget i u.latched.r.toNat u.latched.n.toNat) (s := u) (c := i) fun hb => by
        rcases issueCommand_cases hu with ⟨_, rfl⟩ | ⟨hb', e, _, rfl⟩ | ⟨ha, rfl⟩
        · contradiction
        · exact Bool.noConfusion (hb'.symm.trans hb)
        · exact runsCommand_started ha
      rw [ht]
      nofun
    next g hu => exact absurd hu (issueCommand_ne_fault i s g)
    next => nofun

theorem writeCmd_ne_fault (v : Reg64) (s : State) (f : Fault) : writeCmd v s ≠ .fault f := by
  unfold writeCmd
  split
  · nofun
  · split
    · nofun
    · split
      · exact exec_ne_fault _ s f
      · exact issueCommand_ne_fault _ s f

theorem hostAccess_ne_fault (a : Access) (s : State) (f : Fault) : hostAccess a s ≠ .fault f := by
  unfold hostAccess
  split
  · nofun
  · split
    · nofun
    next v _ =>
      unfold writeOffset
      split
      next r _ =>
        cases r with
        | cmd => exact writeCmd_ne_fault v _ f
        | _ => nofun
      next => nofun

theorem Invariant.engineTurn_ne_fault (h : Invariant s) (f : Fault) : Machine.engineTurn s ≠ .fault f := by
  unfold Machine.engineTurn
  split
  next hb =>
    obtain ⟨c, hc⟩ := h.running hb
    obtain ⟨t, ht⟩ := hc.engineStep_total
    rw [ht]
    nofun
  next => nofun

theorem Invariant.waitTurn_ne_fault (h : Invariant s) (f : Fault) : Machine.waitTurn s ≠ .fault f := by
  have hread : Invariant (s.readStatus.2.respond s.readStatus.1 false) := h.readStatus.respond _ _
  simp only [Machine.waitTurn]
  split
  next hb =>
    obtain ⟨c, hc⟩ := hread.running hb
    obtain ⟨t, ht⟩ := hc.engineStep_total
    rw [ht]
    nofun
  next => nofun

/-- From a state that meets the invariant the one fault of a step is a foreign access to an address that does not exist (R70). -/
theorem Invariant.step_fault (h : Invariant s) {f : Fault} (hf : step s = .fault f) : f = .noSuchAddress := by
  unfold step at hf
  split at hf
  · exact absurd hf (h.engineTurn_ne_fault f)
  next i rest _ =>
    cases i with
    | access a => exact absurd hf (hostAccess_ne_fault a _ f)
    | wait => exact absurd hf ((h.popInput rest).waitTurn_ne_fault f)
    | tick => exact absurd hf ((h.popInput rest).engineTurn_ne_fault f)
    | drain => cases hf
    | reset => cases hf
    | memStore a v =>
      have hf : Machine.foreignStore a v (s.popInput rest) = .fault f := hf
      unfold Machine.foreignStore at hf
      split at hf
      · cases hf
        rfl
      · split at hf <;> cases hf
    | memLoad a =>
      have hf : Machine.foreignLoad a (s.popInput rest) = .fault f := hf
      unfold Machine.foreignLoad at hf
      split at hf
      · cases hf
        rfl
      · split at hf <;> cases hf

/-- Settles O10: a running command's requests lie aligned in its placed buffers, so its engine steps answer next states, and the
other agents' turns fault only at an address that does not exist. -/
theorem engineNeverIssuesIllegalRequests : Obligations.EngineNeverIssuesIllegalRequests := by
  intro s h
  exact ⟨fun hf => (by cases h.step_fault hf), fun hf => (by cases h.step_fault hf)⟩

end Sys2Proof.Machine

/-! PROOFS. The bytes of a word, and what keeps other agents' memory and the engine's apart (20_memory.md R71, R73, R78, R88 to R90). -/

namespace Sys2Proof

/-! ### Bytes (R73, R107) -/

theorem littleEndian_bytesOfNat (k w : Nat) : littleEndian (bytesOfNat k w) = w % 256 ^ k := by
  induction k generalizing w with
  | zero => simp [bytesOfNat, littleEndian, Nat.mod_one]
  | succ k ih => rw [bytesOfNat, littleEndian, ih, BitVec.toNat_ofNat, pow_succ' 256 k, Nat.mod_mul]

theorem length_bytesOfNat (k w : Nat) : (bytesOfNat k w).length = k := by
  induction k generalizing w with
  | zero => rfl
  | succ k ih => rw [bytesOfNat, List.length_cons, ih]

/-- The eight bytes of a register write carry its word (R107). -/
theorem wordOfBytes_bytesOfNat (v : Reg64) : wordOfBytes (bytesOfNat 8 v.toNat) = .ok v := by
  rw [wordOfBytes, if_pos (length_bytesOfNat 8 _), littleEndian_bytesOfNat, Nat.mod_eq_of_lt (b := 256 ^ 8) v.isLt, BitVec.ofNat_toNat,
    BitVec.setWidth_eq]

/-- Settles O3: the little-endian value of a word's bytes is the word. -/
theorem bytesDecodeAsTheirWord : Obligations.BytesDecodeAsTheirWord := by
  refine ⟨fun v => ?_, fun bs hlen => ?_⟩
  · rw [decodeBytes, wordOfBytes_bytesOfNat]
  · rw [decodeBytes, wordOfBytes, if_neg hlen]

end Sys2Proof

namespace Sys2Proof.Machine

/-! ### Device memory and the register window (R71, R78) -/

theorem Region.disjoint_iff (g h : Region) : g.disjoint h = true ↔ g.base + g.size ≤ h.base ∨ h.base + h.size ≤ g.base :=
  decide_eq_true_iff

theorem Platform.ordinary_iff (p : Platform) (rs : List Region) :
    p.ordinary rs = true ↔ ∀ g ∈ rs, ∀ d ∈ p.device, g.disjoint d = true := by
  simp only [Platform.ordinary, List.all_eq_true]

theorem Platform.clearOfWindow_iff (p : Platform) (rs : List Region) :
    p.clearOfWindow rs = true ↔ (p.windowInMemory = true → ∀ g ∈ rs, g.disjoint p.windowRegion = true) := by
  cases h : p.windowInMemory <;> simp [Platform.clearOfWindow, h]

/-- A command whose issue is refused is refused whole. -/
theorem exec_of_issue_refused {i : Instr} {s : State} {r : Refusal} (hb : s.status.busy = false)
    (h : issueCommand i s = .refused r) : exec i s = .refused r := by
  rw [exec_eq_runCommand, runCommand, if_neg (by simp [hb]), h]

/-- Settles O59: acceptance asks `ordinary`, then `clearOfWindow`, of the command's regions. -/
theorem deviceAndWindowRegionsAreRefused : Obligations.DeviceAndWindowRegionsAreRefused := by
  intro i s hb hcheck disj device window
  have hord : s.platform.ordinary (commandRegions i s) = true ↔ ¬ device := by
    simp only [Platform.ordinary_iff, Region.disjoint_iff, device, disj, not_exists, not_and, not_not]
  have hclear : s.platform.clearOfWindow (commandRegions i s) = true ↔ ¬ window := by
    simp only [Platform.clearOfWindow_iff, Region.disjoint_iff, window, disj, not_exists, not_and, not_not]
    rfl
  have refused : ∀ {r}, issueCommand i s = .refused r → exec i s = .refused r ∧ issueCommand i s = .refused r :=
    fun h => ⟨exec_of_issue_refused hb h, h⟩
  refine ⟨fun hd => refused ?_, fun hd hw => refused ?_, fun hd hw => ?_⟩
  · have hno : s.platform.ordinary (commandRegions i s) = false := Bool.eq_false_iff.2 fun h => hord.1 h hd
    simp [issueCommand, hb, hcheck, hno]
  · have hno : s.platform.clearOfWindow (commandRegions i s) = false := Bool.eq_false_iff.2 fun h => hclear.1 h hw
    simp [issueCommand, hb, hcheck, hord.2 hd, hno]
  · exact ⟨s.started i, issueCommand_accepts ⟨hb, hcheck, hord.2 hd, hclear.2 hw⟩, rfl⟩

/-! ### Foreign accesses (R88 to R90, R333) -/

theorem step_memStore {s : State} {a : Nat} {v : Byte} {rest : List Input} (hin : s.inputs = .memStore a v :: rest) :
    step s = foreignStore a v (s.popInput rest) := by
  simp only [step, hin, takeInput]

theorem step_memLoad {s : State} {a : Nat} {rest : List Input} (hin : s.inputs = .memLoad a :: rest) :
    step s = foreignLoad a (s.popInput rest) := by
  simp only [step, hin, takeInput]

/-- An address belongs to the running command. -/
def State.owns (s : State) (a : Nat) : Bool := s.status.busy && inRegions s.latched.owned a

theorem foreignStore_eq {s : State} {a : Nat} (v : Byte) (ha : a < 2 ^ 64) :
    foreignStore a v s = if s.owns a then .refused .foreignAccess else .next { s with mem := s.mem.write a v } :=
  if_neg (Nat.not_le.2 ha)

theorem foreignLoad_eq {s : State} {a : Nat} (ha : a < 2 ^ 64) :
    foreignLoad a s = if s.owns a then .refused .foreignAccess else .next (s.respond ((s.mem.read a).setWidth 64) false) :=
  if_neg (Nat.not_le.2 ha)

/-- Settles O48: an access is refused exactly where the running command owns the byte, and acts on that byte elsewhere. -/
theorem foreignAccessesWhileBusy : Obligations.ForeignAccessesWhileBusy := by
  intro s a v rest ha
  have owns : ∀ {b}, s.owns a = b → (s.popInput rest).owns a = b := id
  have free : s.status.busy = false ∨ inRegions s.latched.owned a = false → s.owns a = false := Bool.and_eq_false_iff.2
  refine ⟨fun hb hin ho => ?_, fun hb hin ho => ?_, fun hinv hin hfree => ?_, fun hin hfree => ?_⟩
  · rw [step_memStore hin, foreignStore_eq v ha, owns (Bool.and_eq_true_iff.2 ⟨hb, ho⟩), if_pos rfl]
  · rw [step_memLoad hin, foreignLoad_eq ha, owns (Bool.and_eq_true_iff.2 ⟨hb, ho⟩), if_pos rfl]
  · refine ⟨{ s with inputs := rest, mem := s.mem.write a v }, ?_, rfl, ?_, fun x hx => ?_⟩
    · rw [step_memStore hin, foreignStore_eq v ha, owns (free hfree)]
      rfl
    · exact (s.mem.read_write hinv.portOk.mem a a v).trans (if_pos rfl)
    · exact (s.mem.read_write hinv.portOk.mem a x v).trans (if_neg hx)
  · rw [step_memLoad hin, foreignLoad_eq ha, owns (free hfree)]
    rfl

/-! ### FENCE (R87, R255) -/

/-- SMIX stopped in FENCE goes on with ZERO_SEQ: its scratch is overwritten, so no later write is drawn (R286). -/
theorem lateStop_fence {s : State} (hs : s.isSmix = true) (hp : s.seq.phase = .fence) : lateStop s = s.enterPhase .zeroize := by
  simp [lateStop, State.stopCommand, State.beforeRestore, hs, hp]

/-- A step in FENCE performs the pending writes, or behind them starts MIX; an error on its way stops the command (R255, R286). -/
theorem RunsCommand.fence_step {c : Instr} {s t : State} (h : RunsCommand c s) (hp : s.seq.phase = .fence)
    (hstep : Machine.engineStep s = .next t) :
    t = s.countArrival.drainAll.nextOp
      ∨ (s.wbuf = [] ∧ s.pendingErr = none ∧ t = s.countArrival.enterPhase .mix)
      ∨ (s.pendingErr.isSome = true ∧ t = s.countArrival.enterPhase .zeroize) := by
  obtain rfl := h.smix_of_phase (.inr (.inl hp))
  have hsmix : s.countArrival.isSmix = true := by
    rw [State.isSmix, State.countArrival_latched]
    exact h.isSmix_iff.2 rfl
  have hphase : s.countArrival.seq.phase = .fence := by rw [State.countArrival_seq, hp]
  have hops : s.blockOps = [.fence] := by rw [h.blockOps_eq, hp]; rfl
  have stop : t = lateStop s.countArrival → t = s.countArrival.enterPhase .zeroize := fun ht => ht.trans (lateStop_fence hsmix hphase)
  rcases engineStep_cases hstep with ⟨ha, ht⟩ | ⟨_, hseq⟩
  · have he : s.pendingErr.isSome = true := (Bool.and_eq_true_iff.1 (Bool.and_eq_true_iff.1 ha).1).1
    exact .inr (.inr ⟨he, stop ht⟩)
  rcases sequencerStep_cases hseq with ⟨op, hop, hperf⟩ | ⟨hend, ht⟩
  · rw [State.countArrival_blockOps, hops] at hop
    obtain rfl := List.mem_singleton.1 (List.mem_of_getElem? hop)
    rcases performOp_cases hperf with ⟨_, rfl⟩ | ⟨q, hq, _⟩
    · exact .inl rfl
    · cases hq
  · rw [State.countArrival_blockOps, State.countArrival_seq, hops] at hend
    have hq : 1 ≤ s.seq.q := List.getElem?_eq_none_iff.1 hend
    rw [Machine.endBlock, hphase] at ht
    dsimp only at ht
    rw [State.countArrival_pendingErr] at ht
    split at ht
    next he => exact .inr (.inr ⟨he, stop ht⟩)
    next he => exact .inr (.inl ⟨h.fenced hp hq, by simpa using he, ht⟩)

/-- Settles O46: what a step in FENCE can do, and what the engine reads once nothing is pending. -/
theorem fencePerformsPendingWrites : Obligations.FencePerformsPendingWrites := by
  intro s t h hb hp hstep
  obtain ⟨c, hc⟩ := h.running hb
  rcases hc.fence_step hp hstep with rfl | ⟨hw, he, rfl⟩ | ⟨he, rfl⟩
  · have hphase : s.countArrival.drainAll.nextOp.seq.phase = .fence := by simp [hp]
    rw [hphase]
    refine ⟨.inl rfl, fun _ => ⟨rfl, fun a => ?_⟩, nofun, nofun⟩
    have hport : PortOk s.countArrival := h.portOk.of_eq (by simp) (by simp)
    exact (s.countArrival.read_drainAll hport.mem hport.wbuf a).trans (State.readByte_congr (by simp) (by simp) a)
  · refine ⟨.inr (.inl rfl), fun _ => ⟨?_, fun a => ?_⟩, fun _ => he, nofun⟩
    · simp [hw]
    · simp [State.readByte_of_wbuf_nil hw]
  · exact ⟨.inr (.inr rfl), fun hne => absurd rfl hne, nofun, fun _ => he⟩

end Sys2Proof.Machine

/-! PROOFS. Where the engine's steps write (20_memory.md R85, R88, 60_exceptions.md R286). -/

namespace Sys2Proof.Machine

/-! ### The writes of a micro-operation -/

/-- The write request a micro-operation places, if it stores (R74). -/
def MicroOp.storeReq (op : MicroOp) (s : State) : Option Request := (op.request s).filter fun q => q.kind.isWrite

/-- The write a storing micro-operation issues when its request is served (R163 to R165, R258). -/
def MicroOp.write (op : MicroOp) (s : State) : Option PendingWrite :=
  match op with
  | .sta l src _ _ | .stu l src _ _ => some ⟨op.addr s, l.apply (s.dp.get src)⟩
  | .stn src _ _ => some ⟨op.addr s, s.dp.get src⟩
  | .staZero _ _ => some ⟨op.addr s, zeroBlock⟩
  | .lda _ _ _ _ | .ldu _ _ _ | .integ _ | .xorb _ _ _ | .move _ _ | .salsa _ | .pfn _ _ | .flush _ _ | .bmEnd | .fence
  | .zeroBegin | .zeroEnd => none

theorem MicroOp.mem_storeReq {op : MicroOp} {s : State} {q : Request} (h : q ∈ op.storeReq s) :
    op.request s = some q ∧ q.kind.isWrite = true := Option.filter_eq_some_iff.1 h

/-- Hints are no writes, enabled or not (R80). -/
theorem hint_filter (enabled : Bool) {k : ReqKind} (hk : k.isWrite = false) (a : Nat) :
    (((if enabled then some k else none).map fun k => (⟨k, a⟩ : Request)).filter fun q => q.kind.isWrite) = none := by
  cases enabled <;> simp [hk]

/-- Where a micro-operation writes depends on the bases alone. -/
theorem MicroOp.storeReq_congr {s u : State} (h : u.baseAddr = s.baseAddr) (op : MicroOp) : op.storeReq u = op.storeReq s := by
  cases op with
  | sta l src b o => simp only [MicroOp.storeReq, MicroOp.request, MicroOp.addr, h]; rfl
  | staZero b o => simp only [MicroOp.storeReq, MicroOp.request, MicroOp.addr, h]; rfl
  | stu l src b o => simp only [MicroOp.storeReq, MicroOp.request, MicroOp.addr, h]; rfl
  | stn src b o => simp only [MicroOp.storeReq, MicroOp.request, MicroOp.addr, h]; rfl
  | pfn b o => exact (hint_filter u.ctrl.pfe rfl _).trans (hint_filter s.ctrl.pfe rfl _).symm
  | flush b o => exact (hint_filter u.ctrl.fle rfl _).trans (hint_filter s.ctrl.fle rfl _).symm
  | _ => rfl

/-- A write is issued exactly where a write request is placed, at its address. -/
theorem MicroOp.write_addr (op : MicroOp) (s : State) : (op.write s).map PendingWrite.addr = (op.storeReq s).map Request.addr := by
  cases op with
  | pfn b o => exact congrArg (Option.map Request.addr) (hint_filter s.ctrl.pfe (k := .prefetch) rfl (s.baseAddr b + o)).symm
  | flush b o => exact congrArg (Option.map Request.addr) (hint_filter s.ctrl.fle (k := .flush) rfl (s.baseAddr b + o)).symm
  | _ => rfl

/-- A micro-operation but FENCE leaves memory, and adds its write to the write buffer (R36). -/
theorem MicroOp.run_port {op : MicroOp} (h : op ≠ .fence) (s : State) :
    (op.run s).mem = s.mem ∧ (op.run s).wbuf = s.wbuf ++ (op.write s).toList := by
  cases op with
  | sta l src b o => exact ⟨rfl, rfl⟩
  | staZero b o => exact ⟨rfl, rfl⟩
  | stu l src b o => exact ⟨rfl, rfl⟩
  | stn src b o => exact ⟨rfl, rfl⟩
  | fence => exact absurd rfl h
  | integ d => cases d <;> exact ⟨rfl, (List.append_nil _).symm⟩
  | salsa g =>
    by_cases ht : s.seq.t < Config.rounds <;>
      simp [MicroOp.run, MicroOp.effect, MicroOp.advance, MicroOp.write, opSalsa, ht]
  | _ => exact ⟨rfl, (List.append_nil _).symm⟩

/-- Pending writes to other bytes change nothing of a byte. -/
theorem foldl_patch_outside {ws : List PendingWrite} {a : Nat} (h : ∀ w ∈ ws, ¬ inBlock w.addr a) (v : Byte) :
    ws.foldl (fun v w => w.patch a v) v = v := by
  induction ws with
  | nil => rfl
  | cons w ws ih =>
    have hw : w.patch a v = v := if_neg (h w (by simp))
    rw [List.foldl_cons, hw]
    exact ih fun w hmem => h w (by simp [hmem])

/-! ### States that differ by writes in some blocks -/

/-- `u` is `s` with writes issued at the requests `qs` (R36). -/
structure Issues (qs : List Request) (s u : State) : Prop where
  mem : u.mem = s.mem
  wbuf : ∃ ws, u.wbuf = s.wbuf ++ ws ∧ ∀ w ∈ ws, ∃ q ∈ qs, q.addr = w.addr

theorem Issues.of_eq {qs : List Request} {s u : State} (hm : u.mem = s.mem) (hw : u.wbuf = s.wbuf) : Issues qs s u :=
  ⟨hm, [], by simp [hw], nofun⟩

theorem Issues.trans {qs qs' : List Request} {s u v : State} (h : Issues qs s u) (h' : Issues qs' u v) : Issues (qs ++ qs') s v := by
  obtain ⟨hm, ws, hw, hq⟩ := h
  obtain ⟨hm', ws', hw', hq'⟩ := h'
  refine ⟨hm'.trans hm, ws ++ ws', by rw [hw', hw, List.append_assoc], fun w h => ?_⟩
  rcases List.mem_append.1 h with h | h
  · obtain ⟨q, hmem, ha⟩ := hq w h
    exact ⟨q, List.mem_append_left _ hmem, ha⟩
  · obtain ⟨q, hmem, ha⟩ := hq' w h
    exact ⟨q, List.mem_append_right _ hmem, ha⟩

/-- Writes change only what the engine reads in their blocks (R85). -/
theorem Issues.readByte {qs : List Request} {s u : State} (h : Issues qs s u) {a : Nat} (ha : ∀ q ∈ qs, ¬ inBlock q.addr a) :
    u.readByte a = s.readByte a := by
  obtain ⟨hm, ws, hw, hq⟩ := h
  rw [State.readByte, hm, hw, List.foldl_append, foldl_patch_outside fun w hmem => ?_]
  · rfl
  · obtain ⟨q, hq, he⟩ := hq w hmem
    exact he ▸ ha q hq

/-- A micro-operation changes what the engine reads in the block of its write request alone. -/
theorem PortOk.readByte_run {s : State} (h : PortOk s) (op : MicroOp) {a : Nat} (ha : ∀ q ∈ op.storeReq s, ¬ inBlock q.addr a) :
    (op.run s).readByte a = s.readByte a := by
  by_cases hf : op = .fence
  · subst hf
    exact s.read_drainAll h.mem h.wbuf a
  · obtain ⟨hm, hw⟩ := op.run_port hf s
    refine Issues.readByte (qs := (op.storeReq s).toList) ⟨hm, _, hw, fun w hmem => ?_⟩ fun q hq => ha q (Option.mem_toList.1 hq)
    have haddr := op.write_addr s
    rw [Option.mem_toList.1 hmem] at haddr
    obtain ⟨q, hq, he⟩ := Option.map_eq_some_iff.1 haddr.symm
    exact ⟨q, Option.mem_toList.2 hq, he⟩

/-! ### After a failing request -/

theorem laterStore_issues {l : Layout} {src : BlkReg} (q : Request) (acc : State × List BlkReg) :
    Issues [q] acc.1 (laterStore l src q acc).1 ∧ (laterStore l src q acc).1.baseAddr = acc.1.baseAddr := by
  have issued : ∀ b d, Issues [q] acc.1 { acc.1 with wbuf := acc.1.wbuf ++ [⟨q.addr, b⟩], draws := d } := fun b d =>
    ⟨rfl, _, rfl, fun w hw => ⟨q, List.mem_singleton.2 rfl, by rw [List.mem_singleton.1 hw]⟩⟩
  unfold laterStore
  split
  · exact ⟨.of_eq rfl rfl, rfl⟩
  · dsimp only
    split
    · split
      · exact ⟨issued _ _, rfl⟩
      · exact ⟨issued _ _, rfl⟩
    · exact ⟨.of_eq rfl rfl, rfl⟩

theorem State.baseAddr_congr {s u : State} (hl : u.latched = s.latched) (hs : u.status.swap = s.status.swap)
    (hj : u.dp.ji = s.dp.ji) : u.baseAddr = s.baseAddr := by
  funext b
  cases b <;> simp only [State.baseAddr, State.cw, State.cs, hl, hs, hj]

theorem laterLoad_keeps (l : Layout) (dst : BlkReg) (q : Request) (acc : State × List BlkReg) (qs : List Request) :
    Issues qs acc.1 (laterLoad l dst q acc).1 ∧ (laterLoad l dst q acc).1.baseAddr = acc.1.baseAddr := by
  unfold laterLoad
  split
  · exact ⟨.of_eq rfl rfl, rfl⟩
  · exact ⟨.of_eq rfl rfl, State.baseAddr_setBlk _ _ _⟩

theorem laterCompute_keeps (dst : BlkReg) (srcs : List BlkReg) (b : Block) (acc : State × List BlkReg) (qs : List Request) :
    Issues qs acc.1 (laterCompute dst srcs b acc).1 ∧ (laterCompute dst srcs b acc).1.baseAddr = acc.1.baseAddr := by
  unfold laterCompute
  split
  · exact ⟨.of_eq rfl rfl, rfl⟩
  · exact ⟨.of_eq rfl rfl, State.baseAddr_setBlk _ _ _⟩

/-- A later micro-operation writes, if at all, where it would have written in its turn (R286). -/
theorem laterOp_issues (acc : State × List BlkReg) (op : MicroOp) :
    Issues (op.storeReq acc.1).toList acc.1 (laterOp acc op).1 ∧ (laterOp acc op).1.baseAddr = acc.1.baseAddr := by
  cases op with
  | lda | ldu => exact laterLoad_keeps _ _ _ _ _
  | sta | stu | stn => exact laterStore_issues _ _
  | xorb | move | salsa => exact laterCompute_keeps _ _ _ _ _
  | _ => exact ⟨.of_eq rfl rfl, rfl⟩

/-- The write requests of micro-operations whose bases stand as they do in `s`. -/
def storeReqs (s : State) (ops : List MicroOp) : List Request := ops.filterMap fun op => op.storeReq s

theorem storeReqs_cons (s : State) (op : MicroOp) (ops : List MicroOp) :
    storeReqs s (op :: ops) = (op.storeReq s).toList ++ storeReqs s ops := by
  unfold storeReqs
  cases h : op.storeReq s <;> simp [h]

theorem storeReqs_congr {s u : State} (h : u.baseAddr = s.baseAddr) (ops : List MicroOp) : storeReqs u ops = storeReqs s ops := by
  simp only [storeReqs, MicroOp.storeReq_congr h]

theorem mem_storeReqs {s : State} {ops : List MicroOp} {q : Request} : q ∈ storeReqs s ops ↔ ∃ op ∈ ops, q ∈ op.storeReq s := by
  simp [storeReqs]

theorem laterOps_issues (ops : List MicroOp) (acc : State × List BlkReg) :
    Issues (storeReqs acc.1 ops) acc.1 (ops.foldl laterOp acc).1 := by
  induction ops generalizing acc with
  | nil => exact .of_eq rfl rfl
  | cons op ops ih =>
    obtain ⟨hop, hbase⟩ := laterOp_issues acc op
    rw [storeReqs_cons, ← storeReqs_congr hbase]
    exact hop.trans (ih (laterOp acc op))

theorem State.laterWrites_issues (s : State) (ops : List MicroOp) (lost : List BlkReg) :
    Issues (storeReqs s ops) s (s.laterWrites ops lost) := ⟨rfl, (laterOps_issues ops (s, lost)).wbuf⟩

theorem State.failRequest_issues (s : State) (q : Request) : Issues (if q.kind.isWrite then [q] else []) s (s.failRequest q) := by
  unfold State.failRequest
  split
  · exact ⟨rfl, _, rfl, fun w hw => ⟨q, List.mem_singleton.2 rfl, by rw [List.mem_singleton.1 hw]⟩⟩
  · exact .of_eq rfl rfl

/-! ### The steps -/

/-- At completion memory holds what the engine reads (R88). -/
theorem PortOk.readByte_complete {s : State} (h : PortOk s) (a : Nat) : s.complete.readByte a = s.readByte a := by
  rw [State.readByte_of_wbuf_nil (by simp), State.complete_mem]
  exact s.read_drainAll h.mem h.wbuf a

theorem PortOk.readByte_stopCommand {s : State} (h : PortOk s) {ops : List MicroOp} (lost : List BlkReg) {a : Nat}
    (ha : ∀ q ∈ storeReqs s ops, ¬ inBlock q.addr a) : (s.stopCommand ops lost).readByte a = s.readByte a := by
  obtain ⟨u, hu, hstop⟩ := s.stopCommand_cases ops lost
  obtain ⟨hport, hread⟩ : PortOk u ∧ u.readByte a = s.readByte a := by
    rcases hu with rfl | rfl
    · exact ⟨h, rfl⟩
    · exact ⟨portOk_laterWrites h ops lost, (s.laterWrites_issues ops lost).readByte ha⟩
  rcases hstop with ⟨_, hstop⟩ | ⟨_, hstop⟩ <;> rw [hstop]
  · exact hread
  · exact (hport.readByte_complete a).trans hread

theorem PortOk.readByte_endBlock {s : State} (h : PortOk s) {a : Nat} (ha : ∀ q ∈ storeReqs s (s.blockOps.drop s.seq.q), ¬ inBlock q.addr a) :
    (endBlock s).readByte a = s.readByte a := by
  have hcomplete := h.readByte_complete a
  unfold endBlock
  split
  · split
    · rfl
    · exact hcomplete
  · split <;> rfl
  · split
    · exact h.readByte_stopCommand [] ha
    · rfl
  · split <;> rfl
  · split
    · rfl
    · exact hcomplete
  all_goals exact hcomplete

/-- At a micro-operation, what is left of the block sequence begins with it. -/
theorem State.drop_blockOps {s : State} {op : MicroOp} (hop : s.blockOps[s.seq.q]? = some op) :
    s.blockOps.drop s.seq.q = op :: s.blockOps.drop (s.seq.q + 1) := by
  obtain ⟨hlt, hget⟩ := List.getElem?_eq_some_iff.1 hop
  rw [List.drop_eq_getElem_cons hlt, hget]

theorem State.baseAddr_failRequest (s : State) (q : Request) : (s.failRequest q).baseAddr = s.baseAddr :=
  State.baseAddr_congr (by simp) (by simp) (by simp)

theorem PortOk.readByte_busError {s : State} (h : PortOk s) {op : MicroOp} (hop : s.blockOps[s.seq.q]? = some op) {q : Request}
    (hq : op.request s = some q) (hin : q.inSpace = true) {a : Nat} (ha : ∀ q ∈ storeReqs s (s.blockOps.drop s.seq.q), ¬ inBlock q.addr a) :
    (busError op q s).readByte a = s.readByte a := by
  rw [State.drop_blockOps hop, storeReqs_cons] at ha
  have hfail : (s.failRequest q).readByte a = s.readByte a := by
    refine (s.failRequest_issues q).readByte fun q' hq' => ?_
    split at hq'
    next hw =>
      obtain rfl := List.mem_singleton.1 hq'
      exact ha q' (List.mem_append_left _ (Option.mem_toList.2 (Option.filter_eq_some_iff.2 ⟨hq, hw⟩)))
    next => cases hq'
  unfold busError
  split
  · exact hfail
  · split
    · exact hfail
    · refine ((portOk_failRequest h hin).readByte_stopCommand _ fun q' hq' => ?_).trans hfail
      rw [storeReqs_congr (s.baseAddr_failRequest q)] at hq'
      exact ha q' (List.mem_append_right _ hq')

/-- An engine step changes what the engine reads only in the blocks of the writes still to come (R85, R286). -/
theorem PortOk.readByte_engineStep {s t : State} (h : PortOk s) (ht : engineStep s = .next t) {a : Nat}
    (ha : ∀ q ∈ storeReqs s (s.blockOps.drop s.seq.q), ¬ inBlock q.addr a) : t.readByte a = s.readByte a := by
  have hcount : PortOk s.countArrival := h.of_eq (by simp) (by simp)
  have hbase : s.countArrival.baseAddr = s.baseAddr := State.baseAddr_congr (by simp) (by simp) (by simp)
  have hread : s.countArrival.readByte a = s.readByte a := State.readByte_congr (by simp) (by simp) a
  rw [← storeReqs_congr hbase, ← State.countArrival_blockOps, ← State.countArrival_seq] at ha
  rw [← hread]
  rcases engineStep_cases ht with ⟨_, rfl⟩ | ⟨_, hseq⟩
  · exact hcount.readByte_stopCommand [] ha
  rcases sequencerStep_cases hseq with ⟨op, hop, hperf⟩ | ⟨_, rfl⟩
  · have hown : ∀ q ∈ op.storeReq s.countArrival, ¬ inBlock q.addr a := fun q hq =>
      ha q (mem_storeReqs.2 ⟨op, by rw [State.drop_blockOps hop]; exact List.mem_cons_self, hq⟩)
    rcases performOp_cases hperf with ⟨_, rfl⟩ | ⟨q, hq, hin, _, ⟨_, rfl⟩ | ⟨_, rfl⟩⟩
    · exact hcount.readByte_run op hown
    · exact PortOk.readByte_busError (s := s.countArrival.record q) (hcount.of_eq rfl rfl) hop (by rw [← hq]; cases op <;> rfl) hin ha
    · exact PortOk.readByte_run (s := s.countArrival.record q) (hcount.of_eq rfl rfl) op
        (by rw [op.storeReq_congr (u := s.countArrival.record q) rfl]; exact hown)
  · exact hcount.readByte_endBlock ha

/-! ### The completion fence (R88, R286) -/

/-- The step in which a running command ends sets DONE (R285, R286). -/
theorem RunsCommand.done_of_ended {c : Instr} {s t : State} (h : RunsCommand c s) (hb : s.status.busy = true)
    (hstep : Machine.engineStep s = .next t) (ht : t.status.busy = false) : t.status.done = true := by
  cases h.commandMove hstep with
  | @served op tr d hop =>
    obtain ⟨_, _, _, _, hbusy, _⟩ := op.run_fields { s with trace := tr, draws := d }
    rw [hbusy] at ht
    exact absurd (hb.symm.trans ht) (by decide)
  | passed => exact absurd (hb.symm.trans ht) (by decide)
  | moved => exact absurd (hb.symm.trans ht) (by decide)
  | finished => rw [State.complete_status]; rfl
  | stopped => rw [State.complete_status]; rfl

/-- Settles O47: an engine step writes only where writes were still to come, and leaves the engine idle with nothing pending. -/
theorem completionFence : Obligations.CompletionFence := by
  intro s t h hb hstep ht
  obtain ⟨c, hc⟩ := h.running hb
  obtain ⟨hseq, hw, _⟩ := (h.engineStep hb hstep).idle ht
  refine ⟨hw, hc.done_of_ended hb hstep ht, hseq, fun a ha => ?_⟩
  rw [← State.readByte_of_wbuf_nil hw]
  refine h.portOk.readByte_engineStep hstep fun q hq => ?_
  obtain ⟨op, hop, hq⟩ := mem_storeReqs.1 hq
  obtain ⟨hreq, hwrite⟩ := MicroOp.mem_storeReq hq
  obtain ⟨haddr, hkind⟩ := MicroOp.request_addr hreq
  rw [haddr]
  exact ha op hop (by rw [hkind]; exact hwrite)

end Sys2Proof.Machine

/-! PROOFS. A command writes inside its write set, however it ends (20_memory.md R90, 60_exceptions.md R286, 70_reset_and_hazards.md R321). -/

namespace Sys2Proof.Machine

/-! ### The buffers a phase writes -/

/-- Where a storing micro-operation writes: a buffer and an offset in it (R163 to R165). -/
def MicroOp.storeAt : MicroOp → Option (Base × Nat)
  | .sta _ _ b o | .stu _ _ b o | .stn _ b o | .staZero b o => some (b, o)
  | .lda _ _ _ _ | .ldu _ _ _ | .integ _ | .xorb _ _ _ | .move _ _ | .salsa _ | .pfn _ _ | .flush _ _ | .bmEnd | .fence
  | .zeroBegin | .zeroEnd => none

/-- A write request stands where its micro-operation writes. -/
theorem MicroOp.storeReq_addr {op : MicroOp} {s : State} {q : Request} (h : q ∈ op.storeReq s) :
    ∃ b o, op.storeAt = some (b, o) ∧ q.addr = s.baseAddr b + o := by
  have haddr := op.write_addr s
  rw [h] at haddr
  cases op with
  | sta l src b o => exact ⟨b, o, rfl, (Option.some.inj haddr).symm⟩
  | staZero b o => exact ⟨b, o, rfl, (Option.some.inj haddr).symm⟩
  | stu l src b o => exact ⟨b, o, rfl, (Option.some.inj haddr).symm⟩
  | stn src b o => exact ⟨b, o, rfl, (Option.some.inj haddr).symm⟩
  | _ => cases haddr

/-- Where it writes lies inside the buffer (R170). -/
theorem MicroOp.storeAt_ok {op : MicroOp} {b : Base} {o : Nat} (h : op.storeAt = some (b, o)) {r n : Nat} {sh : Base → Prop}
    (hok : opOk r n sh op) : offsetOk r n b o := by
  cases op with
  | sta l src b o => cases h; exact hok.2.2
  | staZero b o => cases h; exact hok.2.2
  | stu l src b o => cases h; exact hok.2
  | stn src b o => cases h; exact hok.2.2
  | _ => cases h

/-- The buffers the block sequences of a phase write (R145, R194, R197, R211, R258). -/
def writeBases (c : Instr) : Phase → List Base
  | .prepare => [.work]
  | .fill => [.cs, .table]
  | .mix => [.cs]
  | .restore => [.elem]
  | .zeroize => [.work, .shuf, .table]
  | .blockmix => if blockmixMode c = .copy then [.cs, .other] else [.cs]
  | .salsa => [.other]
  | .idle | .fence | .integerify => []

section
variable {r oo o : Nat} {mode : BmMode} {ob b : Base} {op : MicroOp}

/-- BM's head writes, in mode Copy, the first block of the other buffer (R211). -/
theorem bmHead_storeAt (h : op ∈ bmHead r mode ob oo) (hat : op.storeAt = some (b, o)) : mode = .copy ∧ b = ob ∧ o = oo := by
  simp only [bmHead, List.mem_append, List.mem_singleton] at h
  rcases h with (rfl | h) | rfl
  · cases hat
  · cases mode with
    | none => cases h
    | copy =>
      obtain rfl := List.mem_singleton.1 h
      cases hat
      exact ⟨rfl, rfl, rfl⟩
    | xor =>
      simp only [List.mem_append, List.mem_map, List.mem_cons, List.not_mem_nil, or_false] at h
      rcases h with ⟨_, _, rfl⟩ | rfl | rfl | rfl <;> cases hat
  · cases hat

/-- An iteration of BM writes its block of CS, and in mode Copy one of the other buffer (R211). -/
theorem bmIter_storeAt {i : Nat} (h : op ∈ bmIter r mode ob oo i) (hat : op.storeAt = some (b, o)) :
    (mode = .copy ∧ b = ob ∧ o = oo + 64 * (i + 1)) ∨ (b = .cs ∧ o = 64 * fanOut r i) := by
  simp only [bmIter, List.mem_append, List.mem_cons, List.not_mem_nil, or_false] at h
  rcases h with (rfl | h) | rfl | rfl | rfl | rfl
  · cases hat
  · cases mode with
    | none => cases h
    | copy =>
      obtain rfl := List.mem_singleton.1 h
      cases hat
      exact .inl ⟨rfl, rfl, rfl⟩
    | xor =>
      simp only [List.mem_append, List.mem_ite_nil_right, List.mem_cons, List.not_mem_nil, or_false] at h
      rcases h with ⟨_, rfl⟩ | rfl | rfl | rfl <;> cases hat
  · cases hat
  · cases hat
  · cases hat
    exact .inr ⟨rfl, rfl⟩
  · cases hat

/-- BM ends with its first block of CS (R211). -/
theorem bmTail_storeAt (h : op ∈ bmTail) (hat : op.storeAt = some (b, o)) : b = .cs ∧ o = 0 := by
  simp only [bmTail, List.mem_cons, List.not_mem_nil, or_false] at h
  rcases h with rfl | rfl | rfl | rfl <;> cases hat
  exact ⟨rfl, rfl⟩

/-- BM writes CS, and in mode Copy the other buffer (R211). -/
theorem bmSeq_storeAt (h : op ∈ bmSeq r mode ob oo) (hat : op.storeAt = some (b, o)) : b = .cs ∨ (mode = .copy ∧ b = ob) := by
  simp only [bmSeq, List.mem_append, List.mem_flatMap] at h
  rcases h with (h | ⟨i, _, h⟩) | h
  · obtain ⟨hm, hb, _⟩ := bmHead_storeAt h hat
    exact .inr ⟨hm, hb⟩
  · rcases bmIter_storeAt h hat with ⟨hm, hb, _⟩ | ⟨hb, _⟩
    · exact .inr ⟨hm, hb⟩
    · exact .inl hb
  · exact .inl (bmTail_storeAt h hat).1

end

/-- A phase's block sequence writes its buffers only. -/
theorem blockSeq_storeAt {c : Instr} {r n i : Nat} {ph : Phase} {op : MicroOp} (h : op ∈ blockSeq c r n ph i) {b : Base} {o : Nat}
    (hat : op.storeAt = some (b, o)) : b ∈ writeBases c ph := by
  cases ph with
  | idle => cases h
  | prepare =>
    simp only [blockSeq, prepSeq, prepIter, List.mem_append, List.mem_flatMap, List.mem_cons, List.not_mem_nil, or_false] at h
    rcases h with ⟨_, _, rfl | rfl⟩ | rfl | rfl <;> cases hat <;> exact .head _
  | fill =>
    rcases bmSeq_storeAt h hat with rfl | ⟨_, rfl⟩
    · exact .head _
    · exact .tail _ (.head _)
  | fence =>
    obtain rfl := List.mem_singleton.1 h
    cases hat
  | mix =>
    rcases List.mem_cons.1 h with rfl | h
    · cases hat
    · rcases bmSeq_storeAt h hat with rfl | ⟨hm, _⟩
      · exact .head _
      · cases hm
  | restore =>
    simp only [blockSeq, restSeq, restIter, List.mem_append, List.mem_flatMap, List.mem_cons, List.not_mem_nil, or_false] at h
    rcases h with (rfl | ⟨_, _, rfl | rfl⟩) | rfl <;> cases hat <;> exact List.mem_singleton.2 rfl
  | zeroize =>
    simp only [blockSeq, zeroSeq, zeroFill, List.mem_append, List.mem_map, List.mem_cons, List.not_mem_nil, or_false] at h
    rcases h with (((rfl | ⟨_, _, rfl⟩) | ⟨_, _, rfl⟩) | ⟨_, _, rfl⟩) | rfl <;> cases hat <;> simp [writeBases]
  | blockmix =>
    rcases bmSeq_storeAt h hat with rfl | ⟨hm, rfl⟩
    · cases hm : blockmixMode c <;> simp [writeBases, hm]
    · simp [writeBases, hm]
  | integerify =>
    obtain rfl := List.mem_singleton.1 h
    cases hat
  | salsa =>
    cases c with
    | salsa8 | salsa8Nat =>
      simp only [blockSeq, salsaSeq, List.mem_cons, List.not_mem_nil, or_false] at h
      rcases h with rfl | rfl | rfl <;> cases hat
      exact List.mem_singleton.2 rfl
    | _ => cases h

/-! ### The write set (R90, R321) -/

section
variable {i : Instr} {s u : State} (ha : Accepts i s) (hl : u.latched = (s.started i).latched)
include ha hl

/-- The latched r is the exact one of A1 (R242). -/
theorem Accepts.latched_r (hi : i ∉ [.integerify, .salsa8, .salsa8Nat]) (h1 : .a1 ∈ (commandChecks i s).args) :
    u.latched.r.toNat = s.params.r := by
  rw [hl, State.started_r, if_neg hi]
  exact (ha.sizes h1).2.1

/-- The latched element base is the exact one of A2 (R242). -/
theorem Accepts.latched_elem (hi : i ∈ [.smix, .prepare, .restore]) (h1 : .a1 ∈ (commandChecks i s).args)
    (h2 : .a2 ∈ (commandChecks i s).args) : u.latched.elem.toNat = s.params.elem := by
  have hr := (ha.sizes h1).1
  have hfits : s.params.elem + 128 * s.params.r ≤ 2 ^ 64 := by
    obtain ⟨_, hcheck, _, _⟩ := ha
    obtain ⟨hargs, _⟩ := verdict_none hcheck
    exact a2_elem (hargs .a1 h1) (hargs .a2 h2)
  rw [hl, State.started_elem, if_pos hi, BitVec.toNat_ofNat]
  exact Nat.mod_eq_of_lt (by omega)

/-- The latched N is the exact one of A3 (R242). -/
theorem Accepts.latched_n (hi : i ∈ [.smix, .integerify, .zeroize]) (h3 : .a3 ∈ (commandChecks i s).args) :
    u.latched.n.toNat = s.params.n := by
  rw [hl, State.started_n, if_pos hi]
  exact (ha.count h3).2

/-- The buffer a base stands for, as a region. -/
def State.baseRegion (u : State) (b : Base) : Region := ⟨u.baseAddr b, b.span u.latched.r.toNat u.latched.n.toNat⟩

theorem Accepts.workRegion_eq (hi : i ∉ [.integerify, .salsa8, .salsa8Nat]) (h1 : .a1 ∈ (commandChecks i s).args) :
    u.baseRegion .work = s.workRegion := by
  have hwork : u.latched.work = s.params.workBase := by
    rw [hl, State.started_work, if_neg fun h => hi (List.mem_cons_of_mem _ h)]
  simp only [State.baseRegion, State.baseAddr, Base.span, ha.latched_r hl hi h1, hwork]
  rfl

theorem Accepts.shufRegion_eq (hi : i ∉ [.prepare, .integerify, .salsa8, .salsa8Nat]) (h1 : .a1 ∈ (commandChecks i s).args) :
    u.baseRegion .shuf = s.shufRegion := by
  have hshuf : u.latched.shuf = s.params.shufBase := by
    rw [hl, State.started_shuf, if_neg fun h => hi (by simp only [List.mem_cons] at h ⊢; tauto)]
  simp only [State.baseRegion, State.baseAddr, Base.span, ha.latched_r hl (fun h => hi (List.mem_cons_of_mem _ h)) h1, hshuf]
  rfl

theorem Accepts.elemRegion_eq (hi : i ∈ [.smix, .prepare, .restore]) (h1 : .a1 ∈ (commandChecks i s).args)
    (h2 : .a2 ∈ (commandChecks i s).args) : u.baseRegion .elem = s.elemRegion := by
  have hr : i ∉ [.integerify, .salsa8, .salsa8Nat] := by revert hi; cases i <;> decide
  simp only [State.baseRegion, State.baseAddr, Base.span, ha.latched_r hl hr h1, ha.latched_elem hl hi h1 h2]
  rfl

theorem Accepts.tableRegion_eq (hi : i ∈ [.smix, .zeroize]) (h1 : .a1 ∈ (commandChecks i s).args)
    (h3 : .a3 ∈ (commandChecks i s).args) : u.baseRegion .table = s.tableRegion := by
  have hi' : i ∉ [.integerify, .salsa8, .salsa8Nat] ∧ i ∈ [.smix, .integerify, .zeroize] := by revert hi; cases i <;> decide
  have htable : u.latched.table = s.params.tableBase := by rw [hl, State.started_table, if_pos hi]
  simp only [State.baseRegion, State.baseAddr, Base.span, ha.latched_r hl hi'.1 h1, ha.latched_n hl hi'.2 h3, htable]
  rfl

theorem Accepts.otherRegion_eq (hi : i ∈ [.blockmixCopy, .blockmixXor]) (h1 : .a1 ∈ (commandChecks i s).args) :
    u.baseRegion .other = s.otherRegion := by
  have hi' : i ∉ [.integerify, .salsa8, .salsa8Nat] ∧ i ∈ [.blockmixCopy, .blockmixXor, .salsa8, .salsa8Nat] := by
    revert hi; cases i <;> decide
  have hother : u.latched.other = s.params.otherBase := by rw [hl, State.started_other, if_pos hi'.2]
  simp only [State.baseRegion, State.baseAddr, Base.span, ha.latched_r hl hi'.1 h1, hother]
  rfl

/-- CS is one of the two buffers (R33). -/
theorem Accepts.csRegion_mem (hi : i ∉ [.prepare, .integerify, .salsa8, .salsa8Nat]) (h1 : .a1 ∈ (commandChecks i s).args) :
    u.baseRegion .cs = s.workRegion ∨ u.baseRegion .cs = s.shufRegion := by
  rw [← ha.workRegion_eq hl (fun h => hi (List.mem_cons_of_mem _ h)) h1, ← ha.shufRegion_eq hl hi h1]
  rcases u.cw_cs_cases with ⟨_, hcs⟩ | ⟨_, hcs⟩
  · exact .inr (by simp only [State.baseRegion, hcs, Base.span])
  · exact .inl (by simp only [State.baseRegion, hcs, Base.span])

/-- While SWAP stands as BLOCKMIX found it, CS is the buffer of its write set (R33, R90). -/
theorem Accepts.csRegion_eq (hi : i ∉ [.prepare, .integerify, .salsa8, .salsa8Nat]) (h1 : .a1 ∈ (commandChecks i s).args)
    (hswap : u.status.swap = s.status.swap) : u.baseRegion .cs = s.csRegion := by
  have hwork := ha.workRegion_eq hl (fun h => hi (List.mem_cons_of_mem _ h)) h1
  have hshuf := ha.shufRegion_eq hl hi h1
  unfold State.csRegion State.csParam
  split
  next hs =>
    refine Eq.trans ?_ hwork
    simp [State.baseRegion, State.baseAddr, State.cs, hswap, hs, Base.span]
  next hs =>
    refine Eq.trans ?_ hshuf
    simp [State.baseRegion, State.baseAddr, State.cs, hswap, hs, Base.span]

/-- The buffers a phase writes are regions of the write set, while SWAP stands as BLOCKMIX found it (R90). -/
theorem Accepts.baseRegion_mem (hswap : phasesOf i = [.blockmix] → u.status.swap = s.status.swap) {ph : Phase}
    (hph : ph ∈ phasesOf i) (hsalsa : ph ≠ .salsa) : ∀ b ∈ writeBases i ph, u.baseRegion b ∈ commandWrites i s := by
  cases i with
  | smix =>
    have helem : u.baseRegion .elem ∈ commandWrites .smix s :=
      ha.elemRegion_eq hl (by decide) (.head _) (.tail _ (.head _)) ▸ .head _
    have hwork : s.workRegion ∈ commandWrites .smix s := .tail _ (.head _)
    have hshuf : s.shufRegion ∈ commandWrites .smix s := .tail _ (.tail _ (.head _))
    have htable : u.baseRegion .table ∈ commandWrites .smix s :=
      ha.tableRegion_eq hl (by decide) (.head _) (.tail _ (.tail _ (.head _))) ▸ .tail _ (.tail _ (.tail _ (.head _)))
    have hcs : u.baseRegion .cs ∈ commandWrites .smix s := by
      rcases ha.csRegion_mem hl (by decide) (.head _) with h | h <;> rw [h]
      · exact hwork
      · exact hshuf
    rw [← ha.workRegion_eq hl (by decide) (.head _)] at hwork
    rw [← ha.shufRegion_eq hl (by decide) (.head _)] at hshuf
    simp only [phasesOf, List.mem_cons, List.not_mem_nil, or_false] at hph
    rcases hph with rfl | rfl | rfl | rfl | rfl | rfl
    · exact List.forall_mem_singleton.2 hwork
    · exact forall_mem_two hcs htable
    · exact nofun
    · exact List.forall_mem_singleton.2 hcs
    · exact List.forall_mem_singleton.2 helem
    · exact forall_mem_three hwork hshuf htable
  | prepare =>
    obtain rfl := List.mem_singleton.1 hph
    intro b hb
    obtain rfl := List.mem_singleton.1 hb
    exact ha.workRegion_eq hl (by decide) (.head _) ▸ .head _
  | restore =>
    obtain rfl := List.mem_singleton.1 hph
    intro b hb
    obtain rfl := List.mem_singleton.1 hb
    exact ha.elemRegion_eq hl (by decide) (.head _) (.tail _ (.head _)) ▸ .head _
  | blockmixNone =>
    obtain rfl := List.mem_singleton.1 hph
    intro b hb
    obtain rfl := List.mem_singleton.1 hb
    exact ha.csRegion_eq hl (by decide) (.head _) (hswap rfl) ▸ .head _
  | blockmixXor =>
    obtain rfl := List.mem_singleton.1 hph
    intro b hb
    obtain rfl := List.mem_singleton.1 hb
    exact ha.csRegion_eq hl (by decide) (.head _) (hswap rfl) ▸ .head _
  | blockmixCopy =>
    obtain rfl := List.mem_singleton.1 hph
    have hcs : u.baseRegion .cs ∈ commandWrites .blockmixCopy s := ha.csRegion_eq hl (by decide) (.head _) (hswap rfl) ▸ .head _
    have hother : u.baseRegion .other ∈ commandWrites .blockmixCopy s :=
      ha.otherRegion_eq hl (by decide) (.head _) ▸ .tail _ (.head _)
    exact forall_mem_two hcs hother
  | zeroize =>
    obtain rfl := List.mem_singleton.1 hph
    have hwork : u.baseRegion .work ∈ commandWrites .zeroize s := ha.workRegion_eq hl (by decide) (.head _) ▸ .head _
    have hshuf : u.baseRegion .shuf ∈ commandWrites .zeroize s := ha.shufRegion_eq hl (by decide) (.head _) ▸ .tail _ (.head _)
    have htable : u.baseRegion .table ∈ commandWrites .zeroize s :=
      ha.tableRegion_eq hl (by decide) (.head _) (.tail _ (.head _)) ▸ .tail _ (.tail _ (.head _))
    exact forall_mem_three hwork hshuf htable
  | integerify =>
    obtain rfl := List.mem_singleton.1 hph
    nofun
  | salsa8 | salsa8Nat => exact absurd (List.mem_singleton.1 hph) hsalsa

end

/-! ### However a command ends -/

/-- SWAP moves only when a BM is counted (R220). -/
theorem CommandMove.swap_of_progress {c : Instr} {s t : State} (hmove : CommandMove c s t) (h : RunsCommand c s)
    (hp : t.progress.toNat = 0) : s.progress.toNat = 0 ∧ t.status.swap = s.status.swap := by
  cases hmove with
  | @served op tr d hop =>
    obtain ⟨_, _, _, _, _, hstatus, _⟩ := op.run_fields { s with trace := tr, draws := d }
    obtain ⟨_, hsame, hcount⟩ := op.run_progress { s with trace := tr, draws := d }
    by_cases hend : op = .bmEnd
    · rw [(hcount hend).1] at hp
      exact absurd (h.progress_succ.symm.trans hp) (Nat.succ_ne_zero _)
    · rw [hsame hend] at hp
      exact ⟨hp, congrArg Status.swap (hstatus hend)⟩
  | passed => exact ⟨hp, rfl⟩
  | moved => exact ⟨hp, rfl⟩
  | finished => exact ⟨by rwa [State.complete_progress] at hp, by rw [State.complete_status]; rfl⟩
  | stopped => exact ⟨by rwa [State.complete_progress] at hp, by rw [State.complete_status]; rfl⟩

/-- A block inside a buffer of the write set lies in the write set. -/
theorem inRegions_of_block {gs : List Region} {g : Region} (hg : g ∈ gs) {o a : Nat} (ho : o + 64 ≤ g.size) (h : inBlock (g.base + o) a) :
    inRegions gs a = true := by
  obtain ⟨h1, h2⟩ := h
  refine List.any_eq_true.2 ⟨g, hg, decide_eq_true ⟨by omega, ?_⟩⟩
  simp only [Config.blockBytes, Region.stop] at h2 ⊢
  omega

theorem offsetOk_span {r n o : Nat} {b : Base} (h : offsetOk r n b o) : o + 64 ≤ b.span r n := by
  cases b <;> simp only [offsetOk] at h <;> simp only [Base.span] <;> omega

/-- SALSA8 writes its block (R145). -/
theorem salsa_store_inside {i : Instr} {s u : State} (hl : u.latched = (s.started i).latched) {op : MicroOp} (hop : op ∈ salsaSeq i)
    {q : Request} (hq : q ∈ op.storeReq u) {a : Nat} (hin : inBlock q.addr a) : inRegions (commandWrites i s) a = true := by
  cases i with
  | salsa8 | salsa8Nat =>
    have haddr : u.baseAddr .other = s.params.otherBase.toNat := by rw [State.baseAddr, hl]; rfl
    simp only [salsaSeq, List.mem_cons, List.not_mem_nil, or_false] at hop
    rcases hop with rfl | rfl | rfl <;> cases hq
    have hin : inBlock (u.baseAddr .other + 0) a := hin
    rw [haddr] at hin
    exact inRegions_of_block (g := s.otherBlockRegion) (.head _) le_rfl hin
  | _ => cases hop

/-- The writes of a running command still to come lie in its write set (R90, R321). -/
theorem RunsCommand.storeReqs_inside {i : Instr} {s u : State} (h : RunsCommand i u) (ha : Accepts i s)
    (hl : u.latched = (s.started i).latched) (hswap : u.progress.toNat = 0 → u.status.swap = (s.started i).status.swap)
    {q : Request} (hq : q ∈ storeReqs u (u.blockOps.drop u.seq.q)) {a : Nat} (hin : inBlock q.addr a) :
    inRegions (commandWrites i s) a = true := by
  obtain ⟨op, hop, hq⟩ := mem_storeReqs.1 hq
  have hmem := List.mem_of_mem_drop hop
  rw [h.blockOps_eq] at hmem
  by_cases hsalsa : u.seq.phase = .salsa
  · rw [hsalsa] at hmem
    exact salsa_store_inside hl hmem hq hin
  by_cases hinteg : u.seq.phase = .integerify
  · rw [hinteg] at hmem
    obtain rfl := List.mem_singleton.1 hmem
    cases hq
  obtain ⟨b, o, hat, haddr⟩ := MicroOp.storeReq_addr hq
  have ho := MicroOp.storeAt_ok hat (blockSeq_ok (h.r_pos ⟨hinteg, hsalsa⟩) (fun hf => h.iter_lt (.inl hf)) op hmem)
  have hsame : phasesOf i = [.blockmix] → u.status.swap = s.status.swap := fun hi => by
    have hlt : u.seq.q < u.blockOps.length := by
      by_contra hge
      rw [List.drop_eq_nil_of_le (Nat.not_lt.1 hge)] at hop
      cases hop
    have hclears : clearsSwap i = false := by revert hi; cases i <;> decide
    rw [hswap ((h.progress_blockmix hi).trans (if_neg hlt.ne)), s.started_swap hclears]
  rw [haddr] at hin
  exact inRegions_of_block (g := u.baseRegion b) (ha.baseRegion_mem hl hsame h.phase_mem hsalsa b (blockSeq_storeAt hmem hat))
    (offsetOk_span ho) hin

/-- What acceptance establishes and every engine step keeps, the end of the command has. -/
theorem exec_induct_step {i : Instr} {s t : State} (ha : Accepts i s) (h : exec i s = .next t) {P : State → Prop}
    (hstart : P (s.started i))
    (hstep : ∀ u v, RunsCommand i u → u.status.busy = true → StepFrame (s.started i) u → P u → engineStep u = .next v → P v) :
    P t := by
  rw [exec_eq_runCommand, runCommand_accepts ha] at h
  obtain ⟨_, _, ht⟩ := runToIdle_induct (P := fun u => RunsOrIdle i u ∧ StepFrame (s.started i) u ∧ P u) (fun u v => by
    rintro ⟨⟨_, hu⟩ | ⟨hidle, _⟩, hframe, hP⟩ hb hv
    · exact ⟨hu.engineStep hb hv, hframe.trans (stepFrame_engineStep hv), hstep u v hu hb hframe hP hv⟩
    · exact absurd (hb.symm.trans hidle) (by decide)) _ _ _ ⟨.inl ⟨rfl, runsCommand_started ha⟩, StepFrame.refl _, hstart⟩ h
  exact ht

/-- An accepted command ends idle, with nothing pending (R88). -/
theorem exec_idleOk {i : Instr} {s t : State} (ha : Accepts i s) (h : exec i s = .next t) : IdleOk t := by
  have hend := exec_induct_step ha h (P := RunsOrIdle i) (.inl ⟨rfl, runsCommand_started ha⟩)
    fun _ _ hu hb _ _ hv => hu.engineStep hb hv
  rcases hend with ⟨hb, _⟩ | ⟨_, hidle⟩
  · exact absurd (hb.symm.trans (exec_idle ha h)) (by decide)
  · exact hidle

/-- How a run keeps to its write set: SWAP stands until a BM is counted, the port is in order, and the engine reads every other
byte as before. -/
structure KeepsOutside (i : Instr) (s u : State) : Prop where
  swap : u.progress.toNat = 0 → u.status.swap = (s.started i).status.swap
  port : PortOk u
  reads : ∀ a, inRegions (commandWrites i s) a = false → u.readByte a = s.readByte a

theorem exec_keepsOutside {i : Instr} {s t : State} (ha : Accepts i s) (hs : PortOk s) (h : exec i s = .next t) :
    KeepsOutside i s t := by
  refine exec_induct_step ha h ⟨fun _ => rfl, hs.of_eq rfl rfl, fun _ _ => rfl⟩ fun u v hu hb hframe hP hv => ?_
  refine ⟨fun hp => ?_, portOk_engineStep hP.port hv, fun a hout => ?_⟩
  · obtain ⟨hzero, hsame⟩ := (hu.commandMove hv).swap_of_progress hu hp
    exact hsame.trans (hP.swap hzero)
  · refine (hP.port.readByte_engineStep hv fun q hq hin => ?_).trans (hP.reads a hout)
    rw [hu.storeReqs_inside ha hframe.latched hP.swap hq hin] at hout
    cases hout

/-- Settles O30: a command that is ignored or rejected writes nothing, an accepted one only inside its write set. -/
theorem commandsKeepOtherMemory : Obligations.CommandsKeepOtherMemory := by
  rintro i s t ⟨hwf, hw⟩ h
  rcases exec_cases h with ⟨_, rfl⟩ | ⟨_, e, rfl⟩ | ⟨ha, _⟩
  · exact ⟨fun _ _ => rfl, hwf⟩
  · exact ⟨fun _ _ => rfl, hwf⟩
  · have hs : PortOk s := ⟨hwf, hw ▸ bufferOk_nil⟩
    have hkeeps := exec_keepsOutside ha hs h
    obtain ⟨_, hwt, _⟩ := exec_idleOk ha h
    refine ⟨fun a hout => ?_, hkeeps.port.mem⟩
    rw [← State.readByte_of_wbuf_nil hwt, ← State.readByte_of_wbuf_nil hw]
    exact hkeeps.reads a hout

end Sys2Proof.Machine

/-! PROOFS. The writes of a command's block sequence meet neither each other nor a later load (42_layout.md R194, R197, 43_blockmix.md R211). -/

namespace Sys2Proof.Machine

/-! ### Sequences whose writes meet nothing -/

/-- Where a block load reads: a buffer and an offset in it (R160, R161). -/
def MicroOp.loadAt : MicroOp → Option (Base × Nat)
  | .lda _ _ b o | .ldu _ b o => some (b, o)
  | .integ _ | .sta _ _ _ _ | .staZero _ _ | .stu _ _ _ _ | .stn _ _ _ | .xorb _ _ _ | .move _ _ | .salsa _ | .pfn _ _ | .flush _ _
  | .bmEnd | .fence | .zeroBegin | .zeroEnd => none

/-- The address a block load starts at. -/
def MicroOp.loadAddr (s : State) (op : MicroOp) : Option Nat := op.loadAt.map fun p => s.baseAddr p.1 + p.2

/-- Requests of which no two write a common byte. -/
def StoresApart (qs : List Request) : Prop := qs.Pairwise fun q q' => Apart 64 q.addr q'.addr

theorem storesApart_append {qs qs' : List Request} (h : StoresApart qs) (h' : StoresApart qs')
    (hcross : ∀ q ∈ qs, ∀ q' ∈ qs', Apart 64 q.addr q'.addr) : StoresApart (qs ++ qs') := List.pairwise_append.2 ⟨h, h', hcross⟩

theorem storesApart_singleton (q : Request) : StoresApart [q] := List.pairwise_singleton _ q

theorem storesApart_loop {n : Nat} {f : Nat → List Request} (h : ∀ i, i < n → StoresApart (f i))
    (hcross : ∀ i j, i < j → j < n → ∀ q ∈ f i, ∀ q' ∈ f j, Apart 64 q.addr q'.addr) : StoresApart ((List.range n).flatMap f) :=
  List.pairwise_flatMap.2 ⟨fun i hi => h i (List.mem_range.1 hi),
    List.pairwise_lt_range.imp_of_mem fun _ hj hlt => hcross _ _ hlt (List.mem_range.1 hj)⟩

/-- `op` may stand before `op'`: it moves no base, and its write meets neither a load of `op'` nor its write. -/
structure MicroOp.Before (s : State) (op op' : MicroOp) : Prop where
  plain : op.IsPlain
  load : ∀ q ∈ op.storeReq s, ∀ a ∈ op'.loadAddr s, Apart 64 q.addr a
  store : ∀ q ∈ op.storeReq s, ∀ q' ∈ op'.storeReq s, Apart 64 q.addr q'.addr

/-- A block sequence whose loads read nothing it wrote before, and whose writes meet in no byte. -/
structure WritesApart (s : State) (ops : List MicroOp) : Prop where
  before : ops.Pairwise (MicroOp.Before s)
  noFence : ∀ op ∈ ops, op ≠ .fence
  noZeroEnd : ∀ op ∈ ops, op ≠ .zeroEnd

theorem Apart.symm {n a b : Nat} (h : Apart n a b) : Apart n b a := Or.symm h

/-- Different blocks of a buffer do not meet. -/
theorem apart_blocks {d i j : Nat} (h : i ≠ j) : Apart 64 (d + 64 * i) (d + 64 * j) := by
  unfold Apart
  omega

/-- Blocks of two disjoint buffers do not meet. -/
theorem apart_of_disjoint {s : State} {b b' : Base} (h : (s.baseRegion b).disjoint (s.baseRegion b') = true) {o o' : Nat}
    (ho : o + 64 ≤ b.span s.latched.r.toNat s.latched.n.toNat) (ho' : o' + 64 ≤ b'.span s.latched.r.toNat s.latched.n.toNat) :
    Apart 64 (s.baseAddr b + o) (s.baseAddr b' + o') := by
  have h := (Region.disjoint_iff _ _).1 h
  simp only [State.baseRegion] at h
  unfold Apart
  omega

theorem MicroOp.loadAt_ok {op : MicroOp} {b : Base} {o : Nat} (h : op.loadAt = some (b, o)) {r n : Nat} {sh : Base → Prop}
    (hok : opOk r n sh op) : offsetOk r n b o := by
  cases op with
  | lda l dst b o => cases h; exact hok.2.2
  | ldu dst b o => cases h; exact hok.2
  | _ => cases h

/-- A sequence that writes some buffers and loads others, each block written once. -/
theorem writesApart_of_buffers {s : State} {ops : List MicroOp} {sh : Base → Prop}
    (hok : ∀ op ∈ ops, opOk s.latched.r.toNat s.latched.n.toNat sh op) (hplain : ops.Pairwise fun op _ => op.IsPlain)
    (hquiet : ∀ op ∈ ops, op ≠ .fence ∧ op ≠ .zeroEnd)
    (hbuffers : ∀ op ∈ ops, ∀ b o, op.storeAt = some (b, o) → ∀ op' ∈ ops, ∀ b' o', op'.loadAt = some (b', o') →
      (s.baseRegion b).disjoint (s.baseRegion b') = true)
    (hstores : StoresApart (storeReqs s ops)) : WritesApart s ops := by
  have hloads : ∀ op ∈ ops, ∀ op' ∈ ops, ∀ q ∈ op.storeReq s, ∀ a ∈ op'.loadAddr s, Apart 64 q.addr a := by
    intro op hop op' hop' q hq a ha
    obtain ⟨b, o, hat, haddr⟩ := MicroOp.storeReq_addr hq
    obtain ⟨⟨b', o'⟩, hat', rfl⟩ := Option.map_eq_some_iff.1 ha
    rw [haddr]
    exact apart_of_disjoint (hbuffers op hop b o hat op' hop' b' o' hat') (offsetOk_span (MicroOp.storeAt_ok hat (hok op hop)))
      (offsetOk_span (MicroOp.loadAt_ok hat' (hok op' hop')))
  refine ⟨?_, fun op hop => (hquiet op hop).1, fun op hop => (hquiet op hop).2⟩
  have hstores := List.pairwise_filterMap.1 hstores
  refine ((hplain.and (List.pairwise_of_forall_mem_list hloads)).and hstores).imp fun h => ⟨h.1.1, h.1.2, h.2⟩

/-! ### The sequences -/

theorem prepSeq_loadAt {r : Nat} {op : MicroOp} (h : op ∈ prepSeq r) {b : Base} {o : Nat}
    (hat : op.loadAt = some (b, o)) : b = .elem := by
  simp only [prepSeq, prepIter, List.mem_append, List.mem_flatMap, List.mem_cons, List.not_mem_nil, or_false] at h
  rcases h with ⟨_, _, rfl | rfl⟩ | rfl | rfl <;> cases hat <;> rfl

theorem restSeq_loadAt {r : Nat} {op : MicroOp} (h : op ∈ restSeq r) {b : Base} {o : Nat}
    (hat : op.loadAt = some (b, o)) : b = .cw := by
  simp only [restSeq, restIter, List.mem_append, List.mem_flatMap, List.mem_cons, List.not_mem_nil, or_false] at h
  rcases h with (rfl | ⟨_, _, rfl | rfl⟩) | rfl <;> cases hat <;> rfl

/-- BM loads CW, and in mode Xor the other buffer (R211). -/
theorem bmSeq_loadAt {r oo o : Nat} {mode : BmMode} {ob b : Base} {op : MicroOp} (h : op ∈ bmSeq r mode ob oo)
    (hat : op.loadAt = some (b, o)) : b = .cw ∨ (mode = .xor ∧ b = ob) := by
  simp only [bmSeq, bmHead, bmIter, bmTail, List.mem_append, List.mem_flatMap, List.mem_range, List.mem_cons, List.not_mem_nil,
    or_false] at h
  rcases h with (((rfl | h) | rfl) | ⟨i, _, (rfl | h) | rfl | rfl | rfl | rfl⟩) | rfl | rfl | rfl | rfl
  case inl.inl.inl.inr =>
    cases mode with
    | none => cases h
    | copy =>
      obtain rfl := List.mem_singleton.1 h
      cases hat
    | xor =>
      simp only [List.mem_append, List.mem_map, List.mem_cons, List.not_mem_nil, or_false] at h
      rcases h with ⟨_, _, rfl⟩ | rfl | rfl | rfl <;> cases hat
      exact .inr ⟨rfl, rfl⟩
  case inl.inr.inl.inr =>
    cases mode with
    | none => cases h
    | copy =>
      obtain rfl := List.mem_singleton.1 h
      cases hat
    | xor =>
      simp only [List.mem_append, List.mem_ite_nil_right, List.mem_cons, List.not_mem_nil, or_false] at h
      rcases h with ⟨_, rfl⟩ | rfl | rfl | rfl <;> cases hat
      exact .inr ⟨rfl, rfl⟩
  all_goals
    simp only [MicroOp.loadAt, reduceCtorEq, Option.some.injEq, Prod.mk.injEq] at hat
  all_goals exact .inl hat.1.symm

theorem storeReqs_append (s : State) (as bs : List MicroOp) : storeReqs s (as ++ bs) = storeReqs s as ++ storeReqs s bs :=
  List.filterMap_append

theorem storeReqs_flatMap (s : State) (f : Nat → List MicroOp) (is : List Nat) :
    storeReqs s (is.flatMap f) = is.flatMap fun i => storeReqs s (f i) := List.filterMap_flatMap

/-- PREP_SEQ writes every working block once (R194). -/
theorem prepSeq_stores (r : Nat) (s : State) : StoresApart (storeReqs s (prepSeq r)) := by
  have hiter : ∀ {i q}, q ∈ storeReqs s (prepIter i) → q.addr = s.baseAddr .work + 64 * (i + 1) := fun hq => by
    obtain rfl := List.mem_singleton.1 hq
    rfl
  rw [prepSeq, storeReqs_append, storeReqs_flatMap]
  refine storesApart_append (storesApart_loop (fun _ _ => storesApart_singleton _) fun i j hlt _ q hq q' hq' => ?_)
    (storesApart_singleton _) fun q hq q' hq' => ?_
  · rw [hiter hq, hiter hq']
    exact apart_blocks (by omega)
  · obtain ⟨i, _, hq⟩ := List.mem_flatMap.1 hq
    rw [hiter hq, List.mem_singleton.1 hq']
    exact apart_blocks (j := 0) (by omega)

/-- REST_SEQ writes every element block once (R197). -/
theorem restSeq_stores (r : Nat) (s : State) : StoresApart (storeReqs s (restSeq r)) := by
  have hiter : ∀ {i q}, q ∈ storeReqs s (restIter i) → q.addr = s.baseAddr .elem + 64 * i := fun hq => by
    obtain rfl := List.mem_singleton.1 hq
    rfl
  rw [restSeq, storeReqs_append, storeReqs_append, storeReqs_flatMap]
  refine storesApart_append (storesApart_loop (fun _ _ => storesApart_singleton _) fun i j hlt _ q hq q' hq' => ?_)
    (storesApart_singleton _) fun q hq q' hq' => ?_
  · rw [hiter hq, hiter hq']
    exact apart_blocks (by omega)
  · obtain ⟨i, hi, hq⟩ := List.mem_flatMap.1 hq
    have hi := List.mem_range.1 hi
    rw [hiter hq, List.mem_singleton.1 hq']
    exact apart_blocks (by omega)

theorem storeReqs_eq_nil {s : State} {ops : List MicroOp} (h : ∀ op ∈ ops, op.storeAt = none) : storeReqs s ops = [] := by
  refine List.filterMap_eq_nil_iff.2 fun op hop => Option.eq_none_iff_forall_not_mem.2 fun q hq => ?_
  obtain ⟨b, o, hat, _⟩ := MicroOp.storeReq_addr hq
  rw [h op hop] at hat
  cases hat

section
variable {r : Nat} {mode : BmMode} {s : State}

theorem bmHead_stores (r : Nat) (mode : BmMode) (s : State) : StoresApart (storeReqs s (bmHead r mode .other 0)) := by
  cases mode with
  | none => exact .nil
  | copy => exact storesApart_singleton _
  | xor =>
    rw [storeReqs_eq_nil fun op hop => Option.eq_none_iff_forall_not_mem.2 fun p hat => ?_]
    · exact .nil
    · cases (bmHead_storeAt hop hat).1

/-- The other buffer and CS do not meet where BM writes both (R247). -/
def CopyApart (r : Nat) (mode : BmMode) (s : State) : Prop :=
  mode = .copy → ∀ k k', k < 2 * r → k' < 2 * r → Apart 64 (s.baseAddr .other + (0 + 64 * k)) (s.baseAddr .cs + 64 * k')

theorem bmIter_stores (hr : 1 ≤ r) (hcopy : CopyApart r mode s) {i : Nat} (hi : i < 2 * r - 1) :
    StoresApart (storeReqs s (bmIter r mode .other 0 i)) := by
  cases mode with
  | none => exact storesApart_singleton _
  | copy => exact List.pairwise_pair.2 (hcopy rfl (i + 1) (fanOut r i) (by omega) (fanOut_lt hr hi))
  | xor =>
    rw [bmIter, storeReqs_append, storeReqs_append]
    rw [storeReqs_eq_nil (ops := _ ++ _) fun op hop => ?_]
    · exact storesApart_singleton _
    · simp only [List.mem_append, List.mem_ite_nil_right, List.mem_cons, List.not_mem_nil, or_false] at hop
      rcases hop with ⟨_, rfl⟩ | rfl | rfl | rfl <;> rfl

/-- BM writes every block of CS once, and in mode Copy every block of the other buffer (R211, R213). -/
theorem bmSeq_stores (hr : 1 ≤ r) (hcopy : CopyApart r mode s) : StoresApart (storeReqs s (bmSeq r mode .other 0)) := by
  have headAt : ∀ {q}, q ∈ storeReqs s (bmHead r mode .other 0) → mode = .copy ∧ q.addr = s.baseAddr .other + (0 + 64 * 0) := fun hq => by
    obtain ⟨op, hop, hq⟩ := mem_storeReqs.1 hq
    obtain ⟨b, o, hat, haddr⟩ := MicroOp.storeReq_addr hq
    obtain ⟨hm, rfl, rfl⟩ := bmHead_storeAt hop hat
    exact ⟨hm, haddr⟩
  have iterAt : ∀ {i q}, q ∈ storeReqs s (bmIter r mode .other 0 i) →
      (mode = .copy ∧ q.addr = s.baseAddr .other + (0 + 64 * (i + 1))) ∨ q.addr = s.baseAddr .cs + 64 * fanOut r i := fun hq => by
    obtain ⟨op, hop, hq⟩ := mem_storeReqs.1 hq
    obtain ⟨b, o, hat, haddr⟩ := MicroOp.storeReq_addr hq
    rcases bmIter_storeAt hop hat with ⟨hm, rfl, rfl⟩ | ⟨rfl, rfl⟩
    · exact .inl ⟨hm, haddr⟩
    · exact .inr haddr
  have tailAt : ∀ {q}, q ∈ storeReqs s bmTail → q.addr = s.baseAddr .cs + 64 * 0 := fun hq => by
    obtain rfl := List.mem_singleton.1 hq
    rfl
  have hfan : ∀ i, fanOut r i ≠ 0 := fun i => by unfold fanOut; split <;> omega
  have hloop : StoresApart ((List.range (2 * r - 1)).flatMap fun i => storeReqs s (bmIter r mode .other 0 i)) := by
    refine storesApart_loop (fun i hi => bmIter_stores hr hcopy hi) fun i j hlt hj q hq q' hq' => ?_
    rcases iterAt hq with ⟨hm, hq⟩ | hq <;> rcases iterAt hq' with ⟨hm', hq'⟩ | hq' <;> rw [hq, hq']
    · unfold Apart
      omega
    · exact hcopy hm _ _ (by omega) (fanOut_lt hr hj)
    · exact (hcopy hm' _ _ (by omega) (fanOut_lt hr (by omega))).symm
    · exact apart_blocks fun h => hlt.ne (fanOut_inj (by omega) hj h)
  rw [bmSeq, storeReqs_append, storeReqs_append, storeReqs_flatMap]
  refine storesApart_append (storesApart_append (bmHead_stores r mode s) hloop fun q hq q' hq' => ?_) (storesApart_singleton _)
    fun q hq q' hq' => ?_
  · obtain ⟨hm, hq⟩ := headAt hq
    obtain ⟨i, hi, hq'⟩ := List.mem_flatMap.1 hq'
    have hi := List.mem_range.1 hi
    rcases iterAt hq' with ⟨_, hq'⟩ | hq' <;> rw [hq, hq']
    · unfold Apart
      omega
    · exact hcopy hm _ _ (by omega) (fanOut_lt hr hi)
  · rw [tailAt hq']
    rcases List.mem_append.1 hq with hq | hq
    · obtain ⟨hm, hq⟩ := headAt hq
      rw [hq]
      exact hcopy hm _ _ (by omega) (by omega)
    · obtain ⟨i, hi, hq⟩ := List.mem_flatMap.1 hq
      have hi := List.mem_range.1 hi
      rcases iterAt hq with ⟨hm, hq⟩ | hq <;> rw [hq]
      · exact hcopy hm _ _ (by omega) (by omega)
      · exact apart_blocks (hfan i)

theorem bmSeq_plain (r : Nat) (mode : BmMode) (ob : Base) (oo : Nat) : (bmSeq r mode ob oo).Pairwise fun op _ => op.IsPlain := by
  rw [bmSeq_eq]
  exact List.pairwise_append.2 ⟨List.pairwise_of_forall_mem_list fun op hop _ _ => bmBody_ops op hop, List.pairwise_singleton _ _,
    fun op hop _ _ => bmBody_ops op hop⟩

end

/-! ### The commands (R247) -/

theorem fence_not_mem_bmSeq {r oo : Nat} {mode : BmMode} {ob : Base} : MicroOp.fence ∉ bmSeq r mode ob oo := by
  cases mode <;> simp [bmSeq, bmHead, bmIter, bmTail]

theorem fence_not_mem_prepSeq {r : Nat} : MicroOp.fence ∉ prepSeq r := by
  simp [prepSeq, prepIter]

theorem fence_not_mem_restSeq {r : Nat} : MicroOp.fence ∉ restSeq r := by
  simp [restSeq, restIter]

/-- The command's writes, from its acceptance on, are apart. -/
def StartsApart (i : Instr) (s : State) : Prop := WritesApart (s.started i) (s.started i).blockOps

theorem Region.disjoint_comm (g h : Region) : g.disjoint h = h.disjoint g := by
  simp only [Region.disjoint, or_comm]

section
variable {i : Instr} {s : State}

theorem Accepts.disjoint (ha : Accepts i s) : pairwiseDisjoint (commandChecks i s).disjoint = true := by
  obtain ⟨_, hcheck, _, _⟩ := ha
  obtain ⟨_, _, _, hdisjoint⟩ := verdict_none hcheck
  exact hdisjoint

/-- PREPARE reads the element and writes the working buffer (R194). -/
theorem startsApart_prepare (ha : Accepts .prepare s) : StartsApart .prepare s := by
  have hdisjoint : s.elemRegion.disjoint s.workRegion = true := by simpa [commandChecks, prepareChecks, pairwiseDisjoint] using ha.disjoint
  rw [← ha.elemRegion_eq rfl (by decide) (.head _) (.tail _ (.head _)), ← ha.workRegion_eq rfl (by decide) (.head _),
    Region.disjoint_comm] at hdisjoint
  refine writesApart_of_buffers (sh := fun _ => True) (prepSeq_ok ha.geometry.1.1 trivial trivial)
    (List.pairwise_of_forall_mem_list fun op hop _ _ => prepSeq_isPlain _ op hop)
    (fun op hop => ⟨fun hf => fence_not_mem_prepSeq (hf ▸ hop), (prepSeq_isPlain _ op hop).1⟩)
    (fun op hop b o hat op' hop' b' o' hat' => ?_) (prepSeq_stores _ _)
  obtain rfl := List.mem_singleton.1 (blockSeq_storeAt (c := .prepare) (n := 0) (i := 0) (ph := .prepare) hop hat)
  rw [prepSeq_loadAt hop' hat']
  exact hdisjoint

/-- RESTORE reads CW and writes the element (R197). -/
theorem startsApart_restore (ha : Accepts .restore s) : StartsApart .restore s := by
  have hcw : (s.started .restore).baseRegion .cw = s.cwRegion := by
    simp only [State.baseRegion, State.baseAddr, s.started_cw (.inl rfl), Base.span, ha.latched_r rfl (by decide) (.head _)]
    rfl
  have hdisjoint : s.elemRegion.disjoint s.cwRegion = true := by simpa [commandChecks, restoreChecks, pairwiseDisjoint] using ha.disjoint
  rw [← ha.elemRegion_eq rfl (by decide) (.head _) (.tail _ (.head _)), ← hcw] at hdisjoint
  refine writesApart_of_buffers (sh := fun _ => True) (restSeq_ok ha.geometry.1.1 trivial trivial)
    (List.pairwise_of_forall_mem_list fun op hop _ _ => restSeq_isPlain _ op hop)
    (fun op hop => ⟨fun hf => fence_not_mem_restSeq (hf ▸ hop), (restSeq_isPlain _ op hop).1⟩)
    (fun op hop b o hat op' hop' b' o' hat' => ?_) (restSeq_stores _ _)
  obtain rfl := List.mem_singleton.1 (blockSeq_storeAt (c := .restore) (n := 0) (i := 0) (ph := .restore) hop hat)
  rw [restSeq_loadAt hop' hat']
  exact hdisjoint

/-- CW and CS do not meet, nor does either meet the other buffer, as WORK and SHUF do not (R33, R247). -/
theorem cw_cs_disjoint {u : State} (hws : (u.baseRegion .work).disjoint (u.baseRegion .shuf) = true) :
    (u.baseRegion .cs).disjoint (u.baseRegion .cw) = true
      ∧ ∀ g, (u.baseRegion .work).disjoint g = true → (u.baseRegion .shuf).disjoint g = true →
        (u.baseRegion .cs).disjoint g = true ∧ (u.baseRegion .cw).disjoint g = true := by
  rcases u.cw_cs_cases with ⟨hcw, hcs⟩ | ⟨hcw, hcs⟩
  · rw [show u.baseRegion .cw = u.baseRegion .work by simp only [State.baseRegion, hcw, Base.span],
      show u.baseRegion .cs = u.baseRegion .shuf by simp only [State.baseRegion, hcs, Base.span]]
    exact ⟨Region.disjoint_comm _ _ ▸ hws, fun g hw hs => ⟨hs, hw⟩⟩
  · rw [show u.baseRegion .cw = u.baseRegion .shuf by simp only [State.baseRegion, hcw, Base.span],
      show u.baseRegion .cs = u.baseRegion .work by simp only [State.baseRegion, hcs, Base.span]]
    exact ⟨hws, fun g hw hs => ⟨hw, hs⟩⟩

/-- BM's writes are apart where its buffers are (R211, R247). -/
theorem bmSeq_writesApart {u : State} {mode : BmMode} (hr : 1 ≤ u.latched.r.toNat)
    (hcs : (u.baseRegion .cs).disjoint (u.baseRegion .cw) = true)
    (hother : mode ≠ .none →
      (u.baseRegion .cs).disjoint (u.baseRegion .other) = true ∧ (u.baseRegion .cw).disjoint (u.baseRegion .other) = true) :
    WritesApart u (bmSeq u.latched.r.toNat mode .other 0) := by
  have hcopy : CopyApart u.latched.r.toNat mode u := fun hm k k' hk hk' =>
    (apart_of_disjoint (hother (by rw [hm]; decide)).1 (show 64 * k' + 64 ≤ 128 * _ by omega) (show 0 + 64 * k + 64 ≤ 128 * _ by omega)).symm
  refine writesApart_of_buffers (sh := fun _ => True)
    (bmSeq_ok hr trivial trivial fun _ => ⟨trivial, by decide, fun q hq => block_offsetOk (.inl rfl) hq⟩) (bmSeq_plain _ _ _ _)
    (fun op hop => ?_) (fun op hop b o hat op' hop' b' o' hat' => ?_) (bmSeq_stores hr hcopy)
  · have hfill : op ≠ .zeroEnd := by
      rcases List.mem_append.1 (bmSeq_eq _ _ _ _ ▸ hop) with h | h
      · exact (bmBody_ops op h).1
      · rw [List.mem_singleton.1 h]
        decide
    exact ⟨fun hf => fence_not_mem_bmSeq (hf ▸ hop), hfill⟩
  · rcases bmSeq_storeAt hop hat with rfl | ⟨hm, rfl⟩ <;> rcases bmSeq_loadAt hop' hat' with rfl | ⟨hm', rfl⟩
    · exact hcs
    · exact (hother (by rw [hm']; decide)).1
    · exact Region.disjoint_comm _ _ ▸ (hother (by rw [hm]; decide)).2
    · rw [hm] at hm'
      cases hm'

theorem startsApart_blockmixNone (ha : Accepts .blockmixNone s) : StartsApart .blockmixNone s := by
  have hdisjoint : s.workRegion.disjoint s.shufRegion = true := by
    simpa [commandChecks, blockmixNoneChecks, pairwiseDisjoint] using ha.disjoint
  rw [← ha.workRegion_eq rfl (by decide) (.head _), ← ha.shufRegion_eq rfl (by decide) (.head _)] at hdisjoint
  exact bmSeq_writesApart ha.geometry.1.1 (cw_cs_disjoint hdisjoint).1 fun hm => absurd rfl hm

/-- The buffers of BLOCKMIX.COPY and BLOCKMIX.XOR do not meet (R247). -/
theorem Accepts.otherBuffers_disjoint (ha : Accepts i s) (hi : i ∈ [.blockmixCopy, .blockmixXor]) :
    ((s.started i).baseRegion .cs).disjoint ((s.started i).baseRegion .cw) = true
      ∧ ((s.started i).baseRegion .cs).disjoint ((s.started i).baseRegion .other) = true
      ∧ ((s.started i).baseRegion .cw).disjoint ((s.started i).baseRegion .other) = true := by
  have h1 : ArgCheck.a1 ∈ (commandChecks i s).args := by
    revert hi
    cases i <;> simp [commandChecks, blockmixOtherChecks]
  have hset : i ∉ [.integerify, .salsa8, .salsa8Nat] ∧ i ∉ [.prepare, .integerify, .salsa8, .salsa8Nat] := by
    revert hi; cases i <;> decide
  have hdisjoint : (s.workRegion.disjoint s.shufRegion = true ∧ s.workRegion.disjoint s.otherRegion = true)
      ∧ s.shufRegion.disjoint s.otherRegion = true := by
    have h := ha.disjoint
    revert hi h
    cases i <;> simp [commandChecks, blockmixOtherChecks, pairwiseDisjoint]
  rw [← ha.workRegion_eq rfl hset.1 h1, ← ha.shufRegion_eq rfl hset.2 h1, ← ha.otherRegion_eq rfl hi h1] at hdisjoint
  obtain ⟨⟨hws, hwo⟩, hso⟩ := hdisjoint
  exact ⟨(cw_cs_disjoint hws).1, (cw_cs_disjoint hws).2 _ hwo hso⟩

theorem startsApart_blockmixCopy (ha : Accepts .blockmixCopy s) : StartsApart .blockmixCopy s := by
  obtain ⟨hcs, hother⟩ := ha.otherBuffers_disjoint (by decide)
  exact bmSeq_writesApart ha.geometry.1.1 hcs fun _ => hother

theorem startsApart_blockmixXor (ha : Accepts .blockmixXor s) : StartsApart .blockmixXor s := by
  obtain ⟨hcs, hother⟩ := ha.otherBuffers_disjoint (by decide)
  exact bmSeq_writesApart ha.geometry.1.1 hcs fun _ => hother

/-- A micro-operation that stores nothing may stand before any. -/
theorem before_of_noStore {u : State} {op op' : MicroOp} (hp : op.IsPlain) (h : op.storeReq u = none) : MicroOp.Before u op op' :=
  ⟨hp, fun q hq => absurd (h ▸ hq) (Option.not_mem_none q), fun q hq => absurd (h ▸ hq) (Option.not_mem_none q)⟩

/-- SALSA8 loads its block before it writes it (R145). -/
theorem salsa_writesApart (u : State) (l l' : Layout) :
    WritesApart u [.lda l .cur .other 0, .salsa .cur, .sta l' .cur .other 0] := by
  have hlda : (MicroOp.lda l .cur .other 0).IsPlain := ⟨nofun, nofun, nofun⟩
  have hsalsa : (MicroOp.salsa .cur).IsPlain := ⟨nofun, nofun, nofun⟩
  refine ⟨.cons (fun _ _ => before_of_noStore hlda rfl) (.cons (fun _ _ => before_of_noStore hsalsa rfl) (List.pairwise_singleton _ _)),
    ?_, ?_⟩ <;>
    simp

/-- INTEGERIFY writes nothing (R228). -/
theorem integ_writesApart (u : State) : WritesApart u [.integ .j] :=
  ⟨List.pairwise_singleton _ _, by simp, by simp⟩

/-- The writes of every command but SMIX and ZEROIZE are apart. -/
theorem Accepts.startsApart (ha : Accepts i s) (hsmix : i ≠ .smix) (hzeroize : i ≠ .zeroize) : StartsApart i s := by
  cases i with
  | smix => exact absurd rfl hsmix
  | zeroize => exact absurd rfl hzeroize
  | prepare => exact startsApart_prepare ha
  | restore => exact startsApart_restore ha
  | blockmixNone => exact startsApart_blockmixNone ha
  | blockmixCopy => exact startsApart_blockmixCopy ha
  | blockmixXor => exact startsApart_blockmixXor ha
  | integerify => exact integ_writesApart _
  | salsa8 => exact salsa_writesApart _ .keep .keep
  | salsa8Nat => exact salsa_writesApart _ .diag .undiag

end

end Sys2Proof.Machine

/-! PROOFS. The reference value of every write, and what a run may have written of it (20_memory.md R84, 60_exceptions.md R286). -/

namespace Sys2Proof.Machine

/-! ### The reference values -/

/-- The block register a micro-operation fills and its value, a load reading what the engine reads in `s` (41_blockops.md). -/
def MicroOp.result (op : MicroOp) (s : State) : Option (BlkReg × Block) :=
  match op with
  | .lda l dst _ _ => some (dst, l.apply (s.loadBlock (op.addr s)))
  | .ldu dst _ _ => some (dst, Layout.keep.apply (s.loadBlock (op.addr s)))
  | .xorb dst a b => some (dst, (s.dp.get a).xorb (s.dp.get b))
  | .move dst src => some (dst, s.dp.get src)
  | .salsa g => some (g, salsaCore (s.dp.get g))
  | .integ _ | .sta _ _ _ _ | .staZero _ _ | .stu _ _ _ _ | .stn _ _ _ | .pfn _ _ | .flush _ _ | .bmEnd | .fence | .zeroBegin
  | .zeroEnd => none

/-- The block registers a micro-operation reads. -/
def MicroOp.srcs : MicroOp → List BlkReg
  | .sta _ src _ _ | .stu _ src _ _ | .stn src _ _ | .move _ src | .salsa src => [src]
  | .xorb _ a b => [a, b]
  | .lda _ _ _ _ | .ldu _ _ _ | .integ _ | .staZero _ _ | .pfn _ _ | .flush _ _ | .bmEnd | .fence | .zeroBegin | .zeroEnd => []

/-- A micro-operation's block register filled, and nothing written. -/
def MicroOp.compute (op : MicroOp) (s : State) : State :=
  match op.result s with
  | some (dst, b) => s.setBlk dst b
  | none => s

/-- The registers of the reference run after `ops`, whose loads read nothing `ops` wrote. -/
def computeAll (ops : List MicroOp) (s : State) : State := ops.foldl (fun u op => op.compute u) s

/-- The writes of the reference run, in their order (R84). -/
def referenceWrites : List MicroOp → State → List PendingWrite
  | [], _ => []
  | op :: ops, s => (op.write s).toList ++ referenceWrites ops (op.compute s)

theorem computeAll_snoc (done : List MicroOp) (op : MicroOp) (s : State) :
    computeAll (done ++ [op]) s = op.compute (computeAll done s) := by
  rw [computeAll, List.foldl_append]
  rfl

theorem referenceWrites_append (done rest : List MicroOp) (s : State) :
    referenceWrites (done ++ rest) s = referenceWrites done s ++ referenceWrites rest (computeAll done s) := by
  induction done generalizing s with
  | nil => rfl
  | cons op done ih => exact (congrArg _ (ih _)).trans (List.append_assoc _ _ _).symm

/-- Registers filled leave memory, the write buffer and the bases. -/
theorem computeAll_keeps (ops : List MicroOp) (s : State) :
    (computeAll ops s).mem = s.mem ∧ (computeAll ops s).wbuf = s.wbuf ∧ (computeAll ops s).baseAddr = s.baseAddr := by
  induction ops generalizing s with
  | nil => exact ⟨rfl, rfl, rfl⟩
  | cons op ops ih =>
    obtain ⟨hm, hw, hb⟩ := ih (op.compute s)
    have hop : (op.compute s).mem = s.mem ∧ (op.compute s).wbuf = s.wbuf ∧ (op.compute s).baseAddr = s.baseAddr := by
      unfold MicroOp.compute
      split
      · exact ⟨rfl, rfl, State.baseAddr_setBlk _ _ _⟩
      · exact ⟨rfl, rfl, rfl⟩
    exact ⟨hm.trans hop.1, hw.trans hop.2.1, hb.trans hop.2.2⟩

/-- A write is issued at its request's address. -/
theorem MicroOp.exists_storeReq {op : MicroOp} {s : State} {w : PendingWrite} (h : w ∈ op.write s) : ∃ q ∈ op.storeReq s, q.addr = w.addr := by
  have haddr := op.write_addr s
  rw [h] at haddr
  exact Option.map_eq_some_iff.1 haddr.symm

theorem referenceWrites_addr (ops : List MicroOp) {s y : State} (h : s.baseAddr = y.baseAddr) :
    (referenceWrites ops s).map PendingWrite.addr = (storeReqs y ops).map Request.addr := by
  induction ops generalizing s with
  | nil => rfl
  | cons op ops ih =>
    have hkeep : (op.compute s).baseAddr = y.baseAddr := (computeAll_keeps [op] s).2.2.trans h
    rw [referenceWrites, storeReqs_cons, List.map_append, List.map_append, ih hkeep, ← Option.toList_map, ← Option.toList_map,
      op.write_addr s, op.storeReq_congr h]

theorem Datapath.get_set_same (d : Datapath) (g : BlkReg) (b : Block) : (d.set g b).get g = b := by
  cases g <;> rfl

/-- A register filled the same way holds the same value. -/
theorem MicroOp.compute_get_congr {op : MicroOp} {u c : State} (hresult : op.result u = op.result c) {g : BlkReg}
    (hg : (∀ b, op.result c ≠ some (g, b)) → u.dp.get g = c.dp.get g) : (op.compute u).dp.get g = (op.compute c).dp.get g := by
  unfold MicroOp.compute
  rw [hresult]
  cases hc : op.result c with
  | none => exact hg fun b hb => by rw [hc] at hb; cases hb
  | some p =>
    obtain ⟨dst, b⟩ := p
    simp only [State.setBlk_dp]
    by_cases h : g = dst
    · rw [h, Datapath.get_set_same, Datapath.get_set_same]
    · rw [Datapath.get_set_of_ne h, Datapath.get_set_of_ne h]
      refine hg fun b' hb => h ?_
      rw [hc] at hb
      cases hb
      rfl

/-- A served micro-operation but SALSA_CORE's rounds fills the registers at once. -/
theorem MicroOp.run_get {op : MicroOp} (hsalsa : ∀ g, op ≠ .salsa g) (hzero : op ≠ .zeroEnd) (s : State) (g : BlkReg) :
    (op.run s).dp.get g = (op.compute s).dp.get g := by
  cases op with
  | salsa g => exact absurd rfl (hsalsa g)
  | zeroEnd => exact absurd rfl hzero
  | integ d => cases d <;> rfl
  | _ => rfl

/-! ### Writes of the reference run or failing ones -/

/-- Each of the writes `ws` is one of `done` with its reference value, or a failing one. -/
def WritesFrom (y : State) (done : List MicroOp) (ws : List PendingWrite) : Prop :=
  ∀ w ∈ ws, ∃ q ∈ storeReqs y done, q.addr = w.addr ∧ (w ∈ referenceWrites done y ∨ q.fails y.platform = true)

/-- What a micro-operation whose turn comes after `done` may write. -/
def MayWrite (y : State) (done : List MicroOp) (op : MicroOp) (w : PendingWrite) : Prop :=
  ∃ q ∈ op.storeReq y, q.addr = w.addr ∧ (w ∈ op.write (computeAll done y) ∨ q.fails y.platform = true)

theorem WritesFrom.append {y : State} {done : List MicroOp} {ws : List PendingWrite} (h : WritesFrom y done ws) (rest : List MicroOp) :
    WritesFrom y (done ++ rest) ws := fun w hw => by
  obtain ⟨q, hq, ha, hval⟩ := h w hw
  rw [storeReqs_append, referenceWrites_append]
  exact ⟨q, List.mem_append_left _ hq, ha, hval.imp_left (List.mem_append_left _)⟩

theorem WritesFrom.snoc {y : State} {done : List MicroOp} {op : MicroOp} {ws ws' : List PendingWrite} (h : WritesFrom y done ws)
    (h' : ∀ w ∈ ws', MayWrite y done op w) : WritesFrom y (done ++ [op]) (ws ++ ws') := fun w hw => by
  rcases List.mem_append.1 hw with hw | hw
  · exact h.append [op] w hw
  · obtain ⟨q, hq, ha, hval⟩ := h' w hw
    rw [storeReqs_append, referenceWrites_append]
    exact ⟨q, List.mem_append_right _ (by simpa [storeReqs] using hq), ha,
      hval.imp_left fun hval => List.mem_append_right _ (by simpa [referenceWrites] using hval)⟩

/-- A load after `done` reads nothing `done` wrote. -/
def ReadsOld (y : State) (done : List MicroOp) (op : MicroOp) : Prop :=
  ∀ q ∈ storeReqs y done, ∀ a ∈ op.loadAddr y, Apart 64 q.addr a

theorem WritesApart.readsOld {y : State} {done rest : List MicroOp} {op : MicroOp} (h : WritesApart y (done ++ op :: rest)) :
    ReadsOld y done op := fun q hq => by
  obtain ⟨op', hop', hq⟩ := mem_storeReqs.1 hq
  obtain ⟨_, _, hcross⟩ := List.pairwise_append.1 h.before
  exact (hcross op' hop' op (by simp)).load q hq

/-! ### Registers and writes that match the reference run's -/

/-- After `done`, from `y` on: memory as in `y`, every register but the lost ones with its reference value, and no write but
`done`'s with their reference values and failing ones. -/
structure Matches (y : State) (done : List MicroOp) (u : State) (lost : List BlkReg) : Prop where
  mem : u.mem = y.mem
  platform : u.platform = y.platform
  regs : ∀ g, g ∉ lost → u.dp.get g = (computeAll done y).dp.get g
  writes : WritesFrom y done u.wbuf

section
variable {y u : State} {done : List MicroOp} {op : MicroOp} {lost : List BlkReg}

theorem Matches.loadBlock (h : Matches y done u lost) (hw : y.wbuf = []) (hold : ReadsOld y done op) {a : Nat} (ha : a ∈ op.loadAddr y) :
    u.loadBlock a = (computeAll done y).loadBlock a := by
  obtain ⟨hm, hwc, _⟩ := computeAll_keeps done y
  refine State.loadBlock_congr fun x h1 h2 => ?_
  rw [State.readByte_of_wbuf_nil (hwc.trans hw), hm, State.readByte, h.mem]
  refine foldl_patch_outside (fun w hmem hin => ?_) _
  obtain ⟨q, hq, haddr, _⟩ := h.writes w hmem
  have hapart := hold q hq a ha
  obtain ⟨h3, h4⟩ := hin
  rw [haddr] at hapart
  simp only [Apart, Config.blockBytes] at hapart h4
  omega

/-- A micro-operation that reads no lost register fills its register as the reference run does. -/
theorem Matches.result_eq (h : Matches y done u lost) (hw : y.wbuf = []) (hbase : u.baseAddr = y.baseAddr) (hold : ReadsOld y done op)
    (hsrc : ∀ g ∈ op.srcs, g ∉ lost) : op.result u = op.result (computeAll done y) := by
  have hb : u.baseAddr = (computeAll done y).baseAddr := hbase.trans (computeAll_keeps done y).2.2.symm
  have reg : ∀ g ∈ op.srcs, u.dp.get g = (computeAll done y).dp.get g := fun g hg => h.regs g (hsrc g hg)
  have load : ∀ a ∈ op.loadAddr y, u.loadBlock a = (computeAll done y).loadBlock a := fun a => h.loadBlock hw hold
  rw [MicroOp.loadAddr, ← hbase] at load
  cases op with
  | lda l dst b o => simp only [MicroOp.result, MicroOp.addr, ← hb, load _ rfl]
  | ldu dst b o => simp only [MicroOp.result, MicroOp.addr, ← hb, load _ rfl]
  | xorb dst a b => simp only [MicroOp.result, reg a (by simp [MicroOp.srcs]), reg b (by simp [MicroOp.srcs])]
  | move dst src => simp only [MicroOp.result, reg src (by simp [MicroOp.srcs])]
  | salsa g => simp only [MicroOp.result, reg g (by simp [MicroOp.srcs])]
  | _ => rfl

/-- A micro-operation that reads no lost register writes as the reference run does. -/
theorem Matches.write_eq (h : Matches y done u lost) (hbase : u.baseAddr = y.baseAddr) (hsrc : ∀ g ∈ op.srcs, g ∉ lost) :
    op.write u = op.write (computeAll done y) := by
  have hb : u.baseAddr = (computeAll done y).baseAddr := hbase.trans (computeAll_keeps done y).2.2.symm
  have reg : ∀ g ∈ op.srcs, u.dp.get g = (computeAll done y).dp.get g := fun g hg => h.regs g (hsrc g hg)
  cases op with
  | sta l src b o => simp only [MicroOp.write, MicroOp.addr, hb, reg src (by simp [MicroOp.srcs])]
  | stu l src b o => simp only [MicroOp.write, MicroOp.addr, hb, reg src (by simp [MicroOp.srcs])]
  | stn src b o => simp only [MicroOp.write, MicroOp.addr, hb, reg src (by simp [MicroOp.srcs])]
  | staZero b o => simp only [MicroOp.write, MicroOp.addr, hb]
  | _ => rfl

theorem Matches.mayWrite (h : Matches y done u lost) (hbase : u.baseAddr = y.baseAddr) (hsrc : ∀ g ∈ op.srcs, g ∉ lost) {w : PendingWrite}
    (hmem : w ∈ op.write u) : MayWrite y done op w := by
  obtain ⟨q, hq, ha⟩ := MicroOp.exists_storeReq hmem
  exact ⟨q, op.storeReq_congr hbase ▸ hq, ha, .inl (h.write_eq hbase hsrc ▸ hmem)⟩

/-- One micro-operation more. -/
theorem Matches.snoc (h : Matches y done u lost) {v : State} {lost' : List BlkReg} {ws : List PendingWrite} (hm : v.mem = u.mem)
    (hp : v.platform = u.platform) (hregs : ∀ g, g ∉ lost' → v.dp.get g = (op.compute (computeAll done y)).dp.get g)
    (hwbuf : v.wbuf = u.wbuf ++ ws) (hws : ∀ w ∈ ws, MayWrite y done op w) : Matches y (done ++ [op]) v lost' :=
  ⟨hm.trans h.mem, hp.trans h.platform, fun g hg => (hregs g hg).trans (by rw [computeAll_snoc]), hwbuf ▸ h.writes.snoc hws⟩

/-- A micro-operation that fills no register, whatever it wrote. -/
theorem Matches.noResult (h : Matches y done u lost) (hnone : op.result (computeAll done y) = none) {v : State} {ws : List PendingWrite}
    (hm : v.mem = u.mem) (hp : v.platform = u.platform) (hdp : v.dp = u.dp) (hwbuf : v.wbuf = u.wbuf ++ ws)
    (hws : ∀ w ∈ ws, MayWrite y done op w) : Matches y (done ++ [op]) v lost := by
  refine h.snoc hm hp (fun g hg => ?_) hwbuf hws
  rw [hdp, MicroOp.compute, hnone]
  exact h.regs g hg

/-- A register that could not be filled is lost. -/
theorem Matches.lose (h : Matches y done u lost) {dst : BlkReg} {b : Block} (hc : op.result (computeAll done y) = some (dst, b)) :
    Matches y (done ++ [op]) u (dst :: lost) := by
  refine h.snoc rfl rfl (fun g hg => ?_) (List.append_nil _).symm nofun
  obtain ⟨hne, hg⟩ := not_or.1 (mt List.mem_cons.2 hg)
  rw [MicroOp.compute, hc]
  exact (h.regs g hg).trans (Datapath.get_set_of_ne hne).symm

/-- A register filled from those that are not lost. -/
theorem Matches.fill (h : Matches y done u lost) {dst : BlkReg} {b : Block} (hu : op.result u = some (dst, b))
    (hresult : op.result u = op.result (computeAll done y)) : Matches y (done ++ [op]) (u.setBlk dst b) (lost.filter (· ≠ dst)) := by
  have hcompute : u.setBlk dst b = op.compute u := by rw [MicroOp.compute, hu]
  refine h.snoc rfl rfl (fun g hg => ?_) (List.append_nil _).symm nofun
  rw [hcompute]
  refine MicroOp.compute_get_congr hresult fun hother => h.regs g fun hmem => hg ?_
  refine List.mem_filter.2 ⟨hmem, decide_eq_true fun hd => hother b ?_⟩
  rw [← hresult, hu, hd]

/-- A served micro-operation but a round of SALSA_CORE. -/
theorem Matches.run (h : Matches y done u []) (hw : y.wbuf = []) (hbase : u.baseAddr = y.baseAddr) (hold : ReadsOld y done op)
    (hsalsa : ∀ g, op ≠ .salsa g) (hzero : op ≠ .zeroEnd) (hfence : op ≠ .fence) : Matches y (done ++ [op]) (op.run u) [] := by
  have hsrc : ∀ g ∈ op.srcs, g ∉ ([] : List BlkReg) := fun _ _ => List.not_mem_nil
  obtain ⟨hm, hwbuf⟩ := op.run_port hfence u
  refine h.snoc hm (stepFrame_run op u).platform (fun g _ => ?_) hwbuf fun w hmem => h.mayWrite hbase hsrc (Option.mem_toList.1 hmem)
  rw [MicroOp.run_get hsalsa hzero]
  exact MicroOp.compute_get_congr (h.result_eq hw hbase hold hsrc) fun _ => h.regs g List.not_mem_nil

/-! ### After a failing request -/

theorem Matches.laterStore {acc : State × List BlkReg} (h : Matches y done acc.1 acc.2) (hbase : acc.1.baseAddr = y.baseAddr) {l : Layout}
    {src : BlkReg} {q : Request} (hnone : op.result (computeAll done y) = none) (hsrcs : op.srcs = [src])
    (hreq : op.storeReq acc.1 = some q) (hwrite : op.write acc.1 = some ⟨q.addr, l.apply (acc.1.dp.get src)⟩) :
    Matches y (done ++ [op]) (Machine.laterStore l src q acc).1 (Machine.laterStore l src q acc).2 := by
  have skip : ∀ d, Matches y (done ++ [op]) { acc.1 with draws := d } acc.2 := fun d =>
    h.noResult hnone (ws := []) rfl rfl rfl (List.append_nil _).symm nofun
  unfold Machine.laterStore
  split
  · exact skip acc.1.draws
  · next hlost =>
    dsimp only
    split
    · have hq : q ∈ op.storeReq y := op.storeReq_congr hbase ▸ hreq
      split
      · next hfails =>
        refine h.noResult hnone (ws := [_]) rfl rfl rfl rfl fun w hmem => ?_
        rw [List.mem_singleton.1 hmem]
        exact ⟨q, hq, rfl, .inr (h.platform ▸ hfails)⟩
      · refine h.noResult hnone (ws := [_]) rfl rfl rfl rfl fun w hmem => ?_
        rw [List.mem_singleton.1 hmem]
        refine h.mayWrite hbase (fun g hg hl => hlost (.inl ?_)) hwrite
        rw [hsrcs] at hg
        exact List.mem_singleton.1 hg ▸ hl
    · exact skip (acc.1.draws + 1)

theorem Matches.laterCompute {acc : State × List BlkReg} (h : Matches y done acc.1 acc.2) (hw : y.wbuf = [])
    (hbase : acc.1.baseAddr = y.baseAddr) (hold : ReadsOld y done op) {dst : BlkReg} {b c : Block} (hu : op.result acc.1 = some (dst, b))
    (hc : op.result (computeAll done y) = some (dst, c)) :
    Matches y (done ++ [op]) (Machine.laterCompute dst op.srcs b acc).1 (Machine.laterCompute dst op.srcs b acc).2 := by
  unfold Machine.laterCompute
  split
  · exact h.lose hc
  · next hlost =>
    refine h.fill hu (h.result_eq hw hbase hold fun g hg hl => hlost ?_)
    exact List.any_eq_true.2 ⟨g, hg, decide_eq_true hl⟩

theorem Matches.laterLoad {acc : State × List BlkReg} (h : Matches y done acc.1 acc.2) (hw : y.wbuf = [])
    (hbase : acc.1.baseAddr = y.baseAddr) (hold : ReadsOld y done op) {l : Layout} {dst : BlkReg} {q : Request} {c : Block}
    (hsrcs : op.srcs = []) (hu : op.result acc.1 = some (dst, l.apply (acc.1.loadBlock q.addr)))
    (hc : op.result (computeAll done y) = some (dst, c)) :
    Matches y (done ++ [op]) (Machine.laterLoad l dst q acc).1 (Machine.laterLoad l dst q acc).2 := by
  unfold Machine.laterLoad
  split
  · exact h.lose hc
  · exact h.fill hu (h.result_eq hw hbase hold (by simp [hsrcs]))

/-- A later micro-operation adds at most its own write, with its reference value or failing (R286 items 4, 5). -/
theorem Matches.laterOp {acc : State × List BlkReg} (h : Matches y done acc.1 acc.2) (hw : y.wbuf = [])
    (hbase : acc.1.baseAddr = y.baseAddr) (hold : ReadsOld y done op) :
    Matches y (done ++ [op]) (Machine.laterOp acc op).1 (Machine.laterOp acc op).2 := by
  cases op with
  | lda | ldu => exact h.laterLoad hw hbase hold rfl rfl rfl
  | xorb | move | salsa => exact h.laterCompute hw hbase hold rfl rfl
  | sta | stu | stn => exact h.laterStore hbase rfl rfl rfl rfl
  | _ => exact h.noResult (ws := []) rfl rfl rfl rfl (List.append_nil _).symm nofun

theorem Matches.laterOps {acc : State × List BlkReg} (h : Matches y done acc.1 acc.2) (hw : y.wbuf = []) {rest : List MicroOp}
    (hbase : rest ≠ [] → acc.1.baseAddr = y.baseAddr) (hapart : WritesApart y (done ++ rest)) :
    WritesFrom y (done ++ rest) (rest.foldl Machine.laterOp acc).1.wbuf := by
  induction rest generalizing done acc with
  | nil => exact (List.append_nil done).symm ▸ h.writes
  | cons op rest ih =>
    have hb := hbase (List.cons_ne_nil op rest)
    rw [List.append_cons] at hapart ⊢
    exact ih (h.laterOp hw hb (WritesApart.readsOld (rest := rest) (by simpa using hapart)))
      (fun _ => (laterOp_issues acc op).2.trans hb) hapart

end

end Sys2Proof.Machine

/-! PROOFS. A command but SMIX and ZEROIZE in step with its reference run, up to its end (20_memory.md R84, 60_exceptions.md R286). -/

namespace Sys2Proof.Machine

theorem MicroOp.run_trace (op : MicroOp) (s : State) : (op.run s).trace = s.trace := by
  cases op with
  | integ d => cases d <;> rfl
  | salsa g =>
    by_cases h : s.seq.t < Config.rounds <;> simp [MicroOp.run, MicroOp.effect, MicroOp.advance, opSalsa, h]
  | _ => rfl

theorem MicroOp.run_seq {op : MicroOp} (hsalsa : ∀ g, op ≠ .salsa g) (s : State) :
    (op.run s).seq = { s.seq with q := s.seq.q + 1, t := 0 } := by
  cases op with
  | salsa g => exact absurd rfl (hsalsa g)
  | integ d => cases d <;> rfl
  | _ => rfl

/-- A micro-operation is served, its request recorded, or its request fails. -/
theorem performOp_place {op : MicroOp} {s t : State} (h : performOp op s = .next t) :
    (t = op.run (op.place s) ∧ ∀ q, op.request s = some q → q.inSpace = true)
      ∨ ∃ q, op.request s = some q ∧ q.inSpace = true ∧ q.fails s.platform = true ∧ t = busError op q (op.place s) := by
  rcases performOp_cases h with ⟨hnone, rfl⟩ | ⟨q, hq, hin, _, ⟨hf, rfl⟩ | ⟨_, rfl⟩⟩
  · exact .inl ⟨by rw [MicroOp.place, hnone], fun q hq => by rw [hnone] at hq; cases hq⟩
  · exact .inr ⟨q, hq, hin, hf, by rw [MicroOp.place, hq]⟩
  · refine .inl ⟨by rw [MicroOp.place, hq], fun q' hq' => ?_⟩
    rw [hq] at hq'
    cases hq'
    exact hin

/-- A failing request is a load's, whose register it leaves without a value, or its micro-operation fills no register. -/
theorem MicroOp.loadDst_cases {op : MicroOp} {s : State} {q : Request} (h : op.request s = some q) :
    (op.loadDst = [] ∧ ∀ u, op.result u = none)
      ∨ q.kind.isWrite = false ∧ ∃ dst, op.loadDst = [dst] ∧ ∀ u, ∃ b, op.result u = some (dst, b) := by
  cases op with
  | lda l dst b o => cases h; exact .inr ⟨rfl, dst, rfl, fun u => ⟨_, rfl⟩⟩
  | ldu dst b o => cases h; exact .inr ⟨rfl, dst, rfl, fun u => ⟨_, rfl⟩⟩
  | xorb | move | salsa => cases h
  | _ => exact .inl ⟨rfl, fun _ => rfl⟩

/-! ### What has been issued -/

/-- The requests recorded since `y` hold the writes of `done`, each in the write buffer. -/
structure Issued (y : State) (done : List MicroOp) (tr : List Request) (ws : List PendingWrite) : Prop where
  trace : ∃ new : List Request, tr = new.reverse ++ y.trace ∧ new.filter (fun q => q.kind.isWrite) = storeReqs y done
  buffered : ∀ q ∈ storeReqs y done, ∃ w ∈ ws, w.addr = q.addr

section
variable {y x : State} {done : List MicroOp} {op : MicroOp}

/-- One micro-operation more: its request recorded, its write buffered. -/
theorem Issued.snoc {ws ws' : List PendingWrite} (h : Issued y done x.trace ws) (hbase : x.baseAddr = y.baseAddr)
    (hnew : ∀ q ∈ op.storeReq x, ∃ w ∈ ws', w.addr = q.addr) : Issued y (done ++ [op]) (op.place x).trace (ws ++ ws') := by
  obtain ⟨⟨new, htr, hfilter⟩, hbuf⟩ := h
  have hone : storeReqs y [op] = (op.storeReq x).toList := by
    rw [storeReqs_cons, op.storeReq_congr hbase]
    exact List.append_nil _
  refine ⟨⟨new ++ (op.request x).toList, ?_, ?_⟩, fun q hq => ?_⟩
  · unfold MicroOp.place
    cases op.request x with
    | none => simpa using htr
    | some q => simp [State.record, htr]
  · rw [List.filter_append, hfilter, storeReqs_append, hone, MicroOp.storeReq]
    cases op.request x with
    | none => rfl
    | some q => cases hk : q.kind.isWrite <;> simp [Option.filter, hk]
  · rw [storeReqs_append, hone] at hq
    rcases List.mem_append.1 hq with hq | hq
    · obtain ⟨w, hw, ha⟩ := hbuf q hq
      exact ⟨w, List.mem_append_left _ hw, ha⟩
    · obtain ⟨w, hw, ha⟩ := hnew q (Option.mem_toList.1 hq)
      exact ⟨w, List.mem_append_right _ hw, ha⟩

theorem Issued.more {tr : List Request} {ws : List PendingWrite} (h : Issued y done tr ws) (ws' : List PendingWrite) :
    Issued y done tr (ws ++ ws') :=
  ⟨h.trace, fun q hq => (h.buffered q hq).imp fun _ hw => ⟨List.mem_append_left _ hw.1, hw.2⟩⟩

theorem Matches.place {lost : List BlkReg} (h : Matches y done x lost) (op : MicroOp) : Matches y done (op.place x) lost := by
  rcases op.place_eq x with hx | ⟨q, hx⟩ <;> rw [hx]
  · exact h
  · exact ⟨h.mem, h.platform, h.regs, h.writes⟩

/-- A failing request leaves a register without a value, or a write's bytes unspecified (R169, R286). -/
theorem Matches.failRequest (h : Matches y done x []) (hbase : x.baseAddr = y.baseAddr) {q : Request} (hreq : op.request x = some q)
    (hfails : q.fails x.platform = true) : Matches y (done ++ [op]) (x.failRequest q) op.loadDst := by
  have noted : x.failRequest q = x.noteError q.addr ∧ q.kind.isWrite = false
      ∨ x.failRequest q = (x.noteError q.addr).storeFree q.addr ∧ q.kind.isWrite = true := by
    unfold State.failRequest
    cases q.kind.isWrite <;> simp
  have hnote : Matches y done (x.noteError q.addr) [] := ⟨h.mem, h.platform, h.regs, h.writes⟩
  rcases MicroOp.loadDst_cases hreq with ⟨hdst, hnone⟩ | ⟨hread, dst, hdst, hfill⟩
  · rw [hdst]
    rcases noted with ⟨hx, _⟩ | ⟨hx, hwrite⟩ <;> rw [hx]
    · exact hnote.noResult (hnone _) (ws := []) rfl rfl rfl (List.append_nil _).symm nofun
    · refine hnote.noResult (hnone _) (ws := [_]) rfl rfl rfl rfl fun w hw => ?_
      rw [List.mem_singleton.1 hw]
      refine ⟨q, ?_, rfl, .inr (h.platform ▸ hfails)⟩
      rw [← op.storeReq_congr hbase]
      exact Option.filter_eq_some_iff.2 ⟨hreq, hwrite⟩
  · obtain ⟨b, hb⟩ := hfill (computeAll done y)
    rcases noted with ⟨hx, _⟩ | ⟨_, hwrite⟩
    · rw [hdst, hx]
      exact hnote.lose hb
    · rw [hread] at hwrite
      cases hwrite

end

/-! ### In step with the reference run -/

/-- The run from `y` has performed its block sequence up to `x`'s position as the reference run does, failing writes apart. -/
structure Lockstep (y x : State) : Prop where
  busy : x.status.busy = true
  port : PortOk x
  same : Matches y (y.blockOps.take x.seq.q) x []
  issued : Issued y (y.blockOps.take x.seq.q) x.trace x.wbuf
  base : x.seq.q < y.blockOps.length → x.baseAddr = y.baseAddr
  /-- Within SALSA_CORE its register still holds the block the rounds started from. -/
  rounds : x.seq.t ≠ 0 → ∃ g, y.blockOps[x.seq.q]? = some (.salsa g)
    ∧ x.dp.rows = salsaRounds x.seq.t (x.dp.get g) ∧ x.dp.saved = x.dp.get g
  error : x.pendingErr.isSome → ∃ q : Request, q.fails y.platform = true

/-- The command has ended in `t`: `done` was performed, of `rest` some writes were, and `ws` are all its writes. -/
structure EndsWith (y t : State) (done rest : List MicroOp) (ws : List PendingWrite) : Prop where
  idle : t.status.busy = false
  ops : y.blockOps = done ++ rest
  issued : Issued y done t.trace ws
  writes : WritesFrom y y.blockOps ws
  reads : ∀ a, t.mem.read a = ws.foldl (fun v w => w.patch a v) (y.mem.read a)
  failed : rest ≠ [] → ∃ q : Request, q.fails y.platform = true

def Ended (y t : State) : Prop := ∃ done rest ws, EndsWith y t done rest ws

section
variable {y x : State} {done rest : List MicroOp} {op : MicroOp}

/-- Completion performs what is in the write buffer (R88). -/
theorem ended_complete (hport : PortOk x) (hmem : x.mem = y.mem) (hops : y.blockOps = done ++ rest)
    (hissued : Issued y done x.trace x.wbuf) (hwrites : WritesFrom y y.blockOps x.wbuf)
    (hfailed : rest ≠ [] → ∃ q : Request, q.fails y.platform = true) : Ended y x.complete := by
  refine ⟨done, rest, x.wbuf, by rw [State.complete_status]; rfl, hops, by rwa [State.complete_trace], hwrites, fun a => ?_, hfailed⟩
  rw [State.complete_mem, Memory.read_performAll _ hport.wbuf _ hport.mem, hmem]

/-- An error stop ends the command, later writes performed or not (R286). -/
theorem ended_stop (hport : PortOk x) {lost : List BlkReg} (hsame : Matches y done x lost) (hissued : Issued y done x.trace x.wbuf)
    (hops : y.blockOps = done ++ rest) (hwb : y.wbuf = []) (hapart : WritesApart y y.blockOps) (hbase : rest ≠ [] → x.baseAddr = y.baseAddr)
    (hsmix : x.isSmix = false) (hfailed : ∃ q : Request, q.fails y.platform = true) : Ended y (x.stopCommand rest lost) := by
  have hstop : x.stopCommand rest lost = (x.laterWrites rest lost).complete := by
    simp [State.stopCommand, State.beforeRestore, hsmix]
  obtain ⟨_, ws, hws, _⟩ := x.laterWrites_issues rest lost
  rw [hstop]
  refine ended_complete (portOk_laterWrites hport rest lost) hsame.mem hops ?_ ?_ fun _ => hfailed
  · rw [hws]
    exact hissued.more ws
  · rw [hops] at hapart ⊢
    exact Matches.laterOps (acc := (x, lost)) hsame hwb hbase hapart

theorem WritesApart.isPlain (h : WritesApart y (done ++ op :: rest)) (hrest : rest ≠ []) : op.IsPlain := by
  obtain ⟨op', hop'⟩ := List.exists_mem_of_ne_nil rest hrest
  obtain ⟨_, hlast, _⟩ := List.pairwise_append.1 h.before
  exact (List.rel_of_pairwise_cons hlast hop').plain

/-- At a micro-operation, the block sequence is what was performed, it, and what comes after it. -/
theorem State.blockOps_split (hop : y.blockOps[x.seq.q]? = some op) :
    y.blockOps = y.blockOps.take x.seq.q ++ op :: y.blockOps.drop (x.seq.q + 1) := by
  obtain ⟨hlt, hget⟩ := List.getElem?_eq_some_iff.1 hop
  rw [← hget, List.cons_getElem_drop_succ, List.take_append_drop]

theorem State.take_blockOps_succ (hop : y.blockOps[x.seq.q]? = some op) :
    y.blockOps.take (x.seq.q + 1) = y.blockOps.take x.seq.q ++ [op] := by
  rw [List.take_add_one, hop]
  rfl

theorem Lockstep.base_at (h : Lockstep y x) (hop : y.blockOps[x.seq.q]? = some op) : x.baseAddr = y.baseAddr :=
  h.base (List.getElem?_eq_some_iff.1 hop).1

/-- The position moves on to the next micro-operation. -/
theorem lockstep_next (hop : y.blockOps[x.seq.q]? = some op) {v : State} (hbusy : v.status.busy = true) (hport : PortOk v)
    (hsame : Matches y (y.blockOps.take x.seq.q ++ [op]) v []) (hissued : Issued y (y.blockOps.take x.seq.q ++ [op]) v.trace v.wbuf)
    (hseq : v.seq = { x.seq with q := x.seq.q + 1, t := 0 }) (hbase : x.seq.q + 1 < y.blockOps.length → v.baseAddr = y.baseAddr)
    (herror : v.pendingErr.isSome → ∃ q : Request, q.fails y.platform = true) : Lockstep y v := by
  have hq : v.seq.q = x.seq.q + 1 := by rw [hseq]
  rw [← State.take_blockOps_succ hop, ← hq] at hsame hissued
  rw [← hq] at hbase
  exact ⟨hbusy, hport, hsame, hissued, hbase, fun ht => absurd (by rw [hseq]) ht, herror⟩

theorem MicroOp.baseAddr_place (op : MicroOp) (s : State) : (op.place s).baseAddr = s.baseAddr := by
  rcases op.place_eq s with h | ⟨q, h⟩ <;> rw [h]
  rfl

/-- A micro-operation with another after it moves no base. -/
theorem MicroOp.baseAddr_run {s : State} (h : op.IsPlain) : (op.run s).baseAddr = s.baseAddr := by
  obtain ⟨hzero, hend, hinteg⟩ := h
  obtain ⟨_, _, _, _, _, hstatus, _⟩ := op.run_fields s
  exact State.baseAddr_congr (stepFrame_run op s).latched (congrArg Status.swap (hstatus hend)) (op.run_ji s hzero hinteg)

theorem Lockstep.run (h : Lockstep y x) (hop : y.blockOps[x.seq.q]? = some op) (hwb : y.wbuf = []) (hapart : WritesApart y y.blockOps)
    (hsalsa : ∀ g, op ≠ .salsa g) (hport : PortOk (op.run (op.place x))) : Lockstep y (op.run (op.place x)) := by
  have hmem : op ∈ y.blockOps := List.mem_of_getElem? hop
  have hbase := h.base_at hop
  have hbase' : (op.place x).baseAddr = y.baseAddr := (op.baseAddr_place x).trans hbase
  obtain ⟨_, _, herr, _, hbusy, _⟩ := op.run_fields (op.place x)
  obtain ⟨_, hwbuf⟩ := op.run_port (hapart.noFence op hmem) (op.place x)
  have hsplit := State.blockOps_split hop
  obtain ⟨hstatus, hplacedBuf, hplacedErr⟩ :
      (op.place x).status = x.status ∧ (op.place x).wbuf = x.wbuf ∧ (op.place x).pendingErr = x.pendingErr := by
    rcases op.place_eq x with hx | ⟨q, hx⟩ <;> rw [hx] <;> exact ⟨rfl, rfl, rfl⟩
  have hold := WritesApart.readsOld (hsplit ▸ hapart)
  have hsame := (h.same.place op).run hwb hbase' hold hsalsa (hapart.noZeroEnd op hmem) (hapart.noFence op hmem)
  refine lockstep_next hop (hbusy.trans (hstatus ▸ h.busy)) hport hsame ?_ ?_ ?_ ?_
  · rw [hwbuf, hplacedBuf, op.run_trace]
    refine h.issued.snoc hbase fun q hq => ?_
    have haddr := op.write_addr (op.place x)
    rw [op.storeReq_congr (op.baseAddr_place x), hq] at haddr
    obtain ⟨w, hw, ha⟩ := Option.map_eq_some_iff.1 haddr
    exact ⟨w, Option.mem_toList.2 hw, ha⟩
  · rw [MicroOp.run_seq hsalsa, op.place_seq]
  · intro hlt
    rw [MicroOp.baseAddr_run, hbase']
    refine WritesApart.isPlain (hsplit ▸ hapart) fun hnil => ?_
    have := List.drop_eq_nil_iff.1 hnil
    omega
  · rw [herr, hplacedErr]
    exact h.error

/-- A round of SALSA_CORE, or its final addition (R50, R135). -/
theorem Lockstep.salsa (h : Lockstep y x) {g : BlkReg} (hop : y.blockOps[x.seq.q]? = some (.salsa g)) (ht : x.seq.t ≤ Config.rounds) :
    Lockstep y ((MicroOp.salsa g).run x) := by
  obtain ⟨hbusy, hport, hsame, hissued, hbase, hrounds, herror⟩ := h
  have started : x.seq.t ≠ 0 → x.dp.rows = salsaRounds x.seq.t (x.dp.get g) ∧ x.dp.saved = x.dp.get g := fun hne => by
    obtain ⟨g', hop', hrows, hsaved⟩ := hrounds hne
    rw [hop] at hop'
    cases hop'
    exact ⟨hrows, hsaved⟩
  by_cases hlt : x.seq.t < Config.rounds
  · have hrun : (MicroOp.salsa g).run x = { x with
        dp := { x.dp with rows := salsaRounds (x.seq.t + 1) (x.dp.get g), saved := x.dp.get g }, seq := { x.seq with t := x.seq.t + 1 } } := by
      by_cases hzero : x.seq.t = 0
      · simp [MicroOp.run, MicroOp.effect, MicroOp.advance, opSalsa, State.nextRound, salsaRounds, hzero, Config.rounds]
      · simp [MicroOp.run, MicroOp.effect, MicroOp.advance, opSalsa, State.nextRound, salsaRounds, hzero, hlt, started hzero]
    rw [hrun]
    exact ⟨hbusy, hport.of_eq rfl rfl, ⟨hsame.mem, hsame.platform, hsame.regs, hsame.writes⟩, hissued, hbase,
      fun _ => ⟨g, hop, rfl, rfl⟩, herror⟩
  · have hend : x.seq.t = Config.rounds := Nat.le_antisymm ht (Nat.not_lt.1 hlt)
    obtain ⟨hrows, hsaved⟩ := started (by rw [hend]; decide)
    have hrun : (MicroOp.salsa g).run x = (x.setBlk g (salsaCore (x.dp.get g))).nextOp := by
      simp [MicroOp.run, MicroOp.effect, MicroOp.advance, opSalsa, salsaCore, hrows, hsaved, hend]
    have hb := hbase (List.getElem?_eq_some_iff.1 hop).1
    have hresult : (MicroOp.salsa g).result x = (MicroOp.salsa g).result (computeAll (y.blockOps.take x.seq.q) y) := by
      simp only [MicroOp.result, hsame.regs g List.not_mem_nil]
    have hfill := hsame.fill rfl hresult
    rw [hrun]
    refine lockstep_next hop hbusy (hport.of_eq rfl rfl) ⟨hfill.mem, hfill.platform, hfill.regs, hfill.writes⟩ ?_ rfl
      (fun _ => (State.baseAddr_setBlk _ _ _).trans hb) herror
    have hsnoc := hissued.snoc (op := .salsa g) (ws' := []) hb nofun
    rwa [List.append_nil] at hsnoc

/-- What a failing request has recorded and buffered. -/
theorem Lockstep.failRequest (h : Lockstep y x) (hop : y.blockOps[x.seq.q]? = some op) {q : Request} (hreq : op.request x = some q)
    (hfails : q.fails x.platform = true) :
    Matches y (y.blockOps.take x.seq.q ++ [op]) ((op.place x).failRequest q) op.loadDst
      ∧ Issued y (y.blockOps.take x.seq.q ++ [op]) ((op.place x).failRequest q).trace ((op.place x).failRequest q).wbuf := by
  have hbase := h.base_at hop
  have hplace : op.place x = x.record q := by rw [MicroOp.place, hreq]
  have hrecord : op.request (x.record q) = some q := by
    rw [← hreq]
    cases op <;> rfl
  have hissued := fun ws' hnew => h.issued.snoc (op := op) (ws' := ws') hbase hnew
  rw [hplace] at hissued ⊢
  refine ⟨(hplace ▸ h.same.place op).failRequest hbase hrecord hfails, ?_⟩
  rw [State.failRequest_trace]
  unfold State.failRequest
  split
  next hwrite =>
    refine hissued [_] fun q' hq' => ⟨_, List.mem_singleton.2 rfl, ?_⟩
    obtain ⟨hq', _⟩ := MicroOp.mem_storeReq hq'
    rw [hreq] at hq'
    cases hq'
    rfl
  next hread =>
    have hsnoc := hissued [] fun q' hq' => ?_
    · rwa [List.append_nil] at hsnoc
    · obtain ⟨hq', hwrite⟩ := MicroOp.mem_storeReq hq'
      rw [hreq] at hq'
      cases hq'
      exact absurd hwrite hread

/-- A failing request stops the command, but a streaming store's lets the sequence go on (R286). -/
theorem Lockstep.busError (h : Lockstep y x) (hop : x.blockOps[x.seq.q]? = some op) (hops : x.blockOps = y.blockOps) (hwb : y.wbuf = [])
    (hapart : WritesApart y y.blockOps) {q : Request} (hreq : op.request x = some q) (hin : q.inSpace = true)
    (hfails : q.fails x.platform = true) (hzeroize : x.seq.phase ≠ .zeroize) (hsmix : x.isSmix = false) :
    Lockstep y (Machine.busError op q (op.place x)) ∨ Ended y (Machine.busError op q (op.place x)) := by
  rw [hops] at hop
  obtain ⟨hsame, hissued⟩ := h.failRequest hop hreq hfails
  have hplace : op.place x = x.record q := by rw [MicroOp.place, hreq]
  have hport : PortOk ((op.place x).failRequest q) := portOk_failRequest (hplace ▸ h.port.of_eq rfl rfl) hin
  have herror : ∃ q : Request, q.fails y.platform = true := ⟨q, h.same.platform ▸ hfails⟩
  have hbase : ((op.place x).failRequest q).baseAddr = y.baseAddr := by
    rw [State.baseAddr_failRequest, op.baseAddr_place, h.base_at hop]
  unfold Machine.busError
  rw [op.place_seq, if_neg hzeroize]
  split
  next hstream =>
    have hdst : op.loadDst = [] := by
      rcases MicroOp.loadDst_cases hreq with ⟨hdst, _⟩ | ⟨hread, _⟩
      · exact hdst
      · rw [hstream] at hread
        cases hread
    rw [hdst] at hsame
    refine .inl (lockstep_next hop ?_ (hport.of_eq rfl rfl) ⟨hsame.mem, hsame.platform, hsame.regs, hsame.writes⟩ hissued ?_
      (fun _ => hbase) fun _ => herror)
    · rw [streamError, State.nextOp_status, State.failRequest_status, hplace]
      exact h.busy
    · rw [streamError, State.nextOp_seq, State.failRequest_seq, op.place_seq]
  next =>
    have hrest : (op.place x).blockOps.drop ((op.place x).seq.q + 1) = y.blockOps.drop (x.seq.q + 1) := by
      rw [hplace, ← hops]
      rfl
    rw [errorStop, hrest]
    refine .inr (ended_stop hport hsame hissued ?_ hwb hapart (fun _ => hbase) ?_ herror)
    · rw [List.append_assoc, List.singleton_append]
      exact State.blockOps_split hop
    · rw [hplace, State.isSmix, State.failRequest_latched]
      exact hsmix

end

/-! ### The steps -/

section
variable {i : Instr} {y x : State}

/-- Only SMIX goes on after a block sequence (R252). -/
theorem RunsCommand.endBlock_eq (h : RunsCommand i x) (hi : i ≠ .smix) : Machine.endBlock x = x.complete := by
  have hsmix : x.isSmix = false := Bool.eq_false_iff.2 fun hx => hi (h.isSmix_iff.1 hx)
  have hphase := h.phase_mem
  have only : ∀ ph ∈ phasesOf i, ph ≠ .fill ∧ ph ≠ .fence ∧ ph ≠ .mix := by
    revert hi
    cases i <;> decide
  obtain ⟨hfill, hfence, hmix⟩ := only _ hphase
  unfold Machine.endBlock
  split
  case h_2 hp => exact absurd hp hfill
  case h_3 hp => exact absurd hp hfence
  case h_4 hp => exact absurd hp hmix
  case h_1 | h_5 => exact if_neg (by simp [hsmix])
  all_goals rfl

theorem Lockstep.countArrival (h : Lockstep y x) : Lockstep y x.countArrival := by
  unfold State.countArrival
  split
  · exact ⟨h.busy, h.port.of_eq rfl rfl, ⟨h.same.mem, h.same.platform, h.same.regs, h.same.writes⟩, h.issued, h.base, h.rounds, h.error⟩
  · exact h

theorem RunsCommand.countArrival (h : RunsCommand i x) : RunsCommand i x.countArrival := by
  unfold State.countArrival
  split
  · exact h.of_eq rfl rfl rfl rfl rfl rfl rfl rfl id
  · exact h

/-- An engine step keeps in step with the reference run or ends the command (R84, R286). -/
theorem Lockstep.engineStep (h : Lockstep y x) (hx : RunsCommand i x) (hsmix : i ≠ .smix) (hzeroize : i ≠ .zeroize)
    (hops : x.blockOps = y.blockOps) (hwb : y.wbuf = []) (hapart : WritesApart y y.blockOps) {t : State}
    (ht : Machine.engineStep x = .next t) : Lockstep y t ∨ Ended y t := by
  have herror : x.errorArrives = true → ∃ q : Request, q.fails y.platform = true := fun ha => h.error (by
    simp only [State.errorArrives, State.errorInFlight, Bool.and_eq_true] at ha
    exact ha.1.1)
  rw [← x.countArrival_blockOps] at hops
  have hcases := engineStep_cases ht
  replace h := h.countArrival
  replace hx := hx.countArrival
  generalize x.countArrival = z at *
  have hnot : z.isSmix = false := Bool.eq_false_iff.2 fun hz => hsmix (hx.isSmix_iff.1 hz)
  have hphase : z.seq.phase ≠ .zeroize := by
    have only : ∀ ph ∈ phasesOf i, ph ≠ .zeroize := by
      revert hsmix hzeroize
      cases i <;> decide
    exact only _ hx.phase_mem
  obtain ⟨_, _, _, hround⟩ := hx.position
  rcases hcases with ⟨ha, rfl⟩ | ⟨_, hseq⟩
  · rw [lateStop, hops]
    refine .inr (ended_stop h.port h.same h.issued (List.take_append_drop _ _).symm hwb hapart (fun hrest => h.base ?_) hnot (herror ha))
    exact Nat.not_le.1 (mt List.drop_eq_nil_iff.2 hrest)
  rcases sequencerStep_cases hseq with ⟨op, hop, hperf⟩ | ⟨hend, rfl⟩
  · rcases performOp_place hperf with ⟨rfl, hin⟩ | ⟨q, hreq, hin, hfails, rfl⟩
    · refine .inl ?_
      have hop' := hops ▸ hop
      by_cases hsalsa : ∃ g, op = .salsa g
      · obtain ⟨g, rfl⟩ := hsalsa
        exact h.salsa hop' hround
      · have hrecord : op.request (op.place z) = op.request z := by
          rcases op.place_eq z with hz | ⟨q, hz⟩ <;> rw [hz]
          cases op <;> rfl
        refine h.run hop' hwb hapart (fun g hg => hsalsa ⟨g, hg⟩) (portOk_run ?_ fun q hq => hin q (hrecord ▸ hq))
        rcases op.place_eq z with hz | ⟨q, hz⟩ <;> rw [hz]
        · exact h.port
        · exact h.port.of_eq rfl rfl
    · exact h.busError hop hops hwb hapart hreq hin hfails hphase hnot
  · have hall : y.blockOps.take z.seq.q = y.blockOps := by
      rw [← hops]
      exact List.take_of_length_le (List.getElem?_eq_none_iff.1 hend)
    obtain ⟨_, hport, hsame, hissued, _⟩ := h
    rw [hall] at hsame hissued
    rw [hx.endBlock_eq hsmix]
    exact .inr (ended_complete (rest := []) hport hsame.mem (List.append_nil _).symm hissued hsame.writes fun hne => absurd rfl hne)

end

end Sys2Proof.Machine

/-! PROOFS. However a command ends, each write is whole with its reference value or absent (60_exceptions.md R286). -/

namespace Sys2Proof.Machine

/-! ### From acceptance to the end -/

section
variable {i : Instr} {s : State}

/-- A command but SMIX has one block sequence (R252). -/
theorem RunsCommand.blockOps_started {x : State} (h : RunsCommand i x) (hsmix : i ≠ .smix) (hl : x.latched = (s.started i).latched) :
    x.blockOps = (s.started i).blockOps := by
  have only : ∀ ph ∈ phasesOf i, ph = firstPhase i ∧ ph ≠ .fill ∧ ph ≠ .mix := by
    revert hsmix
    cases i <;> decide
  obtain ⟨hphase, hfill, hmix⟩ := only _ h.phase_mem
  obtain ⟨_, hiter, _⟩ := h.position
  rw [if_neg (not_or.2 ⟨hfill, hmix⟩)] at hiter
  refine State.blockOps_congr hl ?_ ?_
  · rw [hphase]
    rfl
  · rw [hiter]
    rfl

theorem lockstep_started (hs : Settled s) (i : Instr) : Lockstep (s.started i) (s.started i) := by
  obtain ⟨hwf, hw⟩ := hs
  have hwb : (s.started i).wbuf = [] := hw
  refine ⟨rfl, ⟨hwf, hwb ▸ bufferOk_nil⟩, ⟨rfl, rfl, fun _ _ => rfl, ?_⟩, ⟨⟨[], rfl, rfl⟩, nofun⟩, fun _ => rfl,
    fun ht => absurd rfl ht, nofun⟩
  rw [hwb]
  nofun

/-- Every run of a command but SMIX and ZEROIZE ends with writes of the reference run. -/
theorem exec_ended (hsmix : i ≠ .smix) (hzeroize : i ≠ .zeroize) (ha : Accepts i s) (hs : Settled s) {t : State}
    (h : exec i s = .next t) : Ended (s.started i) t := by
  have hrun := exec_induct_step ha h (P := fun x => Lockstep (s.started i) x ∨ Ended (s.started i) x) (.inl (lockstep_started hs i))
    fun x v hx hb hframe hP hv => by
      rcases hP with hP | ⟨_, _, _, hP⟩
      · exact hP.engineStep hx hsmix hzeroize (hx.blockOps_started hsmix hframe.latched) hs.2 (ha.startsApart hsmix hzeroize) hv
      · exact absurd (hb.symm.trans hP.idle) (by decide)
  rcases hrun with hlock | hend
  · exact absurd (hlock.busy.symm.trans (exec_idle ha h)) (by decide)
  · exact hend

theorem compute_withoutErrors (op : MicroOp) (y : State) : op.compute y.withoutErrors = (op.compute y).withoutErrors := by
  cases op <;> rfl

/-- The reference values do not depend on which requests fail. -/
theorem referenceWrites_withoutErrors (ops : List MicroOp) (y : State) : referenceWrites ops y.withoutErrors = referenceWrites ops y := by
  induction ops generalizing y with
  | nil => rfl
  | cons op ops ih =>
    rw [referenceWrites, compute_withoutErrors, ih, referenceWrites]
    cases op <;> rfl

/-- Nor does where the writes lie. -/
theorem WritesApart.withoutErrors {y : State} {ops : List MicroOp} (h : WritesApart y ops) : WritesApart y.withoutErrors ops := by
  have hreq : ∀ op : MicroOp, op.storeReq y.withoutErrors = op.storeReq y := MicroOp.storeReq_congr rfl
  refine ⟨h.before.imp fun hb => ⟨hb.plain, ?_, ?_⟩, h.noFence, h.noZeroEnd⟩
  · rw [hreq]
    exact hb.load
  · rw [hreq, hreq]
    exact hb.store

theorem Accepts.withoutErrors (ha : Accepts i s) : Accepts i s.withoutErrors := by
  obtain ⟨hb, hcheck, hordinary, hwindow⟩ := ha
  refine ⟨hb, Eq.trans ?_ hcheck, Eq.trans ?_ hordinary, Eq.trans ?_ hwindow⟩ <;> cases i <;> rfl

theorem started_withoutErrors (i : Instr) (s : State) : s.withoutErrors.started i = (s.started i).withoutErrors := by
  cases i <;> rfl

end

/-! ### What memory holds at the end -/

/-- Of blocks that do not meet, one at most holds a byte. -/
theorem eq_of_apart {α : Type} {f : α → Nat} {l : List α} (h : l.Pairwise fun x y => Apart 64 (f x) (f y)) {x y : α} (hx : x ∈ l)
    (hy : y ∈ l) {a : Nat} (hax : inBlock (f x) a) (hay : inBlock (f y) a) : x = y := by
  by_contra hne
  have : Std.Symm fun x y : α => Apart 64 (f x) (f y) := ⟨fun _ _ => Apart.symm⟩
  have hapart := h.forall hx hy hne
  simp only [inBlock, Apart, Config.blockBytes] at hax hay hapart
  omega

/-- Where one value alone is written, its byte is read. -/
theorem foldl_patch_eq {ws : List PendingWrite} {v : PendingWrite} {a : Nat} (hv : v ∈ ws) (hin : inBlock v.addr a)
    (honly : ∀ w ∈ ws, inBlock w.addr a → w = v) (b : Byte) : ws.foldl (fun b w => w.patch a b) b = v.data.byte (a - v.addr) := by
  induction ws using List.reverseRecOn with
  | nil => cases hv
  | append_singleton ws w ih =>
    rw [List.foldl_append]
    by_cases hw : inBlock w.addr a
    · rw [honly w (by simp) hw]
      exact if_pos hin
    · refine (if_neg hw).trans (ih ?_ fun w' hw' => honly w' (List.mem_append_left _ hw'))
      rcases List.mem_append.1 hv with hv | hv
      · exact hv
      · exact absurd (List.mem_singleton.1 hv ▸ hin) hw

section
variable {y t : State} {done rest : List MicroOp} {ws : List PendingWrite}

theorem WritesApart.storesApart {ops : List MicroOp} (h : WritesApart y ops) : StoresApart (storeReqs y ops) :=
  List.pairwise_filterMap.2 (h.before.imp fun hb => hb.store)

theorem WritesApart.referenceApart {ops : List MicroOp} (h : WritesApart y ops) :
    (referenceWrites ops y).Pairwise fun w w' => Apart 64 w.addr w'.addr := by
  rw [← List.pairwise_map (f := PendingWrite.addr) (R := Apart 64), referenceWrites_addr ops (y := y) rfl]
  exact List.pairwise_map.2 h.storesApart

/-- A byte of a write that does not fail is written with its reference value alone. -/
theorem EndsWith.eq_reference (h : EndsWith y t done rest ws) (hapart : WritesApart y y.blockOps) {q : Request}
    (hq : q ∈ storeReqs y y.blockOps) (hfails : q.fails y.platform = false) {v : PendingWrite} (hv : v ∈ referenceWrites y.blockOps y)
    (haddr : v.addr = q.addr) {a : Nat} (ha : inBlock q.addr a) : ∀ w ∈ ws, inBlock w.addr a → w = v := fun w hw hin => by
  obtain ⟨q', hq', haddr', hval⟩ := h.writes w hw
  obtain rfl := eq_of_apart hapart.storesApart hq' hq (haddr' ▸ hin) ha
  rcases hval with href | hf
  · exact eq_of_apart hapart.referenceApart href hv hin (haddr ▸ ha)
  · rw [hfails] at hf
    cases hf

/-- A write performed is read whole. -/
theorem EndsWith.read_performed (h : EndsWith y t done rest ws) (hapart : WritesApart y y.blockOps) {q : Request}
    (hq : q ∈ storeReqs y y.blockOps) (hfails : q.fails y.platform = false) {v : PendingWrite} (hv : v ∈ referenceWrites y.blockOps y)
    (haddr : v.addr = q.addr) {a : Nat} (ha : inBlock q.addr a) (hperf : ∃ w ∈ ws, w.addr = q.addr) :
    t.mem.read a = v.data.byte (a - v.addr) := by
  have honly := h.eq_reference hapart hq hfails hv haddr ha
  obtain ⟨w, hw, hwa⟩ := hperf
  obtain rfl := honly w hw (hwa ▸ ha)
  rw [h.reads]
  exact foldl_patch_eq hw (hwa ▸ ha) honly _

/-- A write not performed leaves its bytes. -/
theorem EndsWith.read_absent (h : EndsWith y t done rest ws) (hapart : WritesApart y y.blockOps) {q : Request}
    (hq : q ∈ storeReqs y y.blockOps) (hfails : q.fails y.platform = false) {v : PendingWrite} (hv : v ∈ referenceWrites y.blockOps y)
    (haddr : v.addr = q.addr) {a : Nat} (ha : inBlock q.addr a) (hperf : ¬ ∃ w ∈ ws, w.addr = q.addr) :
    t.mem.read a = y.mem.read a := by
  rw [h.reads]
  refine foldl_patch_outside (fun w hw hin => hperf ⟨w, hw, ?_⟩) _
  rw [h.eq_reference hapart hq hfails hv haddr ha w hw hin, haddr]

/-- No byte outside the reference run's writes changes. -/
theorem EndsWith.read_outside (h : EndsWith y t done rest ws) {a : Nat} (ha : ∀ q ∈ storeReqs y y.blockOps, ¬ inBlock q.addr a) :
    t.mem.read a = y.mem.read a := by
  rw [h.reads]
  refine foldl_patch_outside (fun w hw hin => ?_) _
  obtain ⟨q, hq, haddr, _⟩ := h.writes w hw
  exact ha q hq (haddr ▸ hin)

/-- Without errors the whole block sequence is performed. -/
theorem EndsWith.whole (h : EndsWith y t done rest ws) (hbus : y.platform.busErr = []) : rest = [] := by
  by_contra hne
  obtain ⟨q, hq⟩ := h.failed hne
  simp [Request.fails, hbus] at hq

/-- A run and its reference run: each write that does not fail is whole or absent, whole once issued, and nothing else changes. -/
theorem EndsWith.oldOrReference (h : EndsWith y t done rest ws) (hapart : WritesApart y y.blockOps) {u : State} {done' rest' : List MicroOp}
    {ws' : List PendingWrite} (h' : EndsWith y.withoutErrors u done' rest' ws') :
    ∃ new ref : List Request, t.trace = new.reverse ++ y.trace ∧ u.trace = ref.reverse ++ y.trace
      ∧ (∀ q ∈ ref, q.kind.isWrite = true → q.fails y.platform = false →
        (∀ a, inBlock q.addr a → t.mem.read a = y.mem.read a)
          ∨ ∀ a, inBlock q.addr a → t.mem.read a = u.mem.read a)
      ∧ (∀ q ∈ new, q.kind.isWrite = true → q.fails y.platform = false →
        ∀ a, inBlock q.addr a → t.mem.read a = u.mem.read a)
      ∧ ∀ a, (∀ q ∈ ref, q.kind.isWrite = true → ¬ inBlock q.addr a) → t.mem.read a = y.mem.read a := by
  have hops : y.withoutErrors.blockOps = y.blockOps := rfl
  have hreqs : storeReqs y.withoutErrors = storeReqs y := funext fun ops => storeReqs_congr rfl ops
  obtain rfl := h'.whole rfl
  obtain rfl : done' = y.blockOps := ((List.append_nil _).symm.trans h'.ops.symm).trans hops
  obtain ⟨⟨new, htr, hnew⟩, hbuf⟩ := h.issued
  obtain ⟨⟨ref, htr', href⟩, hbuf'⟩ := h'.issued
  rw [hreqs] at href hbuf'
  have inRef : ∀ {q}, q ∈ storeReqs y y.blockOps ↔ q ∈ ref ∧ q.kind.isWrite = true := by
    rw [← href]
    exact List.mem_filter
  have value : ∀ q ∈ storeReqs y y.blockOps, ∃ v ∈ referenceWrites y.blockOps y, v.addr = q.addr := fun q hq => by
    have hmem := List.mem_map_of_mem (f := Request.addr) hq
    rw [← referenceWrites_addr y.blockOps (s := y) rfl] at hmem
    exact List.mem_map.1 hmem
  have whole : ∀ q ∈ storeReqs y y.blockOps, ∀ v ∈ referenceWrites y.blockOps y, v.addr = q.addr → ∀ a, inBlock q.addr a →
      u.mem.read a = v.data.byte (a - v.addr) := fun q hq v hv haddr a ha => by
    rw [← hops, ← referenceWrites_withoutErrors] at hv
    exact h'.read_performed hapart.withoutErrors (by rwa [hreqs]) (by simp [Request.fails, State.withoutErrors]) hv haddr ha (hbuf' q hq)
  have performed : ∀ q ∈ storeReqs y y.blockOps, q.fails y.platform = false → (∃ w ∈ ws, w.addr = q.addr) →
      ∀ a, inBlock q.addr a → t.mem.read a = u.mem.read a := fun q hq hfails hperf a ha => by
    obtain ⟨v, hv, haddr⟩ := value q hq
    rw [h.read_performed hapart hq hfails hv haddr ha hperf, whole q hq v hv haddr a ha]
  refine ⟨new, ref, htr, htr', fun q hq hw hfails => ?_, fun q hq hw hfails => ?_, fun a ha => ?_⟩
  · have hq := inRef.2 ⟨hq, hw⟩
    by_cases hperf : ∃ w ∈ ws, w.addr = q.addr
    · exact .inr (performed q hq hfails hperf)
    · obtain ⟨v, hv, haddr⟩ := value q hq
      exact .inl fun a ha => h.read_absent hapart hq hfails hv haddr ha hperf
  · have hq : q ∈ storeReqs y done := hnew ▸ List.mem_filter.2 ⟨hq, hw⟩
    refine performed q ?_ hfails (hbuf q hq)
    rw [h.ops, storeReqs_append]
    exact List.mem_append_left _ hq
  · exact h.read_outside fun q hq => ha q (inRef.1 hq).1 (inRef.1 hq).2

end

/-- Settles O56: the command and its reference run both end with writes of the one block sequence, whose blocks do not meet, and the
reference run with all of them. -/
theorem errorStopLeavesOldOrReferenceValues : Obligations.ErrorStopLeavesOldOrReferenceValues := by
  intro i s t u hsmix hzeroize ha hs ht hu
  obtain ⟨done, rest, ws, hend⟩ := exec_ended hsmix hzeroize ha hs ht
  obtain ⟨done', rest', ws', hend'⟩ := exec_ended hsmix hzeroize ha.withoutErrors hs hu
  rw [started_withoutErrors] at hend'
  exact hend.oldOrReference (ha.startsApart hsmix hzeroize) hend'

end Sys2Proof.Machine

/-! PROOFS. The command words and the decoder are each other's inverse, and what the step does with a write of CMD and with an
ill-formed access (30_encoding.md R100 to R103, R110; 44_controller.md R240, R252). -/

namespace Sys2Proof

/-! ### Decode and encode -/

/-- Each command's word is legal by the field rules (R100 to R103). -/
theorem legalWord (i : Instr) : Laws.LegalWord.Statement i := by
  cases i with
  | smix => exact Laws.LegalWord.smix
  | prepare => exact Laws.LegalWord.prepare
  | restore => exact Laws.LegalWord.restore
  | blockmixNone => exact Laws.LegalWord.blockmixNone
  | blockmixCopy => exact Laws.LegalWord.blockmixCopy
  | blockmixXor => exact Laws.LegalWord.blockmixXor
  | integerify => exact Laws.LegalWord.integerify
  | salsa8 => exact Laws.LegalWord.salsa8
  | salsa8Nat => exact Laws.LegalWord.salsa8Nat
  | zeroize => exact Laws.LegalWord.zeroize

/-- The word of a command decodes to it (R103). -/
@[simp] theorem decode_encode (i : Instr) : decode (encode i) = .ok i := by
  obtain ⟨_, _, _, _, hdecode⟩ := legalWord i
  exact hdecode

/-- A command's word is the only one that decodes to it (R102, R103). -/
theorem decode_eq_ok_iff (v : Reg64) (i : Instr) : decode v = .ok i ↔ v = encode i := by
  constructor
  · exact eq_encode_of_decode
  · rintro rfl
    exact decode_encode i

/-- Settles O1: `decode_eq_ok_iff`, and `encode` evaluated at each command. -/
theorem decodeExactlyTheTable : Obligations.DecodeExactlyTheTable :=
  ⟨decode_eq_ok_iff, rfl, rfl, rfl, rfl, rfl, rfl, rfl, rfl, rfl, rfl⟩

/-- Settles O2: the table words are the commands' words, which decode to them. -/
theorem tableWordsDecode : Obligations.TableWordsDecode :=
  ⟨decode_encode .smix, decode_encode .prepare, decode_encode .restore, decode_encode .blockmixNone, decode_encode .blockmixCopy,
    decode_encode .blockmixXor, decode_encode .integerify, decode_encode .salsa8, decode_encode .salsa8Nat, decode_encode .zeroize⟩

/-- An access is 8 bytes wide at a multiple of 8 (R110). -/
theorem Access.wellFormed_iff (a : Access) : a.wellFormed = true ↔ a.size = 8 ∧ a.offset.toNat % 8 = 0 := by
  simp only [Access.wellFormed, Bool.and_eq_true, beq_iff_eq]

end Sys2Proof

namespace Sys2Proof.Machine

/-! ### A write of CMD while idle (R240, R252) -/

/-- At the whole-command pace the decoded command runs to its end. -/
theorem writeCmd_wholeCommand {v : Reg64} {i : Instr} {s : State} (hidle : s.status.busy = false) (hdecode : decode v = .ok i)
    (hpace : s.pace = .wholeCommand) : writeCmd v s = exec i s := by
  simp [writeCmd, hidle, hdecode, hpace]

/-- At the pace of micro-operations only the acceptance step is taken. -/
theorem writeCmd_microOp {v : Reg64} {i : Instr} {s : State} (hidle : s.status.busy = false) (hdecode : decode v = .ok i)
    (hpace : s.pace = .microOp) : writeCmd v s = issueCommand i s := by
  simp [writeCmd, hidle, hdecode, hpace]

/-- An ILLEGAL word is rejected at either pace (R104). -/
theorem writeCmd_illegal {v : Reg64} {e : Illegal} {s : State} (hidle : s.status.busy = false) (hdecode : decode v = .error e) :
    writeCmd v s = .next (s.rejectIllegal v) := by
  simp [writeCmd, hidle, hdecode]

/-- Settles O4: the host's write reaches `writeCmd`, which decodes the word. -/
theorem stepRunsDecodedCommand : Obligations.StepRunsDecodedCommand := by
  intro s v rest hin hidle
  have hstep : step s = writeCmd v ((s.popInput rest).respond 0#64 false) :=
    (step_write hin rfl).trans (writeOffset_reg .cmd v _)
  rw [hstep]
  exact ⟨fun _ hdecode hpace => writeCmd_wholeCommand hidle hdecode hpace,
    fun _ hdecode hpace => writeCmd_microOp hidle hdecode hpace, fun _ hdecode => writeCmd_illegal hidle hdecode⟩

/-! ### Ill-formed accesses (R110) -/

/-- An ill-formed access only answers, with an error. -/
theorem hostAccess_illFormed {a : Access} (h : ¬ a.wellFormed = true) (s : State) : hostAccess a s = .next (s.respond 0#64 true) := by
  simp [hostAccess, h]

/-- Settles O51: such an access is ill-formed, and beside the answer the step only takes it off the queue. -/
theorem illFormedAccessAnswersError : Obligations.IllFormedAccessAnswersError := by
  intro s a rest hin hbad
  have hill : ¬ a.wellFormed = true := by
    rw [a.wellFormed_iff]
    omega
  have hstep : step s = hostAccess a (s.popInput rest) := by
    simp only [step, hin, takeInput]
  exact hstep.trans (hostAccess_illFormed hill _)

end Sys2Proof.Machine

/-! PROOFS. The core on the two layouts and on the zero block (40_salsa_core.md R132 to R138, 41_blockops.md R166). -/

namespace Sys2Proof

/-- Settles O38: the core on the diagonal layout is the scalar Salsa20/8, and UNDIAG undoes DIAG. -/
theorem salsaCoreAgreesWithScalarSalsa : Obligations.SalsaCoreAgreesWithScalarSalsa := fun n => by
  rw [salsaCore_diag, undiag_diag]

/-- Settles O40: `transposedLayout` is the layout between the two rounds. -/
theorem roundsAlternateColumnsAndRows : Obligations.RoundsAlternateColumnsAndRows := fun z =>
  ⟨evenRound_diag z, oddRound_transposedLayout z⟩

@[simp] theorem word_zeroBlock (p : Fin 16) : Machine.zeroBlock.word p = 0#32 := by
  fin_cases p <;> rfl

/-- Either round fixes the zero block. -/
theorem salsaRound_zeroBlock (t : Nat) : salsaRound t Machine.zeroBlock = Machine.zeroBlock := by
  unfold salsaRound
  split <;> rfl

theorem salsaRounds_zeroBlock (t : Nat) : salsaRounds t Machine.zeroBlock = Machine.zeroBlock := by
  induction t with
  | zero => rfl
  | succ t ih => rw [salsaRounds, ih, salsaRound_zeroBlock]

/-- The core fixes the zero block (R138): its rounds do, and adding zeros to zeros leaves zeros. -/
theorem salsaCore_zeroBlock : salsaCore Machine.zeroBlock = Machine.zeroBlock := by
  rw [salsaCore, salsaRounds_zeroBlock]
  rfl

theorem Block.xorb_self (a : Block) : a.xorb a = Machine.zeroBlock := by
  apply Block.ext_word
  simp

theorem Block.xorb_zeroBlock (a : Block) : a.xorb Machine.zeroBlock = a := by
  apply Block.ext_word
  simp

/-- Settles O41: the core round by round, XORB word by word. -/
theorem zeroBlocksAndXor : Obligations.ZeroBlocksAndXor :=
  ⟨salsaCore_zeroBlock, fun a => ⟨a.xorb_self, a.xorb_zeroBlock⟩⟩

end Sys2Proof

/-! PROOFS. A command of one block sequence, run whole: every request served, or the first one failing (44_controller.md R252, R285,
60_exceptions.md R286). -/

namespace Sys2Proof.Machine

section
variable {i : Instr} {s : State}

/-- The budget of a command covers its first block sequence (R343). -/
theorem Accepts.seqCost_le (ha : Accepts i s) :
    seqCost (s.started i).blockOps ≤ commandBudget i (s.started i).latched.r.toNat (s.started i).latched.n.toNat := by
  refine le_trans ?_ ha.stepsLeft_le
  rw [← seqLeft_zero]
  exact Nat.le_add_right _ _

/-- A command that is idle after steps no more than its first block sequence takes has ended there. -/
theorem Accepts.exec_of_steps (ha : Accepts i s) {k : Nat} {t : State} (h : Steps k (s.started i) t) (hidle : t.status.busy = false)
    (hk : k ≤ seqCost (s.started i).blockOps) : exec i s = .next t := by
  obtain ⟨d, hd⟩ := Nat.exists_eq_add_of_le (hk.trans ha.seqCost_le)
  rw [exec_eq_runCommand, runCommand_accepts ha]
  have hrun := h d
  rw [← hd, runToIdle_idle _ _ hidle] at hrun
  exact hrun

theorem running_started (i : Instr) (s : State) : Running (s.started i) := ⟨rfl, rfl⟩

theorem State.isSmix_of_started {u : State} (hi : i ≠ .smix) (hl : u.latched = (s.started i).latched) : u.isSmix = false := by
  rw [State.isSmix, hl]
  exact decide_eq_false fun h => hi (Option.some.inj h)

theorem State.zeroizing_of_started {u : State} (hl : u.latched = (s.started i).latched) : u.zeroizing = zeroizes i := by
  rw [State.zeroizing, hl]
  rfl

/-- The end of the block sequence is the end of a command but SMIX (R252). -/
theorem endBlock_of_started {u : State} (hi : i ≠ .smix) (hl : u.latched = (s.started i).latched) (hp : u.seq.phase = firstPhase i) :
    endBlock u = u.complete := by
  have hsmix := State.isSmix_of_started hi hl
  cases i with
  | smix => exact absurd rfl hi
  | prepare | restore => simp [endBlock, hp, firstPhase, hsmix]
  | _ => simp [endBlock, hp, firstPhase]

/-- A command but SMIX whose requests are served performs its block sequence and completes (R252, R285). -/
theorem Accepts.exec_of_servedAll (ha : Accepts i s) (hi : i ≠ .smix) (hs : ServedAll (s.started i).blockOps (s.started i)) :
    exec i s = .next (performAll (s.started i).blockOps (s.started i)).complete := by
  have hsteps := (running_started i s).steps_block rfl rfl hs
  rw [endBlock_of_started hi (performAll_latched _ _) (by rw [performAll_seq _ rfl]; rfl)] at hsteps
  exact ha.exec_of_steps hsteps rfl le_rfl

/-- A command that does not zeroize and performs plain micro-operations completes without an error, SWAP and PROGRESS as
acceptance set them (R285). -/
theorem completedOk_performAll {ops : List MicroOp} (hz : zeroizes i = false) (hplain : ∀ op ∈ ops, op.IsPlain) :
    CompletedOk i s (performAll ops (s.started i)).complete (s.started i).status.swap false 0 := by
  have hquiet := quiet_performAll (fun op ho => (hplain op ho).2.2 .j) (s.started i)
  have hsteady := steady_performAll hplain (s.started i)
  have hframe := hquiet.frame.trans (stepFrame_complete _)
  generalize performAll ops (s.started i) = v at hquiet hsteady hframe
  have hnone : v.pendingErr = none := hquiet.pendingErr
  have hzeroizing : v.zeroizing = false := (State.zeroizing_of_started hsteady.latched).trans hz
  exact
    { status := by rw [State.complete_status, hnone, hzeroizing, hsteady.status]; rfl
      cmd := hframe.cmd
      errInfo := (complete_noError hnone).1.trans hquiet.errInfo
      errAddr := (complete_noError hnone).2.trans hquiet.errAddr
      progress := by rw [State.complete_progress, hsteady.progress]; rfl
      seq := State.complete_seq v
      wbuf := State.complete_wbuf v
      outside := hframe.outside }

/-- A command but SMIX that stops ends, its later writes performed or not (R286 items 4 to 8). -/
theorem State.stopCommand_of_not_smix {u : State} (h : u.isSmix = false) (ops : List MicroOp) (lost : List BlkReg) :
    u.stopCommand ops lost = (u.laterWrites ops lost).complete := by
  simp [State.stopCommand, State.beforeRestore, h]

/-- Outside ZERO_SEQ a failing request that is no streaming store's stops the command (R286, R287). -/
theorem busError_of_stops {op : MicroOp} {q : Request} {u : State} (hphase : u.seq.phase ≠ .zeroize) (hkind : q.kind ≠ .writeNonTemporal) :
    busError op q u = errorStop op q u := by
  rw [busError, if_neg hphase, if_neg hkind]

/-- A command but SMIX and ZEROIZE whose first request fails, and is no streaming store's, ends there (R286). -/
theorem Accepts.exec_of_firstFails (ha : Accepts i s) (hi : i ≠ .smix) (hphase : firstPhase i ≠ .zeroize) {op : MicroOp}
    {rest : List MicroOp} {q : Request} (hops : (s.started i).blockOps = op :: rest) (hq : op.request (s.started i) = some q)
    (hkind : q.kind ≠ .writeNonTemporal) (hin : q.inSpace = true) (halign : q.isAligned = true) (hfails : q.fails s.platform = true) :
    exec i s = .next ((((s.started i).record q).failRequest q).laterWrites rest op.loadDst).complete := by
  have hfails : q.fails (s.started i).platform = true := hfails
  have hblockOps : ((s.started i).record q).blockOps.drop 1 = rest := congrArg (List.drop 1) hops
  have hbus : busError op q ((s.started i).record q)
      = ((((s.started i).record q).failRequest q).laterWrites rest op.loadDst).complete := by
    rw [busError_of_stops hphase hkind, errorStop, State.stopCommand_of_not_smix (State.isSmix_of_started (s := s) hi (by simp))]
    exact congrArg (fun ops => State.complete (State.laterWrites _ ops _)) hblockOps
  have hstep : engineStep (s.started i) = .next (busError op q ((s.started i).record q)) := by
    rw [(running_started i s).engineStep_eq, sequencerStep, hops]
    simp [performOp, hq, hin, halign, hfails, show (s.started i).seq.q = 0 from rfl]
  rw [hbus] at hstep
  exact ha.exec_of_steps (steps_of_engineStep rfl hstep) rfl (Nat.le_add_left 1 _)

/-- A command that does not zeroize and completes with an error noted reports it (R286 items 1 and 8). -/
theorem complete_reportsError {u : State} {e : Reg64} (hz : zeroizes i = false) (hl : u.latched = (s.started i).latched)
    (hstatus : u.status = (s.started i).status) (he : u.pendingErr = some e) :
    u.complete.status = ⟨false, true, true, (s.started i).status.swap, s.status.wign, false⟩ ∧ u.complete.errInfo = .busError
      ∧ u.complete.errAddr = e := by
  refine ⟨?_, ?_, ?_⟩
  · rw [State.complete_status, State.zeroizing_of_started hl, hz, he, hstatus]
    rfl
  · rw [State.complete_errInfo, he]
    rfl
  · rw [State.complete_errAddr, he]
    rfl

end

end Sys2Proof.Machine

/-! PROOFS. SALSA8 and SALSA8.NAT (40_salsa_core.md R145, R146, 60_exceptions.md R286). -/

namespace Sys2Proof.Machine

/-! ### The sequence of both commands -/

/-- A block loaded through one layout, put through the core, and stored in place through another: the sequence of SALSA8 (R145) and
of SALSA8.NAT (R146). -/
def salsaOps (l l' : Layout) : List MicroOp := [.lda l .cur .other 0, .salsa .cur, .sta l' .cur .other 0]

theorem salsaSeq_salsa8 : salsaSeq .salsa8 = salsaOps .keep .keep := rfl
theorem salsaSeq_salsa8Nat : salsaSeq .salsa8Nat = salsaOps .diag .undiag := rfl

/-- Performed, the sequence has stored the core of the block (R135, R145). -/
theorem performAll_salsaOps_readByte (l l' : Layout) (s : State) :
    (performAll (salsaOps l l') s).readByte
      = (s.storeBlock (s.baseAddr .other) (l'.apply (salsaCore (l.apply (s.loadBlock (s.baseAddr .other)))))).readByte := by
  funext x
  simp [salsaOps, Datapath.get, Datapath.set]

/-- The sequence is served where its load and its store are. -/
theorem servedAll_salsaOps (l l' : Layout) {s : State}
    (h : ∀ k, k = .readAligned ∨ k = .writeAligned → (⟨k, s.baseAddr .other⟩ : Request).inSpace = true
      ∧ (⟨k, s.baseAddr .other⟩ : Request).isAligned = true ∧ (⟨k, s.baseAddr .other⟩ : Request).fails s.platform = false) :
    ServedAll (salsaOps l l') s := by
  refine ⟨fun q hq => ?_, nofun, fun q hq => ?_, trivial⟩
  · cases hq
    exact h .readAligned (.inl rfl)
  · simp only [MicroOp.request, MicroOp.reqKind, MicroOp.addr, perform_lda, perform_salsa, State.baseAddr_nextOp,
      State.baseAddr_salsaWhole, State.baseAddr_setBlk, State.baseAddr_record, Option.map_some, Option.some.injEq] at hq
    subst hq
    exact h .writeAligned (.inr rfl)

/-- After a failing load the core has no value, and its store is not performed (R286 items 4, 5). -/
theorem laterWrites_salsaOps_lost (l' : Layout) (s : State) : s.laterWrites [.salsa .cur, .sta l' .cur .other 0] [.cur] = s := rfl

/-- Memory after the completion fence holds the blocks the engine would have loaded before it (R88). -/
theorem readBlock_complete {s : State} (h : PortOk s) (a : Nat) : s.complete.mem.readBlock a = s.loadBlock a :=
  Block.ofBytes_congr _ _ fun _ _ => read_complete h _

/-- An aligned request at a placed block can be issued (R75, R76). -/
theorem Placed.request_ok {a : Nat} (h : Placed a 64) {k : ReqKind} (hsize : k.size = 64) (halign : k.align = 64) :
    (⟨k, a⟩ : Request).inSpace = true ∧ (⟨k, a⟩ : Request).isAligned = true := by
  obtain ⟨hmod, hstop⟩ := h
  exact ⟨by rw [Request.inSpace, hsize]; exact decide_eq_true hstop, by rw [Request.isAligned, halign, hmod]; rfl⟩

section
variable {i : Instr} {s : State} (hi : i = .salsa8 ∨ i = .salsa8Nat)
include hi

theorem Accepts.otherBlock_placed (ha : Accepts i s) : Placed s.params.otherBase.toNat 64 := by
  rcases hi with rfl | rfl <;> exact ha.geometry

/-- OTHER is latched from its register (R241). -/
theorem State.started_baseAddr_other : (s.started i).baseAddr .other = s.params.otherBase.toNat := by
  rcases hi with rfl | rfl <;> rfl

theorem State.started_blockOps_salsa : (s.started i).blockOps = salsaSeq i := by
  rcases hi with rfl | rfl <;> rfl

/-- Either command writes its block alone (R90, R145). -/
theorem commandWrites_salsa : commandWrites i s = [⟨s.params.otherBase.toNat, 64⟩] := by
  rcases hi with rfl | rfl <;> rfl

/-- Without bus errors the load and the store of the block are served (R145, R160, R163). -/
theorem Runs.otherBlock_served (h : Runs i s) {k : ReqKind} (hk : k = .readAligned ∨ k = .writeAligned) :
    (⟨k, s.params.otherBase.toNat⟩ : Request).inSpace = true ∧ (⟨k, s.params.otherBase.toNat⟩ : Request).isAligned = true
      ∧ (⟨k, s.params.otherBase.toNat⟩ : Request).fails s.platform = false := by
  obtain ⟨ha, hbus, _⟩ := h
  have hwidth : k.size = 64 ∧ k.align = 64 := by rcases hk with rfl | rfl <;> exact ⟨rfl, rfl⟩
  obtain ⟨hin, halign⟩ := (ha.otherBlock_placed hi).request_ok hwidth.1 hwidth.2
  have hmem : s.otherBlockRegion ∈ commandRegions i s := by rcases hi with rfl | rfl <;> exact .head _
  exact ⟨hin, halign, hbus _ (List.any_eq_true.2 ⟨_, hmem, by simp [Region.has, Region.stop, State.otherBlockRegion]⟩)⟩

/-- Either command leaves the core of the block in its place, through the layouts of its load and its store. -/
theorem Runs.exec_salsa (h : Runs i s) {l l' : Layout} (hops : salsaSeq i = salsaOps l l') :
    ∃ t, exec i s = .next t
      ∧ t.mem.readBlock s.params.otherBase.toNat = l'.apply (salsaCore (l.apply (s.mem.readBlock s.params.otherBase.toNat)))
      ∧ MemorySameOutside [⟨s.params.otherBase.toNat, 64⟩] s t
      ∧ t.j = s.j
      ∧ CompletedOk i s t s.status.swap false 0 := by
  have hserved : ServedAll (salsaOps l l') (s.started i) :=
    servedAll_salsaOps l l' fun k hk => by
      rw [State.started_baseAddr_other hi]
      exact h.otherBlock_served hi hk
  obtain ⟨ha, _, hwf, hw⟩ := h
  obtain ⟨hsmix, hinteg, hz, hclears⟩ : i ≠ .smix ∧ i ≠ .integerify ∧ zeroizes i = false ∧ clearsSwap i = false := by
    rcases hi with rfl | rfl <;> decide
  have hblockOps : (s.started i).blockOps = salsaOps l l' := (State.started_blockOps_salsa hi).trans hops
  have hexec := ha.exec_of_servedAll hsmix (hblockOps ▸ hserved)
  have hport : PortOk (performAll (salsaOps l l') (s.started i)) :=
    portOk_performAll ⟨hwf, show BufferOk s.wbuf from hw ▸ bufferOk_nil⟩ hserved
  have hok : CompletedOk i s (performAll (salsaOps l l') (s.started i)).complete (s.started i).status.swap false 0 :=
    completedOk_performAll hz fun op ho => (salsaSeq_ops i op (hops ▸ ho)).1
  rw [s.started_swap hclears] at hok
  rw [hblockOps] at hexec
  have hmem := (commandsKeepOtherMemory i s _ ⟨hwf, hw⟩ hexec).1
  rw [commandWrites_salsa hi] at hmem
  refine ⟨_, hexec, ?_, hmem, exec_j hinteg hexec, hok⟩
  have hload : (s.started i).loadBlock s.params.otherBase.toNat = s.mem.readBlock s.params.otherBase.toNat :=
    Block.ofBytes_congr _ _ fun k _ => State.readByte_of_wbuf_nil (s := s.started i) hw _
  rw [readBlock_complete hport, State.loadBlock_eq (performAll_salsaOps_readByte l l' _), State.started_baseAddr_other hi,
    State.loadBlock_storeBlock_same, hload]

/-- The layouts of the load and the store of either command. -/
theorem salsaSeq_eq_salsaOps : ∃ l l', salsaSeq i = salsaOps l l' := by
  rcases hi with rfl | rfl
  · exact ⟨_, _, salsaSeq_salsa8⟩
  · exact ⟨_, _, salsaSeq_salsa8Nat⟩

/-- Either command whose load fails ends with nothing stored and its address noted (R286). -/
theorem Accepts.exec_salsa_loadFails (ha : Accepts i s) (hfails : (⟨.readAligned, s.params.otherBase.toNat⟩ : Request).fails s.platform = true) :
    exec i s = .next (((s.started i).record ⟨.readAligned, s.params.otherBase.toNat⟩).noteError s.params.otherBase.toNat).complete := by
  obtain ⟨l, l', hops⟩ := salsaSeq_eq_salsaOps hi
  obtain ⟨hin, halign⟩ := (ha.otherBlock_placed hi).request_ok (k := .readAligned) rfl rfl
  obtain ⟨hsmix, hphase⟩ : i ≠ .smix ∧ firstPhase i ≠ .zeroize := by rcases hi with rfl | rfl <;> decide
  have hrequest : (MicroOp.lda l .cur .other 0).request (s.started i) = some ⟨.readAligned, s.params.otherBase.toNat⟩ := by
    rw [← State.started_baseAddr_other hi]
    rfl
  exact ha.exec_of_firstFails hsmix hphase ((State.started_blockOps_salsa hi).trans hops) hrequest nofun hin halign hfails

end

/-- Settles O17: SALSA8 loads and stores the block as it stands. -/
theorem salsa8RunsTheCore : Obligations.Salsa8RunsTheCore := fun _ h => h.exec_salsa (.inl rfl) salsaSeq_salsa8

/-- Settles O18: SALSA8.NAT loads through DIAG and stores through UNDIAG, between which the core is the scalar Salsa20/8. -/
theorem salsa8NatRunsScalarSalsa : Obligations.Salsa8NatRunsScalarSalsa := fun s h => by
  rw [← salsaCoreAgreesWithScalarSalsa]
  exact h.exec_salsa (.inr rfl) salsaSeq_salsa8Nat

/-- Settles O37: the command ends at its load, with the write buffer still empty and the load's address to report. -/
theorem salsaLoadErrorStoresNothing : Obligations.SalsaLoadErrorStoresNothing := by
  rintro i s hi ha ⟨_, hw⟩ hfails
  obtain ⟨hz, hclears⟩ : zeroizes i = false ∧ clearsSwap i = false := by rcases hi with rfl | rfl <;> decide
  obtain ⟨hstatus, hinfo, haddr⟩ := complete_reportsError (i := i) (s := s)
    (u := ((s.started i).record ⟨.readAligned, s.params.otherBase.toNat⟩).noteError s.params.otherBase.toNat) hz rfl rfl rfl
  rw [s.started_swap hclears] at hstatus
  refine ⟨_, ha.exec_salsa_loadFails hi hfails, ?_, hstatus, hinfo, haddr.trans (by simp)⟩
  rw [State.complete_mem]
  show s.wbuf.foldl Memory.perform s.mem = s.mem
  rw [hw]
  rfl

end Sys2Proof.Machine

/-! PROOFS. A bus error on its way to the engine, and its report when BUSY falls (20_memory.md R165, 60_exceptions.md R286). -/

namespace Sys2Proof.Machine

/-- The error `e` is on its way while the command runs, and reported once it has ended (R286, log 12). -/
structure Reports (e : Reg64) (t : State) : Prop where
  running : t.status.busy = true → t.pendingErr = some e
  ended : t.status.busy = false → t.status.err = true ∧ t.errInfo = .busError ∧ t.errAddr = e

section
variable {e : Reg64} {s : State}

theorem reports_of_pending (hb : s.status.busy = true) (he : s.pendingErr = some e) : Reports e s :=
  ⟨fun _ => he, fun hidle => absurd (hb.symm.trans hidle) (by decide)⟩

theorem reports_complete (he : s.pendingErr = some e) : Reports e s.complete := by
  refine ⟨fun hb => ?_, fun _ => ⟨?_, ?_, ?_⟩⟩
  · rw [State.complete_status] at hb
    cases hb
  · simp [he, Status.completed]
  · simp [he]
  · simp [he]

theorem reports_stopCommand (hb : s.status.busy = true) (he : s.pendingErr = some e) (ops : List MicroOp) (lost : List BlkReg) :
    Reports e (s.stopCommand ops lost) := by
  obtain ⟨u, hu, hstop⟩ := s.stopCommand_cases ops lost
  obtain ⟨hbusy, hpending⟩ : u.status.busy = true ∧ u.pendingErr = some e := by
    rcases hu with rfl | rfl <;> exact ⟨hb, he⟩
  rcases hstop with ⟨_, hstop⟩ | ⟨_, hstop⟩ <;> rw [hstop]
  · exact reports_of_pending hbusy hpending
  · exact reports_complete hpending

/-- A failing request's error is on its way or reported, unless an earlier one is (R286 item 1, R287). -/
theorem reports_busError {q : Request} (hb : s.status.busy = true) (he : (s.failRequest q).pendingErr = some e) (op : MicroOp) :
    Reports e (busError op q s) := by
  have hbusy : (s.failRequest q).status.busy = true := (congrArg Status.busy (s.failRequest_status q)).trans hb
  unfold busError
  split
  · exact reports_of_pending hbusy he
  · split
    · exact reports_of_pending hbusy he
    · exact reports_stopCommand hbusy he _ _

variable (hb : s.status.busy = true) (he : s.pendingErr = some e)
include hb he

theorem reports_endBlock : Reports e (endBlock s) := by
  have hgoesOn : ∀ ph, Reports e (s.enterPhase ph) := fun _ => reports_of_pending hb he
  have hiter : Reports e s.nextIter := reports_of_pending hb he
  have hends := reports_complete he
  unfold endBlock
  split
  · split
    · exact hgoesOn _
    · exact hends
  · split
    · exact hiter
    · exact hgoesOn _
  · split
    · exact reports_stopCommand hb he _ _
    · exact hgoesOn _
  · split
    · exact hiter
    · exact hgoesOn _
  · split
    · exact hgoesOn _
    · exact hends
  all_goals exact hends

/-- An error on its way stays on its way, or is reported (R286). -/
theorem reports_engineStep {t : State} (h : engineStep s = .next t) : Reports e t := by
  have hstep := engineStep_cases h
  replace hb : s.countArrival.status.busy = true := by simpa using hb
  replace he : s.countArrival.pendingErr = some e := by simpa using he
  generalize s.countArrival = z at hstep hb he
  rcases hstep with ⟨_, rfl⟩ | ⟨_, hseq⟩
  · exact reports_stopCommand hb he _ _
  rcases sequencerStep_cases hseq with ⟨op, _, hperf⟩ | ⟨_, rfl⟩
  · have served : ∀ u : State, u.status.busy = true → u.pendingErr = some e → Reports e (op.run u) := fun u hbu heu => by
      obtain ⟨_, _, herr, _, hbusy, _⟩ := op.run_fields u
      exact reports_of_pending (hbusy.trans hbu) (herr.trans heu)
    rcases performOp_cases hperf with ⟨_, rfl⟩ | ⟨q, _, _, _, ⟨_, rfl⟩ | ⟨_, rfl⟩⟩
    · exact served z hb he
    · refine reports_busError (s := z.record q) hb ?_ op
      rw [State.failRequest_pendingErr, State.record_pendingErr, he]
      rfl
    · exact served (z.record q) hb he
  · exact reports_endBlock hb he

end

/-- A streaming store that fails: its error is noted, its block is unspecified, and the sequence goes on (R165, R286). -/
theorem RunsCommand.engineStep_failingStream {c : Instr} {s : State} (h : RunsCommand c s) (hnone : s.pendingErr = none) {src : BlkReg}
    {b : Base} {o : Nat} (hop : s.blockOps[s.seq.q]? = some (.stn src b o))
    (hfails : (⟨.writeNonTemporal, s.baseAddr b + o⟩ : Request).fails s.platform = true) :
    Machine.engineStep s = .next (streamError ⟨.writeNonTemporal, s.baseAddr b + o⟩ (s.record ⟨.writeNonTemporal, s.baseAddr b + o⟩)) := by
  have hphase : s.seq.phase ≠ .zeroize := fun hz => by
    have hcounts := countsBm_of_forOther (op := .stn src b o) rfl (h.op_mem hop)
    rw [hz] at hcounts
    cases hcounts
  obtain ⟨hin, halign⟩ := h.request_ok hop rfl
  have hin : (⟨.writeNonTemporal, s.baseAddr b + o⟩ : Request).inSpace = true := hin
  have halign : (⟨.writeNonTemporal, s.baseAddr b + o⟩ : Request).isAligned = true := halign
  have hrequest : (MicroOp.stn src b o).request s = some ⟨.writeNonTemporal, s.baseAddr b + o⟩ := rfl
  rw [engineStep_of_noError (by rw [State.errorInFlight, hnone]; rfl), sequencerStep, hop]
  simp only [performOp, hrequest, hin, halign, hfails, busError, State.record_seq, hphase]
  rfl

/-- What a streaming store that failed leaves (R165, R286). -/
theorem streamError_fields (q : Request) (s : State) :
    (streamError q s).pendingErr = s.pendingErr.or (some (BitVec.ofNat 64 q.addr))
      ∧ (streamError q s).seq = { s.seq with q := s.seq.q + 1, t := 0 } ∧ (streamError q s).status = s.status
      ∧ (streamError q s).progress = s.progress := by
  simp [streamError]

/-- Settles O58: the failing store is passed by, and a noted error stays noted until completion reports it. -/
theorem streamingStoreErrorMayArriveLate : Obligations.StreamingStoreErrorMayArriveLate := by
  intro s h hb
  obtain ⟨c, hc⟩ := h.running hb
  refine ⟨fun src b o hop hfails hnone => ?_, fun e t he hstep => ?_⟩
  · obtain ⟨herr, hseq, hstatus, hprogress⟩ :=
      streamError_fields ⟨.writeNonTemporal, s.baseAddr b + o⟩ (s.record ⟨.writeNonTemporal, s.baseAddr b + o⟩)
    rw [State.record_pendingErr, hnone] at herr
    refine ⟨_, hc.engineStep_failingStream hnone hop hfails, herr, hseq, hstatus, hprogress, fun a ha => ?_⟩
    exact (State.failRequest_issues (s.record _) ⟨.writeNonTemporal, s.baseAddr b + o⟩).readByte
      fun q hq => List.mem_singleton.1 hq ▸ ha
  · obtain ⟨hrunning, hended⟩ := reports_engineStep hb he hstep
    exact ⟨hrunning, hended⟩

end Sys2Proof.Machine

/-! PROOFS. What a failing load takes away: the registers without a value after it, and the stores that need them
(60_exceptions.md R286 items 4 and 5). -/

namespace Sys2Proof.Machine

/-! ### Registers without a value -/

/-- The block register a micro-operation fills. -/
@[simp] def MicroOp.fills : MicroOp → Option BlkReg
  | .lda _ dst _ _ | .ldu dst _ _ | .xorb dst _ _ | .move dst _ | .salsa dst => some dst
  | .integ _ | .sta _ _ _ _ | .staZero _ _ | .stu _ _ _ _ | .stn _ _ _ | .pfn _ _ | .flush _ _ | .bmEnd | .fence | .zeroBegin
  | .zeroEnd => none

/-- Registers without a value after a micro-operation whose request does not fail, when `lost` had none before it. -/
@[simp] def MicroOp.loss (lost : List BlkReg) (op : MicroOp) : List BlkReg :=
  match op.fills with
  | none => lost
  | some dst => if op.srcs.any (· ∈ lost) then dst :: lost else lost.filter (· ≠ dst)

/-- Registers without a value after micro-operations whose requests do not fail. -/
def lossAll (lost : List BlkReg) (ops : List MicroOp) : List BlkReg := ops.foldl MicroOp.loss lost

section
variable {acc : State × List BlkReg} {lost : List BlkReg}

theorem laterLoad_lost (h : lost ⊆ acc.2) (l : Layout) (dst : BlkReg) (q : Request) :
    lost.filter (· ≠ dst) ⊆ (laterLoad l dst q acc).2 := by
  unfold laterLoad
  split
  · exact List.subset_cons_of_subset _ (List.Subset.trans (List.filter_subset_self _) h)
  · exact List.filter_subset _ h

theorem laterCompute_lost (h : lost ⊆ acc.2) (dst : BlkReg) (srcs : List BlkReg) (b : Block) :
    (if srcs.any (· ∈ lost) then dst :: lost else lost.filter (· ≠ dst)) ⊆ (laterCompute dst srcs b acc).2 := by
  unfold laterCompute
  split
  next hlost =>
    have hany : srcs.any (· ∈ acc.2) = true := by
      obtain ⟨g, hg, hmem⟩ := List.any_eq_true.1 hlost
      exact List.any_eq_true.2 ⟨g, hg, decide_eq_true (h (of_decide_eq_true hmem))⟩
    rw [if_pos hany]
    exact List.cons_subset_cons dst h
  next =>
    split
    · exact List.subset_cons_of_subset _ (List.Subset.trans (List.filter_subset_self _) h)
    · exact List.filter_subset _ h

theorem laterStore_lost (l : Layout) (src : BlkReg) (q : Request) : (laterStore l src q acc).2 = acc.2 := by
  unfold laterStore
  split
  · rfl
  · dsimp only
    split
    · split <;> rfl
    · rfl

/-- A later micro-operation fills no register from one without a value. -/
theorem loss_subset_laterOp (h : lost ⊆ acc.2) (op : MicroOp) : op.loss lost ⊆ (laterOp acc op).2 := by
  cases op with
  | lda | ldu => exact laterLoad_lost h _ _ _
  | xorb | move | salsa => exact laterCompute_lost h _ _ _
  | sta | stu | stn => exact (laterStore_lost _ _ _).symm ▸ h
  | _ => exact h

theorem lossAll_subset_laterOps (ops : List MicroOp) (h : lost ⊆ acc.2) : lossAll lost ops ⊆ (ops.foldl laterOp acc).2 := by
  induction ops generalizing acc lost with
  | nil => exact h
  | cons op ops ih => exact ih (loss_subset_laterOp h op)

/-- A later load that fails leaves its register without a value (R286 item 5). -/
theorem loadDst_subset_laterOp {op : MicroOp} {q : Request} (hreq : op.request acc.1 = some q)
    (hfails : q.fails acc.1.platform = true) : op.loadDst ⊆ (laterOp acc op).2 := by
  cases op with
  | lda | ldu =>
    cases hreq
    refine List.cons_subset.2 ⟨?_, List.nil_subset _⟩
    simp only [laterOp, laterLoad]
    rw [if_pos hfails]
    exact List.mem_cons_self
  | _ => exact List.nil_subset _

/-! ### Stores withheld -/

/-- A later store of a register without a value is not performed (R286 item 4). -/
theorem laterOp_of_lostSource {op : MicroOp} {g : BlkReg} (hstore : op.storeAt.isSome = true) (hg : g ∈ op.srcs) (hlost : g ∈ acc.2) :
    laterOp acc op = acc := by
  cases op with
  | sta | stu | stn =>
    rw [List.mem_singleton.1 hg] at hlost
    exact if_pos (.inl hlost)
  | staZero => cases hg
  | _ => cases hstore

/-- What a micro-operation requests depends on the bases and the hint enables alone. -/
theorem MicroOp.request_congr {s u : State} (hbase : u.baseAddr = s.baseAddr) (hctrl : u.ctrl = s.ctrl) (op : MicroOp) :
    op.request u = op.request s := by
  have hcw : u.cw = s.cw := congrFun hbase .cw
  cases op <;> simp only [MicroOp.request, MicroOp.reqKind, MicroOp.addr, hbase, hctrl, hcw]

theorem laterOp_outside (acc : State × List BlkReg) (op : MicroOp) :
    (laterOp acc op).1.ctrl = acc.1.ctrl ∧ (laterOp acc op).1.platform = acc.1.platform := by
  cases op with
  | lda | ldu =>
    simp only [laterOp, laterLoad]
    split <;> exact ⟨rfl, rfl⟩
  | xorb | move | salsa =>
    simp only [laterOp, laterCompute]
    split <;> exact ⟨rfl, rfl⟩
  | sta | stu | stn =>
    simp only [laterOp, laterStore]
    split
    · exact ⟨rfl, rfl⟩
    · split
      · split <;> exact ⟨rfl, rfl⟩
      · exact ⟨rfl, rfl⟩
  | _ => exact ⟨rfl, rfl⟩

/-- Later micro-operations move no base, and find the hint enables and the platform as they were. -/
theorem laterOps_keep (ops : List MicroOp) (acc : State × List BlkReg) :
    (ops.foldl laterOp acc).1.baseAddr = acc.1.baseAddr ∧ (ops.foldl laterOp acc).1.ctrl = acc.1.ctrl
      ∧ (ops.foldl laterOp acc).1.platform = acc.1.platform := by
  induction ops generalizing acc with
  | nil => exact ⟨rfl, rfl, rfl⟩
  | cons op ops ih =>
    obtain ⟨hbase, hctrl, hplatform⟩ := ih (laterOp acc op)
    obtain ⟨hctrl', hplatform'⟩ := laterOp_outside acc op
    exact ⟨hbase.trans (laterOp_issues acc op).2, hctrl.trans hctrl', hplatform.trans hplatform'⟩

end

/-- The store `st` writes a register that has no value when the load `ld`, with `mid` between them, left its own without one. -/
structure Needs (ld : MicroOp) (mid : List MicroOp) (st : MicroOp) : Prop where
  stores : st.storeAt.isSome = true
  source : ∃ src ∈ st.srcs, src ∈ lossAll ld.loadDst mid

section
variable {acc : State × List BlkReg} {pre mid post : List MicroOp} {ld st : MicroOp}

/-- After a load that failed, the store that needs it is withheld. -/
theorem Needs.withheld (h : Needs ld mid st) (hlost : ld.loadDst ⊆ acc.2) :
    Issues (storeReqs acc.1 (mid ++ post)) acc.1 ((mid ++ st :: post).foldl laterOp acc).1 := by
  obtain ⟨src, hsrc, hmem⟩ := h.source
  have hskip := laterOp_of_lostSource h.stores hsrc (lossAll_subset_laterOps mid hlost hmem)
  have hpost := laterOps_issues post (mid.foldl laterOp acc)
  rw [storeReqs_congr (laterOps_keep mid acc).1] at hpost
  rw [List.foldl_append, List.foldl_cons, hskip, storeReqs_append]
  exact (laterOps_issues mid acc).trans hpost

/-- So it is when the load still comes, and will fail. -/
theorem Needs.withheld_before (h : Needs ld mid st) {k : Request} (hk : ld.request acc.1 = some k) (hfails : k.fails acc.1.platform = true) :
    Issues (storeReqs acc.1 (pre ++ ld :: (mid ++ post))) acc.1 ((pre ++ ld :: (mid ++ st :: post)).foldl laterOp acc).1 := by
  obtain ⟨hbase, hctrl, hplatform⟩ := laterOps_keep pre acc
  obtain ⟨hld, hbase'⟩ := laterOp_issues (pre.foldl laterOp acc) ld
  have hk' : ld.request (pre.foldl laterOp acc).1 = some k := (ld.request_congr hbase hctrl).trans hk
  have hrest := h.withheld (post := post) (loadDst_subset_laterOp hk' (hplatform ▸ hfails))
  rw [storeReqs_congr (hbase'.trans hbase)] at hrest
  rw [ld.storeReq_congr hbase] at hld
  rw [List.foldl_append, List.foldl_cons, storeReqs_append, storeReqs_cons]
  exact (laterOps_issues pre acc).trans (hld.trans hrest)

end

/-- What stopping leaves of a byte that no write still performed meets. -/
theorem PortOk.readByte_stopCommand_of_issues {z : State} (h : PortOk z) {qs : List Request} {rest : List MicroOp} {lost : List BlkReg}
    (hissues : Issues qs z (rest.foldl laterOp (z, lost)).1) {a : Nat} (ha : ∀ q ∈ qs, ¬ inBlock q.addr a) :
    (z.stopCommand rest lost).readByte a = z.readByte a := by
  have hlater : Issues qs z (z.laterWrites rest lost) := ⟨rfl, hissues.wbuf⟩
  obtain ⟨u, hu, hstop⟩ := z.stopCommand_cases rest lost
  obtain ⟨hport, hread⟩ : PortOk u ∧ u.readByte a = z.readByte a := by
    rcases hu with rfl | rfl
    · exact ⟨h, rfl⟩
    · exact ⟨portOk_laterWrites h rest lost, hlater.readByte ha⟩
  rcases hstop with ⟨_, hstop⟩ | ⟨_, hstop⟩ <;> rw [hstop]
  · exact hread
  · exact (hport.readByte_complete a).trans hread

end Sys2Proof.Machine

/-! PROOFS. A command of one block sequence never performs a store that needs a load of its that fails (60_exceptions.md R286 items 4 and 5). -/

namespace Sys2Proof.Machine

/-- A micro-operation that answers a next state was served, its request recorded, or its request failed. -/
theorem performOp_outcome {op : MicroOp} {s t : State} (h : performOp op s = .next t) :
    (Served op s ∧ t = op.run (op.place s))
      ∨ ∃ q, op.request s = some q ∧ q.inSpace = true ∧ q.fails s.platform = true ∧ t = busError op q (op.place s) := by
  rcases performOp_cases h with ⟨hnone, rfl⟩ | ⟨q, hq, hin, halign, ⟨hf, rfl⟩ | ⟨hf, rfl⟩⟩
  · refine .inl ⟨fun q hq => ?_, by rw [MicroOp.place, hnone]⟩
    rw [hnone] at hq
    cases hq
  · exact .inr ⟨q, hq, hin, hf, by rw [MicroOp.place, hq]⟩
  · refine .inl ⟨fun q' hq' => ?_, by rw [MicroOp.place, hq]⟩
    rw [hq] at hq'
    cases hq'
    exact ⟨hin, halign, hf⟩

@[simp] theorem MicroOp.place_status (op : MicroOp) (s : State) : (op.place s).status = s.status := by
  rcases op.place_eq s with h | ⟨q, h⟩ <;> rw [h]
  rfl

@[simp] theorem MicroOp.place_latched (op : MicroOp) (s : State) : (op.place s).latched = s.latched := (quiet_place op s).latched

@[simp] theorem MicroOp.place_pendingErr (op : MicroOp) (s : State) : (op.place s).pendingErr = s.pendingErr :=
  (quiet_place op s).pendingErr

theorem MicroOp.busy_run_place (op : MicroOp) (s : State) : (op.run (op.place s)).status.busy = s.status.busy := by
  obtain ⟨_, _, _, _, hbusy, _⟩ := op.run_fields (op.place s)
  rw [hbusy, op.place_status]

/-- In the block sequence of `y` the store `st` needs what the load `ld` would read, the load's request `k` fails, and no other
write of the sequence meets the byte `a`. -/
structure Withholds (y : State) (pre : List MicroOp) (ld : MicroOp) (mid : List MicroOp) (st : MicroOp) (post : List MicroOp)
    (k : Request) (a : Nat) : Prop where
  ops : y.blockOps = pre ++ ld :: (mid ++ st :: post)
  needs : Needs ld mid st
  request : ld.request y = some k
  read : k.kind.isWrite = false
  fails : k.fails y.platform = true
  others : ∀ q ∈ storeReqs y (pre ++ ld :: (mid ++ post)), ¬ inBlock q.addr a

section
variable {y x t : State} {pre mid post : List MicroOp} {ld st : MicroOp} {k : Request} {a : Nat}

/-- Whatever is still to come from the load on, or from before it, the needing store is withheld. -/
theorem Withholds.issues (h : Withholds y pre ld mid st post k a) {z : State} (hbase : z.baseAddr = y.baseAddr) (hctrl : z.ctrl = y.ctrl)
    (hplatform : z.platform = y.platform) {n : Nat} {lost : List BlkReg}
    (hn : n ≤ pre.length ∨ (n = pre.length + 1 ∧ lost = ld.loadDst)) :
    ∃ qs : List Request, (∀ q ∈ qs, ¬ inBlock q.addr a) ∧ Issues qs z ((y.blockOps.drop n).foldl laterOp (z, lost)).1 := by
  have others : ∀ ops : List MicroOp, (∀ op ∈ ops, op ∈ pre ++ ld :: (mid ++ post)) → ∀ q ∈ storeReqs z ops, ¬ inBlock q.addr a :=
    fun ops hops q hq => by
      rw [storeReqs_congr hbase] at hq
      obtain ⟨op, hop, hq⟩ := mem_storeReqs.1 hq
      exact h.others q (mem_storeReqs.2 ⟨op, hops op hop, hq⟩)
  rw [h.ops]
  rcases hn with hn | ⟨rfl, rfl⟩
  · rw [List.drop_append_of_le_length hn]
    refine ⟨_, others _ fun op hop => ?_, h.needs.withheld_before (acc := (z, lost)) ((ld.request_congr hbase hctrl).trans h.request)
      (hplatform ▸ h.fails)⟩
    exact (List.mem_append.1 hop).elim (fun hop => List.mem_append_left _ (List.mem_of_mem_drop hop)) (List.mem_append_right _)
  · rw [List.drop_append, List.drop_of_length_le (Nat.le_succ _), Nat.add_sub_cancel_left]
    exact ⟨_, others _ fun op hop => List.mem_append_right _ (List.mem_cons_of_mem _ hop),
      h.needs.withheld (acc := (z, ld.loadDst)) (List.Subset.refl _)⟩

/-- Up to the load nothing has written the byte. -/
theorem Withholds.readByte_lockstep (h : Withholds y pre ld mid st post k a) (hx : Lockstep y x) (hwb : y.wbuf = [])
    (hq : x.seq.q ≤ pre.length) : x.readByte a = y.readByte a := by
  rw [y.readByte_of_wbuf_nil hwb, State.readByte, hx.same.mem]
  refine foldl_patch_outside (fun w hw hin => ?_) _
  obtain ⟨q, hmem, haddr, _⟩ := hx.same.writes w hw
  rw [h.ops, List.take_append_of_le_length hq] at hmem
  obtain ⟨op, hop, hmem⟩ := mem_storeReqs.1 hmem
  exact h.others q (mem_storeReqs.2 ⟨op, List.mem_append_left _ (List.mem_of_mem_take hop), hmem⟩) (haddr ▸ hin)

/-- A micro-operation before the load is one of the others; at the load it is the load. -/
theorem Withholds.op_cases (h : Withholds y pre ld mid st post k a) {n : Nat} (hn : n ≤ pre.length) {op : MicroOp}
    (hop : y.blockOps[n]? = some op) : (n < pre.length ∧ op ∈ pre) ∨ (n = pre.length ∧ op = ld) := by
  rw [h.ops] at hop
  rcases Nat.lt_or_eq_of_le hn with hlt | rfl
  · rw [List.getElem?_append_left hlt] at hop
    exact .inl ⟨hlt, List.mem_of_getElem? hop⟩
  · rw [List.getElem?_append_right le_rfl, Nat.sub_self] at hop
    exact .inr ⟨rfl, (Option.some.inj hop).symm⟩

theorem Withholds.lt_length (h : Withholds y pre ld mid st post k a) {n : Nat} (hn : n ≤ pre.length) : n < y.blockOps.length := by
  rw [h.ops]
  simp only [List.length_append, List.length_cons]
  omega

/-- An error stop before or at the load leaves the byte. -/
theorem Withholds.readByte_errorStop (h : Withholds y pre ld mid st post k a) (hx : Lockstep y x) (hwb : y.wbuf = [])
    (hctrl : x.ctrl = y.ctrl) (hops : x.blockOps = y.blockOps) (hn : x.seq.q ≤ pre.length) {op : MicroOp}
    (hop : y.blockOps[x.seq.q]? = some op) {q : Request} (hq : op.request x = some q) (hin : q.inSpace = true) :
    (errorStop op q (op.place x)).readByte a = y.readByte a := by
  have hbase := hx.base_at hop
  have hplace : op.place x = x.record q := by rw [MicroOp.place, hq]
  have hcases := h.op_cases hn hop
  rw [hplace]
  obtain ⟨qs, hqs, hissues⟩ := h.issues (z := (x.record q).failRequest q) (n := x.seq.q + 1) (lost := op.loadDst)
    ((State.baseAddr_failRequest _ q).trans hbase) ((State.failRequest_ctrl _ q).trans hctrl)
    ((State.failRequest_platform _ q).trans hx.same.platform) (hcases.imp And.left fun hload => ⟨by rw [hload.1], by rw [hload.2]⟩)
  have hrest : (x.record q).blockOps.drop ((x.record q).seq.q + 1) = y.blockOps.drop (x.seq.q + 1) := hops ▸ rfl
  have hport : PortOk ((x.record q).failRequest q) := portOk_failRequest (hx.port.of_eq rfl rfl) hin
  rw [errorStop, hrest]
  refine (hport.readByte_stopCommand_of_issues hissues hqs).trans ?_
  refine Eq.trans ?_ (h.readByte_lockstep hx hwb hn)
  refine ((x.record q).failRequest_issues q).readByte fun q' hq' => ?_
  split at hq'
  next hwrite =>
    obtain rfl := List.mem_singleton.1 hq'
    rcases hcases with ⟨_, hmem⟩ | ⟨_, rfl⟩
    · refine h.others q' (mem_storeReqs.2 ⟨op, List.mem_append_left _ hmem, ?_⟩)
      rw [← op.storeReq_congr hbase]
      exact Option.filter_eq_some_iff.2 ⟨hq, hwrite⟩
    · rw [op.request_congr hbase hctrl, h.request] at hq
      cases hq
      rw [h.read] at hwrite
      cases hwrite
  next => cases hq'

/-- Before its failing load the command keeps in step with the reference run, or has ended without a write of the byte. -/
def Withholding (y : State) (n a : Nat) (x : State) : Prop :=
  (Lockstep y x ∧ x.seq.q ≤ n) ∨ (x.status.busy = false ∧ x.readByte a = y.readByte a)

theorem Lockstep.of_busy (h : Lockstep y x ∨ Ended y x) (hb : x.status.busy = true) : Lockstep y x := by
  rcases h with h | ⟨_, _, _, h⟩
  · exact h
  · exact absurd (hb.symm.trans h.idle) (by decide)

/-- A served micro-operation is not the load. -/
theorem Withholds.position_run (h : Withholds y pre ld mid st post k a) (hx : Lockstep y x) (hctrl : x.ctrl = y.ctrl)
    (hn : x.seq.q ≤ pre.length) {op : MicroOp} (hop : y.blockOps[x.seq.q]? = some op) (hserved : Served op x) :
    (op.run (op.place x)).seq.q ≤ pre.length := by
  obtain ⟨_, _, _, _, _, _, hpos⟩ := op.run_fields (op.place x)
  rw [op.place_seq] at hpos
  rcases h.op_cases hn hop with ⟨hbefore, _⟩ | ⟨_, rfl⟩
  · omega
  · have hserves := (hserved k (by rw [op.request_congr (hx.base_at hop) hctrl, h.request])).2.2
    rw [hx.same.platform, h.fails] at hserves
    cases hserves

/-- A streaming store is not the load. -/
theorem Withholds.lt_of_stream (h : Withholds y pre ld mid st post k a) (hx : Lockstep y x) (hctrl : x.ctrl = y.ctrl)
    (hn : x.seq.q ≤ pre.length) {op : MicroOp} (hop : y.blockOps[x.seq.q]? = some op) {q : Request} (hq : op.request x = some q)
    (hstream : q.kind = .writeNonTemporal) : x.seq.q < pre.length := by
  rcases h.op_cases hn hop with ⟨hbefore, _⟩ | ⟨_, rfl⟩
  · exact hbefore
  · rw [op.request_congr (hx.base_at hop) hctrl, h.request] at hq
    cases hq
    have hread := h.read
    rw [hstream] at hread
    cases hread

/-- An engine step never gets past the failing load. -/
theorem Withholds.engineStep {i : Instr} (h : Withholds y pre ld mid st post k a) (hx : Lockstep y x) (hrun : RunsCommand i x)
    (hsmix : i ≠ .smix) (hzeroize : i ≠ .zeroize) (hops : x.blockOps = y.blockOps) (hctrl : x.ctrl = y.ctrl) (hwb : y.wbuf = [])
    (hapart : WritesApart y y.blockOps) (hn : x.seq.q ≤ pre.length) (ht : Machine.engineStep x = .next t) :
    Withholding y pre.length a t := by
  have hnext := hx.engineStep hrun hsmix hzeroize hops hwb hapart ht
  have hcases := engineStep_cases ht
  rw [← x.countArrival_blockOps] at hops
  rw [← x.countArrival_ctrl] at hctrl
  rw [← x.countArrival_seq] at hn
  replace hx := hx.countArrival
  replace hrun := hrun.countArrival
  generalize x.countArrival = z at *
  have hnot : z.isSmix = false := Bool.eq_false_iff.2 fun hz => hsmix (hrun.isSmix_iff.1 hz)
  have hphase : z.seq.phase ≠ .zeroize := fun hz => by
    have only : ∀ ph ∈ phasesOf i, ph ≠ .zeroize := by
      revert hsmix hzeroize
      cases i <;> decide
    exact only _ hrun.phase_mem hz
  have hlt := h.lt_length hn
  rcases hcases with ⟨_, rfl⟩ | ⟨_, hseq⟩
  · obtain ⟨qs, hqs, hissues⟩ := h.issues (hx.base hlt) hctrl hx.same.platform (lost := []) (.inl hn)
    refine .inr ⟨by rw [lateStop, State.stopCommand_of_not_smix hnot]; rfl, ?_⟩
    rw [lateStop, hops]
    exact (hx.port.readByte_stopCommand_of_issues hissues hqs).trans (h.readByte_lockstep hx hwb hn)
  rcases sequencerStep_cases hseq with ⟨op, hop, hperf⟩ | ⟨hend, rfl⟩
  · rw [hops] at hop
    rcases performOp_outcome hperf with ⟨hserved, rfl⟩ | ⟨q, hq, hin, _, rfl⟩
    · exact .inl ⟨Lockstep.of_busy hnext ((op.busy_run_place z).trans hx.busy), h.position_run hx hctrl hn hop hserved⟩
    by_cases hstream : q.kind = .writeNonTemporal
    · have hbus : busError op q (op.place z) = streamError q (op.place z) := by
        rw [busError, op.place_seq, if_neg hphase, if_pos hstream]
      rw [hbus] at hnext ⊢
      refine .inl ⟨Lockstep.of_busy hnext ?_, ?_⟩
      · rw [streamError, State.nextOp_status, State.failRequest_status, op.place_status]
        exact hx.busy
      · rw [streamError, State.nextOp_seq, State.failRequest_seq, op.place_seq]
        exact h.lt_of_stream hx hctrl hn hop hq hstream
    · have hbus : busError op q (op.place z) = errorStop op q (op.place z) :=
        busError_of_stops (by rw [op.place_seq]; exact hphase) hstream
      refine .inr ⟨?_, hbus ▸ h.readByte_errorStop hx hwb hctrl hops hn hop hq hin⟩
      rw [hbus, errorStop, State.stopCommand_of_not_smix]
      · rfl
      · rw [State.isSmix, State.failRequest_latched, op.place_latched]
        exact hnot
  · rw [hops] at hend
    exact absurd (List.getElem?_eq_none_iff.1 hend) (Nat.not_le.2 hlt)

end

/-- However a command but SMIX and ZEROIZE ends, the byte reads as before. -/
theorem Withholds.exec {i : Instr} {s t : State} {pre mid post : List MicroOp} {ld st : MicroOp} {k : Request} {a : Nat}
    (h : Withholds (s.started i) pre ld mid st post k a) (hsmix : i ≠ .smix) (hzeroize : i ≠ .zeroize) (ha : Accepts i s)
    (hs : Settled s) (ht : Machine.exec i s = .next t) : t.mem.read a = s.mem.read a := by
  have hend := exec_induct_step ha ht (P := Withholding (s.started i) pre.length a) (.inl ⟨lockstep_started hs i, Nat.zero_le _⟩)
    fun x v hx hb hframe hP hv => by
      rcases hP with ⟨hP, hn⟩ | ⟨hidle, _⟩
      · exact h.engineStep hP hx hsmix hzeroize (hx.blockOps_started hsmix hframe.latched) hframe.outside.1 hs.2
          (ha.startsApart hsmix hzeroize) hn hv
      · exact absurd (hb.symm.trans hidle) (by decide)
  obtain ⟨_, hw, _⟩ := exec_idleOk ha ht
  rcases hend with ⟨hlock, _⟩ | ⟨_, hread⟩
  · exact absurd (hlock.busy.symm.trans (exec_idle ha ht)) (by decide)
  · rw [← State.readByte_of_wbuf_nil hw, hread]
    exact State.readByte_of_wbuf_nil hs.2 a

theorem Memory.readBlock_congr {m m' : Memory} {b : Nat} (h : ∀ a, inBlock b a → m'.read a = m.read a) :
    m'.readBlock b = m.readBlock b :=
  Block.ofBytes_congr _ _ fun k hk => h (b + k) ⟨Nat.le_add_right _ _, Nat.add_lt_add_left hk b⟩

/-- Where writes are apart, no other write meets a store's block. -/
theorem StoresApart.others {s : State} {pre mid post : List MicroOp} {ld st : MicroOp} {q : Request} {a : Nat}
    (h : StoresApart (storeReqs s (pre ++ ld :: (mid ++ st :: post)))) (hq : st.storeReq s = some q) (hin : inBlock q.addr a) :
    ∀ q' ∈ storeReqs s (pre ++ ld :: (mid ++ post)), ¬ inBlock q'.addr a := fun q' hq' hin' => by
  have hsplit : storeReqs s (pre ++ ld :: (mid ++ st :: post)) = storeReqs s (pre ++ ld :: mid) ++ q :: storeReqs s post := by
    rw [← List.cons_append, ← List.append_assoc, storeReqs_append, storeReqs_cons, hq]
    rfl
  rw [hsplit, StoresApart, List.pairwise_middle fun h => Apart.symm h] at h
  have hmem : q' ∈ storeReqs s (pre ++ ld :: mid) ++ storeReqs s post := by
    rwa [← storeReqs_append, List.append_assoc, List.cons_append]
  have hapart := (List.pairwise_cons.1 h).1 q' hmem
  simp only [inBlock, Apart, Config.blockBytes] at hin hin' hapart
  omega

/-- The block of a store that needs a failing load of the command is kept (R286 item 4). -/
theorem exec_keepsNeeding {i : Instr} {s t : State} (hsmix : i ≠ .smix) (hzeroize : i ≠ .zeroize) (ha : Accepts i s)
    (hs : Settled s) (ht : exec i s = .next t) {pre mid post : List MicroOp} {ld st : MicroOp}
    (hops : (s.started i).blockOps = pre ++ ld :: (mid ++ st :: post)) (hneeds : Needs ld mid st) {k q : Request}
    (hk : ld.request (s.started i) = some k) (hread : k.kind.isWrite = false) (hfails : k.fails s.platform = true)
    (hq : st.storeReq (s.started i) = some q) : t.mem.readBlock q.addr = s.mem.readBlock q.addr := by
  have hapart := (ha.startsApart hsmix hzeroize).storesApart
  rw [hops] at hapart
  exact Memory.readBlock_congr fun a hin =>
    Withholds.exec ⟨hops, hneeds, hk, hread, hfails, hapart.others hq hin⟩ hsmix hzeroize ha hs ht

end Sys2Proof.Machine

/-! PROOFS. What the stores of PREP_SEQ, REST_SEQ and BM need (42_layout.md R194, R197, 43_blockmix.md R211, 60_exceptions.md R286). -/

namespace Sys2Proof.Machine

/-! ### PREP_SEQ and REST_SEQ -/

/-- The store right behind a load needs it. -/
theorem needs_next {ld st : MicroOp} {g : BlkReg} (hld : ld.loadDst = [g]) (hst : st.storeAt.isSome = true) (hsrc : g ∈ st.srcs) :
    Needs ld [] st := ⟨hst, g, hsrc, hld ▸ List.mem_cons_self⟩

theorem range_split {n b : Nat} (h : b < n) : ∃ as bs, List.range n = as ++ b :: bs := List.append_of_mem (List.mem_range.2 h)

/-- PREP_SEQ stores each block of the element right behind its load (R194). -/
theorem prepSeq_split {r b : Nat} (hb : b < 2 * r) :
    ∃ pre post, prepSeq r = pre ++ .ldu .cur .elem (64 * b) :: ([] ++ .sta .diag .cur .work (64 * ((b + 1) % (2 * r))) :: post) := by
  rcases Nat.lt_or_eq_of_le (show b + 1 ≤ 2 * r from hb) with hlt | hlast
  · obtain ⟨as, bs, hrange⟩ := range_split (show b < 2 * r - 1 by omega)
    rw [Nat.mod_eq_of_lt hlt, prepSeq, hrange]
    exact ⟨as.flatMap prepIter, bs.flatMap prepIter ++ [.ldu .cur .elem (64 * (2 * r - 1)), .sta .diag .cur .work 0],
      by simp [prepIter]⟩
  · obtain rfl : b = 2 * r - 1 := by omega
    rw [hlast, Nat.mod_self]
    exact ⟨(List.range (2 * r - 1)).flatMap prepIter, [], rfl⟩

/-- The element block that takes working block `j` (R193, R197). -/
def restoredBlock (r j : Nat) : Nat := if j = 0 then 2 * r - 1 else j - 1

theorem restoredBlock_next {r b : Nat} (hb : b < 2 * r) : restoredBlock r ((b + 1) % (2 * r)) = b := by
  rcases Nat.lt_or_eq_of_le (show b + 1 ≤ 2 * r from hb) with hlt | hlast
  · rw [Nat.mod_eq_of_lt hlt]
    exact if_neg (Nat.succ_ne_zero b)
  · rw [hlast, Nat.mod_self]
    exact (if_pos rfl).trans (by omega)

/-- The loop of REST_SEQ stores each working block right behind its load. -/
theorem restIters_load {is : List Nat} {l : Layout} {dst : BlkReg} {j k : Nat} {rest : List MicroOp}
    (h : .lda l dst .cw (64 * j) :: rest <:+ is.flatMap restIter ++ [.stu .undiag .held .elem k]) :
    j ≠ 0 ∧ ∃ post, rest = .stu .undiag dst .elem (64 * (j - 1)) :: post := by
  induction is with
  | nil => simp [List.suffix_cons_iff] at h
  | cons i is ih =>
    simp only [List.flatMap_cons, restIter, List.cons_append, List.nil_append, List.suffix_cons_iff, List.cons.injEq,
      MicroOp.lda.injEq, reduceCtorEq, false_and, false_or] at h
    rcases h with ⟨⟨_, rfl, _, hj⟩, rfl⟩ | h
    · obtain rfl : j = i + 1 := by omega
      exact ⟨Nat.succ_ne_zero i, _, rfl⟩
    · exact ih h

theorem held_lost_restIters (is : List Nat) {lost : List BlkReg} (h : .held ∈ lost) : .held ∈ lossAll lost (is.flatMap restIter) := by
  induction is generalizing lost with
  | nil => exact h
  | cons i is ih => exact ih (by simpa [MicroOp.srcs] using h)

/-- A load of REST_SEQ is needed by the store of its element block (R197). -/
theorem restSeq_load {r j : Nat} {l : Layout} {dst : BlkReg} {rest : List MicroOp} (h : .lda l dst .cw (64 * j) :: rest <:+ restSeq r) :
    ∃ mid post, rest = mid ++ .stu .undiag dst .elem (64 * restoredBlock r j) :: post
      ∧ Needs (.lda l dst .cw (64 * j)) mid (.stu .undiag dst .elem (64 * restoredBlock r j)) := by
  rw [restSeq, List.append_assoc, List.singleton_append, List.suffix_cons_iff] at h
  rcases h with h | h
  · obtain ⟨hld, rfl⟩ := List.cons.inj h
    injection hld with _ hdst _ hj
    obtain rfl : j = 0 := by omega
    subst hdst
    exact ⟨_, [], rfl, rfl, .held, List.mem_cons_self, held_lost_restIters _ List.mem_cons_self⟩
  · obtain ⟨hj, post, rfl⟩ := restIters_load h
    rw [restoredBlock, if_neg hj]
    exact ⟨[], post, rfl, needs_next rfl rfl List.mem_cons_self⟩

/-- REST_SEQ loads every working block. -/
theorem restSeq_loads {r j : Nat} (hj : j < 2 * r) : ∃ dst, MicroOp.lda .keep dst .cw (64 * j) ∈ restSeq r := by
  cases j with
  | zero => exact ⟨.held, by simp [restSeq]⟩
  | succ j =>
    refine ⟨.cur, List.mem_append_left _ (List.mem_append_right _ (List.mem_flatMap.2 ⟨j, List.mem_range.2 (by omega), ?_⟩))⟩
    exact List.mem_cons_self

/-! ### BM -/

/-- BM in mode Copy stores each block of CW to the other buffer right behind its load (R211). -/
theorem bmSeq_copy_split {r b : Nat} (hb : b < 2 * r) :
    ∃ pre g post, bmSeq r .copy .other 0 = pre ++ .lda .keep g .cw (64 * b) :: ([] ++ .stn g .other (64 * b) :: post) := by
  cases b with
  | zero =>
    refine ⟨[], .last, [.move .prev .last] ++ (List.range (2 * r - 1)).flatMap (bmIter r .copy .other 0) ++ bmTail, ?_⟩
    simp [bmSeq, bmHead]
  | succ b =>
    obtain ⟨as, bs, hrange⟩ := range_split (show b < 2 * r - 1 by omega)
    refine ⟨bmHead r .copy .other 0 ++ as.flatMap (bmIter r .copy .other 0), .cur,
      [.xorb .cur .cur .prev, .salsa .cur, .sta .keep .cur .cs (64 * fanOut r b), .move .prev .cur]
        ++ bs.flatMap (bmIter r .copy .other 0) ++ bmTail, ?_⟩
    simp [bmSeq, hrange, bmIter]

/-- Whether an aligned store writes a register without a value. -/
@[simp] def MicroOp.AlignedStoreLost (lost : List BlkReg) : MicroOp → Prop
  | .sta _ src _ _ => src ∈ lost
  | .staZero _ _ => False
  | .lda _ _ _ _ | .ldu _ _ _ | .integ _ | .stu _ _ _ _ | .stn _ _ _ | .xorb _ _ _ | .move _ _ | .salsa _ | .pfn _ _ | .flush _ _
  | .bmEnd | .fence | .zeroBegin | .zeroEnd => True

/-- When `lost` have no value, none of the aligned stores to come has one. -/
@[simp] def StoresLost : List BlkReg → List MicroOp → Prop
  | _, [] => True
  | lost, op :: ops => op.AlignedStoreLost lost ∧ StoresLost (op.loss lost) ops

theorem StoresLost.of_split {lost : List BlkReg} {mid post : List MicroOp} {st : MicroOp} (h : StoresLost lost (mid ++ st :: post)) :
    st.AlignedStoreLost (lossAll lost mid) := by
  induction mid generalizing lost with
  | nil => exact h.1
  | cons op mid ih => exact ih h.2

/-- Whichever load of `ops` leaves its register without a value, the aligned stores behind it have none. -/
def LoadsNeeded (ops : List MicroOp) : Prop :=
  ∀ ld rest, ld :: rest <:+ ops → ld.loadDst ≠ [] → StoresLost ld.loadDst rest

theorem loadsNeeded_nil : LoadsNeeded [] := fun _ _ h => absurd (List.suffix_nil.1 h) (List.cons_ne_nil _ _)

theorem loadsNeeded_cons {op : MicroOp} {ops : List MicroOp} :
    LoadsNeeded (op :: ops) ↔ (op.loadDst ≠ [] → StoresLost op.loadDst ops) ∧ LoadsNeeded ops := by
  refine ⟨fun h => ⟨h op ops List.suffix_rfl, fun ld rest hs => h ld rest (hs.trans (List.suffix_cons op ops))⟩, ?_⟩
  rintro ⟨hop, hops⟩ ld rest hs
  rcases List.suffix_cons_iff.1 hs with heq | hs
  · obtain ⟨rfl, rfl⟩ := List.cons.inj heq
    exact hop
  · exact hops ld rest hs

/-- BM's chain: without a value in PREV no aligned store to come has one (R211 steps 3c to 4). -/
def NeedsPrev (ops : List MicroOp) : Prop := ∀ lost, .prev ∈ lost → StoresLost lost ops

section
variable {r oo : Nat} {mode : BmMode} {ob : Base} {ops : List MicroOp}

theorem bmTail_needsPrev : NeedsPrev bmTail := fun lost h => by
  simp [bmTail, MicroOp.srcs, h]

theorem bmIter_needsPrev (h : NeedsPrev ops) (i : Nat) : NeedsPrev (bmIter r mode ob oo i ++ ops) := fun lost hl => by
  have key : ∀ lost', .prev ∈ lost' → StoresLost lost' ops := h
  cases mode with
  | none =>
    simp [bmIter, MicroOp.srcs, hl, key]
  | copy =>
    simp [bmIter, MicroOp.srcs, hl, key]
  | xor =>
    by_cases hi : i < r <;>
      simp [bmIter, hi, MicroOp.srcs, hl, key]

/-- A load of an iteration leaves CUR, and so PREV, without a value. -/
theorem bmIter_loadsNeeded (h : NeedsPrev ops) (hops : LoadsNeeded ops) (i : Nat) : LoadsNeeded (bmIter r mode ob oo i ++ ops) := by
  have key : ∀ lost', .prev ∈ lost' → StoresLost lost' ops := h
  cases mode with
  | none =>
    simp [bmIter, loadsNeeded_cons, hops, MicroOp.loadDst, MicroOp.srcs, key]
  | copy =>
    simp [bmIter, loadsNeeded_cons, hops, MicroOp.loadDst, MicroOp.srcs, key]
  | xor =>
    by_cases hi : i < r <;>
      simp [bmIter, hi, loadsNeeded_cons, hops, MicroOp.loadDst, MicroOp.srcs, key]

theorem bmLoop_loadsNeeded (is : List Nat) :
    NeedsPrev (is.flatMap (bmIter r mode ob oo) ++ bmTail) ∧ LoadsNeeded (is.flatMap (bmIter r mode ob oo) ++ bmTail) := by
  induction is with
  | nil =>
    exact ⟨bmTail_needsPrev, by simp [bmTail, loadsNeeded_cons, loadsNeeded_nil, MicroOp.loadDst]⟩
  | cons i is ih =>
    rw [List.flatMap_cons, List.append_assoc]
    exact ⟨bmIter_needsPrev ih.1 i, bmIter_loadsNeeded ih.1 ih.2 i⟩

/-- Hints fill no register and store nothing (R80). -/
theorem storesLost_hints (lost : List BlkReg) (f : Nat → Nat) (is : List Nat) :
    StoresLost lost (is.map (fun q => MicroOp.pfn ob (f q)) ++ ops) ↔ StoresLost lost ops := by
  induction is with
  | nil => exact Iff.rfl
  | cons i is ih => exact Iff.trans (and_iff_right trivial) ih

theorem loadsNeeded_hints (f : Nat → Nat) (is : List Nat) (h : LoadsNeeded ops) :
    LoadsNeeded (is.map (fun q => MicroOp.pfn ob (f q)) ++ ops) := by
  induction is with
  | nil => exact h
  | cons i is ih => exact loadsNeeded_cons.2 ⟨fun hne => absurd rfl hne, ih⟩

/-- After a load of BM that left its register without a value, no aligned store to come has one (R211). -/
theorem bmSeq_loadsNeeded : LoadsNeeded (bmSeq r mode ob oo) := by
  obtain ⟨hprev, hloop⟩ := bmLoop_loadsNeeded (r := r) (mode := mode) (ob := ob) (oo := oo) (List.range (2 * r - 1))
  have key : ∀ lost', .prev ∈ lost' → StoresLost lost' ((List.range (2 * r - 1)).flatMap (bmIter r mode ob oo) ++ bmTail) := hprev
  rw [bmSeq, List.append_assoc]
  generalize (List.range (2 * r - 1)).flatMap (bmIter r mode ob oo) ++ bmTail = loop at key hloop
  cases mode with
  | none => simp [bmHead, loadsNeeded_cons, hloop, MicroOp.loadDst, MicroOp.srcs, key]
  | copy => simp [bmHead, loadsNeeded_cons, hloop, MicroOp.loadDst, MicroOp.srcs, key]
  | xor =>
    simp only [bmHead, List.append_assoc, List.cons_append, List.nil_append, loadsNeeded_cons, storesLost_hints]
    refine ⟨fun _ => ?_, loadsNeeded_hints _ _ ?_⟩
    · simp [MicroOp.loadDst, MicroOp.srcs, key]
    · simp [loadsNeeded_cons, hloop, MicroOp.loadDst, MicroOp.srcs, key]

end

end Sys2Proof.Machine

/-! PROOFS. The requests of the reference run of a command but SMIX and ZEROIZE, in their order (20_memory.md R80, R84). -/

namespace Sys2Proof.Machine

/-- The requests of micro-operations whose bases and hint enables stand as they do in `s`, in their order (R80, R84). -/
def requests (s : State) (ops : List MicroOp) : List Request := ops.filterMap fun op => op.request s

theorem requests_congr {s u : State} (hbase : u.baseAddr = s.baseAddr) (hctrl : u.ctrl = s.ctrl) (ops : List MicroOp) :
    requests u ops = requests s ops := by
  simp only [requests, MicroOp.request_congr hbase hctrl]

theorem requests_cons (s : State) (op : MicroOp) (ops : List MicroOp) :
    requests s (op :: ops) = (op.request s).toList ++ requests s ops := by
  unfold requests
  cases h : op.request s <;> simp [h]

theorem requests_snoc (s : State) (ops : List MicroOp) (op : MicroOp) :
    requests s (ops ++ [op]) = requests s ops ++ (op.request s).toList := by
  unfold requests
  rw [List.filterMap_append]
  cases h : op.request s <;> simp [h]

/-- Of two requests, the earlier one is an earlier micro-operation's. -/
theorem requests_split {s : State} {ops : List MicroOp} {p p' : Nat} {k k' : Request} (hk : (requests s ops)[p]? = some k)
    (hk' : (requests s ops)[p']? = some k') (hlt : p < p') :
    ∃ pre ld mid st post, ops = pre ++ ld :: (mid ++ st :: post) ∧ ld.request s = some k ∧ st.request s = some k' := by
  induction ops generalizing p p' with
  | nil => cases hk
  | cons op ops ih =>
    rw [requests_cons] at hk hk'
    cases hop : op.request s with
    | none =>
      rw [hop] at hk hk'
      obtain ⟨pre, ld, mid, st, post, rfl, hsplit⟩ := ih hk hk' hlt
      exact ⟨op :: pre, ld, mid, st, post, rfl, hsplit⟩
    | some q =>
      rw [hop] at hk hk'
      obtain ⟨n, rfl⟩ : ∃ n, p' = n + 1 := ⟨p' - 1, by omega⟩
      cases p with
      | zero =>
        obtain ⟨st, hst, hreq⟩ := List.mem_filterMap.1 (List.mem_of_getElem? hk')
        obtain ⟨mid, post, rfl⟩ := List.append_of_mem hst
        exact ⟨[], op, mid, st, post, rfl, hop.trans hk, hreq⟩
      | succ p =>
        obtain ⟨pre, ld, mid, st, post, rfl, hsplit⟩ := ih hk hk' (Nat.lt_of_succ_lt_succ hlt)
        exact ⟨op :: pre, ld, mid, st, post, rfl, hsplit⟩

/-- The run from `y` has recorded the requests of its block sequence up to the position. -/
def Recorded (y x : State) : Prop := x.trace = (requests y (y.blockOps.take x.seq.q)).reverse ++ y.trace

theorem MicroOp.place_trace (op : MicroOp) (s : State) : (op.place s).trace = (op.request s).toList ++ s.trace := by
  unfold MicroOp.place
  cases op.request s <;> rfl

/-- A micro-operation performed has its request recorded. -/
theorem Recorded.run {y x : State} (h : Recorded y x) {op : MicroOp} (hop : y.blockOps[x.seq.q]? = some op)
    (hbase : x.baseAddr = y.baseAddr) (hctrl : x.ctrl = y.ctrl) : Recorded y (op.run (op.place x)) := by
  have hnext : requests y (y.blockOps.take (x.seq.q + 1)) = requests y (y.blockOps.take x.seq.q) ++ (op.request y).toList := by
    rw [State.take_blockOps_succ hop, requests_snoc]
  have htrace : (op.run (op.place x)).trace = (requests y (y.blockOps.take (x.seq.q + 1))).reverse ++ y.trace := by
    rw [op.run_trace, op.place_trace, op.request_congr hbase hctrl, hnext, h]
    cases op.request y <;> simp
  unfold Recorded
  rw [htrace]
  by_cases hsalsa : ∃ g, op = .salsa g
  · obtain ⟨g, rfl⟩ := hsalsa
    have hsame : requests y (y.blockOps.take (x.seq.q + 1)) = requests y (y.blockOps.take x.seq.q) := hnext.trans (List.append_nil _)
    obtain ⟨_, _, _, _, _, _, ⟨hq, _⟩ | ⟨hq, _⟩⟩ := (MicroOp.salsa g).run_fields ((MicroOp.salsa g).place x) <;>
      rw [hq, MicroOp.place_seq]
    rw [hsame]
  · rw [MicroOp.run_seq fun g hg => hsalsa ⟨g, hg⟩, op.place_seq]

/-- With no error on its way an engine step is served, meets a failing request, or ends the block sequence (R252). -/
theorem Running.engineStep_cases {x v : State} (h : Running x) (hv : engineStep x = .next v) :
    (∃ op, x.blockOps[x.seq.q]? = some op ∧ Served op x ∧ v = op.run (op.place x))
      ∨ (∃ op q, x.blockOps[x.seq.q]? = some op ∧ op.request x = some q ∧ q.inSpace = true ∧ q.fails x.platform = true
        ∧ v = busError op q (op.place x))
      ∨ (x.blockOps[x.seq.q]? = none ∧ v = endBlock x) := by
  rw [h.engineStep_eq] at hv
  rcases sequencerStep_cases hv with ⟨op, hop, hperf⟩ | hend
  · rcases performOp_outcome hperf with hserved | ⟨q, hfailed⟩
    · exact .inl ⟨op, hop, hserved⟩
    · exact .inr (.inl ⟨op, q, hop, hfailed⟩)
  · exact .inr (.inr hend)

section
variable {i : Instr} {s : State}

/-- The run from `y` has recorded the requests of its block sequence up to the position, or has ended and recorded them all. -/
def PlacesRequests (y x : State) : Prop :=
  (Lockstep y x ∧ Recorded y x) ∨ (x.status.busy = false ∧ x.trace = (requests y y.blockOps).reverse ++ y.trace)

/-- A step of a run that meets no error. -/
theorem Lockstep.placesRequests {y x v : State} (h : Lockstep y x) (hrec : Recorded y x) (hx : RunsCommand i x) (hsmix : i ≠ .smix)
    (hops : x.blockOps = y.blockOps) (hctrl : x.ctrl = y.ctrl) (hserves : ∀ q : Request, q.fails y.platform = false)
    (hnext : Lockstep y v ∨ Ended y v) (hv : Machine.engineStep x = .next v) : PlacesRequests y v := by
  have hnone : x.pendingErr = none := Option.eq_none_iff_forall_ne_some.2 fun e he => by
    obtain ⟨q, hq⟩ := h.error (he ▸ rfl)
    exact absurd ((hserves q).symm.trans hq) (by decide)
  rcases Running.engineStep_cases ⟨h.busy, hnone⟩ hv with ⟨op, hop, _, rfl⟩ | ⟨_, q, _, _, _, hfails, _⟩ | ⟨hend, rfl⟩
  · rw [hops] at hop
    exact .inl ⟨Lockstep.of_busy hnext ((op.busy_run_place x).trans h.busy), hrec.run hop (h.base_at hop) hctrl⟩
  · rw [h.same.platform, hserves q] at hfails
    cases hfails
  · rw [hops] at hend
    rw [hx.endBlock_eq hsmix]
    refine .inr ⟨by rw [State.complete_status]; rfl, ?_⟩
    rw [State.complete_trace, hrec, List.take_of_length_le (List.getElem?_eq_none_iff.1 hend)]

/-- Without errors a command but SMIX and ZEROIZE places the requests of its block sequence, in their order. -/
theorem exec_trace_of_noErrors (hsmix : i ≠ .smix) (hzeroize : i ≠ .zeroize) (ha : Accepts i s) (hs : Settled s)
    (hbus : s.platform.busErr = []) {u : State} (h : exec i s = .next u) :
    u.trace = (requests (s.started i) (s.started i).blockOps).reverse ++ s.trace := by
  have hserves : ∀ q : Request, q.fails (s.started i).platform = false := fun q => by
    have hplatform : (s.started i).platform = s.platform := rfl
    simp [Request.fails, hplatform, hbus]
  have hend := exec_induct_step ha h (P := PlacesRequests (s.started i)) (.inl ⟨lockstep_started hs i, rfl⟩)
    fun x v hx hb hframe hP hv => by
      rcases hP with ⟨hlock, hrec⟩ | ⟨hidle, _⟩
      · have hops := hx.blockOps_started hsmix hframe.latched
        exact hlock.placesRequests hrec hx hsmix hops hframe.outside.1 hserves
          (hlock.engineStep hx hsmix hzeroize hops hs.2 (ha.startsApart hsmix hzeroize) hv) hv
      · exact absurd (hb.symm.trans hidle) (by decide)
  rcases hend with ⟨hlock, _⟩ | ⟨_, htrace⟩
  · exact absurd (hlock.busy.symm.trans (exec_idle ha h)) (by decide)
  · exact htrace

/-- The requests of the reference run. -/
theorem exec_reference_trace (hsmix : i ≠ .smix) (hzeroize : i ≠ .zeroize) (ha : Accepts i s) (hs : Settled s) {u : State}
    (h : exec i s.withoutErrors = .next u) : u.trace = (requests (s.started i) (s.started i).blockOps).reverse ++ s.trace := by
  have htrace := exec_trace_of_noErrors hsmix hzeroize ha.withoutErrors hs rfl h
  rw [started_withoutErrors, requests_congr (u := (s.started i).withoutErrors) (s := s.started i) rfl rfl] at htrace
  exact htrace

end

end Sys2Proof.Machine

/-! PROOFS. The writes PREPARE, RESTORE, BLOCKMIX and SALSA8 withhold, command by command (60_exceptions.md R286 items 4 and 5). -/

namespace Sys2Proof.Machine

section
variable {i : Instr} {s t : State} {b : Nat}

/-- PREPARE does not write the working block of an element block it could not read (R194). -/
theorem prepare_withholds (ha : Accepts .prepare s) (hs : Settled s) (ht : exec .prepare s = .next t) (hb : b < 2 * s.params.r)
    (hfails : (⟨.readUnaligned, s.params.elem + 64 * b⟩ : Request).fails s.platform = true) :
    t.mem.readBlock (s.params.workBase.toNat + 64 * ((b + 1) % (2 * s.params.r)))
      = s.mem.readBlock (s.params.workBase.toNat + 64 * ((b + 1) % (2 * s.params.r))) := by
  have hr : (s.started .prepare).latched.r.toNat = s.params.r := ha.latched_r rfl (by decide) (.head _)
  have helem : (s.started .prepare).baseAddr .elem = s.params.elem := ha.latched_elem rfl (by decide) (.head _) (.tail _ (.head _))
  have hwork : (s.started .prepare).baseAddr .work = s.params.workBase.toNat := rfl
  have hops : (s.started .prepare).blockOps = prepSeq s.params.r := hr ▸ rfl
  obtain ⟨pre, post, hsplit⟩ := prepSeq_split hb
  rw [← helem] at hfails
  rw [← hwork]
  generalize 64 * ((b + 1) % (2 * s.params.r)) = o at hsplit ⊢
  exact exec_keepsNeeding (by decide) (by decide) ha hs ht (hops.trans hsplit) (needs_next rfl rfl List.mem_cons_self) (k := ⟨_, _⟩) rfl rfl
    hfails (q := ⟨_, _⟩) rfl

/-- RESTORE does not write the element block of a working block it could not read (R197). -/
theorem restore_withholds (ha : Accepts .restore s) (hs : Settled s) (ht : exec .restore s = .next t) (hb : b < 2 * s.params.r)
    (hfails : (⟨.readAligned, s.cwParam + 64 * ((b + 1) % (2 * s.params.r))⟩ : Request).fails s.platform = true) :
    t.mem.readBlock (s.params.elem + 64 * b) = s.mem.readBlock (s.params.elem + 64 * b) := by
  have hr : (s.started .restore).latched.r.toNat = s.params.r := ha.latched_r rfl (by decide) (.head _)
  have helem : (s.started .restore).baseAddr .elem = s.params.elem := ha.latched_elem rfl (by decide) (.head _) (.tail _ (.head _))
  have hcw : (s.started .restore).baseAddr .cw = s.cwParam := s.started_cw (.inl rfl)
  have hops : (s.started .restore).blockOps = restSeq s.params.r := hr ▸ rfl
  obtain ⟨dst, hload⟩ := restSeq_loads (Nat.mod_lt (b + 1) (Nat.zero_lt_of_lt hb))
  obtain ⟨pre, rest, hsplit⟩ := List.append_of_mem hload
  obtain ⟨mid, post, rfl, hneeds⟩ := restSeq_load (hsplit ▸ List.suffix_append pre _)
  rw [restoredBlock_next hb] at hsplit hneeds
  rw [← hcw] at hfails
  rw [← helem]
  generalize 64 * ((b + 1) % (2 * s.params.r)) = o, 64 * b = o' at hsplit hneeds hfails ⊢
  exact exec_keepsNeeding (by decide) (by decide) ha hs ht (hops.trans hsplit) hneeds (k := ⟨_, _⟩) rfl rfl hfails (q := ⟨_, _⟩) rfl

/-- CW and CS name the same buffers before the acceptance of BLOCKMIX and after it (R33, R241). -/
theorem State.started_cw_cs (s : State) (hi : i = .blockmixNone ∨ i = .blockmixCopy ∨ i = .blockmixXor) :
    (s.started i).baseAddr .cw = s.cwParam ∧ (s.started i).baseAddr .cs = s.csParam := by
  have hswap : (s.started i).status.swap = s.status.swap := s.started_swap (by rcases hi with rfl | rfl | rfl <;> rfl)
  rcases hi with rfl | rfl | rfl <;>
    simp [State.baseAddr, State.cw, State.cs, State.cwParam, State.csParam, hswap, State.started_work, State.started_shuf]

/-- BLOCKMIX.COPY does not copy a block it could not read (R222). -/
theorem blockmixCopy_withholds (ha : Accepts .blockmixCopy s) (hs : Settled s) (ht : exec .blockmixCopy s = .next t)
    (hb : b < 2 * s.params.r) (hfails : (⟨.readAligned, s.cwParam + 64 * b⟩ : Request).fails s.platform = true) :
    t.mem.readBlock (s.params.otherBase.toNat + 64 * b) = s.mem.readBlock (s.params.otherBase.toNat + 64 * b) := by
  have hr : (s.started .blockmixCopy).latched.r.toNat = s.params.r := ha.latched_r rfl (by decide) (.head _)
  have hother : (s.started .blockmixCopy).baseAddr .other = s.params.otherBase.toNat := rfl
  have hops : (s.started .blockmixCopy).blockOps = bmSeq s.params.r .copy .other 0 := hr ▸ rfl
  obtain ⟨pre, g, post, hsplit⟩ := bmSeq_copy_split hb
  rw [← (s.started_cw_cs (.inr (.inl rfl))).1] at hfails
  rw [← hother]
  generalize 64 * b = o at hsplit hfails ⊢
  exact exec_keepsNeeding (by decide) (by decide) ha hs ht (hops.trans hsplit) (needs_next rfl rfl List.mem_cons_self) (k := ⟨_, _⟩) rfl rfl
    hfails (q := ⟨_, _⟩) rfl

/-- A failing read of BM is a block load's. -/
theorem bmSeq_failing_load {r oo : Nat} {mode : BmMode} {ob : Base} {op : MicroOp} (hop : op ∈ bmSeq r mode ob oo) {u : State} {k : Request}
    (hk : op.request u = some k) (hread : k.kind.isWrite = false) {p : Platform} (hfails : k.fails p = true) : op.loadDst ≠ [] := by
  have hinteg : ∀ d, op ≠ .integ d := by
    rcases List.mem_append.1 (bmSeq_eq _ _ _ _ ▸ hop) with h | h
    · exact (bmBody_ops op h).2.2
    · rw [List.mem_singleton.1 h]
      exact nofun
  obtain ⟨_, hkind⟩ := MicroOp.request_addr hk
  have hhint : k.kind.isHint = false := by
    cases hh : k.kind.isHint with
    | false => rfl
    | true => simp [Request.fails, hh] at hfails
  cases op with
  | lda | ldu => exact List.cons_ne_nil _ _
  | integ d => exact absurd rfl (hinteg d)
  | sta | staZero | stu | stn =>
    rw [← Option.some.inj hkind] at hread
    cases hread
  | pfn =>
    obtain ⟨_, hkind⟩ : u.ctrl.pfe = true ∧ ReqKind.prefetch = k.kind := by simpa [MicroOp.reqKind] using hkind
    rw [← hkind] at hhint
    cases hhint
  | flush =>
    obtain ⟨_, hkind⟩ : u.ctrl.fle = true ∧ ReqKind.flush = k.kind := by simpa [MicroOp.reqKind] using hkind
    rw [← hkind] at hhint
    cases hhint
  | _ => cases hkind

/-- An aligned store without a value needs a register that has none. -/
theorem needs_of_alignedStoreLost {ld st : MicroOp} {mid : List MicroOp} {u : State} {a : Nat}
    (hst : st.request u = some ⟨.writeAligned, a⟩) (h : st.AlignedStoreLost (lossAll ld.loadDst mid)) : Needs ld mid st := by
  obtain ⟨_, hkind⟩ := MicroOp.request_addr hst
  cases st with
  | sta l src b o => exact ⟨rfl, src, List.mem_cons_self, h⟩
  | staZero => exact absurd h id
  | pfn | flush => simp [MicroOp.reqKind] at hkind
  | _ => cases hkind

/-- BLOCKMIX does not write a shuffle block whose write follows a read that failed (R211). -/
theorem blockmix_withholds (hi : i = .blockmixNone ∨ i = .blockmixCopy ∨ i = .blockmixXor) (ha : Accepts i s) (hs : Settled s)
    (ht : exec i s = .next t) {p p' : Nat} {k : Request} {a : Nat} (hlt : p < p')
    (hk : (requests (s.started i) (s.started i).blockOps)[p]? = some k)
    (hk' : (requests (s.started i) (s.started i).blockOps)[p']? = some ⟨.writeAligned, a⟩) (hread : k.kind.isWrite = false)
    (hfails : k.fails s.platform = true) : t.mem.readBlock a = s.mem.readBlock a := by
  have hops : (s.started i).blockOps = bmSeq (s.started i).latched.r.toNat (blockmixMode i) .other 0 := by
    rcases hi with rfl | rfl | rfl <;> rfl
  obtain ⟨hsmix, hzeroize⟩ : i ≠ .smix ∧ i ≠ .zeroize := by rcases hi with rfl | rfl | rfl <;> decide
  obtain ⟨pre, ld, mid, st, post, hsplit, hld, hst⟩ := requests_split hk hk' hlt
  have hload : ld.loadDst ≠ [] := bmSeq_failing_load (hops ▸ hsplit ▸ List.mem_append_right _ List.mem_cons_self) hld hread hfails
  have hsuffix : ld :: (mid ++ st :: post) <:+ bmSeq (s.started i).latched.r.toNat (blockmixMode i) .other 0 :=
    hops ▸ hsplit ▸ List.suffix_append pre _
  exact exec_keepsNeeding hsmix hzeroize ha hs ht hsplit (needs_of_alignedStoreLost hst (bmSeq_loadsNeeded ld _ hsuffix hload).of_split) hld hread
    hfails (q := ⟨.writeAligned, a⟩) (Option.filter_eq_some_iff.2 ⟨hst, rfl⟩)

/-- SALSA8 whose read fails writes nothing (R145). -/
theorem salsa_withholds (hi : i = .salsa8 ∨ i = .salsa8Nat) (ha : Accepts i s) (hs : Settled s) (ht : exec i s = .next t) {k : Request}
    (hk : k ∈ requests (s.started i) (s.started i).blockOps) (hread : k.kind.isWrite = false) (hfails : k.fails s.platform = true) :
    t.mem = s.mem := by
  have hload : k = ⟨.readAligned, s.params.otherBase.toNat⟩ := by
    obtain ⟨op, hop, hk⟩ := List.mem_filterMap.1 hk
    rw [State.started_blockOps_salsa hi] at hop
    rw [← State.started_baseAddr_other hi]
    rcases hi with rfl | rfl <;> simp only [salsaSeq, List.mem_cons, List.not_mem_nil, or_false] at hop <;>
      rcases hop with rfl | rfl | rfl <;> cases hk
    · rfl
    · cases hread
    · rfl
    · cases hread
  obtain ⟨t', ht', hmem, _⟩ := salsaLoadErrorStoresNothing i s hi ha hs (hload ▸ hfails)
  rw [ht] at ht'
  cases ht'
  exact hmem

end

/-! ### RESTORE, SMIX's too -/

/-- In RESTORE a step on a failing read leaves the element block the read would have filled (R286 item 4). -/
theorem RunsCommand.restoreRead_withholds {c : Instr} {s t : State} (h : RunsCommand c s) (hport : PortOk s) (hb : s.status.busy = true)
    (hphase : s.seq.phase = .restore) {l : Layout} {dst : BlkReg} {b : Nat} (hlt : b < 2 * s.latched.r.toNat)
    (hop : s.blockOps[s.seq.q]? = some (.lda l dst .cw (64 * ((b + 1) % (2 * s.latched.r.toNat)))))
    (hfails : (⟨.readAligned, s.cw + 64 * ((b + 1) % (2 * s.latched.r.toNat))⟩ : Request).fails s.platform = true)
    (ht : Machine.engineStep s = .next t) {a : Nat} (hin : inBlock (s.latched.elem.toNat + 64 * b) a) : t.readByte a = s.readByte a := by
  have hnone : s.pendingErr = none := by
    have herr := h.errorPhase
    rw [hphase] at herr
    cases hp : s.pendingErr with
    | none => rfl
    | some e =>
      have hmem := herr (hp ▸ rfl)
      cases c <;> simp [streamPhases] at hmem
  have hops : s.blockOps = restSeq s.latched.r.toNat := by rw [h.blockOps_eq, hphase]; rfl
  have hsuffix : .lda l dst .cw (64 * ((b + 1) % (2 * s.latched.r.toNat))) :: s.blockOps.drop (s.seq.q + 1) <:+ restSeq s.latched.r.toNat := by
    rw [← State.drop_blockOps hop, ← hops]
    exact List.drop_suffix _ _
  obtain ⟨mid, post, hrest, hneeds⟩ := restSeq_load hsuffix
  have hapart : StoresApart (storeReqs s s.blockOps) := hops ▸ restSeq_stores _ s
  rw [State.blockOps_split hop, hrest] at hapart
  rw [restoredBlock_next hlt] at hrest hneeds hapart
  generalize 64 * ((b + 1) % (2 * s.latched.r.toNat)) = o at hop hfails hsuffix hneeds hapart
  have hothers := hapart.others (q := ⟨.writeUnaligned, s.latched.elem.toNat + 64 * b⟩) rfl hin
  rcases Running.engineStep_cases ⟨hb, hnone⟩ ht with ⟨op, hop', hserved, _⟩ | ⟨op, q, hop', hq, hinSpace, _, rfl⟩ | ⟨hend, _⟩
  · rw [hop] at hop'
    cases hop'
    have hserves := (hserved _ rfl).2.2
    exact absurd (hserves.symm.trans hfails) (by decide)
  · rw [hop] at hop'
    cases hop'
    have hread : q.kind = .readAligned := (Option.some.inj (MicroOp.request_addr hq).2).symm
    rw [busError_of_stops (by rw [MicroOp.place_seq, hphase]; decide) (by rw [hread]; decide), errorStop, MicroOp.place, hq]
    show (State.stopCommand _ (s.blockOps.drop (s.seq.q + 1)) [dst]).readByte a = _
    have hport' : PortOk ((s.record q).failRequest q) := portOk_failRequest (hport.of_eq rfl rfl) hinSpace
    have hbase : ((s.record q).failRequest q).baseAddr = s.baseAddr := State.baseAddr_failRequest _ q
    have hissues := hneeds.withheld (acc := ((s.record q).failRequest q, [dst])) (post := post) (List.Subset.refl _)
    rw [hrest]
    refine (hport'.readByte_stopCommand_of_issues hissues fun q' hq' => ?_).trans ?_
    · rw [storeReqs_congr hbase] at hq'
      exact hothers q' (by
        rw [storeReqs_append, storeReqs_cons]
        exact List.mem_append_right _ (List.mem_append_right _ hq'))
    · refine ((s.record q).failRequest_issues q).readByte fun q' hq' => ?_
      rw [hread] at hq'
      cases hq'
  · rw [hop] at hend
    cases hend

end Sys2Proof.Machine

/-! PROOFS. A run and its reference run are the same until a request fails (20_memory.md R84, 60_exceptions.md R286). -/

namespace Sys2Proof.Machine

/-! ### The record of the requests -/

theorem endBlock_trace (s : State) : (endBlock s).trace = s.trace := by
  have hcomplete := s.complete_trace
  unfold endBlock
  split
  · split
    · rfl
    · exact hcomplete
  · split <;> rfl
  · split
    · exact s.stopCommand_trace _ _
    · rfl
  · split <;> rfl
  · split
    · rfl
    · exact hcomplete
  all_goals exact hcomplete

theorem busError_trace (op : MicroOp) (q : Request) (s : State) : (busError op q s).trace = s.trace := by
  unfold busError
  split
  · exact s.failRequest_trace q
  · split
    · exact s.failRequest_trace q
    · exact (State.stopCommand_trace _ _ _).trans (s.failRequest_trace q)

/-- An engine step records at most the request of the position's micro-operation (log 10). -/
theorem engineStep_trace {s t : State} (h : engineStep s = .next t) :
    t.trace = s.trace ∨ ∃ op q, s.blockOps[s.seq.q]? = some op ∧ op.request s = some q ∧ t.trace = q :: s.trace := by
  have hbase : s.countArrival.baseAddr = s.baseAddr := State.baseAddr_congr (by simp) (by simp) (by simp)
  rcases engineStep_cases h with ⟨_, rfl⟩ | ⟨_, hseq⟩
  · exact .inl ((State.stopCommand_trace _ _ _).trans s.countArrival_trace)
  rcases sequencerStep_cases hseq with ⟨op, hop, hperf⟩ | ⟨_, rfl⟩
  · rw [State.countArrival_blockOps, State.countArrival_seq] at hop
    have hplace : (op.place s.countArrival).trace = (op.request s).toList ++ s.trace := by
      rw [op.place_trace, op.request_congr hbase s.countArrival_ctrl, State.countArrival_trace]
    have htrace : t.trace = (op.request s).toList ++ s.trace := by
      rcases performOp_outcome hperf with ⟨_, rfl⟩ | ⟨q, _, _, _, rfl⟩
      · exact (op.run_trace _).trans hplace
      · exact (busError_trace _ _ _).trans hplace
    cases hreq : op.request s with
    | none => exact .inl (by rw [htrace, hreq]; rfl)
    | some q => exact .inr ⟨op, q, hop, hreq, by rw [htrace, hreq]; rfl⟩
  · exact .inl ((endBlock_trace _).trans s.countArrival_trace)

/-- A command adds its requests to the record. -/
theorem exec_trace_extends {i : Instr} {s t : State} (ha : Accepts i s) (h : exec i s = .next t) :
    ∃ new : List Request, t.trace = new.reverse ++ s.trace := by
  refine exec_induct_step ha h (P := fun x => ∃ new : List Request, x.trace = new.reverse ++ s.trace) ⟨[], rfl⟩ ?_
  rintro x v _ _ _ ⟨new, hnew⟩ hv
  rcases engineStep_trace hv with hsame | ⟨_, q, _, _, hcons⟩
  · exact ⟨new, hsame.trans hnew⟩
  · exact ⟨new ++ [q], by rw [hcons, hnew]; simp⟩

/-! ### The same steps on a platform without errors -/

theorem MicroOp.run_withoutErrors (op : MicroOp) (s : State) : op.run s.withoutErrors = (op.run s).withoutErrors := by
  cases op with
  | salsa g =>
    by_cases h : s.seq.t < Config.rounds <;>
      simp [MicroOp.run, MicroOp.effect, MicroOp.advance, opSalsa, State.withoutErrors, h] <;> rfl
  | integ d => cases d <;> rfl
  | _ => rfl

theorem MicroOp.place_withoutErrors (op : MicroOp) (s : State) : op.place s.withoutErrors = (op.place s).withoutErrors := by
  unfold MicroOp.place
  rw [op.request_congr (u := s.withoutErrors) (s := s) rfl rfl]
  cases op.request s <;> rfl

theorem State.complete_withoutErrors (s : State) : s.withoutErrors.complete = s.complete.withoutErrors := by
  unfold State.complete State.reportError
  cases h : s.pendingErr <;> simp [State.withoutErrors, h] <;> rfl

theorem endBlock_withoutErrors {s : State} (h : s.pendingErr = none) : endBlock s.withoutErrors = (endBlock s).withoutErrors := by
  have hcomplete := s.complete_withoutErrors
  have hsmix : s.withoutErrors.isSmix = s.isSmix := rfl
  have hseq : s.withoutErrors.seq = s.seq := rfl
  have hlatched : s.withoutErrors.latched = s.latched := rfl
  have hpending : s.withoutErrors.pendingErr = none := h
  simp only [endBlock, hseq, hsmix, hlatched, hpending, h]
  split
  · split
    · rfl
    · exact hcomplete
  · split <;> rfl
  · rfl
  · split <;> rfl
  · split
    · rfl
    · exact hcomplete
  all_goals exact hcomplete

/-- The end of a block sequence brings no error on its way. -/
theorem endBlock_pendingErr {s : State} (h : s.pendingErr = none) : (endBlock s).pendingErr = none := by
  have hcomplete := s.complete_pendingErr
  simp only [endBlock, h]
  split
  · split
    · exact h
    · exact hcomplete
  · split <;> exact h
  · exact h
  · split <;> exact h
  · split
    · exact h
    · exact hcomplete
  all_goals exact hcomplete

/-- `x` has met no error since `y`, and its reference run goes on from there to `u`. -/
structure FollowsReference (y u x : State) : Prop where
  running : Running x
  reference : ∃ fuel, runToIdle fuel x.withoutErrors = .next u
  served : ∃ new, x.trace = new ++ y.trace ∧ ∀ q ∈ new, q.fails y.platform = false

section
variable {y u x v : State}

/-- The step the reference run takes too. -/
theorem FollowsReference.next (h : FollowsReference y u x) (hu : u.status.busy = false) (hstep : engineStep x.withoutErrors = .next v.withoutErrors)
    (hv : Running v) (hserved : ∃ new, v.trace = new ++ x.trace ∧ ∀ q ∈ new, q.fails y.platform = false) : FollowsReference y u v := by
  obtain ⟨hrun, ⟨fuel, hfuel⟩, new, hnew, hall⟩ := h
  obtain ⟨new', hnew', hall'⟩ := hserved
  refine ⟨hv, ?_, new' ++ new, by rw [hnew', hnew, List.append_assoc], fun q hq => (List.mem_append.1 hq).elim (hall' q) (hall q)⟩
  cases fuel with
  | zero =>
    cases hfuel
    exact absurd (hrun.busy.symm.trans hu) (by decide)
  | succ fuel => exact ⟨fuel, (runToIdle_busy (fuel := fuel) (s := x.withoutErrors) hrun.busy hstep).symm.trans hfuel⟩

theorem Running.withoutErrors (h : Running x) : Running x.withoutErrors := ⟨h.busy, h.noError⟩

/-- A served micro-operation is one of the reference run's. -/
theorem FollowsReference.served_op (h : FollowsReference y u x) (hu : u.status.busy = false) (hplatform : x.platform = y.platform)
    {op : MicroOp} (hop : x.blockOps[x.seq.q]? = some op) (hserved : Served op x) : FollowsReference y u (op.run (op.place x)) := by
  obtain ⟨_, _, herr, _⟩ := op.run_fields (op.place x)
  have hrunning : Running (op.run (op.place x)) :=
    ⟨(op.busy_run_place x).trans h.running.busy, herr.trans ((op.place_pendingErr x).trans h.running.noError)⟩
  refine h.next hu ?_ hrunning ⟨(op.request x).toList, (op.run_trace _).trans (op.place_trace x), fun q hq => ?_⟩
  · have hop : x.withoutErrors.blockOps[x.withoutErrors.seq.q]? = some op := hop
    have hserves : Served op x.withoutErrors := fun q hq => by
      obtain ⟨hin, halign, _⟩ := hserved q ((op.request_congr (u := x.withoutErrors) rfl rfl).symm.trans hq)
      exact ⟨hin, halign, by simp [Request.fails, State.withoutErrors]⟩
    rw [h.running.withoutErrors.engineStep_eq, sequencerStep, hop]
    exact (performOp_served hserves).trans (by rw [op.place_withoutErrors, op.run_withoutErrors])
  · rw [← hplatform]
    exact (hserved q (Option.mem_toList.1 hq)).2.2

/-- So is the end of a block sequence. -/
theorem FollowsReference.end_block (h : FollowsReference y u x) (hu : u.status.busy = false) (hend : x.blockOps[x.seq.q]? = none)
    (hbusy : (endBlock x).status.busy = true) : FollowsReference y u (endBlock x) := by
  refine h.next hu ?_ ⟨hbusy, endBlock_pendingErr h.running.noError⟩ ⟨[], endBlock_trace x, nofun⟩
  have hend : x.withoutErrors.blockOps[x.withoutErrors.seq.q]? = none := hend
  rw [h.running.withoutErrors.engineStep_eq, sequencerStep, hend, endBlock_withoutErrors h.running.noError]

end

end Sys2Proof.Machine

/-! PROOFS. SMIX reads in RESTORE what FILL has read before it, and leaves the element alone until then (44_controller.md R253,
60_exceptions.md R262, R286). -/

namespace Sys2Proof.Machine

/-! ### The element before RESTORE -/

section
variable {s x v : State}

/-- Outside RESTORE, SMIX writes no buffer that meets the element (R247, R253). -/
theorem Accepts.elemRegion_disjoint (ha : Accepts .smix s) (hl : x.latched = (s.started .smix).latched) {ph : Phase}
    (hph : ph ∈ phasesOf .smix) (hne : ph ≠ .restore) : ∀ b ∈ writeBases .smix ph, s.elemRegion.disjoint (x.baseRegion b) = true := by
  have hall : ∀ g ∈ [s.workRegion, s.shufRegion, s.tableRegion], s.elemRegion.disjoint g = true := by
    have hdisjoint := ha.disjoint
    simp only [commandChecks, smixChecks, pairwiseDisjoint, Bool.and_eq_true, List.all_eq_true] at hdisjoint
    exact hdisjoint.1
  obtain ⟨hwork, hshuf, htable⟩ : s.elemRegion.disjoint s.workRegion = true ∧ s.elemRegion.disjoint s.shufRegion = true
      ∧ s.elemRegion.disjoint s.tableRegion = true := by simpa using hall
  have hcs : s.elemRegion.disjoint (x.baseRegion .cs) = true := by
    rcases ha.csRegion_mem hl (by decide) (.head _) with h | h <;> rw [h]
    · exact hwork
    · exact hshuf
  rw [← ha.workRegion_eq hl (by decide) (.head _)] at hwork
  rw [← ha.shufRegion_eq hl (by decide) (.head _)] at hshuf
  rw [← ha.tableRegion_eq hl (by decide) (.head _) (.tail _ (.tail _ (.head _)))] at htable
  simp only [phasesOf, List.mem_cons, List.not_mem_nil, or_false] at hph
  rcases hph with rfl | rfl | rfl | rfl | rfl | rfl
  · exact List.forall_mem_singleton.2 hwork
  · exact forall_mem_two hcs htable
  · exact nofun
  · exact List.forall_mem_singleton.2 hcs
  · exact absurd rfl hne
  · exact forall_mem_three hwork hshuf htable

/-- A step of SMIX outside RESTORE leaves the element (R262). -/
theorem RunsCommand.engineStep_keepsElement (h : RunsCommand .smix x) (ha : Accepts .smix s)
    (hl : x.latched = (s.started .smix).latched) (hport : PortOk x) (hne : x.seq.phase ≠ .restore) (hv : Machine.engineStep x = .next v)
    {a : Nat} (hin : s.elemRegion.has a = true) : v.readByte a = x.readByte a := by
  refine hport.readByte_engineStep hv fun q hq hblock => ?_
  obtain ⟨op, hop, hq⟩ := mem_storeReqs.1 hq
  have hmem := List.mem_of_mem_drop hop
  rw [h.blockOps_eq] at hmem
  obtain ⟨b, o, hat, haddr⟩ := MicroOp.storeReq_addr hq
  have hfits := offsetOk_span (MicroOp.storeAt_ok hat (blockSeq_ok h.geometry.1.1 (fun hf => h.iter_lt (.inl hf)) op hmem))
  have hdisjoint := (Region.disjoint_iff _ _).1 (ha.elemRegion_disjoint hl h.phase_mem hne b (blockSeq_storeAt hmem hat))
  have hin := of_decide_eq_true hin
  rw [haddr] at hblock
  simp only [inBlock, Config.blockBytes, State.baseRegion, Region.stop] at hblock hdisjoint hin
  omega

/-- The next block sequence of SMIX (R253). -/
theorem endBlock_of_smix (h : RunsCommand .smix x) (hnone : x.pendingErr = none) {next : Phase × Nat}
    (hnext : nextBlock x.latched.n.toNat x.seq.phase x.seq.i = some next) :
    (endBlock x).seq = ⟨next.1, next.2, 0, 0⟩ ∧ (endBlock x).status = x.status ∧ (endBlock x).latched = x.latched
      ∧ (endBlock x).platform = x.platform := by
  have hsmix : x.isSmix = true := h.isSmix_iff.2 rfl
  cases hp : x.seq.phase with rw [hp] at hnext
  | prepare =>
    cases hnext
    simp [endBlock, hp, hsmix]
  | fill =>
    by_cases hi : x.seq.i + 1 < x.latched.n.toNat <;> simp only [nextBlock, hi, if_true, if_false, Option.some.injEq] at hnext <;>
      subst hnext <;> simp [endBlock, hp, hi]
  | fence =>
    cases hnext
    simp [endBlock, hp, hnone]
  | mix =>
    by_cases hi : x.seq.i + 1 < x.latched.n.toNat <;> simp only [nextBlock, hi, if_true, if_false, Option.some.injEq] at hnext <;>
      subst hnext <;> simp [endBlock, hp, hi]
  | restore =>
    cases hnext
    simp [endBlock, hp, hsmix]
  | _ => cases hnext

end

/-! ### The reads of the working buffer -/

/-- No aligned read of the working buffer fails. -/
def WorkServed (x : State) : Prop :=
  ∀ j, j < 2 * x.latched.r.toNat → (⟨.readAligned, x.latched.work.toNat + 64 * j⟩ : Request).fails x.platform = false

/-- What SMIX has read at WORK_BASE was served: nothing yet in PREPARE, the loads behind it in the first BM of FILL, and every block
from then on (R253). -/
def WorkReadSoFar (x : State) : Prop :=
  x.seq.phase = .prepare
    ∨ (x.seq.phase = .fill ∧ x.seq.i = 0 ∧ ∀ dst j, .lda .keep dst .cw (64 * j) ∈ x.blockOps.take x.seq.q →
      (⟨.readAligned, x.latched.work.toNat + 64 * j⟩ : Request).fails x.platform = false)
    ∨ WorkServed x

/-- BM loads every block of CW (R211). -/
theorem bmSeq_loads_cw {r oo j : Nat} {mode : BmMode} {ob : Base} (hj : j < 2 * r) :
    ∃ dst, MicroOp.lda .keep dst .cw (64 * j) ∈ bmSeq r mode ob oo := by
  cases j with
  | zero => exact ⟨.last, by simp [bmSeq, bmHead]⟩
  | succ j =>
    refine ⟨.cur, List.mem_append_left _ (List.mem_append_right _ (List.mem_flatMap.2 ⟨j, List.mem_range.2 (by omega), ?_⟩))⟩
    simp [bmIter]

section
variable {x : State}

theorem WorkServed.congr {v : State} (h : WorkServed x) (hl : v.latched = x.latched) (hp : v.platform = x.platform) : WorkServed v := by
  unfold WorkServed
  rwa [hl, hp]

/-- In the first BM of FILL, CW is the working buffer (R33, R257). -/
theorem RunsCommand.cw_firstFill (h : RunsCommand .smix x) (hphase : x.seq.phase = .fill) (hi : x.seq.i = 0)
    (hq : x.seq.q < x.blockOps.length) : x.cw = x.latched.work.toNat := by
  have hprogress := h.progress
  simp only [progressOk, hphase, hi, if_neg hq.ne] at hprogress
  have hswap := h.swap rfl
  rw [hprogress] at hswap
  rw [State.cw, hswap]
  rfl

theorem WorkReadSoFar.run (h : WorkReadSoFar x) (hrun : RunsCommand .smix x) {op : MicroOp} (hop : x.blockOps[x.seq.q]? = some op)
    (hserved : Served op x) : WorkReadSoFar (op.run (op.place x)) := by
  obtain ⟨hphase, hi, _, _, _, _, hq⟩ := op.run_fields (op.place x)
  have hframe : StepFrame x (op.run (op.place x)) := (quiet_place op x).frame.trans (stepFrame_run op _)
  rw [op.place_seq] at hphase hi hq
  have hops : (op.run (op.place x)).blockOps = x.blockOps := State.blockOps_congr hframe.latched hphase hi
  rcases h with hp | ⟨hp, hzero, hall⟩ | hall
  · exact .inl (hphase.trans hp)
  · refine .inr (.inl ⟨hphase.trans hp, hi.trans hzero, fun dst j hmem => ?_⟩)
    rw [hframe.latched, hframe.platform]
    have hmem : .lda .keep dst .cw (64 * j) ∈ x.blockOps.take x.seq.q ++ [op] := by
      rw [← State.take_blockOps_succ hop]
      rw [hops] at hmem
      rcases hq with ⟨hq, _⟩ | ⟨hq, _⟩ <;> rw [hq] at hmem
      · exact hmem
      · exact List.take_subset_take_left _ (Nat.le_succ _) hmem
    rcases List.mem_append.1 hmem with hmem | hmem
    · exact hall dst j hmem
    · obtain rfl := List.mem_singleton.1 hmem
      rw [← hrun.cw_firstFill hp hzero (List.getElem?_eq_some_iff.1 hop).1]
      exact (hserved _ rfl).2.2
  · exact .inr (.inr (hall.congr hframe.latched hframe.platform))

/-- Where a block sequence before RESTORE ends, the next one is SMIX's. -/
theorem RunsCommand.nextBlock_some (h : RunsCommand .smix x) (hrestore : x.seq.phase ≠ .restore) (hzeroize : x.seq.phase ≠ .zeroize) :
    ∃ next, nextBlock x.latched.n.toNat x.seq.phase x.seq.i = some next ∧ next.1 ≠ .zeroize
      ∧ (x.seq.phase = .prepare → next = (.fill, 0)) := by
  have hmem := h.phase_mem
  cases hp : x.seq.phase with
  | prepare | fence => exact ⟨_, rfl, nofun, by simp⟩
  | fill | mix =>
    refine ⟨_, rfl, ?_, nofun⟩
    split <;> exact nofun
  | restore => exact absurd hp hrestore
  | zeroize => exact absurd hp hzeroize
  | _ =>
    rw [hp] at hmem
    exact absurd hmem (by decide)

theorem WorkReadSoFar.endBlock (h : WorkReadSoFar x) (hrun : RunsCommand .smix x) (hnone : x.pendingErr = none)
    (hend : x.blockOps[x.seq.q]? = none) {next : Phase × Nat}
    (hnext : nextBlock x.latched.n.toNat x.seq.phase x.seq.i = some next) (hfill : x.seq.phase = .prepare → next = (.fill, 0)) :
    WorkReadSoFar (Machine.endBlock x) := by
  obtain ⟨hseq, _, hlatched, hplatform⟩ := endBlock_of_smix hrun hnone hnext
  rcases h with hp | ⟨hp, hzero, hall⟩ | hall
  · obtain rfl := hfill hp
    refine .inr (.inl ⟨by rw [hseq], by rw [hseq], fun dst j hmem => ?_⟩)
    rw [hseq] at hmem
    cases hmem
  · refine .inr (.inr (WorkServed.congr (fun j hj => ?_) hlatched hplatform))
    obtain ⟨dst, hmem⟩ := bmSeq_loads_cw (r := x.latched.r.toNat) (oo := 0 * (128 * x.latched.r.toNat)) (mode := .copy) (ob := .table) hj
    refine hall dst j ?_
    rw [List.take_of_length_le (List.getElem?_eq_none_iff.1 hend), hrun.blockOps_eq, hp, hzero]
    exact hmem
  · exact .inr (.inr (hall.congr hlatched hplatform))

/-! ### The reads of RESTORE -/

/-- REST_SEQ reads blocks of CW (R197). -/
theorem restSeq_read {r : Nat} (hr : 1 ≤ r) {op : MicroOp} (hop : op ∈ restSeq r) {q : Request} (hq : op.request x = some q)
    (hread : q.kind.isWrite = false) : ∃ j < 2 * r, q = ⟨.readAligned, x.cw + 64 * j⟩ := by
  simp only [restSeq, restIter, List.mem_append, List.mem_flatMap, List.mem_range, List.mem_cons, List.not_mem_nil, or_false] at hop
  rcases hop with (rfl | ⟨k, hk, rfl | rfl⟩) | rfl <;> cases hq
  · exact ⟨0, by omega, rfl⟩
  · exact ⟨k + 1, by omega, rfl⟩
  · cases hread
  · cases hread

/-- ZERO_SEQ reads nothing (R258). -/
theorem zeroSeq_request {r n : Nat} {op : MicroOp} (hop : op ∈ zeroSeq r n) {q : Request} (hq : op.request x = some q) :
    q.kind.isWrite = true := by
  simp only [zeroSeq, zeroFill, List.mem_append, List.mem_map, List.mem_cons, List.not_mem_nil, or_false] at hop
  rcases hop with (((rfl | ⟨_, _, rfl⟩) | ⟨_, _, rfl⟩) | ⟨_, _, rfl⟩) | rfl <;> cases hq <;> rfl

/-- In RESTORE, CW is the working buffer, as SWAP is 0 after 2N BMs (R33, R257). -/
theorem RunsCommand.cw_restore (h : RunsCommand .smix x) (hphase : x.seq.phase = .restore) : x.cw = x.latched.work.toNat := by
  have hprogress := h.progress
  simp only [progressOk, hphase, finalProgress] at hprogress
  have hswap := h.swap rfl
  rw [hprogress, Nat.mul_mod_right] at hswap
  rw [State.cw, hswap]
  rfl

/-- Since `w` the run has been in RESTORE or ZERO_SEQ, and has read the working buffer alone. -/
structure ReadsWorkSince (w z : State) : Prop where
  phase : z.status.busy = true → z.seq.phase = .restore ∨ z.seq.phase = .zeroize
  reads : ∃ new, z.trace = new ++ w.trace ∧ ∀ q ∈ new, q.kind.isWrite = false →
    ∃ j < 2 * w.latched.r.toNat, q = ⟨.readAligned, w.latched.work.toNat + 64 * j⟩

/-- After RESTORE comes ZERO_SEQ, and after it the end (R253). -/
theorem CommandMove.phase_restoreOn {c : Instr} {v : State} (hmove : CommandMove c x v) (hx : x.seq.phase = .restore ∨ x.seq.phase = .zeroize)
    (hb : v.status.busy = true) : v.seq.phase = .restore ∨ v.seq.phase = .zeroize := by
  cases hmove with
  | @served op tr d =>
    obtain ⟨hphase, _⟩ := op.run_fields { x with trace := tr, draws := d }
    rw [hphase]
    exact hx
  | passed => exact hx
  | moved tr d e w hsmix hnext hdraw =>
    rcases hnext with ⟨_, hnext⟩ | ⟨_, rfl⟩
    · rcases hx with hp | hp <;> rw [hp] at hnext <;> cases hnext
      exact .inr rfl
    · exact .inr rfl
  | finished => rw [State.complete_status] at hb; cases hb
  | stopped => rw [State.complete_status] at hb; cases hb

theorem ReadsWorkSince.engineStep {w v : State} (h : ReadsWorkSince w x) (hrun : RunsCommand .smix x) (hb : x.status.busy = true)
    (hl : x.latched = w.latched) (hv : Machine.engineStep x = .next v) : ReadsWorkSince w v := by
  refine ⟨(hrun.commandMove hv).phase_restoreOn (h.phase hb), ?_⟩
  obtain ⟨new, hnew, hall⟩ := h.reads
  rcases engineStep_trace hv with hsame | ⟨op, q, hop, hq, hcons⟩
  · exact ⟨new, hsame.trans hnew, hall⟩
  · refine ⟨q :: new, by rw [hcons, hnew]; rfl, List.forall_mem_cons.2 ⟨fun hread => ?_, hall⟩⟩
    have hmem := hrun.op_mem hop
    rcases h.phase hb with hp | hp <;> rw [hp] at hmem
    · rw [← hl, ← hrun.cw_restore hp]
      exact restSeq_read hrun.geometry.1.1 hmem hq hread
    · rw [zeroSeq_request hmem hq] at hread
      cases hread

/-- From RESTORE on, a run reads the working buffer alone. -/
theorem runToIdle_readsWork {w u : State} (hrun : RunsCommand .smix w) (hb : w.status.busy = true) (hphase : w.seq.phase = .restore)
    {fuel : Nat} (h : runToIdle fuel w = .next u) : ReadsWorkSince w u := by
  refine (runToIdle_induct (P := fun z => RunsOrIdle .smix z ∧ StepFrame w z ∧ ReadsWorkSince w z) (fun z v => ?_) fuel w u
    ⟨.inl ⟨hb, hrun⟩, StepFrame.refl w, fun _ => .inl hphase, [], rfl, nofun⟩ h).2.2
  rintro ⟨⟨_, hz⟩ | ⟨hidle, _⟩, hframe, hreads⟩ hb hv
  · exact ⟨hz.engineStep hb hv, hframe.trans (stepFrame_engineStep hv), hreads.engineStep hz hb hframe.latched hv⟩
  · exact absurd (hb.symm.trans hidle) (by decide)

end

/-! ### From acceptance to the end -/

/-- No read of the reference run from `y` to `u` fails on `y`'s platform. -/
def ReadsServed (y u : State) : Prop :=
  ∃ new : List Request, u.trace = new ++ y.trace ∧ ∀ q ∈ new, q.kind.isWrite = false → q.fails y.platform = false

/-- Before its RESTORE phase, and before any error. -/
structure BeforeRestore (y u x : State) : Prop where
  follows : FollowsReference y u x
  work : WorkReadSoFar x
  notRestore : x.seq.phase ≠ .restore
  notZeroize : x.seq.phase ≠ .zeroize

section
variable {s x y u v : State}

/-- A run that has come to RESTORE without an error has served every read of its reference run. -/
theorem FollowsReference.readsServed (h : FollowsReference y u x) (hrun : RunsCommand .smix x) (hphase : x.seq.phase = .restore)
    (hwork : WorkServed x) (hplatform : x.platform = y.platform) : ReadsServed y u := by
  obtain ⟨⟨hb, _⟩, ⟨fuel, hfuel⟩, new, hnew, hserved⟩ := h
  have hrun' : RunsCommand .smix x.withoutErrors := hrun.of_eq rfl rfl rfl rfl rfl rfl rfl rfl id
  obtain ⟨new', hnew', hreads⟩ := (runToIdle_readsWork hrun' hb hphase hfuel).reads
  have hnew : x.withoutErrors.trace = new ++ y.trace := hnew
  refine ⟨new' ++ new, by rw [hnew', hnew, List.append_assoc], fun q hq hread => ?_⟩
  rcases List.mem_append.1 hq with hq | hq
  · obtain ⟨j, hj, rfl⟩ := hreads q hq hread
    rw [← hplatform]
    exact hwork j hj
  · exact hserved q hq

/-- A step before RESTORE goes on before RESTORE, meets an error, or has served every read of the reference run. -/
theorem BeforeRestore.engineStep (h : BeforeRestore y u x) (hrun : RunsCommand .smix x) (hu : u.status.busy = false)
    (hplatform : x.platform = y.platform) (hv : Machine.engineStep x = .next v) :
    BeforeRestore y u v ∨ (∃ e, Reports e v) ∨ ReadsServed y u := by
  obtain ⟨hfollows, hwork, hrestore, hzeroize⟩ := h
  have hb := hfollows.running.busy
  have hnone := hfollows.running.noError
  have hnext := hrun.engineStep hb hv
  rcases hfollows.running.engineStep_cases hv with ⟨op, hop, hserved, rfl⟩ | ⟨op, q, _, _, _, _, rfl⟩ | ⟨hend, rfl⟩
  · obtain ⟨hphase, _⟩ := op.run_fields (op.place x)
    rw [op.place_seq] at hphase
    exact .inl ⟨hfollows.served_op hu hplatform hop hserved, hwork.run hrun hop hserved, hphase ▸ hrestore, hphase ▸ hzeroize⟩
  · have hbusy : (op.place x).status.busy = true := op.place_status x ▸ hb
    exact .inr (.inl ⟨_, reports_busError hbusy (by rw [State.failRequest_pendingErr, op.place_pendingErr, hnone]; rfl) op⟩)
  · obtain ⟨next, hblock, hne, hfill⟩ := hrun.nextBlock_some hrestore hzeroize
    obtain ⟨hseq, hstatus, hlatched, hplatform'⟩ := endBlock_of_smix hrun hnone hblock
    have hbusy : (endBlock x).status.busy = true := hstatus ▸ hb
    have hfollows' := hfollows.end_block hu hend hbusy
    have hwork' := hwork.endBlock hrun hnone hend hblock hfill
    by_cases hp : (endBlock x).seq.phase = .restore
    · have hserved : WorkServed (endBlock x) := by
        rcases hwork' with hp' | ⟨hp', _⟩ | hserved
        · rw [hp] at hp'; cases hp'
        · rw [hp] at hp'; cases hp'
        · exact hserved
      rcases hnext with ⟨_, hrun'⟩ | ⟨hidle, _⟩
      · exact .inr (.inr (hfollows'.readsServed hrun' hp hserved (hplatform'.trans hplatform)))
      · exact absurd (hbusy.symm.trans hidle) (by decide)
    · exact .inl ⟨hfollows', hwork', hp, by rw [hseq]; exact hne⟩

/-- How far SMIX has come in `x` with its element untouched: it has ended, an error is on its way, or it is before RESTORE. -/
structure ElementKept (s u x : State) : Prop where
  port : PortOk x
  reads : ∀ a, s.elemRegion.has a = true → x.readByte a = s.readByte a
  stage : x.status.busy = false ∨ (∃ e, Reports e x) ∨ BeforeRestore (s.started .smix) u x

/-- An error on its way is a streaming store's, or has led to ZERO_SEQ: SMIX is not in RESTORE (R286). -/
theorem ElementKept.notRestore (h : ElementKept s u x) (hrun : RunsCommand .smix x) (hb : x.status.busy = true) : x.seq.phase ≠ .restore := by
  rcases h.stage with hidle | ⟨e, he⟩ | hbefore
  · exact absurd (hb.symm.trans hidle) (by decide)
  · intro hp
    have hmem := hrun.errorPhase (he.running hb ▸ rfl)
    rw [hp] at hmem
    exact absurd hmem (by decide)
  · exact hbefore.notRestore

theorem ElementKept.engineStep (h : ElementKept s u x) (ha : Accepts .smix s) (hrun : RunsCommand .smix x) (hb : x.status.busy = true)
    (hu : u.status.busy = false) (hframe : StepFrame (s.started .smix) x) (hv : Machine.engineStep x = .next v) :
    ElementKept s u v ∨ ReadsServed (s.started .smix) u := by
  have kept : v.status.busy = false ∨ (∃ e, Reports e v) ∨ BeforeRestore (s.started .smix) u v → ElementKept s u v := fun hstage =>
    ⟨portOk_engineStep h.port hv, fun a hin =>
      (hrun.engineStep_keepsElement ha hframe.latched h.port (h.notRestore hrun hb) hv hin).trans (h.reads a hin), hstage⟩
  rcases h.stage with hidle | ⟨e, he⟩ | hbefore
  · exact absurd (hb.symm.trans hidle) (by decide)
  · exact .inl (kept (.inr (.inl ⟨e, reports_engineStep hb (he.running hb) hv⟩)))
  · rcases hbefore.engineStep hrun hu hframe.platform hv with hbefore | herror | hserved
    · exact .inl (kept (.inr (.inr hbefore)))
    · exact .inl (kept (.inr (.inl herror)))
    · exact .inr hserved

/-- SMIX leaves its element, unless every read of its reference run is served (R262, R286 item 4). -/
theorem smix_keepsElement {t : State} (ha : Accepts .smix s) (hs : Settled s) (ht : exec .smix s = .next t)
    (hu : exec .smix s.withoutErrors = .next u) :
    ReadsServed (s.started .smix) u ∨ ∀ a, s.elemRegion.has a = true → t.mem.read a = s.mem.read a := by
  have hidle := exec_idle ha.withoutErrors hu
  have hreference : ∃ fuel, runToIdle fuel (s.started .smix).withoutErrors = .next u := by
    rw [exec_eq_runCommand, runCommand_accepts ha.withoutErrors] at hu
    exact ⟨_, hu⟩
  have hstart : ElementKept s u (s.started .smix) :=
    ⟨⟨hs.1, hs.2 ▸ bufferOk_nil⟩, fun _ _ => rfl,
      .inr (.inr ⟨⟨running_started .smix s, hreference, [], rfl, nofun⟩, .inl rfl, nofun, nofun⟩)⟩
  have hend := exec_induct_step ha ht (P := fun x => ElementKept s u x ∨ ReadsServed (s.started .smix) u) (.inl hstart)
    fun x v hx hb hframe hP hv => hP.elim (fun hP => hP.engineStep ha hx hb hidle hframe hv) .inr
  rcases hend with hkept | hserved
  · obtain ⟨_, hw, _⟩ := exec_idleOk ha ht
    refine .inr fun a hin => ?_
    rw [← State.readByte_of_wbuf_nil hw, hkept.reads a hin]
    exact State.readByte_of_wbuf_nil hs.2 a
  · exact .inl hserved

end

/-- Settles O57: the writes the commands of one block sequence withhold, and SMIX, which stops before RESTORE, where it would read again
what FILL has read. -/
theorem writesThatNeedAFailedReadAreNotPerformed : Obligations.WritesThatNeedAFailedReadAreNotPerformed := by
  refine ⟨fun i s t u ha hs ht hu => ?_, fun s t l dst b h hb hphase hlt hop hfails ht a hin => ?_⟩
  · obtain ⟨ref, href⟩ := exec_trace_extends ha.withoutErrors hu
    have ref_eq : i ≠ .smix → i ≠ .zeroize → ref = requests (s.started i) (s.started i).blockOps := fun hsmix hzeroize =>
      List.reverse_injective (List.append_cancel_right (href.symm.trans (exec_reference_trace hsmix hzeroize ha hs hu)))
    refine ⟨ref, href, fun p k hk hread hfails => ⟨?_, ?_, ?_, ?_, ?_, ?_⟩⟩
    · rintro rfl
      rcases smix_keepsElement ha hs ht hu with ⟨new, hnew, hserved⟩ | hkept
      · have hmem : k ∈ new := by
          rw [← List.append_cancel_right (href.symm.trans hnew)]
          exact List.mem_reverse.2 (List.mem_of_getElem? hk)
        exact absurd ((hserved k hmem hread).symm.trans hfails) (by decide)
      · exact hkept
    · rintro rfl b hb rfl
      exact prepare_withholds ha hs ht hb hfails
    · rintro rfl b hb rfl
      exact restore_withholds ha hs ht hb hfails
    · intro hi p' b hlt hk'
      rw [ref_eq (by rcases hi with rfl | rfl | rfl <;> decide) (by rcases hi with rfl | rfl | rfl <;> decide)] at hk hk'
      exact blockmix_withholds hi ha hs ht hlt hk hk' hread hfails
    · rintro rfl b hb rfl
      exact blockmixCopy_withholds ha hs ht hb hfails
    · intro hi
      rw [ref_eq (by rcases hi with rfl | rfl <;> decide) (by rcases hi with rfl | rfl <;> decide)] at hk
      exact salsa_withholds hi ha hs ht (List.mem_of_getElem? hk) hread hfails
  · obtain ⟨c, hc⟩ := h.running hb
    exact hc.restoreRead_withholds h.portOk hb hphase hlt hop hfails ht hin

end Sys2Proof.Machine

/-! PROOFS. DIAG and UNDIAG undo each other (10_state.md R22, R23, 42_layout.md R192). -/

namespace Sys2Proof

/-- PINV undoes PI (R22, R23). -/
@[simp] theorem permPINV_permPI (p : Fin 16) : permPINV (permPI p) = p := by
  revert p
  decide

/-- DIAG undoes UNDIAG (R192). -/
@[simp] theorem diag_undiag (d : Block) : diag (undiag d) = d := by
  apply Block.ext_word
  simp

/-- Settles O39: either permutation undoes the other, and their tables are computed. -/
theorem diagAndUndiagAreInverse : Obligations.DiagAndUndiagAreInverse :=
  ⟨undiag_diag, diag_undiag, by decide, by decide⟩

end Sys2Proof

/-! PROOFS. PREPARE and RESTORE, run whole: WL of the element, and its undoing (42_layout.md R194 to R199). -/

namespace Sys2Proof.Machine

/-! ### Blocks and their bytes -/

/-- A byte of a block memory holds is the byte at its address (R72, R160). -/
theorem Memory.byte_readBlock (m : Memory) (a : Nat) {k : Nat} (hk : k < 64) : (m.readBlock a).byte k = m.read (a + k) :=
  Block.byte_ofBytes _ k hk

/-- Two memories that hold the same blocks hold the same bytes there. -/
theorem Memory.read_eq_of_blocks_eq {m m' : Memory} {a k x : Nat} (h : m.blocks a k = m'.blocks a k) (hx : inBlocks a k x) :
    m.read x = m'.read x := by
  obtain ⟨hlow, hhigh⟩ := hx
  have hblock : m.readBlock (a + 64 * ((x - a) / 64)) = m'.readBlock (a + 64 * ((x - a) / 64)) :=
    List.map_inj_left.1 h _ (List.mem_range.2 (by omega))
  have hbyte := congrArg (fun b => b.byte ((x - a) % 64)) hblock
  simp only [Memory.byte_readBlock _ _ (Nat.mod_lt _ (show 0 < 64 by decide))] at hbyte
  rwa [show a + 64 * ((x - a) / 64) + (x - a) % 64 = x by omega] at hbyte

@[simp] theorem Memory.length_blocks (m : Memory) (a k : Nat) : (m.blocks a k).length = k := by
  simp [Memory.blocks]

/-- A command that starts with no write pending reads memory's blocks (R85). -/
theorem State.started_loadBlocks {s : State} (h : s.wbuf = []) (i : Instr) (a k : Nat) : (s.started i).loadBlocks a k = s.mem.blocks a k :=
  List.map_congr_left fun _ _ => Block.ofBytes_congr _ _ fun _ _ => State.readByte_of_wbuf_nil (s := s.started i) h _

/-! ### What the two commands share -/

/-- Without bus errors a buffer of the command's first block sequence is usable, when it is a region of the command (R244, R245,
R286). -/
theorem Runs.usable {i : Instr} {s : State} (h : Runs i s) (hphase : (firstPhase i).wholeBuffers) {b : Base}
    (hb : b ∈ phaseBases i (firstPhase i)) (hregion : (s.started i).baseRegion b ∈ commandRegions i s) :
    Usable (s.started i).latched.r.toNat (s.started i).latched.n.toNat (s.started i) b := by
  obtain ⟨ha, hbus, _⟩ := h
  have hmix : firstPhase i ≠ .mix := by cases i <;> decide
  obtain ⟨haligned, hspace, _⟩ := (runsCommand_started ha).usable hphase (absurd · hmix) b hb
  exact ⟨haligned, hspace, fun q hlow hhigh => hbus q (List.any_eq_true.2 ⟨_, hregion, decide_eq_true ⟨hlow, hhigh⟩⟩)⟩

/-- RESTORE's working buffer is CW as the registers and SWAP name it (R33, R198). -/
theorem Accepts.cwRegion_eq {s : State} (ha : Accepts .restore s) : (s.started .restore).baseRegion .cw = s.cwRegion := by
  simp only [State.baseRegion, State.baseAddr, s.started_cw (.inl rfl), Base.span, ha.latched_r rfl (by decide) (.head _)]
  rfl

section
variable {i : Instr} {s : State} (hi : i = .prepare ∨ i = .restore)
include hi

/-- The buffers of either command's sequence are its regions (R90, R194, R198). -/
theorem Accepts.transfer_regions (ha : Accepts i s) :
    (phaseBases i (firstPhase i)).map (s.started i).baseRegion = commandRegions i s := by
  have h1 : .a1 ∈ (commandChecks i s).args := by rcases hi with rfl | rfl <;> exact .head _
  have h2 : .a2 ∈ (commandChecks i s).args := by rcases hi with rfl | rfl <;> exact .tail _ (.head _)
  have helem := ha.elemRegion_eq rfl (by rcases hi with rfl | rfl <;> decide) h1 h2
  rcases hi with rfl | rfl
  · exact congrArg₂ (fun g g' => [g, g']) helem (ha.workRegion_eq rfl (by decide) h1)
  · exact congrArg₂ (fun g g' => [g, g']) helem ha.cwRegion_eq

/-- The element does not meet the working buffer (R247). -/
theorem Accepts.transfer_apart (ha : Accepts i s) {b : Base} (hb : phaseBases i (firstPhase i) = [.elem, b])
    (hspan : b.span (s.started i).latched.r.toNat (s.started i).latched.n.toNat = 128 * (s.started i).latched.r.toNat) :
    Apart (128 * (s.started i).latched.r.toNat) ((s.started i).baseAddr .elem) ((s.started i).baseAddr b) := by
  have hdisjoint : pairwiseDisjoint (commandRegions i s) = true := by rcases hi with rfl | rfl <;> exact ha.disjoint
  rw [← ha.transfer_regions hi, hb] at hdisjoint
  have helem : ((s.started i).baseRegion .elem).disjoint ((s.started i).baseRegion b) = true := by
    simpa [pairwiseDisjoint] using hdisjoint
  have hapart := (Region.disjoint_iff _ _).1 helem
  simp only [State.baseRegion, hspan] at hapart
  exact hapart

theorem transfer_isPlain (r n : Nat) : ∀ op ∈ blockSeq i r n (firstPhase i) 0, op.IsPlain := by
  rcases hi with rfl | rfl
  · exact prepSeq_isPlain r
  · exact restSeq_isPlain r

/-- Either command without bus errors: memory holds what its sequence leaves the engine to read, and everything else is as the
frame of a completed command says (R252, R285). -/
theorem Runs.exec_transfer (h : Runs i s) :
    ∃ t, exec i s = .next t
      ∧ (∀ a k, t.mem.blocks a k = (performAll (s.started i).blockOps (s.started i)).loadBlocks a k)
      ∧ MemorySameOutside (commandWrites i s) s t
      ∧ t.j = s.j
      ∧ CompletedOk i s t (s.started i).status.swap false 0 := by
  obtain ⟨hsmix, hinteg, hz⟩ : i ≠ .smix ∧ i ≠ .integerify ∧ zeroizes i = false := by rcases hi with rfl | rfl <;> decide
  have hphase : (firstPhase i).wholeBuffers := by rcases hi with rfl | rfl <;> exact ⟨nofun, nofun⟩
  have hfill : firstPhase i ≠ .fill := by rcases hi with rfl | rfl <;> decide
  have husable : ∀ b ∈ phaseBases i (firstPhase i), Usable _ _ (s.started i) b := fun b hb =>
    h.usable hphase hb (h.1.transfer_regions hi ▸ List.mem_map_of_mem hb)
  obtain ⟨ha, _, hs⟩ := h
  have hr := (runsCommand_started ha).r_pos hphase
  have hplain : ∀ op ∈ (s.started i).blockOps, op.IsPlain := transfer_isPlain hi _ _
  have hserved : ServedAll (s.started i).blockOps (s.started i) :=
    servedAll_of_opOk hr hplain fun op hop => opOk_mono husable (blockSeq_ok hr (absurd · hfill) op hop)
  have hport : PortOk (performAll (s.started i).blockOps (s.started i)) :=
    portOk_performAll ⟨hs.1, show BufferOk s.wbuf from hs.2 ▸ bufferOk_nil⟩ hserved
  have hexec := ha.exec_of_servedAll hsmix hserved
  exact ⟨_, hexec, blocks_complete hport, (commandsKeepOtherMemory i s _ hs hexec).1, exec_j hinteg hexec,
    completedOk_performAll hz hplain⟩

end

/-! ### PREPARE -/

/-- Settles O19: PREP_SEQ leaves WL of the element in the working buffer. -/
theorem prepareBuildsWorkingLayout : Obligations.PrepareBuildsWorkingLayout := by
  intro s h
  have ⟨ha, _, _, hw⟩ := h
  have hr : (s.started .prepare).latched.r.toNat = s.params.r := ha.latched_r rfl (by decide) (.head _)
  have helem : (s.started .prepare).baseAddr .elem = s.params.elem := ha.latched_elem rfl (by decide) (.head _) (.tail _ (.head _))
  have hdone := (prepSeq_done ha.geometry.1.1 (ha.transfer_apart (.inl rfl) rfl rfl)).work
  rw [hr, helem, State.started_loadBlocks hw] at hdone
  obtain ⟨t, hexec, hblocks, hmem, hj, hok⟩ := h.exec_transfer (.inl rfl)
  refine ⟨t, hexec, ?_, hmem, hj, ?_⟩
  · rw [hblocks]
    exact hr ▸ hdone
  · rwa [show (s.started .prepare).status.swap = false from Bool.and_false _] at hok

/-! ### RESTORE -/

/-- Settles O20: REST_SEQ leaves WLINV of the working buffer in the element. -/
theorem restoreWritesTheElement : Obligations.RestoreWritesTheElement := by
  intro s h
  have ⟨ha, _, _, hw⟩ := h
  have hr : (s.started .restore).latched.r.toNat = s.params.r := ha.latched_r rfl (by decide) (.head _)
  have helem : (s.started .restore).baseAddr .elem = s.params.elem := ha.latched_elem rfl (by decide) (.head _) (.tail _ (.head _))
  have hcw : (s.started .restore).baseAddr .cw = s.cwParam := s.started_cw (.inl rfl)
  have hdone := (restSeq_done ha.geometry.1.1 (ha.transfer_apart (.inr rfl) rfl rfl)).elem
  rw [hr, helem, hcw, State.started_loadBlocks hw] at hdone
  obtain ⟨t, hexec, hblocks, hmem, hj, hok⟩ := h.exec_transfer (.inr rfl)
  refine ⟨t, hexec, ?_, hmem, hj, ?_⟩
  · rw [hblocks]
    exact hr ▸ hdone
  · rwa [s.started_swap rfl] at hok

/-! ### PREPARE, then RESTORE -/

/-- With SWAP = 0 RESTORE names the working buffer of PREPARE (R33, R198). -/
theorem State.cwParam_of_not_swap {s : State} (h : s.status.swap = false) : s.cwParam = s.params.workBase.toNat := by
  simp [State.cwParam, h]

section
variable {s t : State} (hparams : t.params = s.params) (hswap : t.status.swap = false)
include hparams hswap

/-- With SWAP = 0 RESTORE has the regions of PREPARE on the same registers (R90). -/
theorem commandRegions_restore_eq_prepare : commandRegions .restore t = commandRegions .prepare s := by
  simp only [commandRegions, State.elemRegion, State.workRegion, State.cwRegion, State.cwParam_of_not_swap hswap, hparams]

/-- With SWAP = 0 RESTORE has the checks of PREPARE on the same registers (R247). -/
theorem check_restore_eq_prepare : check .restore t = check .prepare s := by
  simp only [check, commandChecks, restoreChecks, prepareChecks, State.elemRegion, State.workRegion, State.cwRegion,
    State.cwParam_of_not_swap hswap, hparams]

/-- RESTORE runs where PREPARE ran, on the same registers and platform, with SWAP = 0 (R199). -/
theorem Runs.restore_of_prepare (h : Runs .prepare s) (hplatform : t.platform = s.platform) (hidle : t.status.busy = false)
    (hs : Settled t) : Runs .restore t := by
  obtain ⟨⟨_, hcheck, hordinary, hclear⟩, hbus, _⟩ := h
  have hregions := commandRegions_restore_eq_prepare hparams hswap
  refine ⟨⟨hidle, (check_restore_eq_prepare hparams hswap).trans hcheck, ?_, ?_⟩, ?_, hs⟩
  · rwa [hregions, hplatform]
  · rwa [hregions, hplatform]
  · rwa [NoBusError, hregions, hplatform]

end

/-- Settles O21: PREPARE leaves RESTORE to run on WL of the element, which WLINV undoes. -/
theorem prepareThenRestoreKeepsTheElement : Obligations.PrepareThenRestoreKeepsTheElement := by
  intro s t u h ht hu
  obtain ⟨t', ht', hwork, _, _, hok⟩ := prepareBuildsWorkingLayout s h
  obtain rfl : t' = t := Host.Outcome.next.inj (ht'.symm.trans ht)
  obtain ⟨_, hparams, hplatform, _⟩ := hok.outside
  have hswap : t'.status.swap = false := by rw [hok.status]
  have hidle : t'.status.busy = false := by rw [hok.status]
  have hsettled : Settled t' := ⟨(commandsKeepOtherMemory _ s t' h.2.2 ht).2, hok.wbuf⟩
  have hruns := h.restore_of_prepare hparams hswap hplatform hidle hsettled
  refine ⟨hruns, fun a hin => ?_⟩
  obtain ⟨u', hu', helem, _⟩ := restoreWritesTheElement t' hruns
  obtain rfl : u' = u := Host.Outcome.next.inj (hu'.symm.trans hu)
  have hr := (h.1.sizes (.head _)).1
  rw [State.cwParam_of_not_swap hswap, hparams, hwork, workLayoutInv_workLayout (by omega) (s.mem.length_blocks _ _)] at helem
  exact Memory.read_eq_of_blocks_eq helem ((Region.has_iff_inBlocks s.params.eb_eq_blocks a).1 hin)

end Sys2Proof.Machine

/-! PROOFS. The micro-operations of BM counted, and the positions of its outputs (43_blockmix.md R213, R216). -/

namespace Sys2Proof.Machine

/-- No output of BM's loop stands first in the shuffle buffer (R213). -/
theorem fanOut_pos (r i : Nat) : 0 < fanOut r i := by
  unfold fanOut
  split <;> omega

/-- BM's outputs stand at different positions (R213). -/
theorem fanOut_nodup (r : Nat) : (0 :: (List.range (2 * r - 1)).map (fanOut r)).Nodup := by
  refine List.nodup_cons.2 ⟨fun h => ?_, List.nodup_range.map_on fun i hi j hj => fanOut_inj (List.mem_range.1 hi) (List.mem_range.1 hj)⟩
  obtain ⟨i, _, hi⟩ := List.mem_map.1 h
  exact (fanOut_pos r i).ne' hi

/-- Settles O45: the positions are different ones of the 2r, and as many. -/
theorem fanOutFillsTheShuffleBuffer : Obligations.FanOutFillsTheShuffleBuffer := by
  intro r hr
  refine (List.subperm_of_subset (fanOut_nodup r) fun p hp => List.mem_range.2 ?_).perm_of_length_le ?_
  · rcases List.mem_cons.1 hp with rfl | hp
    · omega
    · obtain ⟨i, hi, rfl⟩ := List.mem_map.1 hp
      exact fanOut_lt hr (List.mem_range.1 hi)
  · simp only [List.length_range, List.length_cons, List.length_map]
    omega

/-- What stands equally often in each iteration of a loop. -/
theorem countP_flatMap_const {α β : Type} {p : β → Bool} {f : α → List β} {c : Nat} {l : List α} (h : ∀ a ∈ l, (f a).countP p = c) :
    (l.flatMap f).countP p = l.length * c := by
  induction l with
  | nil => simp
  | cons a l ih =>
    rw [List.flatMap_cons, List.countP_append, h a (.head _), ih fun b hb => h b (.tail _ hb), List.length_cons]
    ring

section
variable {r oo : Nat} {mode : BmMode} {ob : Base} {p : MicroOp → Bool}

/-- What stands `c` times in each iteration of BM's loop (R211). -/
theorem countP_bmSeq {c : Nat} (h : ∀ i, (bmIter r mode ob oo i).countP p = c) :
    (bmSeq r mode ob oo).countP p = (bmHead r mode ob oo).countP p + (2 * r - 1) * c + bmTail.countP p := by
  rw [bmSeq, List.countP_append, List.countP_append, countP_flatMap_const fun i _ => h i, List.length_range]

/-- What stands once in each iteration and once outside the loop stands 2r times. -/
theorem countP_bmSeq_once (hr : 1 ≤ r) (h : ∀ i, (bmIter r mode ob oo i).countP p = 1)
    (hends : (bmHead r mode ob oo).countP p + bmTail.countP p = 1) : (bmSeq r mode ob oo).countP p = 2 * r := by
  have hcount := countP_bmSeq h
  omega

/-- What does not stand in BM. -/
theorem countP_bmSeq_never (h : ∀ i, (bmIter r mode ob oo i).countP p = 0)
    (hends : (bmHead r mode ob oo).countP p + bmTail.countP p = 0) : (bmSeq r mode ob oo).countP p = 0 := by
  have hcount := countP_bmSeq h
  omega

/-- What stands r times in the head of BM and once in each of the first r iterations stands 2r times: the prefetches (R211, R214). -/
theorem countP_bmSeq_firstHalf (hr : 1 ≤ r) (hhead : (bmHead r mode ob oo).countP p = r)
    (hiter : ∀ i, (bmIter r mode ob oo i).countP p = if i < r then 1 else 0) (htail : bmTail.countP p = 0) :
    (bmSeq r mode ob oo).countP p = 2 * r := by
  have hsplit : List.range (2 * r - 1) = List.range r ++ (List.range (r - 1)).map (r + ·) := by
    rw [← List.range_add]
    congr 1
    omega
  have hfirst : ((List.range r).flatMap (bmIter r mode ob oo)).countP p = r * 1 := by
    rw [countP_flatMap_const (c := 1) fun i hi => by rw [hiter, if_pos (List.mem_range.1 hi)], List.length_range]
  have hsecond : (((List.range (r - 1)).map (r + ·)).flatMap (bmIter r mode ob oo)).countP p = 0 := by
    rw [countP_flatMap_const (c := 0) fun i hi => ?_, Nat.mul_zero]
    obtain ⟨k, _, rfl⟩ := List.mem_map.1 hi
    rw [hiter, if_neg (Nat.not_lt.2 (Nat.le_add_right r k))]
  rw [bmSeq, List.countP_append, List.countP_append, hsplit, List.flatMap_append, List.countP_append, hhead, hfirst, hsecond, htail]
  omega

end

/-- The aligned loads from a base (R160). -/
def MicroOp.isLda (b : Base) : MicroOp → Bool
  | .lda _ _ b' _ => decide (b' = b)
  | _ => false

/-- BM loads each block of CW once (R211). -/
theorem countP_bmSeq_lda_cw {r oo : Nat} {mode : BmMode} {ob : Base} (hr : 1 ≤ r) (hcw : ob ≠ .cw) :
    (bmSeq r mode ob oo).countP (MicroOp.isLda .cw) = 2 * r := by
  refine countP_bmSeq_once hr (fun i => ?_) ?_
  · cases mode <;> simp [bmIter, apply_ite (List.countP _), MicroOp.isLda, hcw]
  · cases mode <;> simp [bmHead, bmTail, MicroOp.isLda, hcw, Function.comp_def]

/-- BM loads each block of the other buffer once in mode Xor, and otherwise none (R211). -/
theorem countP_bmSeq_lda_other {r oo : Nat} {mode : BmMode} {ob : Base} (hr : 1 ≤ r) (hcw : ob ≠ .cw) :
    (bmSeq r mode ob oo).countP (MicroOp.isLda ob) = if mode = .xor then 2 * r else 0 := by
  cases mode with
  | xor =>
    exact countP_bmSeq_once hr (fun i => by simp [bmIter, apply_ite (List.countP _), MicroOp.isLda, hcw.symm])
      (by simp [bmHead, bmTail, MicroOp.isLda, hcw.symm, Function.comp_def])
  | _ => exact countP_bmSeq_never (fun i => by simp [bmIter, MicroOp.isLda, hcw.symm]) (by simp [bmHead, bmTail, MicroOp.isLda, hcw.symm])

/-- Settles O42: each kind stands once in an iteration and once outside the loop, but for the prefetches, half of which come first. -/
theorem blockmixOperationCounts : Obligations.BlockmixOperationCounts := by
  intro r mode ob oo hr hcw _
  refine ⟨(List.countP_congr fun o _ => ?_).trans (countP_bmSeq_lda_cw hr hcw), ?_, ?_,
    (List.countP_congr fun o _ => ?_).trans (countP_bmSeq_lda_other hr hcw), ?_, ?_, ?_⟩
  · cases o with
    | lda _ _ b _ => cases b <;> simp [MicroOp.isLda]
    | _ => simp [MicroOp.isLda]
  · refine countP_bmSeq_once hr (fun i => ?_) ?_
    · cases mode <;> simp [bmIter, apply_ite (List.countP _)]
    · cases mode <;> simp [bmHead, bmTail, Function.comp_def]
  · cases mode with
    | copy => exact countP_bmSeq_once hr (fun i => by simp [bmIter]) (by simp [bmHead, bmTail])
    | _ => exact countP_bmSeq_never (fun i => by simp [bmIter, apply_ite (List.countP _)]) (by simp [bmHead, bmTail, Function.comp_def])
  · cases o <;> simp [MicroOp.isLda]
  · cases mode with
    | xor =>
      exact countP_bmSeq_firstHalf hr (by simp [bmHead, Function.comp_def]) (fun i => by simp [bmIter, apply_ite (List.countP _)]) (by simp [bmTail])
    | _ => exact countP_bmSeq_never (fun i => by simp [bmIter]) (by simp [bmHead, bmTail])
  · cases mode with
    | xor => exact countP_bmSeq_once hr (fun i => by simp [bmIter, apply_ite (List.countP _)]) (by simp [bmHead, bmTail, Function.comp_def])
    | _ => exact countP_bmSeq_never (fun i => by simp [bmIter]) (by simp [bmHead, bmTail])
  · refine countP_bmSeq_once hr (fun i => ?_) ?_
    · cases mode <;> simp [bmIter, apply_ite (List.countP _)]
    · cases mode <;> simp [bmHead, bmTail, Function.comp_def]

end Sys2Proof.Machine

/-! PROOFS. The requests of a running command lie in its regions, and without bus errors they are served (20_memory.md R90,
41_blockops.md R170, 60_exceptions.md R286). -/

namespace Sys2Proof.Machine

/-! ### Where a request accesses memory -/

/-- Where a micro-operation's request starts: a buffer and an offset in it (R74, R227). -/
def MicroOp.accessAt : MicroOp → Option (Base × Nat)
  | .lda _ _ b o | .ldu _ b o | .sta _ _ b o | .staZero b o | .stu _ _ b o | .stn _ b o | .pfn b o | .flush b o => some (b, o)
  | .integ _ => some (.cw, 16)
  | .xorb _ _ _ | .move _ _ | .salsa _ | .bmEnd | .fence | .zeroBegin | .zeroEnd => none

theorem MicroOp.request_accessAt {op : MicroOp} {s : State} {q : Request} (h : op.request s = some q) :
    ∃ b o, op.accessAt = some (b, o) ∧ q.addr = s.baseAddr b + o := by
  obtain ⟨haddr, hkind⟩ := MicroOp.request_addr h
  cases op with
  | xorb | move | salsa | bmEnd | fence | zeroBegin | zeroEnd => cases hkind
  | _ => exact ⟨_, _, rfl, haddr⟩

theorem MicroOp.accessAt_ok {op : MicroOp} {b : Base} {o : Nat} (h : op.accessAt = some (b, o)) {r n : Nat} (hr : 1 ≤ r)
    {sh : Base → Prop} (hok : opOk r n sh op) : sh b ∧ o < b.span r n := by
  have hlt : offsetOk r n b o → o < b.span r n := fun ho => by
    have := offsetOk_span ho
    omega
  cases op with
  | lda | sta | staZero | stn | pfn | flush => cases h; exact ⟨hok.1, hlt hok.2.2⟩
  | ldu | stu => cases h; exact ⟨hok.1, hlt hok.2⟩
  | integ =>
    cases h
    exact ⟨hok, show 16 < 128 * r by omega⟩
  | _ => cases h

/-! ### The buffers of a command's phases lie in its regions (R90) -/

/-- Every byte of `g` is a byte of one of the regions. -/
def Covered (gs : List Region) (g : Region) : Prop := ∀ a, g.has a = true → inRegions gs a = true

theorem covered_of_mem {gs : List Region} {g : Region} (h : g ∈ gs) : Covered gs g := fun _ ha => List.any_eq_true.2 ⟨g, h, ha⟩

/-- CW and CS are covered where WORK and SHUF are (R33). -/
theorem covered_cw_cs {gs : List Region} {u : State} {g g' : Region} (hwork : u.baseRegion .work = g) (hshuf : u.baseRegion .shuf = g')
    (hg : g ∈ gs) (hg' : g' ∈ gs) : Covered gs (u.baseRegion .cw) ∧ Covered gs (u.baseRegion .cs) := by
  subst hwork hshuf
  rcases u.cw_cs_cases with ⟨hcw, hcs⟩ | ⟨hcw, hcs⟩ <;> rw [State.baseRegion, State.baseRegion, hcw, hcs]
  · exact ⟨covered_of_mem hg, covered_of_mem hg'⟩
  · exact ⟨covered_of_mem hg', covered_of_mem hg⟩

section
variable {i : Instr} {s u : State} (ha : Accepts i s) (hl : u.latched = (s.started i).latched)
include ha hl

/-- The bytes of the table entry JI names are bytes of the table (R253). -/
theorem Accepts.tableRegion_has (hi : i = .smix) (hji : u.dp.ji.toNat < u.latched.n.toNat) {a : Nat}
    (h : (u.baseRegion .tableAtJI).has a = true) : s.tableRegion.has a = true := by
  subst hi
  obtain ⟨_, heb⟩ : sizesOk u.latched := hl ▸ ha.geometry.1
  have hle := tableEntry_le (r := u.latched.r.toNat) hji
  have h := of_decide_eq_true h
  rw [← ha.tableRegion_eq hl (by decide) (.head _) (.tail _ (.tail _ (.head _)))]
  refine decide_eq_true ?_
  simp only [Region.stop, State.baseRegion, State.baseAddr, Base.span, heb] at h ⊢
  omega

/-- RESTORE's CW is the one its region names, while SWAP stands as it found it (R33, R90). -/
theorem Accepts.restore_cwRegion (hi : i = .restore) (hswap : u.status.swap = (s.started i).status.swap) :
    u.baseRegion .cw = s.cwRegion := by
  subst hi
  rw [← ha.cwRegion_eq, State.baseRegion, State.baseRegion, State.baseAddr, State.baseAddr, State.cw, State.cw, hl, hswap]

/-- The buffers of a phase lie in the command's regions, the table entry once JI is an index (R90, R256). -/
theorem Accepts.phaseBases_covered (hswap : i = .restore → u.status.swap = (s.started i).status.swap) {ph : Phase} (hph : ph ∈ phasesOf i)
    (hp : ph.wholeBuffers) :
    ∀ b ∈ phaseBases i ph, (b = .tableAtJI → u.dp.ji.toNat < u.latched.n.toNat) → Covered (commandRegions i s) (u.baseRegion b) := by
  obtain ⟨hint, hsalsa⟩ := hp
  cases i with
  | smix =>
    have hwork := ha.workRegion_eq hl (by decide) (.head _)
    have hshuf := ha.shufRegion_eq hl (by decide) (.head _)
    have hbuffers := covered_cw_cs (gs := commandRegions .smix s) hwork hshuf (.tail _ (.head _)) (.tail _ (.tail _ (.head _)))
    have htable : s.tableRegion ∈ commandRegions .smix s := .tail _ (.tail _ (.tail _ (.head _)))
    intro b hb hji
    cases b with
    | elem => exact ha.elemRegion_eq hl (by decide) (.head _) (.tail _ (.head _)) ▸ covered_of_mem (.head _)
    | work => exact hwork ▸ covered_of_mem (.tail _ (.head _))
    | shuf => exact hshuf ▸ covered_of_mem (.tail _ (.tail _ (.head _)))
    | table => exact ha.tableRegion_eq hl (by decide) (.head _) (.tail _ (.tail _ (.head _))) ▸ covered_of_mem htable
    | cw => exact hbuffers.1
    | cs => exact hbuffers.2
    | tableAtJI => exact fun a h => covered_of_mem htable a (ha.tableRegion_has hl rfl (hji rfl) h)
    | other => cases ph <;> simp [phasesOf, phaseBases] at hph hb
  | prepare =>
    obtain rfl := List.mem_singleton.1 hph
    have helem := ha.elemRegion_eq hl (by decide) (.head _) (.tail _ (.head _))
    have hwork := ha.workRegion_eq hl (by decide) (.head _)
    exact forall_mem_two (fun _ => helem ▸ covered_of_mem (.head _)) fun _ => hwork ▸ covered_of_mem (.tail _ (.head _))
  | restore =>
    obtain rfl := List.mem_singleton.1 hph
    have helem := ha.elemRegion_eq hl (by decide) (.head _) (.tail _ (.head _))
    have hcw := ha.restore_cwRegion hl rfl (hswap rfl)
    exact forall_mem_two (fun _ => helem ▸ covered_of_mem (.head _)) fun _ => hcw ▸ covered_of_mem (.tail _ (.head _))
  | zeroize =>
    obtain rfl := List.mem_singleton.1 hph
    have hwork := ha.workRegion_eq hl (by decide) (.head _)
    have hshuf := ha.shufRegion_eq hl (by decide) (.head _)
    have htable := ha.tableRegion_eq hl (by decide) (.head _) (.tail _ (.head _))
    exact forall_mem_three (fun _ => hwork ▸ covered_of_mem (.head _)) (fun _ => hshuf ▸ covered_of_mem (.tail _ (.head _)))
      fun _ => htable ▸ covered_of_mem (.tail _ (.tail _ (.head _)))
  | blockmixNone =>
    obtain rfl := List.mem_singleton.1 hph
    have hwork := ha.workRegion_eq hl (by decide) (.head _)
    have hshuf := ha.shufRegion_eq hl (by decide) (.head _)
    obtain ⟨hcw, hcs⟩ := covered_cw_cs (gs := commandRegions .blockmixNone s) hwork hshuf (.head _) (.tail _ (.head _))
    exact forall_mem_two (fun _ => hcw) fun _ => hcs
  | blockmixCopy | blockmixXor =>
    obtain rfl := List.mem_singleton.1 hph
    have hwork := ha.workRegion_eq hl (by decide) (.head _)
    have hshuf := ha.shufRegion_eq hl (by decide) (.head _)
    have hother := ha.otherRegion_eq hl (by decide) (.head _)
    obtain ⟨hcw, hcs⟩ := covered_cw_cs (gs := [s.workRegion, s.shufRegion, s.otherRegion]) hwork hshuf (.head _) (.tail _ (.head _))
    exact forall_mem_three (fun _ => hcw) (fun _ => hcs) fun _ => hother ▸ covered_of_mem (.tail _ (.tail _ (.head _)))
  | integerify => exact absurd (List.mem_singleton.1 hph) hint
  | salsa8 | salsa8Nat => exact absurd (List.mem_singleton.1 hph) hsalsa

end

/-! ### The requests of a running command lie in its regions (R90) -/

/-- Only MIX accesses the table entry JI names (R256). -/
theorem phase_of_tableAtJI {c : Instr} {ph : Phase} (h : .tableAtJI ∈ phaseBases c ph) : ph = .mix := by
  cases ph with
  | mix => rfl
  | blockmix =>
    simp only [phaseBases] at h
    split at h <;> simp at h
  | _ => simp [phaseBases] at h

section
variable {i : Instr} {s x : State} (hx : RunsCommand i x) (hl : x.latched = (s.started i).latched)
  (hswap : x.progress.toNat = 0 → x.status.swap = (s.started i).status.swap)
include hx

/-- JI is a table index where a micro-operation accesses the entry it names (R256). -/
theorem RunsCommand.ji_lt {op : MicroOp} (hop : x.blockOps[x.seq.q]? = some op) {o : Nat} (hat : op.accessAt = some (.tableAtJI, o))
    (hb : .tableAtJI ∈ phaseBases i x.seq.phase) : x.dp.ji.toNat < x.latched.n.toNat := by
  have hmix := phase_of_tableAtJI hb
  refine hx.tableIndex hmix (Nat.one_le_iff_ne_zero.2 fun h0 => ?_)
  have hfirst := hx.op_eq hop
  rw [hmix, h0] at hfirst
  obtain rfl : MicroOp.integ .ji = op := Option.some.inj hfirst
  cases hat

include hswap

/-- A command that runs no BM leaves SWAP as it found it (R33). -/
theorem RunsCommand.swap_of_noBm (hi : ∀ n, finalProgress n i = 0) : x.status.swap = (s.started i).status.swap :=
  hswap (Nat.le_zero.1 (hi x.latched.n.toNat ▸ hx.progress_le))

include hl

/-- INTEGERIFY's word and SALSA8's block lie in the command's region (R90, R145, R227). -/
theorem RunsCommand.single_inRegions (hp : ¬ x.seq.phase.wholeBuffers) {op : MicroOp}
    (hop : op ∈ blockSeq i x.latched.r.toNat x.latched.n.toNat x.seq.phase x.seq.i) {q : Request} (hq : op.request x = some q) :
    inRegions (commandRegions i s) q.addr = true := by
  have hmem := hx.phase_mem
  rcases Classical.not_and_iff_not_or_not.1 hp with hp | hp
  · have hp : x.seq.phase = .integerify := not_not.1 hp
    obtain rfl := eq_integerify_of_phase (hp ▸ hmem)
    rw [hp] at hop
    obtain rfl := List.mem_singleton.1 hop
    cases hq
    have hcw : x.cw = s.cwParam := by
      rw [← s.started_cw (.inr rfl), State.cw, State.cw, hl, hx.swap_of_noBm hswap fun _ => rfl]
    show inRegions (commandRegions .integerify s) (x.cw + 16) = true
    rw [hcw]
    simp [inRegions, commandRegions, Region.has, Region.stop, State.cwBlockRegion]
  · have hp : x.seq.phase = .salsa := not_not.1 hp
    rw [hp] at hop hmem
    have hi : i = .salsa8 ∨ i = .salsa8Nat := by
      revert hmem
      cases i <;> decide
    obtain ⟨l, l', hops⟩ := salsaSeq_eq_salsaOps hi
    have haddr : q.addr = s.params.otherBase.toNat := by
      rw [← State.started_baseAddr_other hi, State.baseAddr, ← hl]
      have hop : op ∈ salsaOps l l' := hops ▸ hop
      simp only [salsaOps, List.mem_cons, List.not_mem_nil, or_false] at hop
      rcases hop with rfl | rfl | rfl <;> cases hq <;> rfl
    have hregion : s.otherBlockRegion ∈ commandRegions i s := by rcases hi with rfl | rfl <;> exact .head _
    refine covered_of_mem hregion _ (decide_eq_true ⟨haddr.ge, ?_⟩)
    rw [haddr]
    exact Nat.lt_add_of_pos_right (show 0 < 64 by decide)

/-- The request of the position's micro-operation lies in the command's regions (R90). -/
theorem RunsCommand.request_inRegions (ha : Accepts i s) {op : MicroOp} (hop : x.blockOps[x.seq.q]? = some op) {q : Request}
    (hq : op.request x = some q) : inRegions (commandRegions i s) q.addr = true := by
  have hmem := hx.op_mem hop
  by_cases hp : x.seq.phase.wholeBuffers
  · obtain ⟨b, o, hat, haddr⟩ := MicroOp.request_accessAt hq
    have hr := hx.r_pos hp
    obtain ⟨hb, ho⟩ := MicroOp.accessAt_ok hat hr (blockSeq_ok hr (fun hf => hx.iter_lt (.inl hf)) op hmem)
    have hrestore : i = .restore → x.status.swap = (s.started i).status.swap := fun hi =>
      hx.swap_of_noBm hswap fun _ => by rw [hi]; rfl
    refine ha.phaseBases_covered hl hrestore hx.phase_mem hp b hb (fun hb' => ?_) q.addr (decide_eq_true ?_)
    · subst hb'
      exact hx.ji_lt hop hat hb
    · rw [haddr]
      exact ⟨Nat.le_add_right _ _, Nat.add_lt_add_left ho _⟩
  · exact hx.single_inRegions hl hswap hp hmem hq

end

/-! ### Runs without bus errors -/

/-- Without bus errors the request of the position's micro-operation does not fail (R286). -/
theorem Runs.request_served {i : Instr} {s x : State} (h : Runs i s) (hx : RunsCommand i x) (hframe : StepFrame (s.started i) x)
    (hswap : x.progress.toNat = 0 → x.status.swap = (s.started i).status.swap) {op : MicroOp} (hop : x.blockOps[x.seq.q]? = some op)
    {q : Request} (hq : op.request x = some q) : q.fails x.platform = false := by
  obtain ⟨ha, hbus, _⟩ := h
  rw [hframe.platform]
  exact hbus q (hx.request_inRegions hframe.latched hswap ha hop hq)

/-- Without bus errors the buffers of a command's first block sequence are usable (R244, R245, R286). -/
theorem Runs.usable_started {i : Instr} {s : State} (h : Runs i s) (hphase : (firstPhase i).wholeBuffers) :
    ∀ b ∈ phaseBases i (firstPhase i), Usable (s.started i).latched.r.toNat (s.started i).latched.n.toNat (s.started i) b := by
  intro b hb
  obtain ⟨ha, hbus, _⟩ := h
  have hmix : firstPhase i ≠ .mix := by cases i <;> decide
  obtain ⟨haligned, hspace, _⟩ := (runsCommand_started ha).usable hphase (absurd · hmix) b hb
  refine ⟨haligned, hspace, fun q hlow hhigh => hbus q ?_⟩
  exact ha.phaseBases_covered rfl (fun _ => rfl) (firstPhase_mem i) hphase b hb
    (fun hb' => absurd (phase_of_tableAtJI (hb' ▸ hb)) hmix) q.addr (decide_eq_true ⟨hlow, hhigh⟩)

/-- A command that does not zeroize and has met no error completes without one: SWAP and PROGRESS as the sequence left them (R252,
R285). -/
theorem completedOk_complete {i : Instr} {s v : State} (hz : zeroizes i = false) (hframe : StepFrame (s.started i) v)
    (hstatus : v.status = { (s.started i).status with swap := v.status.swap }) (hinfo : v.errInfo = .noError) (haddr : v.errAddr = 0#64)
    (hnone : v.pendingErr = none) : CompletedOk i s v.complete v.status.swap false v.progress.toNat := by
  have hzeroizing : v.zeroizing = false := (State.zeroizing_of_started hframe.latched).trans hz
  have hend := hframe.trans (stepFrame_complete v)
  exact
    { status := by rw [State.complete_status, hnone, hzeroizing, hstatus]; rfl
      cmd := hend.cmd
      errInfo := (complete_noError hnone).1.trans hinfo
      errAddr := (complete_noError hnone).2.trans haddr
      progress := congrArg BitVec.toNat (State.complete_progress v)
      seq := State.complete_seq v
      wbuf := State.complete_wbuf v
      outside := hend.outside }

end Sys2Proof.Machine

/-! PROOFS. INTEGERIFY: the index in J, or a bus error that leaves J (43_blockmix.md R227, R228, 60_exceptions.md R286). -/

namespace Sys2Proof.Machine

/-- INTEG's value is the word it reads modulo N (R227). -/
theorem toNat_integValue (u : State) (a : Nat) : (integValue u a).toNat = (u.loadWord a).toNat % u.latched.n.toNat := by
  rw [integValue, BitVec.toNat_ofNat]
  exact Nat.mod_eq_of_lt ((Nat.mod_le _ _).trans_lt (u.loadWord a).isLt)

/-- With no write pending the engine reads memory's word (R85). -/
theorem State.loadWord_of_wbuf_nil {u : State} (h : u.wbuf = []) (a : Nat) : u.loadWord a = u.mem.readWord a := by
  simp only [State.loadWord, Memory.readWord, State.readByte_of_wbuf_nil h]

/-- What INTEG into J leaves, its LDW served (R228). -/
theorem perform_integ_j (u : State) :
    (MicroOp.integ .j).perform u = { u.record ⟨.readWord, u.cw + 16⟩ with j := integValue u (u.cw + 16) }.nextOp := rfl

section
variable {s : State}

/-- The request INTEGERIFY places: the LDW at CW + 16 (R227). -/
theorem started_integ_request (s : State) :
    (MicroOp.integ .j).request (s.started .integerify) = some ⟨.readWord, s.cwParam + 16⟩ := by
  rw [← s.started_cw (.inr rfl)]
  rfl

theorem Accepts.integ_request_ok (ha : Accepts .integerify s) :
    (⟨.readWord, s.cwParam + 16⟩ : Request).inSpace = true ∧ (⟨.readWord, s.cwParam + 16⟩ : Request).isAligned = true :=
  (runsCommand_started ha).request_ok rfl (started_integ_request s)

/-- INTEGERIFY without bus errors performs its INTEG and completes. -/
theorem Runs.exec_integerify (h : Runs .integerify s) :
    exec .integerify s = .next ((MicroOp.integ .j).perform (s.started .integerify)).complete := by
  have hfails := h.request_served (runsCommand_started h.1) (StepFrame.refl _) (fun _ => rfl) rfl (started_integ_request s)
  obtain ⟨hin, halign⟩ := h.1.integ_request_ok
  refine h.1.exec_of_servedAll (by decide) ⟨fun q hq => ?_, trivial⟩
  obtain rfl := Option.some.inj ((started_integ_request s).symm.trans hq)
  exact ⟨hin, halign, hfails⟩

/-- INTEGERIFY writes nothing (R228). -/
theorem exec_integerify_keepsMemory {t : State} (hs : Settled s) (h : exec .integerify s = .next t) : MemorySameOutside [] s t :=
  (commandsKeepOtherMemory .integerify s t hs h).1

/-- Settles O25: the LDW is served and its word modulo N goes to J. -/
theorem integerifyComputesTheIndex : Obligations.IntegerifyComputesTheIndex := by
  intro s h
  have hexec := h.exec_integerify
  obtain ⟨ha, _, hs⟩ := h
  refine ⟨_, hexec, ?_, exec_integerify_keepsMemory hs hexec, ?_⟩
  · have hn : (s.started .integerify).latched.n.toNat = s.params.costN.toNat := ha.latched_n rfl (by decide) (.head _)
    have hcw : (s.started .integerify).cw = s.cwParam := s.started_cw (.inr rfl)
    rw [State.complete_j, perform_integ_j, State.nextOp_j, toNat_integValue, hn, hcw]
    exact congrArg (·.toNat % _) (State.loadWord_of_wbuf_nil (u := s.started .integerify) hs.2 _)
  · have hframe : StepFrame (s.started .integerify) ((MicroOp.integ .j).perform (s.started .integerify)) :=
      (quiet_place _ _).frame.trans (stepFrame_run _ _)
    have hok := completedOk_complete rfl hframe rfl rfl rfl rfl
    rwa [show ((MicroOp.integ .j).perform (s.started .integerify)).status.swap = s.status.swap from s.started_swap rfl] at hok

/-- Settles O36: the command ends at its LDW, J untouched and the LDW's address to report. -/
theorem integerifyBusErrorKeepsJ : Obligations.IntegerifyBusErrorKeepsJ := by
  intro s ha hs hfails
  obtain ⟨hin, halign⟩ := ha.integ_request_ok
  have hexec := ha.exec_of_firstFails (by decide) (by decide) (op := .integ .j) (rest := []) rfl (started_integ_request s) nofun
    hin halign hfails
  obtain ⟨hstatus, hinfo, haddr⟩ := complete_reportsError (i := .integerify) (s := s)
    (u := ((s.started .integerify).record ⟨.readWord, s.cwParam + 16⟩).noteError (s.cwParam + 16)) rfl rfl rfl rfl
  rw [s.started_swap rfl] at hstatus
  exact ⟨_, hexec, State.complete_j _, exec_integerify_keepsMemory hs hexec, hstatus, hinfo, haddr⟩

end

end Sys2Proof.Machine

/-! PROOFS. The BLOCKMIX commands, run whole (43_blockmix.md R220 to R224). -/

namespace Sys2Proof

theorem undiag_xorb (a b : Block) : undiag (a.xorb b) = (undiag a).xorb (undiag b) := by
  apply Block.ext_word
  simp

/-- The working layout undone goes through the XOR of two elements (R193, R223). -/
theorem workLayoutInv_xorBlocks {m : Nat} (hm : 1 ≤ m) {x y : List Block} (hx : x.length = m) (hy : y.length = m) :
    workLayoutInv (xorBlocks x y) = xorBlocks (workLayoutInv x) (workLayoutInv y) := by
  obtain ⟨b, rfl⟩ : ∃ b, x = (List.range m).map b := ⟨_, hx ▸ eq_map_range_getD x⟩
  obtain ⟨c, rfl⟩ : ∃ c, y = (List.range m).map c := ⟨_, hy ▸ eq_map_range_getD y⟩
  simp only [xorBlocks, List.zipWith_map, List.zipWith_self, workLayoutInv_map_range m hm, undiag_xorb]

namespace Machine

/-- The blocks BM takes in, in the order of the working buffer (R211). -/
def bmInputs (r : Nat) (mode : BmMode) (ob : Base) (oo : Nat) (s : State) : List Block := (List.range (2 * r)).map (bmInput mode ob oo s)

/-- Without mode Xor the inputs are the blocks of CW (R221, R222). -/
theorem bmInputs_of_not_xor {r oo : Nat} {mode : BmMode} {ob : Base} {s : State} (h : mode ≠ .xor) :
    bmInputs r mode ob oo s = s.loadBlocks (s.baseAddr .cw) (2 * r) := by
  cases mode with
  | xor => exact absurd rfl h
  | _ => rfl

/-- In mode Xor they are the blocks of CW XORed with the other buffer's (R223). -/
theorem bmInputs_xor (r : Nat) (ob : Base) (s : State) :
    bmInputs r .xor ob 0 s = xorBlocks (s.loadBlocks (s.baseAddr .cw) (2 * r)) (s.loadBlocks (s.baseAddr ob) (2 * r)) := by
  simp only [xorBlocks, State.loadBlocks, List.zipWith_map, List.zipWith_self]
  exact List.map_congr_left fun k _ => by rw [bmInput, Nat.zero_add]

/-- The nominal blocks of which BM's inputs are the working layout (R193). -/
def bmNominal (r : Nat) (mode : BmMode) (ob : Base) (oo : Nat) (s : State) (k : Nat) : Block :=
  undiag (bmInput mode ob oo s (if k + 1 = 2 * r then 0 else k + 1))

theorem map_bmNominal {r oo : Nat} {mode : BmMode} {ob : Base} {s : State} (hr : 1 ≤ r) :
    (List.range (2 * r)).map (bmNominal r mode ob oo s) = workLayoutInv (bmInputs r mode ob oo s) :=
  (workLayoutInv_map_range _ (by omega) _).symm

/-- BM may start where its buffers do not meet, whatever they hold. -/
theorem bmReady_of_apart {r oo : Nat} {mode : BmMode} {ob : Base} {s : State} (hr : 1 ≤ r)
    (hcs : Apart (128 * r) (s.baseAddr .cs) (s.baseAddr .cw)) (hother : mode ≠ .none → Apart (128 * r) (s.baseAddr .cs) (s.baseAddr ob + oo)
      ∧ Apart (128 * r) (s.baseAddr .cw) (s.baseAddr ob + oo)) : BmReady r mode ob oo (bmNominal r mode ob oo s) s where
  csApartCw := hcs
  csApartOther := fun h => (hother h).1
  cwApartOther := fun h => (hother (by rw [h]; decide)).2
  inputFirst := by rw [bmNominal, if_pos (by omega), diag_undiag]
  input := fun k hk => by rw [bmNominal, if_neg (by omega), diag_undiag]

section
variable {i : Instr} {s : State} (hi : i = .blockmixNone ∨ i = .blockmixCopy ∨ i = .blockmixXor)
include hi

theorem blockmix_firstPhase : firstPhase i = .blockmix := by rcases hi with rfl | rfl | rfl <;> rfl

theorem State.started_blockOps_blockmix :
    (s.started i).blockOps = bmSeq (s.started i).latched.r.toNat (blockmixMode i) .other 0 := by
  rcases hi with rfl | rfl | rfl <;> rfl

/-- A BLOCKMIX command latches the exact r, which is at least 1 (R241, R242). -/
theorem Accepts.blockmix_r (ha : Accepts i s) : (s.started i).latched.r.toNat = s.params.r ∧ 1 ≤ s.params.r := by
  have h1 : .a1 ∈ (commandChecks i s).args := by rcases hi with rfl | rfl | rfl <;> exact .head _
  exact ⟨ha.latched_r rfl (by rcases hi with rfl | rfl | rfl <;> decide) h1, (ha.sizes h1).1⟩

/-- The buffers of a BLOCKMIX command do not meet (R247). -/
theorem Accepts.blockmix_disjoint (ha : Accepts i s) :
    ((s.started i).baseRegion .cs).disjoint ((s.started i).baseRegion .cw) = true
      ∧ (blockmixMode i ≠ .none → ((s.started i).baseRegion .cs).disjoint ((s.started i).baseRegion .other) = true
        ∧ ((s.started i).baseRegion .cw).disjoint ((s.started i).baseRegion .other) = true) := by
  rcases hi with rfl | hi
  · have hdisjoint : s.workRegion.disjoint s.shufRegion = true := by
      simpa [commandChecks, blockmixNoneChecks, pairwiseDisjoint] using ha.disjoint
    rw [← ha.workRegion_eq rfl (by decide) (.head _), ← ha.shufRegion_eq rfl (by decide) (.head _)] at hdisjoint
    exact ⟨(cw_cs_disjoint hdisjoint).1, fun h => absurd rfl h⟩
  · obtain ⟨hcs, hother⟩ := ha.otherBuffers_disjoint (by simpa using hi)
    exact ⟨hcs, fun _ => hother⟩

/-- BM may start when a BLOCKMIX command does (R211, R247). -/
theorem Accepts.blockmix_ready (ha : Accepts i s) :
    BmReady s.params.r (blockmixMode i) .other 0 (bmNominal s.params.r (blockmixMode i) .other 0 (s.started i)) (s.started i) := by
  obtain ⟨hr, hpos⟩ := ha.blockmix_r hi
  obtain ⟨hcs, hother⟩ := ha.blockmix_disjoint hi
  simp only [Region.disjoint_iff, State.baseRegion, Base.span, hr] at hcs hother
  exact bmReady_of_apart hpos hcs hother

/-- Without bus errors BM is served (R170, R286). -/
theorem Runs.blockmix_served (h : Runs i s) : ServedAll (s.started i).blockOps (s.started i) := by
  have hphase := blockmix_firstPhase hi
  have husable := h.usable_started (by rw [hphase]; exact ⟨nofun, nofun⟩)
  obtain ⟨hr, hpos⟩ := h.1.blockmix_r hi
  have hbases : Base.cw ∈ phaseBases i .blockmix ∧ Base.cs ∈ phaseBases i .blockmix := by
    cases hm : blockmixMode i <;> simp [phaseBases, hm]
  rw [hphase] at husable
  rw [State.started_blockOps_blockmix hi]
  exact servedAll_bmSeq (hr ▸ hpos) (husable _ hbases.1) (husable _ hbases.2) fun hm =>
    ⟨husable _ (by simp [phaseBases, hm]), by decide, fun q hq => block_offsetOk (.inl rfl) hq⟩

/-- A BLOCKMIX command without bus errors leaves WL(BlockMix) of its inputs at the old CS, COPY also the working buffer in the other one,
and toggles SWAP (R220 to R224). -/
theorem Runs.exec_blockmix (h : Runs i s) :
    ∃ t, exec i s = .next t
      ∧ t.mem.blocks s.csParam (2 * s.params.r) = workLayout (blockMix (workLayoutInv (bmInputs s.params.r (blockmixMode i) .other 0 (s.started i))))
      ∧ (blockmixMode i = .copy →
        t.mem.blocks ((s.started i).baseAddr .other) (2 * s.params.r) = s.mem.blocks s.cwParam (2 * s.params.r))
      ∧ MemorySameOutside (commandWrites i s) s t
      ∧ t.j = s.j
      ∧ CompletedOk i s t (!s.status.swap) false 1 := by
  have hserved := h.blockmix_served hi
  obtain ⟨ha, _, hs⟩ := h
  obtain ⟨hsmix, hinteg, hz, hclears⟩ : i ≠ .smix ∧ i ≠ .integerify ∧ zeroizes i = false ∧ clearsSwap i = false := by
    rcases hi with rfl | rfl | rfl <;> decide
  obtain ⟨hr, hpos⟩ := ha.blockmix_r hi
  obtain ⟨hcw, hcs⟩ := s.started_cw_cs hi
  have hdone := (ha.blockmix_ready hi).done hpos
  have hexec := ha.exec_of_servedAll hsmix hserved
  have hport : PortOk (performAll (s.started i).blockOps (s.started i)) :=
    portOk_performAll ⟨hs.1, show BufferOk s.wbuf from hs.2 ▸ bufferOk_nil⟩ hserved
  have hmem := (commandsKeepOtherMemory i s _ hs hexec).1
  have hj := exec_j hinteg hexec
  rw [State.started_blockOps_blockmix hi, hr] at hexec hport hmem hj
  generalize performAll _ _ = v at hdone hexec hport hmem hj
  refine ⟨_, hexec, ?_, fun hm => ?_, hmem, hj, ?_⟩
  · rw [blocks_complete hport, ← hcs, hdone.mixed, map_bmNominal hpos]
  · rw [blocks_complete hport, ← hcw, ← State.started_loadBlocks hs.2 i]
    exact hdone.copied hm
  · have hok := completedOk_complete hz hdone.quiet.frame hdone.quiet.status hdone.quiet.errInfo hdone.quiet.errAddr hdone.quiet.pendingErr
    rwa [hdone.swap, s.started_swap hclears, hdone.progress] at hok

end

/-- Settles O22: one BM in mode None. -/
theorem blockmixNoneMixesTheWorkingBuffer : Obligations.BlockmixNoneMixesTheWorkingBuffer := by
  intro s h
  have ⟨_, _, _, hw⟩ := h
  obtain ⟨t, hexec, hmixed, _, hmem, hj, hok⟩ := h.exec_blockmix (.inl rfl)
  obtain ⟨hcw, _⟩ := s.started_cw_cs (.inl rfl)
  rw [bmInputs_of_not_xor (by decide), hcw, State.started_loadBlocks hw] at hmixed
  exact ⟨t, hexec, hmixed, hmem, hj, hok⟩

/-- Settles O23: one BM in mode Copy. -/
theorem blockmixCopyMixesAndCopies : Obligations.BlockmixCopyMixesAndCopies := by
  intro s h
  have ⟨_, _, _, hw⟩ := h
  obtain ⟨t, hexec, hmixed, hcopied, hmem, hj, hok⟩ := h.exec_blockmix (.inr (.inl rfl))
  obtain ⟨hcw, _⟩ := s.started_cw_cs (.inr (.inl rfl))
  rw [bmInputs_of_not_xor (by decide), hcw, State.started_loadBlocks hw] at hmixed
  exact ⟨t, hexec, hmixed, hcopied rfl, hmem, hj, hok⟩

/-- Settles O24: one BM in mode Xor. -/
theorem blockmixXorMixesWithOther : Obligations.BlockmixXorMixesWithOther := by
  intro s h
  have ⟨_, _, _, hw⟩ := h
  obtain ⟨t, hexec, hmixed, _, hmem, hj, hok⟩ := h.exec_blockmix (.inr (.inr rfl))
  obtain ⟨_, hpos⟩ := h.1.blockmix_r (.inr (.inr rfl))
  obtain ⟨hcw, _⟩ := s.started_cw_cs (.inr (.inr rfl))
  rw [show blockmixMode .blockmixXor = .xor from rfl, bmInputs_xor, workLayoutInv_xorBlocks (m := 2 * s.params.r) (by omega) (by simp) (by simp),
    hcw, State.started_loadBlocks hw, State.started_loadBlocks hw] at hmixed
  exact ⟨t, hexec, hmixed, hmem, hj, hok⟩

end Machine

end Sys2Proof

/-! PROOFS. Two runs of a command without bus errors place requests of the same shape (43_blockmix.md R216, 44_controller.md R344). -/

namespace Sys2Proof.Machine

/-! ### A run without bus errors, step by step -/

/-- A run of `i` accepted in `s`, at `x`, that has met no error. -/
structure RunsServed (i : Instr) (s x : State) : Prop where
  runs : RunsCommand i x
  running : Running x
  frame : StepFrame (s.started i) x
  swap : x.progress.toNat = 0 → x.status.swap = (s.started i).status.swap

theorem runsServed_started {i : Instr} {s : State} (h : Runs i s) : RunsServed i s (s.started i) :=
  ⟨runsCommand_started h.1, running_started i s, StepFrame.refl _, fun _ => rfl⟩

section
variable {i : Instr} {s x v : State} (h : Runs i s) (hx : RunsServed i s x) (hv : engineStep x = .next v)
include h hx hv

/-- Without bus errors a step performs the position's micro-operation, its request recorded, or ends the block sequence (R252). -/
theorem RunsServed.engineStep_cases :
    (∃ op, x.blockOps[x.seq.q]? = some op ∧ v = op.run (op.place x)) ∨ (x.blockOps[x.seq.q]? = none ∧ v = endBlock x) := by
  rcases hx.running.engineStep_cases hv with ⟨op, hop, _, hrun⟩ | ⟨op, q, hop, hq, _, hfails, _⟩ | hend
  · exact .inl ⟨op, hop, hrun⟩
  · rw [h.request_served hx.runs hx.frame hx.swap hop hq] at hfails
    cases hfails
  · exact .inr hend

/-- Until the command has ended it has met no error. -/
theorem RunsServed.engineStep (hb : v.status.busy = true) : RunsServed i s v := by
  have hruns : RunsCommand i v := by
    rcases hx.runs.engineStep hx.running.busy hv with ⟨_, hruns⟩ | ⟨hidle, _⟩
    · exact hruns
    · exact absurd (hb.symm.trans hidle) (by decide)
  have hnone : v.pendingErr = none := by
    rcases hx.engineStep_cases h hv with ⟨op, _, rfl⟩ | ⟨_, rfl⟩
    · obtain ⟨_, _, herr, _⟩ := op.run_fields (op.place x)
      exact herr.trans ((op.place_pendingErr x).trans hx.running.noError)
    · exact endBlock_pendingErr hx.running.noError
  refine ⟨hruns, ⟨hb, hnone⟩, hx.frame.trans (stepFrame_engineStep hv), fun hp => ?_⟩
  obtain ⟨hzero, hsame⟩ := (hx.runs.commandMove hv).swap_of_progress hx.runs hp
  exact hsame.trans (hx.swap hzero)

end

/-- The end of a block sequence without an error: SMIX goes on with the next one, or the command completes (R252, R253). -/
theorem RunsServed.endBlock_cases {i : Instr} {s x : State} (hx : RunsServed i s x) :
    (i = .smix ∧ ∃ next, nextBlock x.latched.n.toNat x.seq.phase x.seq.i = some next ∧ (endBlock x).seq = ⟨next.1, next.2, 0, 0⟩
        ∧ (endBlock x).status = x.status)
      ∨ ((i = .smix → nextBlock x.latched.n.toNat x.seq.phase x.seq.i = none) ∧ endBlock x = x.complete) := by
  by_cases hi : i = .smix
  · subst hi
    cases hnext : nextBlock x.latched.n.toNat x.seq.phase x.seq.i with
    | some next =>
      obtain ⟨hseq, hstatus, _⟩ := endBlock_of_smix hx.runs hx.running.noError hnext
      exact .inl ⟨rfl, next, rfl, hseq, hstatus⟩
    | none =>
      refine .inr ⟨fun _ => rfl, ?_⟩
      unfold endBlock
      cases hp : x.seq.phase with
      | prepare | fill | fence | mix | restore =>
        rw [hp] at hnext
        cases hnext
      | _ => rfl
  · exact .inr ⟨fun h => absurd h hi, hx.runs.endBlock_eq hi⟩

/-! ### The requests of a micro-operation in two runs -/

/-- Two accepted commands with the same r, N and hint enables (R344). -/
structure SameSizes (s₁ s₂ : State) : Prop where
  r : s₁.params.r = s₂.params.r
  n : s₁.params.costN = s₂.params.costN
  pfe : s₁.ctrl.pfe = s₂.ctrl.pfe
  fle : s₁.ctrl.fle = s₂.ctrl.fle

/-- Requests of the same kind, at the same address when the two commands have the same parameters and SWAP, but for MIX's reads of
its table (R344). -/
def SameRequest (i : Instr) (s₁ s₂ : State) (q₁ q₂ : Request) : Prop :=
  q₁.kind = q₂.kind
    ∧ (s₁.params = s₂.params → s₁.status.swap = s₂.status.swap →
      q₁ = q₂ ∨ (i = .smix ∧ q₁.kind.isWrite = false ∧ q₂.kind.isWrite = false
        ∧ s₁.tableRegion.has q₁.addr = true ∧ s₂.tableRegion.has q₂.addr = true))

/-- A phase's block sequence depends on r where it accesses whole buffers, and on N in ZERO_SEQ (R253). -/
theorem blockSeq_congr {c : Instr} {r r' n n' i : Nat} {ph : Phase} (hr : ph.wholeBuffers → r = r') (hn : ph = .zeroize → n = n') :
    blockSeq c r n ph i = blockSeq c r' n' ph i := by
  cases ph with
  | zeroize => rw [hr ⟨nofun, nofun⟩, hn rfl]
  | integerify | salsa | idle | fence => rfl
  | _ => rw [hr ⟨nofun, nofun⟩]; rfl

section
variable {i : Instr} {s x : State}

/-- Where a phase accesses whole buffers, the latched r is the exact one (R241, R242). -/
theorem RunsServed.latched_r (hx : RunsServed i s x) (ha : Accepts i s) (hp : x.seq.phase.wholeBuffers) :
    x.latched.r.toNat = s.params.r := by
  obtain ⟨hint, hsalsa⟩ := hp
  have hmem := hx.runs.phase_mem
  have hlatches : i ∉ [.integerify, .salsa8, .salsa8Nat] ∧ .a1 ∈ (commandChecks i s).args := by
    cases i with
    | integerify => exact absurd (List.mem_singleton.1 hmem) hint
    | salsa8 | salsa8Nat => exact absurd (List.mem_singleton.1 hmem) hsalsa
    | _ => exact ⟨by decide, .head _⟩
  exact ha.latched_r hx.frame.latched hlatches.1 hlatches.2

/-- SMIX and ZEROIZE latch the exact N (R241, R242). -/
theorem RunsServed.latched_n (hx : RunsServed i s x) (ha : Accepts i s) (hi : i = .smix ∨ i = .zeroize) :
    x.latched.n.toNat = s.params.costN.toNat := by
  rcases hi with rfl | rfl
  · exact ha.latched_n hx.frame.latched (by decide) (.tail _ (.tail _ (.head _)))
  · exact ha.latched_n hx.frame.latched (by decide) (.tail _ (.head _))

end

section
variable {i : Instr} {s₁ s₂ x₁ x₂ : State}

/-- Commands with the same parameters and SWAP access the same buffers, but for the table entry JI names (R33, R241). -/
theorem baseAddr_eq_of_params (hl₁ : x₁.latched = (s₁.started i).latched) (hl₂ : x₂.latched = (s₂.started i).latched)
    (hparams : s₁.params = s₂.params) (hswap : x₁.status.swap = x₂.status.swap) {ph : Phase} (hph : ph ∈ phasesOf i) {b : Base}
    (hb : b ∈ phaseBases i ph) (hji : b ≠ .tableAtJI) : x₁.baseAddr b = x₂.baseAddr b := by
  cases i with
  | smix =>
    cases b with
    | other => cases ph <;> simp [phasesOf, phaseBases] at hph hb
    | tableAtJI => exact absurd rfl hji
    | _ =>
      simp only [State.baseAddr, State.cw, State.cs, hl₁, hl₂, hswap, State.started_elem, State.started_work, State.started_shuf,
        State.started_table, hparams, List.mem_cons, List.not_mem_nil, reduceCtorEq, or_false, or_self, if_true, if_false]
  | _ =>
    obtain rfl := List.mem_singleton.1 hph
    revert hb
    cases b <;> simp [phaseBases, blockmixMode, State.baseAddr, State.cw, State.cs, hl₁, hl₂, hswap, State.started_elem,
      State.started_work, State.started_shuf, State.started_table, State.started_other, hparams]

end

/-- A store's request stands where it writes. -/
theorem MicroOp.accessAt_of_storeAt {op : MicroOp} {p : Base × Nat} (h : op.storeAt = some p) : op.accessAt = some p := by
  cases op with
  | sta | staZero | stu | stn => exact h
  | _ => cases h

/-- No store writes the table entry JI names: MIX only reads it (R256). -/
theorem read_of_tableAtJI {c : Instr} {r n i o : Nat} {ph : Phase} {op : MicroOp} (hop : op ∈ blockSeq c r n ph i)
    (hat : op.accessAt = some (.tableAtJI, o)) {x : State} {q : Request} (hq : op.request x = some q) : q.kind.isWrite = false := by
  by_contra hwrite
  have hstore : q ∈ op.storeReq x := by simpa [MicroOp.storeReq, hq] using hwrite
  obtain ⟨b, o', hst, _⟩ := MicroOp.storeReq_addr hstore
  obtain ⟨rfl, rfl⟩ := Prod.mk.inj (Option.some.inj ((MicroOp.accessAt_of_storeAt hst).symm.trans hat))
  have hmem := blockSeq_storeAt hop hst
  cases ph <;> simp [writeBases, apply_ite (Base.tableAtJI ∈ ·)] at hmem

/-- A micro-operation of the position accesses a buffer of its phase (R170). -/
theorem RunsCommand.accessAt_mem {i : Instr} {x : State} (hx : RunsCommand i x) {op : MicroOp} (hop : x.blockOps[x.seq.q]? = some op) {b : Base}
    {o : Nat} (hat : op.accessAt = some (b, o)) : b ∈ phaseBases i x.seq.phase := by
  have hmem := hx.op_mem hop
  have hfill : x.seq.phase = .fill → x.seq.i < x.latched.n.toNat := fun hf => hx.iter_lt (.inl hf)
  by_cases hp : x.seq.phase.wholeBuffers
  · exact (MicroOp.accessAt_ok hat (hx.r_pos hp) (blockSeq_ok (hx.r_pos hp) hfill op hmem)).1
  · rw [blockSeq_congr (r' := 1) (fun h => absurd h hp) fun _ => rfl] at hmem
    exact (MicroOp.accessAt_ok hat le_rfl (blockSeq_ok le_rfl hfill op hmem)).1

/-- MIX reads the table entry JI names inside the table (R256). -/
theorem RunsServed.tableRegion_has {i : Instr} {s x : State} (hx : RunsServed i s x) (ha : Accepts i s) {op : MicroOp}
    (hop : x.blockOps[x.seq.q]? = some op) {o : Nat} (hat : op.accessAt = some (.tableAtJI, o)) :
    i = .smix ∧ s.tableRegion.has (x.baseAddr .tableAtJI + o) = true := by
  have hmem := hx.runs.accessAt_mem hop hat
  have hphase := phase_of_tableAtJI hmem
  have hsmix := hx.runs.smix_of_phase (.inr (.inr hphase))
  have hr := hx.runs.r_pos (by rw [hphase]; exact ⟨nofun, nofun⟩)
  obtain ⟨_, ho⟩ := MicroOp.accessAt_ok hat hr (blockSeq_ok hr (fun hf => hx.runs.iter_lt (.inl hf)) op (hx.runs.op_mem hop))
  exact ⟨hsmix, ha.tableRegion_has hx.frame.latched hsmix (hx.runs.ji_lt hop hat hmem)
    (decide_eq_true ⟨Nat.le_add_right _ _, Nat.add_lt_add_left ho _⟩)⟩

/-! ### A micro-operation performed in two runs -/

/-- Where a performed micro-operation leaves the position depends on the position alone (R50). -/
theorem MicroOp.run_seq_congr {op : MicroOp} {s u : State} (h : s.seq = u.seq) : (op.run s).seq = (op.run u).seq := by
  by_cases hsalsa : ∃ g, op = .salsa g
  · obtain ⟨g, rfl⟩ := hsalsa
    by_cases ht : u.seq.t < Config.rounds <;> simp [MicroOp.run, MicroOp.effect, MicroOp.advance, opSalsa, h, ht]
  · rw [MicroOp.run_seq (fun g hg => hsalsa ⟨g, hg⟩), MicroOp.run_seq (fun g hg => hsalsa ⟨g, hg⟩), h]

/-- Whether a performed micro-operation toggles SWAP does not depend on the state (R220). -/
theorem MicroOp.run_swap_congr {op : MicroOp} {s u : State} (h : s.status.swap = u.status.swap) :
    (op.run s).status.swap = (op.run u).status.swap := by
  obtain ⟨_, _, _, _, _, hstatus, _⟩ := op.run_fields s
  obtain ⟨_, _, _, _, _, hstatus', _⟩ := op.run_fields u
  obtain ⟨_, _, htoggle⟩ := op.run_progress s
  obtain ⟨_, _, htoggle'⟩ := op.run_progress u
  by_cases hend : op = .bmEnd
  · rw [(htoggle hend).2, (htoggle' hend).2, h]
  · rw [hstatus hend, hstatus' hend, h]

/-- A performed micro-operation adds its request, if it has one, to the record (log 10). -/
theorem MicroOp.trace_run_place (op : MicroOp) (s : State) : (op.run (op.place s)).trace = (op.request s).toList.reverse ++ s.trace := by
  rw [op.run_trace, op.place_trace]
  cases op.request s <;> rfl

/-! ### Two runs side by side -/

/-- Two runs of a command at the same position, their requests so far of the same shape (R344). -/
structure SameShape (i : Instr) (s₁ s₂ x₁ x₂ : State) : Prop where
  busy : x₁.status.busy = x₂.status.busy
  served₁ : x₁.status.busy = true → RunsServed i s₁ x₁
  served₂ : x₂.status.busy = true → RunsServed i s₂ x₂
  seq : x₁.seq = x₂.seq
  swap : s₁.params = s₂.params → s₁.status.swap = s₂.status.swap → x₁.status.swap = x₂.status.swap
  trace : ∃ new₁ new₂ : List Request, x₁.trace = new₁.reverse ++ s₁.trace ∧ x₂.trace = new₂.reverse ++ s₂.trace
    ∧ List.Forall₂ (SameRequest i s₁ s₂) new₁ new₂

section
variable {i : Instr} {s₁ s₂ x₁ x₂ v₁ v₂ : State} (h₁ : Runs i s₁) (h₂ : Runs i s₂) (hsizes : SameSizes s₁ s₂)

include h₁ h₂ in
theorem sameShape_started : SameShape i s₁ s₂ (s₁.started i) (s₂.started i) where
  busy := rfl
  served₁ := fun _ => runsServed_started h₁
  served₂ := fun _ => runsServed_started h₂
  seq := rfl
  swap := fun _ hs => congrArg (· && !clearsSwap i) hs
  trace := ⟨[], [], rfl, rfl, .nil⟩

theorem MicroOp.reqKind_congr {s u : State} (hp : s.ctrl.pfe = u.ctrl.pfe) (hf : s.ctrl.fle = u.ctrl.fle) (op : MicroOp) :
    op.reqKind s = op.reqKind u := by
  cases op <;> simp only [MicroOp.reqKind, hp, hf]

include h₁ h₂ in
/-- The position's micro-operation requests the same in both runs, or reads MIX's table (R344). -/
theorem SameShape.sameRequest (h : SameShape i s₁ s₂ x₁ x₂) (hb : x₁.status.busy = true) {op : MicroOp}
    (hop₁ : x₁.blockOps[x₁.seq.q]? = some op) (hop₂ : x₂.blockOps[x₂.seq.q]? = some op) {q₁ q₂ : Request}
    (hq₁ : op.request x₁ = some q₁) (hq₂ : op.request x₂ = some q₂) (hkind : q₁.kind = q₂.kind) : SameRequest i s₁ s₂ q₁ q₂ := by
  have hx₁ := h.served₁ hb
  have hx₂ := h.served₂ (h.busy ▸ hb)
  refine ⟨hkind, fun hparams hs => ?_⟩
  obtain ⟨b, o, hat, haddr₁⟩ := MicroOp.request_accessAt hq₁
  obtain ⟨b', o', hat', haddr₂⟩ := MicroOp.request_accessAt hq₂
  obtain ⟨rfl, rfl⟩ := Prod.mk.inj (Option.some.inj (hat.symm.trans hat'))
  by_cases hji : b = .tableAtJI
  · subst hji
    obtain ⟨hsmix, hhas₁⟩ := hx₁.tableRegion_has h₁.1 hop₁ hat
    obtain ⟨_, hhas₂⟩ := hx₂.tableRegion_has h₂.1 hop₂ hat
    exact .inr ⟨hsmix, read_of_tableAtJI (hx₁.runs.op_mem hop₁) hat hq₁, read_of_tableAtJI (hx₂.runs.op_mem hop₂) hat hq₂,
      haddr₁ ▸ hhas₁, haddr₂ ▸ hhas₂⟩
  · have hbase := baseAddr_eq_of_params hx₁.frame.latched hx₂.frame.latched hparams (h.swap hparams hs) hx₁.runs.phase_mem
      (hx₁.runs.accessAt_mem hop₁ hat) hji
    left
    obtain ⟨k₁, a₁⟩ := q₁
    obtain ⟨k₂, a₂⟩ := q₂
    simp only at hkind haddr₁ haddr₂
    rw [hkind, haddr₁, haddr₂, hbase]

include h₁ h₂ hsizes

/-- The block sequence of the position is the same in both runs (R344). -/
theorem SameShape.blockOps (h : SameShape i s₁ s₂ x₁ x₂) (hb : x₁.status.busy = true) : x₁.blockOps = x₂.blockOps := by
  have hx₁ := h.served₁ hb
  have hx₂ := h.served₂ (h.busy ▸ hb)
  rw [hx₁.runs.blockOps_eq, hx₂.runs.blockOps_eq, ← h.seq]
  refine blockSeq_congr (fun hp => ?_) fun hp => ?_
  · rw [hx₁.latched_r h₁.1 hp, hx₂.latched_r h₂.1 (h.seq ▸ hp), hsizes.r]
  · have hi : i = .smix ∨ i = .zeroize := by
      have hmem := hp ▸ hx₁.runs.phase_mem
      revert hmem
      cases i <;> decide
    rw [hx₁.latched_n h₁.1 hi, hx₂.latched_n h₂.1 hi, hsizes.n]

/-- So the requests they place, if any, have the same shape. -/
theorem SameShape.requests (h : SameShape i s₁ s₂ x₁ x₂) (hb : x₁.status.busy = true) {op : MicroOp}
    (hop₁ : x₁.blockOps[x₁.seq.q]? = some op) (hop₂ : x₂.blockOps[x₂.seq.q]? = some op) :
    List.Forall₂ (SameRequest i s₁ s₂) (op.request x₁).toList (op.request x₂).toList := by
  obtain ⟨hctrl₁, _⟩ := (h.served₁ hb).frame.outside
  obtain ⟨hctrl₂, _⟩ := (h.served₂ (h.busy ▸ hb)).frame.outside
  have hkind : op.reqKind x₂ = op.reqKind x₁ :=
    op.reqKind_congr (by rw [hctrl₁, hctrl₂]; exact hsizes.pfe.symm) (by rw [hctrl₁, hctrl₂]; exact hsizes.fle.symm)
  cases hk : op.reqKind x₁ with
  | none =>
    have hnone : op.request x₁ = none ∧ op.request x₂ = none := by simp [MicroOp.request, hkind, hk]
    rw [hnone.1, hnone.2]
    exact .nil
  | some k =>
    have hq₁ : op.request x₁ = some ⟨k, op.addr x₁⟩ := by simp [MicroOp.request, hk]
    have hq₂ : op.request x₂ = some ⟨k, op.addr x₂⟩ := by simp [MicroOp.request, hkind, hk]
    have hsame := h.sameRequest h₁ h₂ hb hop₁ hop₂ hq₁ hq₂ rfl
    rw [hq₁, hq₂]
    exact .cons hsame .nil

/-- A micro-operation performed in both runs. -/
theorem SameShape.run (h : SameShape i s₁ s₂ x₁ x₂) (hb : x₁.status.busy = true) {op : MicroOp}
    (hop₁ : x₁.blockOps[x₁.seq.q]? = some op) (hop₂ : x₂.blockOps[x₂.seq.q]? = some op)
    (hv₁ : (op.run (op.place x₁)).status.busy = true → RunsServed i s₁ (op.run (op.place x₁)))
    (hv₂ : (op.run (op.place x₂)).status.busy = true → RunsServed i s₂ (op.run (op.place x₂))) :
    SameShape i s₁ s₂ (op.run (op.place x₁)) (op.run (op.place x₂)) where
  busy := by rw [op.busy_run_place, op.busy_run_place, h.busy]
  served₁ := hv₁
  served₂ := hv₂
  seq := op.run_seq_congr (by rw [op.place_seq, op.place_seq, h.seq])
  swap := fun hparams hs => op.run_swap_congr (by rw [op.place_status, op.place_status, h.swap hparams hs])
  trace := by
    obtain ⟨new₁, new₂, htrace₁, htrace₂, hsame⟩ := h.trace
    refine ⟨new₁ ++ (op.request x₁).toList, new₂ ++ (op.request x₂).toList, ?_, ?_,
      List.rel_append hsame (h.requests h₁ h₂ hsizes hb hop₁ hop₂)⟩
    · rw [op.trace_run_place, htrace₁, List.reverse_append, List.append_assoc]
    · rw [op.trace_run_place, htrace₂, List.reverse_append, List.append_assoc]

/-- The end of a block sequence in both runs. -/
theorem SameShape.endBlock (h : SameShape i s₁ s₂ x₁ x₂) (hb : x₁.status.busy = true)
    (hv₁ : (Machine.endBlock x₁).status.busy = true → RunsServed i s₁ (Machine.endBlock x₁))
    (hv₂ : (Machine.endBlock x₂).status.busy = true → RunsServed i s₂ (Machine.endBlock x₂)) :
    SameShape i s₁ s₂ (Machine.endBlock x₁) (Machine.endBlock x₂) := by
  have hx₁ := h.served₁ hb
  have hx₂ := h.served₂ (h.busy ▸ hb)
  have hnext : i = .smix → nextBlock x₁.latched.n.toNat x₁.seq.phase x₁.seq.i = nextBlock x₂.latched.n.toNat x₂.seq.phase x₂.seq.i :=
    fun hi => by rw [hx₁.latched_n h₁.1 (.inl hi), hx₂.latched_n h₂.1 (.inl hi), hsizes.n, h.seq]
  have htrace := h.trace
  rw [← endBlock_trace x₁, ← endBlock_trace x₂] at htrace
  rcases hx₁.endBlock_cases with ⟨hi, next, hnext₁, hseq₁, hst₁⟩ | ⟨hnone₁, hdone₁⟩ <;>
    rcases hx₂.endBlock_cases with ⟨hi', next', hnext₂, hseq₂, hst₂⟩ | ⟨hnone₂, hdone₂⟩
  · obtain rfl : next = next' := Option.some.inj (hnext₁.symm.trans ((hnext hi).trans hnext₂))
    exact ⟨by rw [hst₁, hst₂, h.busy], hv₁, hv₂, hseq₁.trans hseq₂.symm, by rw [hst₁, hst₂]; exact h.swap, htrace⟩
  · exact nomatch hnext₁.symm.trans ((hnext hi).trans (hnone₂ hi))
  · exact nomatch (hnone₁ hi').symm.trans ((hnext hi').trans hnext₂)
  · refine ⟨?_, hv₁, hv₂, ?_, ?_, htrace⟩ <;> rw [hdone₁, hdone₂]
    · rfl
    · rfl
    · exact h.swap

/-- A step in both runs. -/
theorem SameShape.engineStep (h : SameShape i s₁ s₂ x₁ x₂) (hb : x₁.status.busy = true) (hv₁ : Machine.engineStep x₁ = .next v₁)
    (hv₂ : Machine.engineStep x₂ = .next v₂) : SameShape i s₁ s₂ v₁ v₂ := by
  have hx₁ := h.served₁ hb
  have hx₂ := h.served₂ (h.busy ▸ hb)
  have hops : x₁.blockOps[x₁.seq.q]? = x₂.blockOps[x₂.seq.q]? := by rw [h.blockOps h₁ h₂ hsizes hb, h.seq]
  have hnext₁ := hx₁.engineStep h₁ hv₁
  have hnext₂ := hx₂.engineStep h₂ hv₂
  rcases hx₁.engineStep_cases h₁ hv₁ with ⟨op, hop₁, rfl⟩ | ⟨hend₁, rfl⟩ <;>
    rcases hx₂.engineStep_cases h₂ hv₂ with ⟨op', hop₂, rfl⟩ | ⟨hend₂, rfl⟩
  · obtain rfl : op = op' := Option.some.inj (hop₁.symm.trans (hops.trans hop₂))
    exact h.run h₁ h₂ hsizes hb hop₁ hop₂ hnext₁ hnext₂
  · exact nomatch hop₁.symm.trans (hops.trans hend₂)
  · exact nomatch hend₁.symm.trans (hops.trans hop₂)
  · exact h.endBlock h₁ h₂ hsizes hb hnext₁ hnext₂

end

/-- A busy state's run starts with a step. -/
theorem engineStep_of_runToIdle {fuel : Nat} {x t : State} (h : runToIdle fuel x = .next t) (hb : x.status.busy = true)
    (ht : t.status.busy = false) : ∃ k v, fuel = k + 1 ∧ engineStep x = .next v ∧ runToIdle k v = .next t := by
  cases fuel with
  | zero =>
    obtain rfl : x = t := Host.Outcome.next.inj h
    exact absurd (hb.symm.trans ht) (by decide)
  | succ k =>
    rw [runToIdle, if_pos hb] at h
    cases hv : engineStep x with
    | next v => exact ⟨k, v, rfl, rfl, by rwa [hv] at h⟩
    | fault | refused => simp [hv] at h

/-- What two runs' starts have, and every pair of steps keeps, their ends have. -/
theorem runToIdle_pair {P : State → State → Prop} (hbusy : ∀ x₁ x₂, P x₁ x₂ → x₁.status.busy = x₂.status.busy)
    (hstep : ∀ x₁ x₂ v₁ v₂, P x₁ x₂ → x₁.status.busy = true → engineStep x₁ = .next v₁ → engineStep x₂ = .next v₂ → P v₁ v₂)
    {fuel₁ fuel₂ : Nat} {x₁ x₂ t₁ t₂ : State} (h : P x₁ x₂) (h₁ : runToIdle fuel₁ x₁ = .next t₁) (h₂ : runToIdle fuel₂ x₂ = .next t₂)
    (ht₁ : t₁.status.busy = false) (ht₂ : t₂.status.busy = false) : P t₁ t₂ := by
  induction fuel₁ generalizing fuel₂ x₁ x₂ with
  | zero =>
    obtain rfl : x₁ = t₁ := Host.Outcome.next.inj h₁
    rw [runToIdle_idle fuel₂ x₂ (hbusy _ _ h ▸ ht₁)] at h₂
    exact Host.Outcome.next.inj h₂ ▸ h
  | succ k ih =>
    by_cases hb : x₁.status.busy = true
    · obtain ⟨_, v₁, hk, hv₁, hrun₁⟩ := engineStep_of_runToIdle h₁ hb ht₁
      obtain ⟨_, v₂, _, hv₂, hrun₂⟩ := engineStep_of_runToIdle h₂ (hbusy _ _ h ▸ hb) ht₂
      obtain rfl := Nat.succ.inj hk
      exact ih (hstep _ _ _ _ h hb hv₁ hv₂) hrun₁ hrun₂
    · rw [Bool.not_eq_true] at hb
      rw [runToIdle_idle _ x₁ hb] at h₁
      rw [runToIdle_idle _ x₂ (hbusy _ _ h ▸ hb)] at h₂
      exact Host.Outcome.next.inj h₁ ▸ Host.Outcome.next.inj h₂ ▸ h

/-- Settles O44: the two runs stay at the same position, and place requests of the same shape step by step. -/
theorem commandsHaveConstantShape : Obligations.CommandsHaveConstantShape := by
  intro i s₁ s₂ t₁ t₂ h₁ h₂ hr hn hpfe hfle ht₁ ht₂
  have hshape : SameShape i s₁ s₂ t₁ t₂ := by
    have hrun₁ := ht₁
    have hrun₂ := ht₂
    rw [exec_eq_runCommand, runCommand_accepts h₁.1] at hrun₁
    rw [exec_eq_runCommand, runCommand_accepts h₂.1] at hrun₂
    exact runToIdle_pair (fun _ _ h => h.busy) (fun _ _ _ _ h hb hv₁ hv₂ => h.engineStep h₁ h₂ ⟨hr, hn, hpfe, hfle⟩ hb hv₁ hv₂)
      (sameShape_started h₁ h₂) hrun₁ hrun₂ (exec_idle h₁.1 ht₁) (exec_idle h₂.1 ht₂)
  obtain ⟨new₁, new₂, htrace₁, htrace₂, hsame⟩ := hshape.trace
  refine ⟨new₁, new₂, htrace₁, htrace₂, ?_, fun hparams hswap k q₁ q₂ hq₁ hq₂ => ?_⟩
  · rw [← List.forall₂_eq_eq_eq, List.forall₂_map_left_iff, List.forall₂_map_right_iff]
    exact hsame.imp fun _ _ h => h.1
  · obtain ⟨hk₁, rfl⟩ := List.getElem?_eq_some_iff.1 hq₁
    obtain ⟨hk₂, rfl⟩ := List.getElem?_eq_some_iff.1 hq₂
    exact (hsame.get hk₁ hk₂).2 hparams hswap

end Sys2Proof.Machine

/-! PROOFS. SMIX stopped before RESTORE leaves the element (44_controller.md R262, 60_exceptions.md R286). -/

namespace Sys2Proof.Machine

/-- A run of SMIX whose 2N BM operations are not complete has the element as it was (R262). -/
structure ElementKeptEarly (s x : State) : Prop where
  port : PortOk x
  reads : x.progress.toNat < 2 * s.params.costN.toNat → ∀ a, s.elemRegion.has a = true → x.readByte a = s.readByte a

/-- SMIX reaches RESTORE with its 2N BM operations complete (R49, R253). -/
theorem RunsCommand.notRestore_of_progress {x : State} (h : RunsCommand .smix x) (hp : x.progress.toNat < 2 * x.latched.n.toNat) :
    x.seq.phase ≠ .restore := fun hphase => by
  have hprogress := h.progress
  rw [progressOk, hphase] at hprogress
  exact absurd (hprogress : x.progress.toNat = 2 * x.latched.n.toNat) hp.ne

/-- A step counts BM operations forward, so one that ends short of RESTORE started short of it and wrote no byte of the element. -/
theorem ElementKeptEarly.engineStep {s x v : State} (h : ElementKeptEarly s x) (ha : Accepts .smix s) (hx : RunsCommand .smix x)
    (hl : x.latched = (s.started .smix).latched) (hv : Machine.engineStep x = .next v) : ElementKeptEarly s v := by
  refine ⟨portOk_engineStep h.port hv, fun hp a hin => ?_⟩
  have hpx := (hx.readsForward hv).progress.trans_lt hp
  have hn : x.latched.n.toNat = s.params.costN.toNat := ha.latched_n hl (.head _) (.tail _ (.tail _ (.head _)))
  have hne := hx.notRestore_of_progress (hn ▸ hpx)
  exact (hx.engineStep_keepsElement ha hl h.port hne hv hin).trans (h.reads hpx a hin)

/-- Settles O33: the BM operations counted by the end were counted at every step before it, so no step was in RESTORE. -/
theorem smixStoppedEarlyKeepsTheElement : Obligations.SmixStoppedEarlyKeepsTheElement := by
  intro s t ha hs ht hp a hin
  have hstart : ElementKeptEarly s (s.started .smix) := ⟨⟨hs.1, hs.2 ▸ bufferOk_nil⟩, fun _ _ _ => rfl⟩
  have hend : ElementKeptEarly s t := exec_induct_step ha ht hstart fun _ _ hx _ hframe hP hv => hP.engineStep ha hx hframe.latched hv
  obtain ⟨_, hw, _⟩ := exec_idleOk ha ht
  rw [← State.readByte_of_wbuf_nil hw, ← State.readByte_of_wbuf_nil hs.2]
  exact hend.reads hp a hin

end Sys2Proof.Machine

/-! PROOFS. ZERO_SEQ, whichever of its writes fail: every block whose write does not fail is zero, and `ok` says whether any failed
(44_controller.md R258, 60_exceptions.md R286, R287). -/

namespace Sys2Proof.Machine

/-! ### The zero writes in their order -/

/-- Where the zero writes of ZERO_SEQ stand, as base and offset, in order (R258). -/
def zeroPlaces (r n : Nat) : List (Base × Nat) :=
  (List.range (2 * r)).map (fun q => (.work, 64 * q)) ++ (List.range (2 * r)).map (fun q => (.shuf, 64 * q))
    ++ (List.range (2 * r * n)).map fun q => (.table, 64 * q)

theorem zeroSeq_eq_places (r n : Nat) :
    zeroSeq r n = .zeroBegin :: ((zeroPlaces r n).map (fun p => MicroOp.staZero p.1 p.2) ++ [.zeroEnd]) := by
  simp [zeroSeq, zeroFill, zeroPlaces, Function.comp_def]

/-- The blocks ZERO_SEQ writes, in its order. -/
def State.zeroAddrs (u : State) : List Nat :=
  (zeroPlaces u.latched.r.toNat u.latched.n.toNat).map fun p => u.baseAddr p.1 + p.2

theorem zeroPlaces_base {r n : Nat} {p : Base × Nat} (h : p ∈ zeroPlaces r n) :
    (p.1 = .work ∨ p.1 = .shuf ∨ p.1 = .table) ∧ p.2 % 64 = 0 := by
  simp only [zeroPlaces, List.mem_append, List.mem_map] at h
  rcases h with (⟨q, _, rfl⟩ | ⟨q, _, rfl⟩) | ⟨q, _, rfl⟩ <;> simp

/-- They depend on the latched parameters alone (R241). -/
theorem State.zeroAddrs_congr {s u : State} (hl : u.latched = s.latched) : u.zeroAddrs = s.zeroAddrs := by
  unfold State.zeroAddrs
  rw [hl]
  refine List.map_congr_left fun p hp => ?_
  obtain ⟨hb, _⟩ := zeroPlaces_base hp
  rcases hb with hb | hb | hb <;> simp only [hb, State.baseAddr, hl]

/-- What stands at a position of ZERO_SEQ: its start, the zero write of the block in turn, or its end (R258). -/
theorem zeroSeq_op {u : State} {q : Nat} {op : MicroOp} (h : (zeroSeq u.latched.r.toNat u.latched.n.toNat)[q]? = some op) :
    (q = 0 ∧ op = .zeroBegin)
      ∨ (∃ k b o, q = k + 1 ∧ op = .staZero b o ∧ u.zeroAddrs[k]? = some (u.baseAddr b + o))
      ∨ (q ≠ 0 ∧ op = .zeroEnd ∧ u.zeroAddrs.length ≤ q - 1) := by
  rw [zeroSeq_eq_places] at h
  cases q with
  | zero => exact .inl ⟨rfl, (Option.some.inj h).symm⟩
  | succ k =>
    rw [List.getElem?_cons_succ] at h
    by_cases hk : k < u.zeroAddrs.length
    · have hlt : k < (zeroPlaces u.latched.r.toNat u.latched.n.toNat).length := by simpa [State.zeroAddrs] using hk
      rw [List.getElem?_append_left (by simpa using hlt), List.getElem?_map, List.getElem?_eq_getElem hlt] at h
      exact .inr (.inl ⟨k, _, _, rfl, (Option.some.inj h).symm, by simp [State.zeroAddrs, List.getElem?_eq_getElem hlt]⟩)
    · have hge : (zeroPlaces u.latched.r.toNat u.latched.n.toNat).length ≤ k := by simpa [State.zeroAddrs] using hk
      rw [List.getElem?_append_right (by simpa using hge)] at h
      exact .inr (.inr ⟨nofun, List.mem_singleton.1 (List.mem_of_getElem? h), Nat.not_lt.1 hk⟩)

/-! ### What the zero writes issued so far have left -/

/-- The zero write of the block at `a`. -/
def zeroWrite (a : Nat) : Request := ⟨.writeAligned, a⟩

/-- The zero writes of the blocks `as` have been issued: those that do not fail have left zeros, and `ok` says whether all did not. -/
structure ZeroesIssued (as : List Nat) (u : State) : Prop where
  zero : ∀ a ∈ as, (zeroWrite a).fails u.platform = false → u.loadBlock a = zeroBlock
  ok : u.zeroOk = true ↔ ∀ a ∈ as, (zeroWrite a).fails u.platform = false

theorem ZeroesIssued.of_eq {as : List Nat} {u v : State} (h : ZeroesIssued as u) (hread : v.readByte = u.readByte)
    (hok : v.zeroOk = u.zeroOk) (hp : v.platform = u.platform) : ZeroesIssued as v := by
  refine ⟨fun a ha hserved => ?_, ?_⟩
  · rw [State.loadBlock_eq hread]
    exact h.zero a ha (hp ▸ hserved)
  · rw [hok, hp]
    exact h.ok

/-- Aligned blocks are the same or apart: an earlier block whose write does not fail stays zero whatever is written to the one of a
failing write (R74, R169). -/
theorem ZeroesIssued.snoc {as : List Nat} {a : Nat} {b : Block} {u v : State} (h : ZeroesIssued as u) (has : ∀ c ∈ as, c % 64 = 0)
    (ha : a % 64 = 0) (hread : v.readByte = (u.storeBlock a b).readByte) (hp : v.platform = u.platform)
    (hzero : (zeroWrite a).fails u.platform = false → b = zeroBlock)
    (hok : v.zeroOk = (u.zeroOk && !(zeroWrite a).fails u.platform)) : ZeroesIssued (as ++ [a]) v := by
  refine ⟨fun c hc hserved => ?_, ?_⟩
  · rw [State.loadBlock_eq hread]
    rw [hp] at hserved
    by_cases hca : c = a
    · subst hca
      rw [State.loadBlock_storeBlock_same, hzero hserved]
    · have hmem : c ∈ as := (List.mem_append.1 hc).resolve_right fun h => hca (List.mem_singleton.1 h)
      have hc64 := has c hmem
      rw [State.loadBlock_storeBlock_other _ _ _ _ (by omega)]
      exact h.zero c hmem hserved
  · rw [hok, hp, Bool.and_eq_true, h.ok, Bool.not_eq_true', List.forall_mem_append, List.forall_mem_singleton]

/-! ### The steps of ZERO_SEQ -/

section
variable {c : Instr} {x v : State}

/-- The blocks of ZERO_SEQ are aligned (R244). -/
theorem RunsCommand.zeroAddrs_aligned (h : RunsCommand c x) (hp : x.seq.phase = .zeroize) : ∀ a ∈ x.zeroAddrs, a % 64 = 0 := by
  obtain ⟨hwork, hshuf, htable⟩ : x.latched.work.toNat % 64 = 0 ∧ x.latched.shuf.toNat % 64 = 0 ∧ x.latched.table.toNat % 64 = 0 := by
    have hgeometry := h.geometry
    have hmem := hp ▸ h.phase_mem
    cases c with
    | smix =>
      obtain ⟨_, _, _, hwork, hshuf, htable⟩ := hgeometry
      exact ⟨hwork.1, hshuf.1, htable.1⟩
    | zeroize =>
      obtain ⟨_, _, hwork, hshuf, htable⟩ := hgeometry
      exact ⟨hwork.1, hshuf.1, htable.1⟩
    | _ => exact absurd hmem (by decide)
  intro a ha
  obtain ⟨p, hmem, rfl⟩ := List.mem_map.1 ha
  obtain ⟨hb, ho⟩ := zeroPlaces_base hmem
  rcases hb with hb | hb | hb <;> simp only [hb, State.baseAddr] <;> omega

/-- A command that zeroizes, but SMIX, is in ZERO_SEQ from its start (R259). -/
theorem RunsCommand.phase_zeroize (h : RunsCommand c x) (hz : zeroizes c = true) (hsmix : c ≠ .smix) : x.seq.phase = .zeroize := by
  have hmem := h.phase_mem
  cases c with
  | smix => exact absurd rfl hsmix
  | zeroize => exact List.mem_singleton.1 hmem
  | _ => cases hz

/-- A step of ZERO_SEQ performs the micro-operation in turn or, at its end, completes the command; no error stops it (R287). -/
theorem RunsCommand.zeroize_step (h : RunsCommand c x) (hp : x.seq.phase = .zeroize) (hv : Machine.engineStep x = .next v) :
    (∃ op, (zeroSeq x.latched.r.toNat x.latched.n.toNat)[x.seq.q]? = some op ∧ performOp op x = .next v)
      ∨ ((zeroSeq x.latched.r.toNat x.latched.n.toNat)[x.seq.q]? = none ∧ v = x.complete) := by
  have hnone : x.errorInFlight = false := by simp [State.errorInFlight, hp]
  rw [engineStep_of_noError hnone] at hv
  rw [← State.blockOps_zeroize h.cmd hp]
  exact (sequencerStep_cases hv).imp_right fun ⟨hend, hv⟩ => ⟨hend, by rw [hv, Machine.endBlock, hp]⟩

/-- A zero write that is served stores zeros (R258). -/
theorem readByte_run_staZero (b : Base) (o : Nat) (q : Request) (x : State) :
    ((MicroOp.staZero b o).run (x.record q)).readByte = (x.storeBlock (x.baseAddr b + o) zeroBlock).readByte := rfl

/-- One that fails leaves its bytes free (R169). -/
theorem readByte_failedZero {q : Request} (hq : q.kind.isWrite = true) (x : State) :
    (failedZero q (x.record q)).readByte = (x.storeBlock q.addr x.freeBlock).readByte := by
  have hfail : (x.record q).failRequest q = ((x.record q).noteError q.addr).storeFree q.addr := if_pos hq
  refine funext (State.readByte_congr ?_ ?_)
  · simp [failedZero]
  · rw [State.storeBlock_wbuf, failedZero, hfail]
    rfl

/-- A zero write, served or failing (R258, R287). -/
theorem performOp_staZero {b : Base} {o : Nat} (hp : x.seq.phase = .zeroize) (hv : performOp (.staZero b o) x = .next v) :
    ∃ data, v.readByte = (x.storeBlock (x.baseAddr b + o) data).readByte
      ∧ ((zeroWrite (x.baseAddr b + o)).fails x.platform = false → data = zeroBlock)
      ∧ v.zeroOk = (x.zeroOk && !(zeroWrite (x.baseAddr b + o)).fails x.platform)
      ∧ v.seq.q = x.seq.q + 1 ∧ v.status = x.status := by
  rcases performOp_cases hv with ⟨hnone, _⟩ | ⟨q, hq, _, _, ⟨hfails, rfl⟩ | ⟨hserved, rfl⟩⟩
  · cases hnone
  · obtain rfl : zeroWrite (x.baseAddr b + o) = q := Option.some.inj hq
    rw [busError, if_pos (by simpa using hp)]
    exact ⟨_, readByte_failedZero rfl x, fun h => absurd (hfails.symm.trans h) (by decide),
      by rw [hfails, Bool.not_true, Bool.and_false]; rfl, by simp [failedZero], by simp [failedZero]⟩
  · obtain rfl : zeroWrite (x.baseAddr b + o) = q := Option.some.inj hq
    exact ⟨_, readByte_run_staZero b o _ x, fun _ => rfl, by rw [hserved, Bool.not_false, Bool.and_true]; rfl, rfl, rfl⟩

end

/-! ### From acceptance to the end -/

/-- How far a command that zeroizes has come: in ZERO_SEQ the zero writes before the position have been issued, and at its end all of
them, ZEROED then says what `ok` does (R258). -/
structure ZeroizesSoFar (u : State) : Prop where
  port : PortOk u
  issued : u.seq.phase = .zeroize → u.seq.q ≠ 0 → ZeroesIssued (u.zeroAddrs.take (u.seq.q - 1)) u
  ended : u.status.busy = false → ZeroesIssued u.zeroAddrs u ∧ u.status.zeroed = u.zeroOk

section
variable {c : Instr} {x v : State}

/-- ZERO_SEQ starts with no zero write issued and `ok` set (R258). -/
theorem ZeroizesSoFar.zeroBegin (h : ZeroizesSoFar x) (hb : x.status.busy = true) (hq : x.seq.q = 0) :
    ZeroizesSoFar (MicroOp.zeroBegin.run x) := by
  refine ⟨h.port.of_eq rfl rfl, fun _ _ => ?_, fun hidle => absurd (hb.symm.trans hidle) (by decide)⟩
  rw [show (MicroOp.zeroBegin.run x).seq.q - 1 = 0 from hq]
  exact ⟨nofun, iff_of_true rfl nofun⟩

/-- A zero write is issued (R258, R287). -/
theorem ZeroizesSoFar.staZero (h : ZeroizesSoFar x) (hx : RunsCommand c x) (hb : x.status.busy = true) (hp : x.seq.phase = .zeroize)
    {k o : Nat} {b : Base} (hq : x.seq.q = k + 1) (hk : x.zeroAddrs[k]? = some (x.baseAddr b + o)) (hport : PortOk v)
    (hframe : StepFrame x v) (hv : performOp (.staZero b o) x = .next v) : ZeroizesSoFar v := by
  obtain ⟨data, hread, hzero, hok, hnext, hstatus⟩ := performOp_staZero hp hv
  refine ⟨hport, fun _ _ => ?_, fun hidle => absurd (hb.symm.trans (hstatus ▸ hidle)) (by decide)⟩
  have hsofar := h.issued hp (by omega)
  have haligned := hx.zeroAddrs_aligned hp
  rw [hq, Nat.add_sub_cancel] at hsofar
  rw [State.zeroAddrs_congr hframe.latched, hnext, hq, Nat.add_sub_cancel, List.take_add_one, hk]
  exact hsofar.snoc (fun a ha => haligned a (List.mem_of_mem_take ha)) (haligned _ (List.mem_of_getElem? hk)) hread hframe.platform
    hzero hok

/-- ZERO_SEQ's last micro-operation, behind all zero writes (R258). -/
theorem ZeroizesSoFar.zeroEnd (h : ZeroizesSoFar x) (hb : x.status.busy = true) (hp : x.seq.phase = .zeroize) (hq : x.seq.q ≠ 0)
    (hlen : x.zeroAddrs.length ≤ x.seq.q - 1) : ZeroizesSoFar (MicroOp.zeroEnd.run x) := by
  refine ⟨h.port.of_eq rfl rfl, fun _ _ => ?_, fun hidle => absurd (hb.symm.trans hidle) (by decide)⟩
  have hsofar := (h.issued hp hq).of_eq (v := MicroOp.zeroEnd.run x) rfl rfl rfl
  rw [List.take_of_length_le hlen] at hsofar
  rw [State.zeroAddrs_congr (s := x) (u := MicroOp.zeroEnd.run x) rfl, show (MicroOp.zeroEnd.run x).seq.q - 1 = x.seq.q from rfl,
    List.take_of_length_le (hlen.trans (Nat.sub_le _ _))]
  exact hsofar

/-- The command completes behind ZERO_SEQ (R258). -/
theorem ZeroizesSoFar.complete (h : ZeroizesSoFar x) (hcmd : x.latched.cmd = some c) (hz : zeroizes c = true) (hp : x.seq.phase = .zeroize)
    (hend : (zeroSeq x.latched.r.toNat x.latched.n.toNat)[x.seq.q]? = none) : ZeroizesSoFar x.complete := by
  have hlen : x.zeroAddrs.length + 1 < x.seq.q := by
    rw [zeroSeq_eq_places] at hend
    simpa [State.zeroAddrs] using List.getElem?_eq_none_iff.1 hend
  have hsofar := h.issued hp (by omega)
  rw [List.take_of_length_le (by omega)] at hsofar
  refine ⟨portOk_complete h.port, fun hph => absurd hph (by simp [State.complete, idleSeq]), fun _ => ⟨?_, ?_⟩⟩
  · rw [State.zeroAddrs_congr (State.complete_latched x)]
    exact hsofar.of_eq (funext h.port.readByte_complete) (State.complete_zeroOk x) (stepFrame_complete x).platform
  · have hzeroizing : x.zeroizing = true := by rw [State.zeroizing, hcmd]; exact hz
    rw [State.complete_status, hzeroizing, State.complete_zeroOk]
    rfl

/-- One step of ZERO_SEQ. -/
theorem ZeroizesSoFar.step_zeroize (h : ZeroizesSoFar x) (hx : RunsCommand c x) (hz : zeroizes c = true) (hb : x.status.busy = true)
    (hp : x.seq.phase = .zeroize) (hv : Machine.engineStep x = .next v) : ZeroizesSoFar v := by
  rcases hx.zeroize_step hp hv with ⟨op, hop, hperf⟩ | ⟨hend, rfl⟩
  · rcases zeroSeq_op hop with ⟨hq, rfl⟩ | ⟨k, b, o, hq, rfl, hk⟩ | ⟨hq, rfl, hlen⟩
    · obtain rfl := Host.Outcome.next.inj hperf
      exact h.zeroBegin hb hq
    · exact h.staZero hx hb hp hq hk (portOk_engineStep h.port hv) (stepFrame_engineStep hv) hperf
    · obtain rfl := Host.Outcome.next.inj hperf
      exact h.zeroEnd hb hp hq hlen
  · exact h.complete hx.cmd hz hp hend

/-- A step outside ZERO_SEQ leaves it unstarted (R253, R286). -/
theorem ZeroizesSoFar.step_before (h : ZeroizesSoFar x) (hx : RunsCommand c x) (hz : zeroizes c = true) (hb : x.status.busy = true)
    (hp : x.seq.phase ≠ .zeroize) (hv : Machine.engineStep x = .next v) : ZeroizesSoFar v := by
  have hsmix : c = .smix := by_contra fun hc => hp (hx.phase_zeroize hz hc)
  suffices hlater : (v.seq.phase = .zeroize → v.seq.q = 0) ∧ v.status.busy = true from
    ⟨portOk_engineStep h.port hv, fun hph hq => absurd (hlater.1 hph) hq, fun hidle => absurd (hlater.2.symm.trans hidle) (by decide)⟩
  cases hx.commandMove hv with
  | @served op tr d hop =>
    obtain ⟨hph, _, _, _, hbusy, _⟩ := op.run_fields { x with trace := tr, draws := d }
    exact ⟨fun hph' => absurd (hph.symm.trans hph') hp, hbusy.trans hb⟩
  | passed tr d e w ok hop hreq => exact ⟨fun hph => absurd hph hp, hb⟩
  | moved tr d e w _ hnext hdraw => exact ⟨fun _ => rfl, hb⟩
  | finished d hend hlast => exact absurd (hlast hsmix) hp
  | stopped tr d e w hstop => exact absurd hsmix hstop.notSmix

end

/-- An accepted command keeps, to its end, the frame of its steps. -/
theorem Accepts.stepFrame_exec {i : Instr} {s t : State} (ha : Accepts i s) (ht : exec i s = .next t) : StepFrame (s.started i) t :=
  exec_induct_step ha ht (P := StepFrame (s.started i)) (.refl _) fun _ _ _ _ _ hP hv => hP.trans (stepFrame_engineStep hv)

/-- The blocks of ZERO_SEQ are those of the scratch regions of R247. -/
theorem Accepts.zeroAddrs_started {i : Instr} {s : State} (ha : Accepts i s) (hi : i = .smix ∨ i = .zeroize) :
    (s.started i).zeroAddrs
      = (List.range (2 * s.params.r)).map (fun q => s.params.workBase.toNat + 64 * q)
        ++ (List.range (2 * s.params.r)).map (fun q => s.params.shufBase.toNat + 64 * q)
        ++ (List.range (2 * s.params.r * s.params.costN.toNat)).map (fun q => s.params.tableBase.toNat + 64 * q) := by
  have hr : (s.started i).latched.r.toNat = s.params.r :=
    ha.latched_r rfl (by rcases hi with rfl | rfl <;> decide) (by rcases hi with rfl | rfl <;> exact .head _)
  have hn : (s.started i).latched.n.toNat = s.params.costN.toNat :=
    ha.latched_n rfl (by rcases hi with rfl | rfl <;> decide)
      (by rcases hi with rfl | rfl <;> simp [commandChecks, smixChecks, zeroizeChecks])
  have hbases : (s.started i).baseAddr .work = s.params.workBase.toNat ∧ (s.started i).baseAddr .shuf = s.params.shufBase.toNat
      ∧ (s.started i).baseAddr .table = s.params.tableBase.toNat := by
    rcases hi with rfl | rfl <;> exact ⟨rfl, rfl, rfl⟩
  obtain ⟨hwork, hshuf, htable⟩ := hbases
  simp [State.zeroAddrs, zeroPlaces, hr, hn, hwork, hshuf, htable, Function.comp_def]

/-- Settles O35: the zero writes of ZERO_SEQ one by one, whichever of them fail, from acceptance to the end. -/
theorem scratchIsZeroizedOnEveryExit : Obligations.ScratchIsZeroizedOnEveryExit := by
  intro i s t hi ha hs ht
  have hz : zeroizes i = true := by rcases hi with rfl | rfl <;> rfl
  have hstart : ZeroizesSoFar (s.started i) := ⟨⟨hs.1, hs.2 ▸ bufferOk_nil⟩, fun _ hq => absurd rfl hq, nofun⟩
  have hframe := ha.stepFrame_exec ht
  have hend : ZeroizesSoFar t := exec_induct_step ha ht hstart fun x v hx hb _ hP hv => by
    by_cases hp : x.seq.phase = .zeroize
    · exact hP.step_zeroize hx hz hb hp hv
    · exact hP.step_before hx hz hb hp hv
  obtain ⟨hissued, hzeroed⟩ := hend.ended (exec_idle ha ht)
  obtain ⟨_, hw, _⟩ := exec_idleOk ha ht
  rw [State.zeroAddrs_congr hframe.latched, ha.zeroAddrs_started hi] at hissued
  have hplatform : t.platform = s.platform := hframe.platform
  refine ⟨fun a hmem hserved => ?_, ?_⟩
  · rw [← hissued.zero a hmem (hplatform ▸ hserved)]
    exact Block.ofBytes_congr _ _ fun k _ => (State.readByte_of_wbuf_nil hw _).symm
  · rw [hzeroed, hissued.ok, hplatform]
    rfl

end Sys2Proof.Machine

/-! PROOFS. The memory requests of a command that meets no error, hints not counted (44_controller.md R261, R343). -/

namespace Sys2Proof.Machine

/-! ### The memory accesses of the block sequences -/

/-- A micro-operation that places a request other than a hint (R74, R80). -/
def MicroOp.isAccess : MicroOp → Bool
  | .lda _ _ _ _ | .ldu _ _ _ | .integ _ | .sta _ _ _ _ | .staZero _ _ | .stu _ _ _ _ | .stn _ _ _ => true
  | .xorb _ _ _ | .move _ _ | .salsa _ | .pfn _ _ | .flush _ _ | .bmEnd | .fence | .zeroBegin | .zeroEnd => false

/-- How many requests other than hints are among `qs`. -/
def accesses (qs : List Request) : Nat := qs.countP fun q => !q.kind.isHint

theorem accesses_append (qs qs' : List Request) : accesses (qs ++ qs') = accesses qs + accesses qs' := List.countP_append

theorem MicroOp.accesses_request (op : MicroOp) (x : State) : accesses (op.request x).toList = if op.isAccess then 1 else 0 := by
  cases op with
  | pfn => by_cases h : x.ctrl.pfe <;> simp [MicroOp.request, MicroOp.reqKind, MicroOp.isAccess, accesses, ReqKind.isHint, h]
  | flush => by_cases h : x.ctrl.fle <;> simp [MicroOp.request, MicroOp.reqKind, MicroOp.isAccess, accesses, ReqKind.isHint, h]
  | _ => rfl

/-- The accesses of one BM: 4r, and 2r more to the other buffer in modes Copy and Xor (R216). -/
def bmAccesses (r : Nat) : BmMode → Nat
  | .none => 4 * r
  | .copy | .xor => 6 * r

theorem countP_bmSeq_access {r oo : Nat} {mode : BmMode} {ob : Base} (hr : 1 ≤ r) :
    (bmSeq r mode ob oo).countP MicroOp.isAccess = bmAccesses r mode := by
  have htail : bmTail.countP MicroOp.isAccess = 1 := rfl
  cases mode with
  | none =>
    have hhead : (bmHead r .none ob oo).countP MicroOp.isAccess = 1 := rfl
    rw [countP_bmSeq (c := 2) fun i => rfl, hhead, htail, bmAccesses]
    omega
  | copy =>
    have hhead : (bmHead r .copy ob oo).countP MicroOp.isAccess = 2 := rfl
    rw [countP_bmSeq (c := 3) fun i => rfl, hhead, htail, bmAccesses]
    omega
  | xor =>
    have hhead : (bmHead r .xor ob oo).countP MicroOp.isAccess = 2 := by
      simp [bmHead, List.countP_cons, MicroOp.isAccess, Function.comp_def]
    have hiter : ∀ i, (bmIter r .xor ob oo i).countP MicroOp.isAccess = 3 := fun i => by
      simp [bmIter, List.countP_cons, apply_ite (List.countP _), MicroOp.isAccess]
    rw [countP_bmSeq hiter, hhead, htail, bmAccesses]
    omega

/-- PREP_SEQ loads and stores each block once (R194). -/
theorem countP_prepSeq_access {r : Nat} (hr : 1 ≤ r) : (prepSeq r).countP MicroOp.isAccess = 4 * r := by
  have hlast : [MicroOp.ldu .cur .elem (64 * (2 * r - 1)), .sta .diag .cur .work 0].countP MicroOp.isAccess = 2 := rfl
  rw [prepSeq, List.countP_append, countP_flatMap_const (c := 2) fun i _ => rfl, List.length_range, hlast]
  omega

/-- REST_SEQ loads and stores each block once (R197). -/
theorem countP_restSeq_access {r : Nat} (hr : 1 ≤ r) : (restSeq r).countP MicroOp.isAccess = 4 * r := by
  have hfirst : [MicroOp.lda .keep .held .cw 0].countP MicroOp.isAccess = 1 := rfl
  have hlast : [MicroOp.stu .undiag .held .elem (64 * (2 * r - 1))].countP MicroOp.isAccess = 1 := rfl
  rw [restSeq, List.countP_append, List.countP_append, countP_flatMap_const (c := 2) fun i _ => rfl, List.length_range, hfirst, hlast]
  omega

/-- ZERO_SEQ stores each scratch block once (R258). -/
theorem countP_zeroSeq_access (r n : Nat) : (zeroSeq r n).countP MicroOp.isAccess = 4 * r + 2 * r * n := by
  have hfill : ∀ b k, (zeroFill b k).countP MicroOp.isAccess = k := fun b k => by
    simp [zeroFill, List.countP_map, Function.comp_def, MicroOp.isAccess]
  have hends : [MicroOp.zeroBegin].countP MicroOp.isAccess = 0 ∧ [MicroOp.zeroEnd].countP MicroOp.isAccess = 0 := ⟨rfl, rfl⟩
  rw [zeroSeq, List.countP_append, List.countP_append, List.countP_append, List.countP_append, hfill, hfill, hfill, hends.1, hends.2]
  omega

/-! ### The accesses of a command -/

/-- The accesses of a whole command (R343). -/
def commandAccesses (r n : Nat) : Instr → Nat
  | .smix => 12 * r + n * (14 * r + 1)
  | .prepare | .restore | .blockmixNone => 4 * r
  | .blockmixCopy | .blockmixXor => 6 * r
  | .integerify => 1
  | .salsa8 | .salsa8Nat => 2
  | .zeroize => 4 * r + 2 * r * n

/-- The accesses SMIX makes before iteration `i` of a phase (R253). -/
def smixAccessesBefore (r n : Nat) : Phase → Nat → Nat
  | .prepare, _ => 0
  | .fill, i => 4 * r + i * (6 * r)
  | .fence, _ => 4 * r + n * (6 * r)
  | .mix, i => 4 * r + n * (6 * r) + i * (6 * r + 1)
  | .restore, _ => 4 * r + n * (6 * r) + n * (6 * r + 1)
  | .zeroize, _ => 8 * r + n * (6 * r) + n * (6 * r + 1)
  | .blockmix, _ | .integerify, _ | .salsa, _ | .idle, _ => 0

/-- The accesses a command makes before iteration `i` of a phase: every command but SMIX has one block sequence (R252). -/
def accessesBefore (c : Instr) (r n : Nat) (ph : Phase) (i : Nat) : Nat := if c = .smix then smixAccessesBefore r n ph i else 0

/-- Each block sequence of SMIX adds its accesses (R253). -/
theorem smixAccessesBefore_next {r n i : Nat} {ph : Phase} {next : Phase × Nat} (hr : 1 ≤ r) (hi : ph = .fill ∨ ph = .mix → i < n)
    (h : nextBlock n ph i = some next) :
    smixAccessesBefore r n next.1 next.2 = smixAccessesBefore r n ph i + (blockSeq .smix r n ph i).countP MicroOp.isAccess := by
  cases ph with
  | prepare =>
    obtain rfl := Option.some.inj h
    rw [blockSeq, countP_prepSeq_access hr]
    simp [smixAccessesBefore]
  | fill =>
    obtain rfl := Option.some.inj h
    rw [blockSeq, countP_bmSeq_access hr, bmAccesses]
    have hlt := hi (.inl rfl)
    split
    · simp only [smixAccessesBefore]
      ring
    · obtain rfl : n = i + 1 := by omega
      simp only [smixAccessesBefore]
      ring
  | fence =>
    obtain rfl := Option.some.inj h
    simp [smixAccessesBefore, blockSeq, MicroOp.isAccess]
  | mix =>
    obtain rfl := Option.some.inj h
    rw [blockSeq, List.countP_cons_of_pos rfl, countP_bmSeq_access hr, bmAccesses]
    have hlt := hi (.inr rfl)
    split
    · simp only [smixAccessesBefore]
      ring
    · obtain rfl : n = i + 1 := by omega
      simp only [smixAccessesBefore]
      ring
  | restore =>
    obtain rfl := Option.some.inj h
    rw [blockSeq, countP_restSeq_access hr]
    simp only [smixAccessesBefore]
    ring
  | _ => cases h

/-- The last block sequence of a command brings its accesses to the whole count (R343). -/
theorem accessesBefore_last {c : Instr} {r n i : Nat} {ph : Phase} (hmem : ph ∈ phasesOf c) (hr : ph.wholeBuffers → 1 ≤ r)
    (hlast : c = .smix → nextBlock n ph i = none) :
    accessesBefore c r n ph i + (blockSeq c r n ph i).countP MicroOp.isAccess = commandAccesses r n c := by
  cases c with
  | smix =>
    have hph : ph = .zeroize := by
      have hnone := hlast rfl
      cases ph with
      | zeroize => rfl
      | prepare | fill | fence | mix | restore => cases hnone
      | _ => exact absurd hmem (by decide)
    subst hph
    rw [blockSeq, countP_zeroSeq_access, accessesBefore, if_pos rfl]
    simp only [smixAccessesBefore, commandAccesses]
    ring
  | prepare =>
    obtain rfl := List.mem_singleton.1 hmem
    exact (Nat.zero_add _).trans (countP_prepSeq_access (hr ⟨nofun, nofun⟩))
  | restore =>
    obtain rfl := List.mem_singleton.1 hmem
    exact (Nat.zero_add _).trans (countP_restSeq_access (hr ⟨nofun, nofun⟩))
  | blockmixNone | blockmixCopy | blockmixXor =>
    obtain rfl := List.mem_singleton.1 hmem
    exact (Nat.zero_add _).trans (countP_bmSeq_access (hr ⟨nofun, nofun⟩))
  | integerify | salsa8 | salsa8Nat =>
    obtain rfl := List.mem_singleton.1 hmem
    rfl
  | zeroize =>
    obtain rfl := List.mem_singleton.1 hmem
    exact (Nat.zero_add _).trans (countP_zeroSeq_access r n)

/-! ### A run without bus errors, counted -/

/-- A run of `i` accepted in `s`, at `x`: so far it has made the accesses of the block sequences and micro-operations behind it. -/
structure CountsAccesses (i : Instr) (s x : State) : Prop where
  served : x.status.busy = true → RunsServed i s x
  count : ∃ new : List Request, x.trace = new.reverse ++ s.trace ∧ accesses new =
    if x.status.busy then
      accessesBefore i x.latched.r.toNat x.latched.n.toNat x.seq.phase x.seq.i + (x.blockOps.take x.seq.q).countP MicroOp.isAccess
    else commandAccesses x.latched.r.toNat x.latched.n.toNat i

theorem countsAccesses_started {i : Instr} {s : State} (h : Runs i s) : CountsAccesses i s (s.started i) := by
  refine ⟨fun _ => runsServed_started h, [], rfl, ?_⟩
  have hzero : accessesBefore i (s.started i).latched.r.toNat (s.started i).latched.n.toNat (firstPhase i) 0 = 0 := by
    unfold accessesBefore
    split
    next hi => rw [hi]; rfl
    next => rfl
  exact hzero.symm

section
variable {i : Instr} {s x v : State}

/-- A performed micro-operation that makes an access lies behind the position after it; a round of SALSA_CORE makes none. -/
theorem countP_take_run {op : MicroOp} (hop : x.blockOps[x.seq.q]? = some op) :
    (x.blockOps.take (op.run (op.place x)).seq.q).countP MicroOp.isAccess
      = (x.blockOps.take x.seq.q).countP MicroOp.isAccess + if op.isAccess then 1 else 0 := by
  have hnext : (x.blockOps.take (x.seq.q + 1)).countP MicroOp.isAccess
      = (x.blockOps.take x.seq.q).countP MicroOp.isAccess + if op.isAccess then 1 else 0 := by
    rw [State.take_blockOps_succ hop, List.countP_append, List.countP_singleton]
  by_cases hsalsa : ∃ g, op = .salsa g
  · obtain ⟨g, rfl⟩ := hsalsa
    obtain ⟨_, _, _, _, _, _, ⟨hq, _⟩ | ⟨hq, _⟩⟩ := (MicroOp.salsa g).run_fields ((MicroOp.salsa g).place x)
    · rw [hq]
      exact hnext
    · rw [hq]
      rfl
  · rw [MicroOp.run_seq fun g hg => hsalsa ⟨g, hg⟩, op.place_seq, hnext]

/-- A micro-operation performed, its request recorded. -/
theorem CountsAccesses.run (h : CountsAccesses i s x) (hb : x.status.busy = true) {op : MicroOp} (hop : x.blockOps[x.seq.q]? = some op)
    (hv : (op.run (op.place x)).status.busy = true → RunsServed i s (op.run (op.place x))) :
    CountsAccesses i s (op.run (op.place x)) := by
  obtain ⟨new, htrace, hcount⟩ := h.count
  refine ⟨hv, new ++ (op.request x).toList, ?_, ?_⟩
  · rw [op.trace_run_place, htrace, List.reverse_append, List.append_assoc]
  · obtain ⟨hph, hi, _⟩ := op.run_fields (op.place x)
    rw [op.place_seq] at hph hi
    have hl : (op.run (op.place x)).latched = x.latched := (stepFrame_run op _).latched.trans (op.place_latched x)
    rw [if_pos hb] at hcount
    rw [if_pos ((op.busy_run_place x).trans hb), hl, hph, hi, State.blockOps_congr hl hph hi, countP_take_run hop, accesses_append, hcount,
      op.accesses_request, Nat.add_assoc]

/-- The end of a block sequence: the next one of SMIX, or the whole count (R253, R343). -/
theorem CountsAccesses.endBlock (h : CountsAccesses i s x) (hb : x.status.busy = true) (hend : x.blockOps[x.seq.q]? = none)
    (hv : (Machine.endBlock x).status.busy = true → RunsServed i s (Machine.endBlock x)) : CountsAccesses i s (Machine.endBlock x) := by
  obtain ⟨new, htrace, hcount⟩ := h.count
  have hx := h.served hb
  have hl : (Machine.endBlock x).latched = x.latched := (stepFrame_endBlock x).latched
  refine ⟨hv, new, (endBlock_trace x).trans htrace, ?_⟩
  rw [if_pos hb, List.take_of_length_le (hx.runs.atEnd hend).ge, hx.runs.blockOps_eq] at hcount
  rw [hcount, hl]
  rcases hx.endBlock_cases with ⟨rfl, next, hnext, hseq, hstatus⟩ | ⟨hlast, hdone⟩
  · rw [if_pos (hstatus ▸ hb), hseq, List.take_zero, List.countP_nil, Nat.add_zero, accessesBefore, accessesBefore, if_pos rfl, if_pos rfl]
    exact (smixAccessesBefore_next hx.runs.geometry.1.1 hx.runs.iter_lt hnext).symm
  · rw [hdone, if_neg (by rw [State.complete_status]; exact Bool.false_ne_true)]
    exact accessesBefore_last hx.runs.phase_mem hx.runs.r_pos hlast

end

/-- Without bus errors a command makes the accesses of its block sequences (R343). -/
theorem Runs.countsAccesses {i : Instr} {s t : State} (h : Runs i s) (ht : exec i s = .next t) : CountsAccesses i s t :=
  exec_induct_step h.1 ht (countsAccesses_started h) fun x v _ hb _ hP hv => by
    have hx := hP.served hb
    have hnext := hx.engineStep h hv
    rcases hx.engineStep_cases h hv with ⟨op, hop, rfl⟩ | ⟨hend, rfl⟩
    · exact hP.run hb hop hnext
    · exact hP.endBlock hb hend hnext

/-- Settles O43: the accesses counted step by step, each block sequence by its own count. -/
theorem memoryOperationCounts : Obligations.MemoryOperationCounts := by
  intro i s t h ht
  have ha := h.1
  have hl := (ha.stepFrame_exec ht).latched
  obtain ⟨new, htrace, hcount⟩ := (h.countsAccesses ht).count
  rw [if_neg (by rw [exec_idle ha ht]; exact Bool.false_ne_true)] at hcount
  refine ⟨new, htrace, ?_⟩
  cases i with
  | smix =>
    rw [ha.latched_r hl (by decide) (.head _), ha.latched_n hl (by decide) (.tail _ (.tail _ (.head _)))] at hcount
    exact hcount
  | zeroize =>
    rw [ha.latched_r hl (by decide) (.head _), ha.latched_n hl (by decide) (.tail _ (.head _))] at hcount
    exact hcount
  | integerify | salsa8 | salsa8Nat => exact hcount
  | prepare | restore | blockmixNone | blockmixCopy | blockmixXor =>
    rw [ha.latched_r hl (by decide) (.head _)] at hcount
    exact hcount

end Sys2Proof.Machine

/-! PROOFS. A whole command as one step is its acceptance step and as many engine turns as it has fuel (44_controller.md R252). -/

namespace Sys2Proof.Machine

/-- With no input waiting a step is a turn of the engine (R252, log 8). -/
theorem step_of_noInput {s : State} (h : s.inputs = []) : step s = engineTurn s := by rw [step, h]

theorem core_run_succ {k : Nat} {s v : State} (h : step s = .next v) : Host.Core.run core (k + 1) s = Host.Core.run core k v := by
  have hstep : core.step s = .next v := h
  simp only [Host.Core.run, hstep]

/-- The fuel of a run is a number of machine steps: the turns after the command has ended change nothing (R252). -/
theorem run_of_runToIdle {fuel : Nat} {s t : State} (hin : s.inputs = []) (h : runToIdle fuel s = .next t) :
    Host.Core.run core fuel s = .next t := by
  induction fuel generalizing s with
  | zero => exact h
  | succ fuel ih =>
    have hturn := step_of_noInput hin
    rw [engineTurn] at hturn
    rw [runToIdle] at h
    by_cases hb : s.status.busy = true
    · rw [if_pos hb] at h hturn
      cases hv : engineStep s with
      | next v =>
        rw [hv] at h hturn
        obtain ⟨_, _, _, _, hinputs, _⟩ := (stepFrame_engineStep hv).outside
        exact (core_run_succ hturn).trans (ih (hinputs.trans hin) h)
      | fault | refused => simp [hv] at h
    · rw [if_neg hb] at h hturn
      obtain rfl := Host.Outcome.next.inj h
      exact (core_run_succ hturn).trans (ih hin (runToIdle_idle fuel s (Bool.eq_false_iff.2 hb)))

/-- Settles O5: the run to idle after the acceptance step, step by step. -/
theorem wholeCommandIsItsMicroSteps : Obligations.WholeCommandIsItsMicroSteps := by
  intro i s s₁ t hin hidle hissue hexec
  have hrun : runToIdle (commandBudget i s₁.latched.r.toNat s₁.latched.n.toNat) s₁ = .next t := by
    simpa [exec_eq_runCommand, runCommand, hidle, hissue] using hexec
  have hinputs : s₁.inputs = [] := by
    rcases issueCommand_cases hissue with ⟨_, rfl⟩ | ⟨_, _, _, rfl⟩ | ⟨_, rfl⟩ <;> exact hin
  exact ⟨_, run_of_runToIdle hinputs hrun⟩

end Sys2Proof.Machine

/-! PROOFS. The acceptance checks of R247 spelled out, and the code of the first one that fails (44_controller.md R242 to R247, R282). -/

namespace Sys2Proof.Machine

/-! ### What each check asks -/

theorem Region.usable_iff (g : Region) : g.usable = true ↔ g.base ≠ 0 ∧ g.base + g.size ≤ 2 ^ 64 := decide_eq_true_iff

/-- Every two regions of the disjoint set are disjoint (R245). -/
theorem pairwiseDisjoint_iff (gs : List Region) :
    pairwiseDisjoint gs = true ↔ gs.Pairwise fun g h => g.base + g.size ≤ h.base ∨ h.base + h.size ≤ g.base := by
  induction gs with
  | nil => exact iff_of_true rfl .nil
  | cons g gs ih =>
    rw [pairwiseDisjoint, Bool.and_eq_true, List.all_eq_true, ih, List.pairwise_cons]
    simp only [Region.disjoint_iff]

theorem CheckSet.alignedOk_iff (k : CheckSet) : k.alignedOk = true ↔ ∀ b ∈ k.aligned, b % 64 = 0 := by
  simp only [CheckSet.alignedOk, List.all_eq_true, beq_iff_eq, Config.blockBytes]

theorem CheckSet.regionsOk_iff (k : CheckSet) :
    k.regionsOk = true ↔ (∀ g ∈ k.scratch, g.base ≠ 0 ∧ g.base + g.size ≤ 2 ^ 64)
      ∧ k.disjoint.Pairwise fun g h => g.base + g.size ≤ h.base ∨ h.base + h.size ≤ g.base := by
  simp only [CheckSet.regionsOk, Bool.and_eq_true, List.all_eq_true, Region.usable_iff, pairwiseDisjoint_iff]

/-! ### The first check that fails (R246) -/

section
variable {i : Instr} {s : State}

theorem check_of_args_fail (h : ¬ ∀ c ∈ (commandChecks i s).args, c.holds s.params = true) : check i s = some .invalidArg := by
  rw [← List.all_eq_true] at h
  rw [check, CheckSet.verdict, Bool.eq_false_iff.2 h]
  rfl

theorem check_of_args (h : ∀ c ∈ (commandChecks i s).args, c.holds s.params = true) :
    check i s = if (commandChecks i s).alignedOk = true then (if (commandChecks i s).regionsOk = true then none else some .allocFail)
      else some .misaligned := by
  rw [← List.all_eq_true] at h
  rw [check, CheckSet.verdict, h]
  cases (commandChecks i s).alignedOk <;> cases (commandChecks i s).regionsOk <;> rfl

/-- A command's checks pass exactly when each of them does. -/
theorem check_eq_none_iff :
    check i s = none ↔ (∀ c ∈ (commandChecks i s).args, c.holds s.params = true) ∧ (commandChecks i s).alignedOk = true
      ∧ (commandChecks i s).regionsOk = true := by
  by_cases hargs : ∀ c ∈ (commandChecks i s).args, c.holds s.params = true
  · rw [check_of_args hargs]
    rw [and_iff_right hargs]
    cases (commandChecks i s).alignedOk <;> cases (commandChecks i s).regionsOk <;> simp
  · rw [check_of_args_fail hargs]
    exact iff_of_false nofun fun h => hargs h.1

end

/-- Settles O15: the three kinds of checks, in the order `verdict` asks them. -/
theorem checkPriority : Obligations.CheckPriority := by
  intro i s
  refine ⟨fun ⟨c, hc, hfails⟩ => check_of_args_fail fun hall => ?_, fun hargs ⟨b, hb, hfails⟩ => ?_, fun hargs haligned hfails => ?_⟩
  · exact absurd ((hall c hc).symm.trans hfails) (by decide)
  · rw [check_of_args hargs, if_neg fun h => hfails ((CheckSet.alignedOk_iff _).1 h b hb)]
  · rw [check_of_args hargs, if_pos ((CheckSet.alignedOk_iff _).2 haligned), if_neg fun h => ?_]
    obtain ⟨husable, hdisjoint⟩ := (CheckSet.regionsOk_iff _).1 h
    rcases hfails with ⟨g, hg, hbad⟩ | hoverlap
    · obtain ⟨hzero, hstop⟩ := husable g hg
      omega
    · exact hoverlap hdisjoint

/-! ### The table of R247 -/

theorem ArgCheck.holds_a1 (p : Params) : ArgCheck.a1.holds p = true
    ↔ 1 ≤ p.elemCount.toNat ∧ 1 ≤ p.byteLen.toNat ∧ p.byteLen.toNat % (128 * p.elemCount.toNat) = 0 := decide_eq_true_iff

theorem ArgCheck.holds_a2 (p : Params) : ArgCheck.a2.holds p = true
    ↔ p.dataBase.toNat ≠ 0 ∧ p.elemIndex.toNat < p.elemCount.toNat ∧ p.dataBase.toNat + p.byteLen.toNat ≤ 2 ^ 64 := decide_eq_true_iff

theorem ArgCheck.holds_a3 (p : Params) : ArgCheck.a3.holds p = true ↔ 1 ≤ p.costN.toNat ∧ p.costN.toNat ≤ 2 ^ 32 - 1 := decide_eq_true_iff

theorem ArgCheck.holds_a4 (p : Params) : ArgCheck.a4.holds p = true ↔ p.eb * p.costN.toNat ≤ 2 ^ 64 - 1 := decide_eq_true_iff

/-- The bases a command's row wants aligned are those of its scratch regions. -/
theorem commandChecks_aligned (i : Instr) (s : State) : (commandChecks i s).aligned = (commandChecks i s).scratch.map Region.base := by
  cases i <;> rfl

/-- A row of R247 in the order of the table: its argument checks, its scratch regions aligned and usable, its disjoint set. -/
theorem check_eq_none_iff_row (i : Instr) (s : State) :
    check i s = none ↔ (∀ c ∈ (commandChecks i s).args, c.holds s.params = true)
      ∧ (∀ g ∈ (commandChecks i s).scratch, g.base % 64 = 0 ∧ g.base ≠ 0 ∧ g.base + g.size ≤ 2 ^ 64)
      ∧ (commandChecks i s).disjoint.Pairwise fun g h => g.base + g.size ≤ h.base ∨ h.base + h.size ≤ g.base := by
  simp only [check_eq_none_iff, CheckSet.alignedOk_iff, CheckSet.regionsOk_iff, commandChecks_aligned, List.forall_mem_map,
    forall₂_and, and_assoc]

/-- Settles O14: each row of R247, its lists written out. -/
theorem acceptanceTable : Obligations.AcceptanceTable := by
  intro s
  simp only [check_eq_none_iff_row, commandChecks, smixChecks, prepareChecks, restoreChecks, blockmixNoneChecks, blockmixOtherChecks,
    integerifyChecks, salsaChecks, zeroizeChecks, List.forall_mem_cons, List.pairwise_cons, List.not_mem_nil, IsEmpty.forall_iff,
    implies_true, List.Pairwise.nil, and_true, true_and, and_assoc,
    ArgCheck.holds_a1, ArgCheck.holds_a2, ArgCheck.holds_a3, ArgCheck.holds_a4,
    State.elemRegion, State.workRegion, State.shufRegion, State.tableRegion, State.otherRegion, State.otherBlockRegion, State.cwRegion,
    State.cwBlockRegion, State.cwParam, Params.elem, Params.eb, Params.r, Params.tb, Params.n]

end Sys2Proof.Machine

/-! PROOFS. ZEROIZE without bus errors (44_controller.md R258, R259). -/

namespace Sys2Proof.Machine

/-- The scratch that ZERO_SEQ clears is ZEROIZE's three scratch regions (R247, R258). -/
theorem Accepts.inScratch_iff {s : State} (ha : Accepts .zeroize s) (a : Nat) :
    inScratch (s.started .zeroize).latched.r.toNat (s.started .zeroize).latched.n.toNat (s.started .zeroize) a
      ↔ inRegions [s.workRegion, s.shufRegion, s.tableRegion] a = true := by
  rw [← inScratch_iff_inRegions, ha.latched_r rfl (by decide) (.head _), ha.latched_n rfl (by decide) (.tail _ (.head _))]
  rfl

/-- Without bus errors every zero write of ZEROIZE is served (R258). -/
theorem Runs.servedAll_zeroize {s : State} (h : Runs .zeroize s) :
    ServedAll (zeroSeq (s.started .zeroize).latched.r.toNat (s.started .zeroize).latched.n.toNat) (s.started .zeroize) := by
  have hphase : (firstPhase .zeroize).wholeBuffers := ⟨nofun, nofun⟩
  have hr := (runsCommand_started h.1).r_pos hphase
  have husable := h.usable_started hphase
  have hok := zeroSeq_ok (r := (s.started .zeroize).latched.r.toNat) (n := (s.started .zeroize).latched.n.toNat)
    (husable .work (.head _)) (husable .shuf (.tail _ (.head _))) (husable .table (.tail _ (.tail _ (.head _))))
  rw [zeroSeq_eq] at hok ⊢
  exact servedAll_append.2 ⟨servedAll_of_opOk hr (zeroBody_isPlain _ _) fun op hop => hok op (List.mem_append_left _ hop), nofun, trivial⟩

/-- ZEROIZE completes behind ZERO_SEQ with SWAP as it was, ZEROED = 1 and no error (R258, R285). -/
theorem ZeroDone.completedOk {r n : Nat} {s u : State} (h : ZeroDone r n (s.started .zeroize) u) :
    CompletedOk .zeroize s u.complete (s.started .zeroize).status.swap true 0 := by
  have hframe := h.quiet.frame.trans (stepFrame_complete u)
  have hnone : u.pendingErr = none := h.quiet.pendingErr
  have hzeroizing : u.zeroizing = true := State.zeroizing_of_started h.quiet.latched
  exact
    { status := by rw [State.complete_status, hnone, hzeroizing, h.zeroOk, h.status]; rfl
      cmd := hframe.cmd
      errInfo := (complete_noError hnone).1.trans h.quiet.errInfo
      errAddr := (complete_noError hnone).2.trans h.quiet.errAddr
      progress := by rw [State.complete_progress, h.progress]; rfl
      seq := State.complete_seq u
      wbuf := State.complete_wbuf u
      outside := hframe.outside }

/-- Settles O26: ZERO_SEQ with every write served, then completion. -/
theorem zeroizeClearsTheScratch : Obligations.ZeroizeClearsTheScratch := by
  intro s h
  have hserved := h.servedAll_zeroize
  obtain ⟨ha, _, hs⟩ := h
  have hexec := ha.exec_of_servedAll (by decide) hserved
  have hport := portOk_performAll (s := s.started .zeroize) ⟨hs.1, show BufferOk s.wbuf from hs.2 ▸ bufferOk_nil⟩ hserved
  have hdone := zeroSeq_done (s.started .zeroize).latched.r.toNat (s.started .zeroize).latched.n.toNat (s.started .zeroize)
  refine ⟨_, hexec, fun a hmem => ?_, (commandsKeepOtherMemory _ s _ hs hexec).1, exec_zeroDatapath rfl ha hexec,
    exec_j (by decide) hexec, ?_⟩
  · exact (read_complete hport a).trans (hdone.zero a ((ha.inScratch_iff a).2 hmem))
  · rw [← s.started_swap (i := .zeroize) rfl]
    exact hdone.completedOk

end Sys2Proof.Machine

/-! PROOFS. What an accepted or a rejected command leaves in STATUS and on the interrupt line (60_exceptions.md R284, R285, R290). -/

namespace Sys2Proof.Machine

/-! ### Accepted commands end (R285, R343) -/

/-- An accepted command answers a next state, whatever requests fail (R75, R76, R286). -/
theorem Accepts.exec_total {i : Instr} {s : State} (ha : Accepts i s) : ∃ t, exec i s = .next t := by
  rw [exec_eq_runCommand, runCommand_accepts ha]
  exact runToIdle_total _ fun _ => runsCommand_started ha

/-- An accepted command ends with DONE set (R285). -/
theorem exec_done {i : Instr} {s t : State} (ha : Accepts i s) (h : exec i s = .next t) : t.status.done = true :=
  exec_induct_step ha h (P := fun x => x.status.busy = false → x.status.done = true) nofun
    (fun _ _ hx hb _ _ hv => hx.done_of_ended hb hv) (exec_idle ha h)

/-- Settles O11: a running command's steps answer next states, its budget covers them, and the last one completes it. -/
theorem acceptedCommandsAlwaysEnd : Obligations.AcceptedCommandsAlwaysEnd := by
  intro i s ha
  obtain ⟨t, ht⟩ := ha.exec_total
  obtain ⟨hseq, hw, _⟩ := exec_idleOk ha ht
  exact ⟨t, ht, exec_idle ha ht, exec_done ha ht, hseq, hw⟩

/-! ### Rejections (R284) -/

/-- A command whose check fails while the engine is idle is rejected (R240). -/
theorem exec_of_check {i : Instr} {s : State} {e : ErrCode} (hidle : s.status.busy = false) (h : check i s = some e) :
    exec i s = .next ((s.beginIssue (encode i)).reject e) := by
  have hissue : issueCommand i s = .next ((s.beginIssue (encode i)).reject e) := by simp [issueCommand, hidle, h]
  rw [exec_eq_runCommand, runCommand, hidle, hissue]
  exact runToIdle_idle _ _ hidle

/-- Settles O13: a rejection writes its six registers and no other, and DONE raises the interrupt where CTRL.IE enables it. -/
theorem rejectionChangesExactlyTheListedRegisters : Obligations.RejectionChangesExactlyTheListedRegisters := by
  refine fun s hidle => ⟨fun i e h => exec_of_check hidle h, fun v e h => writeCmd_illegal hidle h, fun i e t h ht => ?_⟩
  obtain rfl := Host.Outcome.next.inj ((exec_of_check hidle h).symm.trans ht)
  exact Bool.and_true _

/-! ### The interrupt output (R290) -/

/-- A command issued while the engine is idle leaves DONE set, accepted or rejected (R284, R285). -/
theorem exec_done_of_idle {i : Instr} {s t : State} (hidle : s.status.busy = false) (h : exec i s = .next t) : t.status.done = true := by
  rcases exec_cases h with ⟨hbusy, _⟩ | ⟨_, e, rfl⟩ | ⟨ha, _⟩
  · exact absurd (hidle.symm.trans hbusy) (by decide)
  · rfl
  · exact exec_done ha h

/-- Settles O50: a command leaves CTRL and sets DONE, and writing 1 to DONE clears it. -/
theorem interruptOutput : Obligations.InterruptOutput := by
  refine ⟨fun _ => rfl, fun i s t hidle h => ?_, fun s v hv => ?_⟩
  · obtain ⟨hctrl, _⟩ := exec_sameOutside h
    rw [State.irq, hctrl, exec_done_of_idle hidle h, Bool.and_true]
  · simp [State.irq, State.writeStatus, Status.clearOnes, hv]

end Sys2Proof.Machine

/-! PROOFS. The first failing request of a command is the one ERR, ERRINFO and ERRADDR report (60_exceptions.md R282, R286, R287). -/

namespace Sys2Proof.Machine

/-! ### The first failing request -/

/-- The address of the first of the requests `new` that fails, as ERRADDR holds it. -/
def firstError (p : Platform) (new : List Request) : Option Reg64 :=
  (new.find? fun q => q.fails p).map fun q => BitVec.ofNat 64 q.addr

/-- Requests that are served leave the first failing one. -/
theorem firstError_append_served {p : Platform} (new : List Request) {more : List Request} (h : ∀ q ∈ more, q.fails p = false) :
    firstError p (new ++ more) = firstError p new := by
  have hmore : more.find? (fun q => q.fails p) = none := List.find?_eq_none.2 fun q hq => by simp [h q hq]
  rw [firstError, List.find?_append, hmore, Option.or_none]
  rfl

/-- A failing request is the first one unless another came before it. -/
theorem firstError_append_failing {p : Platform} (new : List Request) {q : Request} (h : q.fails p = true) :
    firstError p (new ++ [q]) = (firstError p new).or (some (BitVec.ofNat 64 q.addr)) := by
  rw [firstError, List.find?_append, List.find?_singleton, if_pos h, firstError]
  cases new.find? (fun q => q.fails p) <;> rfl

/-- Of the requests `new` only streaming stores fail. -/
def OnlyStreamsFail (p : Platform) (new : List Request) : Prop := ∀ q ∈ new, q.fails p = true → q.kind = .writeNonTemporal

theorem OnlyStreamsFail.append {p : Platform} {new more : List Request} (h : OnlyStreamsFail p new) (hmore : OnlyStreamsFail p more) :
    OnlyStreamsFail p (new ++ more) := fun q hq => (List.mem_append.1 hq).elim (h q) (hmore q)

/-! ### The error noted while a command runs -/

/-- The run from `y` has placed the requests `new`, has noted the first failing one, and has reported nothing yet (log 12). -/
structure Notes (y : State) (new : List Request) (x : State) : Prop where
  trace : x.trace = new.reverse ++ y.trace
  busy : x.status.busy = true
  pending : x.pendingErr = firstError y.platform new
  err : x.status.err = false
  errInfo : x.errInfo = .noError
  errAddr : x.errAddr = 0#64

/-- The run from `y` goes on with its error noted, or has ended with it reported. Of its requests, the last one apart where it has ended,
only streaming stores fail, if the command `i` does not zeroize (R286 items 1 and 7). -/
def NotesOrReports (i : Instr) (y x : State) : Prop :=
  ∃ new, (Notes y new x ∧ (zeroizes i = false → OnlyStreamsFail y.platform new))
    ∨ ∃ u, Notes y new u ∧ x = u.complete ∧ (zeroizes i = false → OnlyStreamsFail y.platform new.dropLast)

section
variable {i : Instr} {y x : State} {new : List Request}

theorem Notes.enterPhase (h : Notes y new x) (ph : Phase) : Notes y new (x.enterPhase ph) :=
  ⟨h.trace, h.busy, h.pending, h.err, h.errInfo, h.errAddr⟩

theorem Notes.nextIter (h : Notes y new x) : Notes y new x.nextIter := ⟨h.trace, h.busy, h.pending, h.err, h.errInfo, h.errAddr⟩

theorem Notes.countArrival (h : Notes y new x) : Notes y new x.countArrival := by
  obtain ⟨htrace, hbusy, hpending, herr, hinfo, haddr⟩ := h
  constructor <;> simpa

/-- A stop keeps the error noted for ZERO_SEQ, or reports it (R286 items 6 and 7). -/
theorem Notes.stopCommand (h : Notes y new x) (hstreams : zeroizes i = false → OnlyStreamsFail y.platform new.dropLast)
    (hsmix : x.isSmix = true → zeroizes i = true) (ops : List MicroOp) (lost : List BlkReg) :
    NotesOrReports i y (x.stopCommand ops lost) := by
  obtain ⟨u, hu, hstop⟩ := x.stopCommand_cases ops lost
  have hnotes : Notes y new u := by
    rcases hu with rfl | rfl
    · exact h
    · exact ⟨h.trace, h.busy, h.pending, h.err, h.errInfo, h.errAddr⟩
  rcases hstop with ⟨hs, hstop⟩ | ⟨_, hstop⟩ <;> rw [hstop]
  · exact ⟨new, .inl ⟨hnotes.enterPhase _, fun hz => absurd (hz.symm.trans (hsmix hs)) (by decide)⟩⟩
  · exact ⟨new, .inr ⟨u, hnotes, rfl, hstreams⟩⟩

theorem OnlyStreamsFail.dropLast {p : Platform} (h : OnlyStreamsFail p new) : OnlyStreamsFail p new.dropLast := fun q hq =>
  h q (List.dropLast_subset new hq)

/-- The end of a block sequence goes on with the error noted, or reports it (R252, R255). -/
theorem Notes.endBlock (h : Notes y new x) (hstreams : zeroizes i = false → OnlyStreamsFail y.platform new)
    (hsmix : x.isSmix = true → zeroizes i = true) : NotesOrReports i y (Machine.endBlock x) := by
  have hgoesOn : ∀ ph, NotesOrReports i y (x.enterPhase ph) := fun ph => ⟨new, .inl ⟨h.enterPhase ph, hstreams⟩⟩
  have hiter : NotesOrReports i y x.nextIter := ⟨new, .inl ⟨h.nextIter, hstreams⟩⟩
  have hends : NotesOrReports i y x.complete := ⟨new, .inr ⟨x, h, rfl, fun hz => (hstreams hz).dropLast⟩⟩
  unfold Machine.endBlock
  split
  · split
    · exact hgoesOn _
    · exact hends
  · split
    · exact hiter
    · exact hgoesOn _
  · split
    · exact h.stopCommand (fun hz => (hstreams hz).dropLast) hsmix _ _
    · exact hgoesOn _
  · split
    · exact hiter
    · exact hgoesOn _
  · split
    · exact hgoesOn _
    · exact hends
  all_goals exact hends

/-- A micro-operation reports no error. -/
theorem MicroOp.run_errors (op : MicroOp) (s : State) : (op.run s).errInfo = s.errInfo ∧ (op.run s).errAddr = s.errAddr := by
  cases op with
  | integ d => cases d <;> exact ⟨rfl, rfl⟩
  | salsa g => by_cases h : s.seq.t < Config.rounds <;> simp [MicroOp.run, MicroOp.effect, MicroOp.advance, opSalsa, h]
  | _ => exact ⟨rfl, rfl⟩

/-- A served micro-operation places its request, and notes no error. -/
theorem Notes.run (h : Notes y new x) (hp : x.platform = y.platform) {op : MicroOp} (hserved : Served op x) :
    Notes y (new ++ (op.request x).toList) (op.run (op.place x)) ∧ OnlyStreamsFail y.platform (op.request x).toList := by
  have hserves : ∀ q ∈ (op.request x).toList, q.fails y.platform = false := fun q hq =>
    hp ▸ (hserved q (Option.mem_toList.1 hq)).2.2
  obtain ⟨hinfo, haddr⟩ := op.run_errors (op.place x)
  obtain ⟨_, _, herr, _, _, _⟩ := op.run_fields (op.place x)
  have hquiet := quiet_place op x
  refine ⟨⟨?_, (op.busy_run_place x).trans h.busy, ?_, ?_, ?_, ?_⟩, fun q hq hf => absurd ((hserves q hq).symm.trans hf) (by decide)⟩
  · rw [op.trace_run_place, h.trace, List.reverse_append, List.append_assoc]
  · rw [herr, op.place_pendingErr, h.pending, firstError_append_served new hserves]
  · rw [op.run_status, op.place_status]
    exact h.err
  · rw [hinfo, hquiet.errInfo, h.errInfo]
  · rw [haddr, hquiet.errAddr, h.errAddr]

/-- A failing request is noted, unless one was before it (R286 item 1, R287). -/
theorem Notes.failRequest (h : Notes y new x) {q : Request} (hfails : q.fails y.platform = true) :
    Notes y (new ++ [q]) ((x.record q).failRequest q) where
  trace := by simp [h.trace]
  busy := by simpa using h.busy
  pending := by rw [State.failRequest_pendingErr, State.record_pendingErr, h.pending, firstError_append_failing new hfails]
  err := by simpa using h.err
  errInfo := by simpa using h.errInfo
  errAddr := by simpa using h.errAddr

/-- A failing request is passed by in ZERO_SEQ and by a streaming store, and stops the command elsewhere (R286, R287). -/
theorem Notes.busError (h : Notes y new x) (hstreams : zeroizes i = false → OnlyStreamsFail y.platform new)
    (hzeroize : x.seq.phase = .zeroize → zeroizes i = true) (hsmix : x.isSmix = true → zeroizes i = true) {op : MicroOp} {q : Request}
    (hfails : q.fails y.platform = true) : NotesOrReports i y (Machine.busError op q (x.record q)) := by
  have hnotes := h.failRequest hfails
  unfold Machine.busError
  split
  next hp =>
    exact ⟨_, .inl ⟨⟨hnotes.trace, hnotes.busy, hnotes.pending, hnotes.err, hnotes.errInfo, hnotes.errAddr⟩,
      fun hz => absurd (hz.symm.trans (hzeroize hp)) (by decide)⟩⟩
  · split
    next hstream =>
      exact ⟨_, .inl ⟨⟨hnotes.trace, hnotes.busy, hnotes.pending, hnotes.err, hnotes.errInfo, hnotes.errAddr⟩,
        fun hz => (hstreams hz).append fun q' hq' _ => List.mem_singleton.1 hq' ▸ hstream⟩⟩
    next =>
      refine hnotes.stopCommand (fun hz => ?_) (fun hs => hsmix ?_) _ _
      · rw [List.dropLast_concat]
        exact hstreams hz
      · rwa [State.isSmix, State.failRequest_latched] at hs

/-- An engine step notes the first failing request, or reports it as the command ends (R286). -/
theorem Notes.engineStep (h : Notes y new x) (hstreams : zeroizes i = false → OnlyStreamsFail y.platform new) (hx : RunsCommand i x)
    (hp : x.platform = y.platform) {v : State} (hv : Machine.engineStep x = .next v) : NotesOrReports i y v := by
  have hcases := engineStep_cases hv
  replace h := h.countArrival
  replace hx := hx.countArrival
  replace hp := x.countArrival_platform.trans hp
  generalize x.countArrival = z at *
  have hsmix : z.isSmix = true → zeroizes i = true := fun hs => by rw [hx.isSmix_iff.1 hs]; rfl
  have hzeroize : z.seq.phase = .zeroize → zeroizes i = true := fun hz => by
    have hmem := hx.phase_mem
    rw [hz] at hmem
    revert hmem
    cases i <;> decide
  rcases hcases with ⟨_, rfl⟩ | ⟨_, hseq⟩
  · exact h.stopCommand (fun hz => (hstreams hz).dropLast) hsmix _ _
  rcases sequencerStep_cases hseq with ⟨op, _, hperf⟩ | ⟨_, rfl⟩
  · rcases performOp_outcome hperf with ⟨hserved, rfl⟩ | ⟨q, hq, _, hfails, rfl⟩
    · obtain ⟨hnotes, hnone⟩ := h.run hp hserved
      exact ⟨_, .inl ⟨hnotes, fun hz => (hstreams hz).append hnone⟩⟩
    · rw [MicroOp.place, hq]
      exact h.busError hstreams hzeroize hsmix (hp ▸ hfails)
  · exact h.endBlock hstreams hsmix

end

/-- A command ends with its first failing request reported (R282, R286). -/
theorem exec_reports {i : Instr} {s t : State} (ha : Accepts i s) (h : exec i s = .next t) :
    ∃ new u, Notes (s.started i) new u ∧ t = u.complete ∧ (zeroizes i = false → OnlyStreamsFail s.platform new.dropLast) := by
  have hstart : NotesOrReports i (s.started i) (s.started i) := ⟨[], .inl ⟨⟨rfl, rfl, rfl, rfl, rfl, rfl⟩, fun _ => nofun⟩⟩
  have hend := exec_induct_step ha h (P := NotesOrReports i (s.started i)) hstart fun x v hx hb hframe hP hv => by
    obtain ⟨new, ⟨hnotes, hstreams⟩ | ⟨u, _, rfl, _⟩⟩ := hP
    · exact hnotes.engineStep hstreams hx hframe.platform hv
    · rw [State.complete_status] at hb
      cases hb
  obtain ⟨new, ⟨hnotes, _⟩ | ⟨u, hnotes, ht, hstreams⟩⟩ := hend
  · exact absurd (hnotes.busy.symm.trans (exec_idle ha h)) (by decide)
  · exact ⟨new, u, hnotes, ht, hstreams⟩

/-- Settles O32: the first failing request is noted when it is placed, and completion reports what is noted. -/
theorem firstFailingRequestIsReported : Obligations.FirstFailingRequestIsReported := by
  intro i s t ha h
  obtain ⟨new, u, hnotes, rfl, hstreams⟩ := exec_reports ha h
  have hpending : u.pendingErr = firstError s.platform new := hnotes.pending
  have herr : u.complete.status.err = (firstError s.platform new).isSome := by
    rw [State.complete_status, ← hpending]
    simp [Status.completed, hnotes.err]
  have hinfo : u.complete.errInfo = if (firstError s.platform new).isSome then .busError else .noError := by
    rw [State.complete_errInfo, hpending, hnotes.errInfo]
  have haddr : u.complete.errAddr = (firstError s.platform new).getD 0#64 := by
    rw [State.complete_errAddr, hpending, hnotes.errAddr]
  refine ⟨new, u.complete_trace.trans hnotes.trace, ?_, fun q hq => ?_, fun hnone => ?_, fun hsmix hzeroize => hstreams ?_⟩
  · rw [herr, firstError, Option.isSome_map, List.find?_isSome]
  · rw [hinfo, haddr, firstError, hq]
    exact ⟨rfl, rfl⟩
  · rw [herr, Option.isSome_eq_false_iff, Option.isNone_iff_eq_none] at hnone
    rw [hinfo, haddr, hnone]
    exact ⟨rfl, rfl⟩
  · revert hsmix hzeroize
    cases i <;> decide

end Sys2Proof.Machine

/-! PROOFS. After RESTORE and SMIX each element block holds its input or its output, whatever failed (60_exceptions.md R286). -/

namespace Sys2Proof.Machine

/-! ### The blocks of the element -/

/-- REST_SEQ writes every block of the element (R197). -/
theorem stu_mem_restSeq {r b : Nat} (hb : b < 2 * r) : ∃ src, MicroOp.stu .undiag src .elem (64 * b) ∈ restSeq r := by
  by_cases hlast : b = 2 * r - 1
  · exact ⟨.held, List.mem_append_right _ (hlast ▸ .head _)⟩
  · exact ⟨.cur, List.mem_append_left _ (List.mem_append_right _
      (List.mem_flatMap.2 ⟨b, List.mem_range.2 (by omega), .tail _ (.head _)⟩))⟩

theorem Memory.getElem?_blocks (m : Memory) (a : Nat) {b k : Nat} (hb : b < k) : (m.blocks a k)[b]? = some (m.readBlock (a + 64 * b)) := by
  simp [Memory.blocks, hb]

/-- The bytes of an element block are the element's (R242). -/
theorem elemRegion_has_of_inBlock {s : State} {b a : Nat} (hb : b < 2 * s.params.r) (h : inBlock (s.params.elem + 64 * b) a) :
    s.elemRegion.has a = true := by
  refine (Region.has_iff_inBlocks (g := s.elemRegion) s.params.eb_eq_blocks a).2 ?_
  simp only [inBlock, Config.blockBytes] at h
  show inBlocks s.params.elem _ a
  unfold inBlocks
  omega

/-- The write of the element block at `a` (R197). -/
def elemWrite (a : Nat) : Request := ⟨.writeUnaligned, a⟩

/-- From memory `m`, with the requests `new`: the block at `a` is as in `m` or as in the reference memory `ref`, and as in `ref` once its
write is issued. -/
def OldOrRef (m ref : Memory) (new : List Request) (t : Memory) (a : Nat) : Prop :=
  (t.readBlock a = m.readBlock a ∨ t.readBlock a = ref.readBlock a) ∧ (elemWrite a ∈ new → t.readBlock a = ref.readBlock a)

section
variable {y t u : State}

/-- A command that has performed its whole block sequence has recorded every write of it. -/
theorem EndsWith.recorded {done : List MicroOp} {ws : List PendingWrite} (h : EndsWith y t done [] ws) {new : List Request}
    (hnew : t.trace = new.reverse ++ y.trace) {q : Request} (hq : q ∈ storeReqs y y.blockOps) : q ∈ new := by
  obtain ⟨new', hnew', hwrites⟩ := h.issued.trace
  obtain rfl : new' = new := List.reverse_injective (List.append_cancel_right (hnew'.symm.trans hnew))
  rw [h.ops, List.append_nil, ← hwrites] at hq
  exact (List.mem_filter.1 hq).1

/-- REST_SEQ, ended, has each element block old or as its reference run leaves it (R286). -/
theorem Ended.oldOrRef (h : Ended y t) (hu : Ended y.withoutErrors u) (hops : y.blockOps = restSeq y.latched.r.toNat)
    (hapart : WritesApart y y.blockOps) :
    ∃ new, t.trace = new.reverse ++ y.trace ∧ ∀ b < 2 * y.latched.r.toNat,
      (elemWrite (y.latched.elem.toNat + 64 * b)).fails y.platform = false →
        OldOrRef y.mem u.mem new t.mem (y.latched.elem.toNat + 64 * b) := by
  obtain ⟨_, _, _, hend⟩ := h
  obtain ⟨_, _, _, hend'⟩ := hu
  obtain rfl := hend'.whole rfl
  obtain ⟨new, ref, hnew, href, hold, hissued, _⟩ := hend.oldOrReference hapart hend'
  refine ⟨new, hnew, fun b hb hfails => ⟨?_, fun hq => ?_⟩⟩
  · obtain ⟨src, hmem⟩ := stu_mem_restSeq hb
    have hwrite : elemWrite (y.latched.elem.toNat + 64 * b) ∈ storeReqs y.withoutErrors y.withoutErrors.blockOps :=
      mem_storeReqs.2 ⟨_, hops ▸ hmem, rfl⟩
    exact (hold _ (hend'.recorded href hwrite) rfl hfails).imp Memory.readBlock_congr Memory.readBlock_congr
  · exact Memory.readBlock_congr (hissued _ hq rfl hfails)

end

/-! ### RESTORE -/

section
variable {s t : State}

/-- The reference run of an accepted command meets no error. -/
theorem Accepts.runs_withoutErrors {i : Instr} (ha : Accepts i s) (hs : Settled s) : Runs i s.withoutErrors :=
  ⟨ha.withoutErrors, fun q _ => by simp [Request.fails, State.withoutErrors], hs⟩

/-- What RESTORE leaves of the element, beside its reference run. -/
theorem restore_oldOrRef (ha : Accepts .restore s) (hs : Settled s) (ht : exec .restore s = .next t) :
    ∃ u new, exec .restore s.withoutErrors = .next u ∧ t.trace = new.reverse ++ s.trace ∧ ∀ b < 2 * s.params.r,
      (elemWrite (s.params.elem + 64 * b)).fails s.platform = false → OldOrRef s.mem u.mem new t.mem (s.params.elem + 64 * b) := by
  obtain ⟨u, hu⟩ := ha.withoutErrors.exec_total
  have hend' := exec_ended (by decide) (by decide) ha.withoutErrors hs hu
  rw [started_withoutErrors] at hend'
  have hend := exec_ended (by decide) (by decide) ha hs ht
  obtain ⟨new, hnew, hblocks⟩ := hend.oldOrRef hend' rfl (ha.startsApart (by decide) (by decide))
  rw [ha.latched_r rfl (by decide) (.head _), ha.latched_elem rfl (by decide) (.head _) (.tail _ (.head _))] at hblocks
  exact ⟨u, new, hu, hnew, hblocks⟩

end

/-! ### RESTORE within SMIX -/

/-- REST_SEQ loads from CW and stores to the element (R197). -/
theorem restSeq_op {r : Nat} {op : MicroOp} (h : op ∈ restSeq r) :
    (∃ dst o, op = .lda .keep dst .cw o) ∨ ∃ src o, op = .stu .undiag src .elem o := by
  simp only [restSeq, restIter, List.mem_append, List.mem_flatMap, List.mem_cons, List.not_mem_nil, or_false] at h
  rcases h with (rfl | ⟨_, _, rfl | rfl⟩) | rfl
  · exact .inl ⟨_, _, rfl⟩
  · exact .inl ⟨_, _, rfl⟩
  · exact .inr ⟨_, _, rfl⟩
  · exact .inr ⟨_, _, rfl⟩

section
variable {x y v : State} {done rest : List MicroOp}

/-- In its RESTORE phase SMIX, stopped, goes on with ZERO_SEQ, later writes performed or not (R286 items 4 to 6). -/
theorem State.stopCommand_of_smixRestore (hsmix : x.isSmix = true) (hp : x.seq.phase = .restore) (ops : List MicroOp) (lost : List BlkReg) :
    x.stopCommand ops lost = (x.laterWrites ops lost).enterPhase .zeroize := by
  simp [State.stopCommand, State.beforeRestore, hsmix, hp]

/-- Completion forgets the position. -/
theorem State.complete_enterPhase (x : State) (ph : Phase) : (x.enterPhase ph).complete = x.complete := by
  unfold State.complete State.reportError
  cases h : x.pendingErr <;> simp [State.enterPhase, State.zeroizing, h] <;> rfl

/-- With the later writes performed or not, the writes issued are the reference run's (R286). -/
theorem ended_laterWrites (hport : PortOk x) {lost : List BlkReg} (hsame : Matches y done x lost) (hissued : Issued y done x.trace x.wbuf)
    (hops : y.blockOps = done ++ rest) (hwb : y.wbuf = []) (hapart : WritesApart y y.blockOps) (hbase : x.baseAddr = y.baseAddr)
    (hfailed : ∃ q : Request, q.fails y.platform = true) : Ended y (x.laterWrites rest lost).complete := by
  obtain ⟨_, ws, hws, _⟩ := x.laterWrites_issues rest lost
  refine ended_complete (portOk_laterWrites hport rest lost) hsame.mem hops ?_ ?_ fun _ => hfailed
  · rw [hws]
    exact hissued.more ws
  · rw [hops] at hapart ⊢
    exact Matches.laterOps (acc := (x, lost)) hsame hwb (fun _ => hbase) hapart

/-- A failing request stops SMIX in its RESTORE phase. -/
theorem Lockstep.busError_smixRestore (h : Lockstep y x) (hsmix : x.isSmix = true) (hp : x.seq.phase = .restore) (hops : x.blockOps = y.blockOps)
    (hwb : y.wbuf = []) (hapart : WritesApart y y.blockOps) {op : MicroOp} (hop : x.blockOps[x.seq.q]? = some op) {q : Request}
    (hreq : op.request x = some q) (hin : q.inSpace = true) (hfails : q.fails x.platform = true) (hkind : q.kind ≠ .writeNonTemporal) :
    (Machine.busError op q (op.place x)).seq.phase = .zeroize ∧ Ended y (Machine.busError op q (op.place x)).complete := by
  have hop' := hops ▸ hop
  obtain ⟨hsame, hissued⟩ := h.failRequest hop' hreq hfails
  have hplace : op.place x = x.record q := by rw [MicroOp.place, hreq]
  have hport : PortOk ((op.place x).failRequest q) := portOk_failRequest (hplace ▸ h.port.of_eq rfl rfl) hin
  have hbase : ((op.place x).failRequest q).baseAddr = y.baseAddr := by
    rw [State.baseAddr_failRequest, op.baseAddr_place, h.base_at hop']
  have hrest : (op.place x).blockOps.drop ((op.place x).seq.q + 1) = y.blockOps.drop (x.seq.q + 1) := by
    rw [hplace, ← hops]
    rfl
  have hstop : Machine.busError op q (op.place x)
      = (((op.place x).failRequest q).laterWrites (y.blockOps.drop (x.seq.q + 1)) op.loadDst).enterPhase .zeroize := by
    rw [busError_of_stops (by rw [op.place_seq, hp]; decide) hkind, errorStop, hrest, State.stopCommand_of_smixRestore]
    · rw [State.isSmix, State.failRequest_latched, op.place_latched]
      exact hsmix
    · rw [State.failRequest_seq, op.place_seq, hp]
  rw [hstop, State.complete_enterPhase]
  refine ⟨rfl, ended_laterWrites hport hsame hissued ?_ hwb hapart hbase ⟨q, h.same.platform ▸ hfails⟩⟩
  rw [List.append_assoc, List.singleton_append]
  exact State.blockOps_split hop'

/-- A step of SMIX in RESTORE keeps in step with REST_SEQ's reference run, or goes on with ZERO_SEQ, which would complete as REST_SEQ
ends (R253, R286). -/
theorem Lockstep.engineStep_smixRestore (h : Lockstep y x) (hx : RunsCommand .smix x) (hp : x.seq.phase = .restore)
    (hops : x.blockOps = y.blockOps) (hwb : y.wbuf = []) (hapart : WritesApart y y.blockOps) (hv : Machine.engineStep x = .next v) :
    (Lockstep y v ∧ v.seq.phase = .restore) ∨ (v.seq.phase = .zeroize ∧ Ended y v.complete) := by
  have hnone : x.pendingErr = none := by simpa using hx.noError (.inr (.inr hp))
  have hsmix : x.isSmix = true := hx.isSmix_iff.2 rfl
  rcases Running.engineStep_cases ⟨h.busy, hnone⟩ hv with ⟨op, hop, _, rfl⟩ | ⟨op, q, hop, hreq, hin, hfails, rfl⟩ | ⟨hend, rfl⟩
  · obtain ⟨hphase, _⟩ := op.run_fields (op.place x)
    refine .inl ⟨h.run (hops ▸ hop) hwb hapart (fun g hg => ?_) (portOk_engineStep h.port hv), by rw [hphase, op.place_seq, hp]⟩
    have hmem := hx.op_mem hop
    rw [hp] at hmem
    rcases restSeq_op hmem with ⟨_, _, rfl⟩ | ⟨_, _, rfl⟩ <;> cases hg
  · refine .inr (h.busError_smixRestore hsmix hp hops hwb hapart hop hreq hin hfails ?_)
    have hmem := hx.op_mem hop
    rw [hp] at hmem
    rcases restSeq_op hmem with ⟨_, _, rfl⟩ | ⟨_, _, rfl⟩ <;> cases hreq <;> exact nofun
  · have hzeroize : Machine.endBlock x = x.enterPhase .zeroize := by simp [Machine.endBlock, hp, hsmix]
    have hall : y.blockOps.take x.seq.q = y.blockOps := by
      rw [← hops]
      exact List.take_of_length_le (List.getElem?_eq_none_iff.1 hend)
    obtain ⟨_, hport, hsame, hissued, _⟩ := h
    rw [hall] at hsame hissued
    rw [hzeroize, State.complete_enterPhase]
    exact .inr ⟨rfl, ended_complete (rest := []) hport hsame.mem (List.append_nil _).symm hissued hsame.writes fun hne => absurd rfl hne⟩

end

/-! ### Steps that leave the element -/

/-- From `w` to `x` no byte of the element changes and none of its writes is issued. -/
structure LeavesElement (s w x : State) : Prop where
  port : PortOk x
  reads : ∀ a, s.elemRegion.has a = true → x.readByte a = w.readByte a
  issues : ∃ new : List Request, x.trace = new.reverse ++ w.trace ∧ ∀ q ∈ new, q.kind.isWrite = true → s.elemRegion.has q.addr = false

section
variable {s w x v t : State}

theorem LeavesElement.refl (h : PortOk w) : LeavesElement s w w := ⟨h, fun _ _ => rfl, [], rfl, nofun⟩

/-- Outside RESTORE, SMIX issues no write to the element (R247, R253). -/
theorem RunsCommand.write_outsideElement (h : RunsCommand .smix x) (ha : Accepts .smix s) (hl : x.latched = (s.started .smix).latched)
    (hne : x.seq.phase ≠ .restore) {op : MicroOp} (hop : x.blockOps[x.seq.q]? = some op) {q : Request} (hq : op.request x = some q)
    (hwrite : q.kind.isWrite = true) : s.elemRegion.has q.addr = false := by
  have hstore : q ∈ op.storeReq x := Option.filter_eq_some_iff.2 ⟨hq, hwrite⟩
  obtain ⟨b, o, hat, haddr⟩ := MicroOp.storeReq_addr hstore
  have hmem := h.op_mem hop
  have hfits := offsetOk_span (MicroOp.storeAt_ok hat (blockSeq_ok h.geometry.1.1 (fun hf => h.iter_lt (.inl hf)) op hmem))
  have hdisjoint := (Region.disjoint_iff _ _).1 (ha.elemRegion_disjoint hl h.phase_mem hne b (blockSeq_storeAt hmem hat))
  simp only [State.baseRegion] at hdisjoint
  refine decide_eq_false fun hin => ?_
  rw [haddr] at hin
  simp only [Region.stop] at hin
  omega

/-- A step of SMIX outside RESTORE leaves the element. -/
theorem LeavesElement.engineStep (h : LeavesElement s w x) (ha : Accepts .smix s) (hx : RunsCommand .smix x)
    (hl : x.latched = (s.started .smix).latched) (hne : x.seq.phase ≠ .restore) (hv : Machine.engineStep x = .next v) :
    LeavesElement s w v := by
  obtain ⟨hport, hreads, new, hnew, houtside⟩ := h
  refine ⟨portOk_engineStep hport hv, fun a hin => (hx.engineStep_keepsElement ha hl hport hne hv hin).trans (hreads a hin), ?_⟩
  rcases engineStep_trace hv with hsame | ⟨op, q, hop, hq, hcons⟩
  · exact ⟨new, hsame.trans hnew, houtside⟩
  · refine ⟨new ++ [q], by rw [hcons, hnew]; simp, fun q' hq' => ?_⟩
    rcases List.mem_append.1 hq' with hq' | hq'
    · exact houtside q' hq'
    · obtain rfl := List.mem_singleton.1 hq'
      exact hx.write_outsideElement ha hl hne hop hq

/-- What a busy state has and every engine step keeps, the end of its run has. -/
theorem RunsCommand.induct_step {i : Instr} {k : Nat} (hx : RunsCommand i x) (hb : x.status.busy = true) (h : runToIdle k x = .next t)
    {P : State → Prop} (hstart : P x)
    (hstep : ∀ u v, RunsCommand i u → u.status.busy = true → StepFrame x u → P u → Machine.engineStep u = .next v → P v) : P t := by
  obtain ⟨_, _, ht⟩ := runToIdle_induct (P := fun u => RunsOrIdle i u ∧ StepFrame x u ∧ P u) (fun u v => by
    rintro ⟨⟨_, hu⟩ | ⟨hidle, _⟩, hframe, hP⟩ hb hv
    · exact ⟨hu.engineStep hb hv, hframe.trans (stepFrame_engineStep hv), hstep u v hu hb hframe hP hv⟩
    · exact absurd (hb.symm.trans hidle) (by decide)) _ _ _ ⟨.inl ⟨hb, hx⟩, StepFrame.refl _, hstart⟩ h
  exact ht

end

/-- After ZERO_SEQ comes the end (R253). -/
theorem CommandMove.phase_zeroize {c : Instr} {x v : State} (hmove : CommandMove c x v) (hx : x.seq.phase = .zeroize)
    (hb : v.status.busy = true) : v.seq.phase = .zeroize := by
  cases hmove with
  | @served op tr d =>
    obtain ⟨hphase, _⟩ := op.run_fields { x with trace := tr, draws := d }
    exact hphase.trans hx
  | passed => exact hx
  | moved tr d e w hsmix hnext =>
    rcases hnext with ⟨_, hnext⟩ | ⟨_, rfl⟩
    · rw [hx] at hnext
      cases hnext
    · rfl
  | finished => rw [State.complete_status] at hb; cases hb
  | stopped => rw [State.complete_status] at hb; cases hb

/-! ### From the start of RESTORE to the end of SMIX -/

/-- SMIX at the start of its RESTORE phase. -/
structure AtRestore (s w : State) : Prop where
  runs : RunsCommand .smix w
  busy : w.status.busy = true
  latched : w.latched = (s.started .smix).latched
  port : PortOk w
  phase : w.seq.phase = .restore
  start : w.seq.q = 0 ∧ w.seq.t = 0

/-- From `y`, the start of RESTORE, SMIX has come to `x`, its REST_SEQ ended and the element left since. -/
def RestoredAs (s y x : State) : Prop := ∃ v, PortOk v ∧ Ended y v.complete ∧ LeavesElement s v x

/-- REST_SEQ's writes are apart where the element does not meet CW (R197). -/
theorem restSeq_writesApart {u : State} (hr : 1 ≤ u.latched.r.toNat) (h : (u.baseRegion .elem).disjoint (u.baseRegion .cw) = true) :
    WritesApart u (restSeq u.latched.r.toNat) := by
  refine writesApart_of_buffers (sh := fun _ => True) (restSeq_ok hr trivial trivial)
    (List.pairwise_of_forall_mem_list fun op hop _ _ => restSeq_isPlain _ op hop)
    (fun op hop => ⟨fun hf => fence_not_mem_restSeq (hf ▸ hop), (restSeq_isPlain _ op hop).1⟩)
    (fun op hop b o hat op' hop' b' o' hat' => ?_) (restSeq_stores _ _)
  obtain rfl := List.mem_singleton.1 (blockSeq_storeAt (c := .restore) (n := 0) (i := 0) (ph := .restore) hop hat)
  rw [restSeq_loadAt hop' hat']
  exact h

section
variable {s w t : State}

theorem AtRestore.blockOps (h : AtRestore s w) : w.blockOps = restSeq w.latched.r.toNat := by
  rw [h.runs.blockOps_eq, h.phase]
  rfl

/-- SMIX's element does not meet CW, the working or the shuffle buffer (R33, R247). -/
theorem AtRestore.writesApart (h : AtRestore s w) (ha : Accepts .smix s) : WritesApart w w.blockOps := by
  have hscratch := ha.elemRegion_disjoint h.latched (ph := .zeroize) (by decide) (by decide)
  have hcw : s.elemRegion.disjoint (w.baseRegion .cw) = true := by
    rcases w.cw_cs_cases with ⟨hcw, _⟩ | ⟨hcw, _⟩
    · rw [show w.baseRegion .cw = w.baseRegion .work by simp only [State.baseRegion, hcw, Base.span]]
      exact hscratch _ (.head _)
    · rw [show w.baseRegion .cw = w.baseRegion .shuf by simp only [State.baseRegion, hcw, Base.span]]
      exact hscratch _ (.tail _ (.head _))
  rw [h.blockOps]
  refine restSeq_writesApart h.runs.geometry.1.1 ?_
  rwa [ha.elemRegion_eq h.latched (by decide) (.head _) (.tail _ (.head _))]

theorem AtRestore.lockstep (h : AtRestore s w) (hw : w.wbuf = []) : Lockstep w w := by
  obtain ⟨hq, ht⟩ := h.start
  have hnone := h.runs.noError (.inr (.inr h.phase))
  refine ⟨h.busy, h.port, ?_, ?_, fun _ => rfl, absurd ht, fun he => absurd he hnone⟩
  · refine ⟨rfl, rfl, fun _ _ => by rw [hq]; rfl, ?_⟩
    rw [hw]
    nofun
  · rw [hq]
    exact ⟨⟨[], rfl, rfl⟩, nofun⟩

theorem AtRestore.drainAll (h : AtRestore s w) : AtRestore s w.drainAll :=
  ⟨h.runs.of_eq rfl rfl rfl rfl rfl rfl rfl rfl fun _ => rfl, h.busy, h.latched,
    ⟨w.wf_drainAll h.port.mem h.port.wbuf, bufferOk_nil⟩, h.phase, h.start⟩

theorem AtRestore.withoutErrors (h : AtRestore s w) : AtRestore s w.withoutErrors :=
  ⟨h.runs.of_eq rfl rfl rfl rfl rfl rfl rfl rfl id, h.busy, h.latched, h.port.of_eq rfl rfl, h.phase, h.start⟩

/-- With nothing pending at the start of RESTORE, SMIX ends with REST_SEQ ended and the element left since. -/
theorem AtRestore.restoredAs_of_wbuf_nil (h : AtRestore s w) (ha : Accepts .smix s) (hw : w.wbuf = []) {k : Nat}
    (ht : runToIdle k w = .next t) (hidle : t.status.busy = false) : RestoredAs s w t := by
  have hend := h.runs.induct_step h.busy ht
    (P := fun x => (Lockstep w x ∧ x.seq.phase = .restore) ∨ ((x.status.busy = true → x.seq.phase = .zeroize) ∧ RestoredAs s w x))
    (.inl ⟨h.lockstep hw, h.phase⟩) fun x v hx hb hframe hP hv => by
      rcases hP with ⟨hlock, hp⟩ | ⟨hp, z, hport, hended, hleaves⟩
      · have hops : x.blockOps = w.blockOps := by
          rw [hx.blockOps_eq, hp, h.blockOps, hframe.latched]
          rfl
        have hport := portOk_engineStep hlock.port hv
        exact (hlock.engineStep_smixRestore hx hp hops hw (h.writesApart ha) hv).imp_right fun ⟨hz, hended⟩ =>
          ⟨fun _ => hz, v, hport, hended, .refl hport⟩
      · have hp := hp hb
        exact .inr ⟨(hx.commandMove hv).phase_zeroize hp, z, hport, hended,
          hleaves.engineStep ha hx (hframe.latched.trans h.latched) (by rw [hp]; decide) hv⟩
  rcases hend with ⟨hlock, _⟩ | ⟨_, hrestored⟩
  · exact absurd (hlock.busy.symm.trans hidle) (by decide)
  · exact hrestored

/-- The engine cannot tell the state from the one with every write performed (R85). -/
theorem alike_drainAll (h : PortOk w) : Alike SameReads w w.drainAll :=
  .mk w.view.drain ⟨rfl, rfl, h.mem, h.wbuf, w.wf_drainAll h.mem h.wbuf, bufferOk_nil, View.readByte_drain (v := w.view) h.mem h.wbuf⟩

/-- From the start of RESTORE, SMIX ends as from there with every write performed. -/
theorem AtRestore.restoredAs (h : AtRestore s w) (ha : Accepts .smix s) {k : Nat} (ht : runToIdle k w = .next t)
    (hidle : t.status.busy = false) : RestoredAs s w.drainAll t := by
  obtain ⟨_, ht', ⟨view, hview⟩⟩ := (alike_drainAll h.port).runToIdle indistinct_sameReads k (fun _ => h.runs) ht
  obtain ⟨v, hport, hended, _, hreads, hissues⟩ := h.drainAll.restoredAs_of_wbuf_nil ha rfl ht' hidle
  refine ⟨v, hport, hended, ⟨hview.mem, hview.wbuf⟩, fun a hin => (hview.reads a).symm.trans (hreads a hin), ?_⟩
  rwa [← show view.trace = t.trace from hview.trace]

/-- The element's blocks since REST_SEQ ended. -/
theorem LeavesElement.readBlock_complete {v : State} (h : LeavesElement s v t) (hport : PortOk v) (ht : t.wbuf = []) {b : Nat}
    (hb : b < 2 * s.params.r) :
    t.mem.readBlock (s.params.elem + 64 * b) = v.complete.mem.readBlock (s.params.elem + 64 * b) :=
  Memory.readBlock_congr fun a ha => by
    rw [read_complete hport, ← h.reads a (elemRegion_has_of_inBlock hb ha), State.readByte_of_wbuf_nil ht]

/-- The write of an element block is a write to the element. -/
theorem elemRegion_has_elemWrite {b : Nat} (hb : b < 2 * s.params.r) :
    s.elemRegion.has (elemWrite (s.params.elem + 64 * b)).addr = true :=
  elemRegion_has_of_inBlock hb ⟨Nat.le_refl _, Nat.lt_add_of_pos_right (by decide)⟩

theorem elemWrite_not_mem {new : List Request} {b : Nat}
    (h : ∀ q ∈ new, q.kind.isWrite = true → s.elemRegion.has q.addr = false) (hb : b < 2 * s.params.r) :
    elemWrite (s.params.elem + 64 * b) ∉ new := fun hq =>
  absurd ((elemRegion_has_elemWrite hb).symm.trans (h _ hq rfl)) (by decide)

/-- What SMIX leaves of the element from the start of RESTORE on, beside its reference run. -/
theorem RestoredAs.oldOrRef {y u : State} (h : RestoredAs s y t) (hu : RestoredAs s y.withoutErrors u) (hy : AtRestore s y)
    (ha : Accepts .smix s) (ht : t.wbuf = []) (hw : u.wbuf = []) :
    ∃ new, t.trace = new.reverse ++ y.trace ∧ ∀ b < 2 * s.params.r,
      (elemWrite (s.params.elem + 64 * b)).fails y.platform = false → OldOrRef y.mem u.mem new t.mem (s.params.elem + 64 * b) := by
  obtain ⟨v, hport, hended, hleaves⟩ := h
  obtain ⟨z, hport', hended', hleaves'⟩ := hu
  obtain ⟨new, hnew, hblocks⟩ := hended.oldOrRef hended' hy.blockOps (hy.writesApart ha)
  rw [ha.latched_r hy.latched (by decide) (.head _), ha.latched_elem hy.latched (by decide) (.head _) (.tail _ (.head _))] at hblocks
  obtain ⟨more, hmore, houtside⟩ := hleaves.issues
  rw [State.complete_trace] at hnew
  refine ⟨new ++ more, by rw [hmore, hnew]; simp, fun b hb hfails => ?_⟩
  obtain ⟨hold, hissued⟩ := hblocks b hb hfails
  rw [OldOrRef, hleaves.readBlock_complete hport ht hb, hleaves'.readBlock_complete hport' hw hb]
  exact ⟨hold, fun hq => hissued ((List.mem_append.1 hq).resolve_right (elemWrite_not_mem houtside hb))⟩

end

/-! ### From acceptance to the start of RESTORE -/

/-- SMIX on its way to RESTORE: no error met, the element left, the reference run going on to `u`. -/
structure TowardsRestore (s u x : State) : Prop where
  runs : RunsCommand .smix x
  frame : StepFrame (s.started .smix) x
  leaves : LeavesElement s (s.started .smix) x
  follows : FollowsReference (s.started .smix) u x
  notZeroize : x.seq.phase ≠ .zeroize
  start : x.seq.phase = .restore → x.seq.q = 0 ∧ x.seq.t = 0

section
variable {s u x v t : State}

theorem TowardsRestore.atRestore (h : TowardsRestore s u x) (hp : x.seq.phase = .restore) : AtRestore s x :=
  ⟨h.runs, h.follows.running.busy, h.frame.latched, h.leaves.port, hp, h.start hp⟩

/-- A step before RESTORE goes on towards it, or meets an error. -/
theorem TowardsRestore.engineStep (h : TowardsRestore s u x) (ha : Accepts .smix s) (hu : u.status.busy = false)
    (hne : x.seq.phase ≠ .restore) (hv : Machine.engineStep x = .next v) : TowardsRestore s u v ∨ ∃ e, Reports e v := by
  obtain ⟨hx, hframe, hleaves, hfollows, hzeroize, _⟩ := h
  have hrunning := hfollows.running
  have runs : v.status.busy = true → RunsCommand .smix v := fun hb => by
    rcases hx.engineStep hrunning.busy hv with ⟨_, hrun⟩ | ⟨hidle, _⟩
    · exact hrun
    · exact absurd (hb.symm.trans hidle) (by decide)
  have hleaves' := hleaves.engineStep ha hx hframe.latched hne hv
  have hframe' := hframe.trans (stepFrame_engineStep hv)
  rcases hrunning.engineStep_cases hv with ⟨op, hop, hserved, rfl⟩ | ⟨op, q, _, _, _, _, rfl⟩ | ⟨hend, rfl⟩
  · obtain ⟨hphase, _⟩ := op.run_fields (op.place x)
    rw [op.place_seq] at hphase
    have hfollows' := hfollows.served_op hu hframe.platform hop hserved
    exact .inl ⟨runs hfollows'.running.busy, hframe', hleaves', hfollows', hphase ▸ hzeroize, fun hp => absurd (hphase ▸ hp) hne⟩
  · have hbusy : (op.place x).status.busy = true := op.place_status x ▸ hrunning.busy
    exact .inr ⟨_, reports_busError hbusy (by rw [State.failRequest_pendingErr, op.place_pendingErr, hrunning.noError]; rfl) op⟩
  · obtain ⟨next, hblock, hnext, _⟩ := hx.nextBlock_some hne hzeroize
    obtain ⟨hseq, hstatus, _⟩ := endBlock_of_smix hx hrunning.noError hblock
    have hbusy : (endBlock x).status.busy = true := hstatus ▸ hrunning.busy
    refine .inl ⟨runs hbusy, hframe', hleaves', hfollows.end_block hu hend hbusy, ?_, fun _ => ?_⟩ <;> rw [hseq]
    · exact hnext
    · exact ⟨rfl, rfl⟩

/-- An error on its way leads past RESTORE (R286 items 4 and 6). -/
theorem Reports.leavesElement {e : Reg64} (he : Reports e x) (ha : Accepts .smix s) (hx : RunsCommand .smix x) (hb : x.status.busy = true)
    (hl : x.latched = (s.started .smix).latched) (hleaves : LeavesElement s (s.started .smix) x) {k : Nat} (ht : runToIdle k x = .next t) :
    LeavesElement s (s.started .smix) t := by
  refine (hx.induct_step hb ht (P := fun z => LeavesElement s (s.started .smix) z ∧ Reports e z) ⟨hleaves, he⟩
    fun z v hz hbz hframe hP hv => ⟨hP.1.engineStep ha hz (hframe.latched.trans hl) (fun hp => ?_) hv,
      reports_engineStep hbz (hP.2.running hbz) hv⟩).1
  exact hz.noError (.inr (.inr hp)) (hP.2.running hbz ▸ rfl)

/-- SMIX leaves the element to its end, or comes to RESTORE as its reference run does. -/
theorem TowardsRestore.run (h : TowardsRestore s u x) (ha : Accepts .smix s) (hu : u.status.busy = false) (ht : t.status.busy = false)
    {k : Nat} (hrun : runToIdle k x = .next t) :
    LeavesElement s (s.started .smix) t ∨ ∃ w k, TowardsRestore s u w ∧ w.seq.phase = .restore ∧ runToIdle k w = .next t := by
  induction k generalizing x with
  | zero => exact absurd (h.follows.running.busy.symm.trans (Host.Outcome.next.inj hrun ▸ ht)) (by decide)
  | succ k ih =>
    by_cases hp : x.seq.phase = .restore
    · exact .inr ⟨x, k + 1, h, hp, hrun⟩
    obtain ⟨_, v, hk, hv, hrun'⟩ := engineStep_of_runToIdle hrun h.follows.running.busy ht
    obtain rfl := Nat.succ.inj hk
    rcases h.engineStep ha hu hp hv with hnext | ⟨e, he⟩
    · exact ih hnext hrun'
    · refine .inl ?_
      have hleaves := h.leaves.engineStep ha h.runs h.frame.latched hp hv
      have hframe := h.frame.trans (stepFrame_engineStep hv)
      rcases h.runs.engineStep h.follows.running.busy hv with ⟨hb, hrunv⟩ | ⟨hidle, _⟩
      · exact he.leavesElement ha hrunv hb hframe.latched hleaves hrun'
      · rw [runToIdle_idle _ _ hidle] at hrun'
        exact Host.Outcome.next.inj hrun' ▸ hleaves

theorem towardsRestore_started (ha : Accepts .smix s) (hs : Settled s) (hu : exec .smix s.withoutErrors = .next u) :
    TowardsRestore s u (s.started .smix) := by
  rw [exec_eq_runCommand, runCommand_accepts ha.withoutErrors] at hu
  exact ⟨runsCommand_started ha, .refl _, .refl ⟨hs.1, hs.2 ▸ bufferOk_nil⟩,
    ⟨running_started .smix s, ⟨_, hu⟩, [], rfl, nofun⟩, nofun, nofun⟩

/-- While the element is left, its blocks are as they were. -/
theorem LeavesElement.readBlock_drainAll (h : LeavesElement s (s.started .smix) x) (hs : Settled s) {b : Nat} (hb : b < 2 * s.params.r) :
    x.drainAll.mem.readBlock (s.params.elem + 64 * b) = s.mem.readBlock (s.params.elem + 64 * b) :=
  Memory.readBlock_congr fun a ha => by
    rw [x.read_drainAll h.port.mem h.port.wbuf, h.reads a (elemRegion_has_of_inBlock hb ha)]
    exact State.readByte_of_wbuf_nil (s := s.started .smix) hs.2 a

/-- What SMIX leaves of the element, beside its reference run. -/
theorem smix_oldOrRef (ha : Accepts .smix s) (hs : Settled s) (ht : exec .smix s = .next t) :
    ∃ u new, exec .smix s.withoutErrors = .next u ∧ t.trace = new.reverse ++ s.trace ∧ ∀ b < 2 * s.params.r,
      (elemWrite (s.params.elem + 64 * b)).fails s.platform = false → OldOrRef s.mem u.mem new t.mem (s.params.elem + 64 * b) := by
  obtain ⟨u, hu⟩ := ha.withoutErrors.exec_total
  have hidle := exec_idle ha ht
  have hidle' := exec_idle ha.withoutErrors hu
  obtain ⟨_, hw, _⟩ := exec_idleOk ha ht
  obtain ⟨_, hw', _⟩ := exec_idleOk ha.withoutErrors hu
  have hrun := ht
  rw [exec_eq_runCommand, runCommand_accepts ha] at hrun
  rcases (towardsRestore_started ha hs hu).run ha hidle' hidle hrun with hleaves | ⟨w, k, htowards, hp, hrun⟩
  · obtain ⟨new, hnew, houtside⟩ := hleaves.issues
    refine ⟨u, new, hu, hnew, fun b hb _ => ⟨.inl ?_, fun hq => absurd hq (elemWrite_not_mem houtside hb)⟩⟩
    rw [← hleaves.readBlock_drainAll hs hb, State.drainAll_mem, hw]
    rfl
  · have hat := htowards.atRestore hp
    obtain ⟨_, hrun'⟩ := htowards.follows.reference
    have href : RestoredAs s w.drainAll.withoutErrors u := hat.withoutErrors.restoredAs ha hrun' hidle'
    obtain ⟨new, hnew, hblocks⟩ := (hat.restoredAs ha hrun hidle).oldOrRef href hat.drainAll ha hw hw'
    obtain ⟨before, hbefore, houtside⟩ := htowards.leaves.issues
    refine ⟨u, before ++ new, hu, ?_, fun b hb hfails => ?_⟩
    · rw [hnew, State.drainAll_trace, hbefore, List.reverse_append, List.append_assoc]
      rfl
    · obtain ⟨hold, hissued⟩ := hblocks b hb (htowards.frame.platform ▸ hfails)
      rw [htowards.leaves.readBlock_drainAll hs hb] at hold
      exact ⟨hold, fun hq => hissued ((List.mem_append.1 hq).resolve_left (elemWrite_not_mem houtside hb))⟩

end

/-! ### Input or output -/

/-- Where the reference memory holds the output blocks, old or reference is input or output. -/
theorem OldOrRef.inputOrOutput {m ref t : Memory} {new : List Request} {e b k : Nat} {out : List Block}
    (h : OldOrRef m ref new t (e + 64 * b)) (hb : b < k) (hout : ref.blocks e k = out) :
    (t.readBlock (e + 64 * b) = m.readBlock (e + 64 * b) ∨ some (t.readBlock (e + 64 * b)) = out[b]?)
      ∧ (elemWrite (e + 64 * b) ∈ new → some (t.readBlock (e + 64 * b)) = out[b]?) := by
  obtain ⟨hold, hissued⟩ := h
  rw [← hout, Memory.getElem?_blocks _ _ hb]
  exact ⟨hold.imp_right (congrArg some), fun hq => congrArg some (hissued hq)⟩

/-- Settles O34: each run writes the element in REST_SEQ alone, whose writes are the reference run's, whole or absent, and whole once
issued; the reference run's end holds the output. -/
theorem restoreErrorLeavesInputOrOutput : Obligations.RestoreErrorLeavesInputOrOutput := by
  rintro i s t (rfl | rfl) ha hs ht
  · obtain ⟨u, new, hu, hnew, hblocks⟩ := restore_oldOrRef ha hs ht
    obtain ⟨u', hu', hout, _⟩ := restoreWritesTheElement s.withoutErrors (ha.runs_withoutErrors hs)
    obtain rfl : u' = u := Host.Outcome.next.inj (hu'.symm.trans hu)
    exact ⟨new, hnew, fun b hb hfails => (hblocks b hb hfails).inputOrOutput hb hout⟩
  · obtain ⟨u, new, hu, hnew, hblocks⟩ := smix_oldOrRef ha hs ht
    obtain ⟨u', hu', hout, _⟩ := smixComputesScryptSMix s.withoutErrors (ha.runs_withoutErrors hs)
    obtain rfl : u' = u := Host.Outcome.next.inj (hu'.symm.trans hu)
    exact ⟨new, hnew, fun b hb hfails => (hblocks b hb hfails).inputOrOutput hb hout⟩

end Sys2Proof.Machine

/-! PROOFS. A reset in the middle of a command draws new bytes inside the command's write set only (70_reset_and_hazards.md R320, R321). -/

namespace Sys2Proof.Machine

/-- A byte outside a region is none of those a reset draws for it (R321). -/
theorem read_freeRegion {acc : Memory × Nat} {g : Region} (h : acc.1.wf) (hg : g.stop ≤ Config.addressLimit) {a : Nat}
    (ha : g.has a = false) : (freeRegion acc g).1.read a = acc.1.read a :=
  (Memory.read_writeBytes g.size acc.1 h g.base _ hg a).trans (if_neg (of_decide_eq_false ha))

/-- The regions drawn one after another leave every byte outside them (R321). -/
theorem read_foldl_freeRegion {gs : List Region} {acc : Memory × Nat} (h : acc.1.wf) (hgs : ∀ g ∈ gs, g.stop ≤ Config.addressLimit)
    {a : Nat} (ha : inRegions gs a = false) : (gs.foldl freeRegion acc).1.read a = acc.1.read a := by
  induction gs generalizing acc with
  | nil => rfl
  | cons g gs ih =>
    obtain ⟨hout, hrest⟩ := Bool.or_eq_false_iff.1 (List.any_cons.symm.trans ha)
    obtain ⟨hg, hstops⟩ := List.forall_mem_cons.1 hgs
    exact (ih (portOk_freeRegion acc g h hg) hstops hrest).trans (read_freeRegion h hg hout)

/-- A reset in the middle of a command leaves every byte outside the write set (R321). -/
theorem Invariant.read_memoryAfterReset {s : State} (h : Invariant s) (hb : s.status.busy = true) {a : Nat}
    (ha : inRegions s.latched.writes a = false) : s.memoryAfterReset.1.read a = s.mem.read a := by
  obtain ⟨c, hc⟩ := h.running hb
  rw [State.memoryAfterReset, if_pos hb]
  exact read_foldl_freeRegion h.portOk.mem hc.writes ha

/-- Settles O7: `resetEngine` sets the registers and empties the write buffer, and the bytes it draws lie in the write set. -/
theorem resetWhileBusyKeepsOtherBytes : Obligations.ResetWhileBusyKeepsOtherBytes := by
  intro s rest h hin hb
  exact ⟨_, step_reset hin, rfl, rfl, rfl, rfl, fun a ha => (h.popInput rest).read_memoryAfterReset hb ha⟩

end Sys2Proof.Machine
